-- ==== Sys2Proof/Word.lean ====
section
/-!
DEFINITION. The words of the CY4 and their plainest arithmetic (spec/00 R2 to R5, spec/04 R93).
-/
namespace Sys2Proof

/-- One byte. -/
abbrev Byte := BitVec 8
/-- A 32-bit register. -/
abbrev Word := BitVec 32
/-- An even-odd register pair, or a 64-bit register. -/
abbrev DWord := BitVec 64
/-- One bit for each lane of a warp; a warp of W lanes uses bits W-1 to 0 (spec/04 R81). -/
abbrev Lanes := BitVec 128

/-- The pair whose even register is `lo` and whose odd register is `hi` (spec/04 R93). -/
def pair (lo hi : Word) : DWord := hi ++ lo

/-- The even register of a pair. -/
def lo32 (d : DWord) : Word := d.extractLsb' 0 32

/-- The odd register of a pair. -/
def hi32 (d : DWord) : Word := d.extractLsb' 32 32

end Sys2Proof
end

