-- ==== Sys2Proof/Config.lean ====
section
/-!
DEFINITION. The free values: results that the reference leaves open after an instruction or event that the machine
completes. Each is an opaque constant, so that nothing can be proved of its value.
-/
namespace Sys2Proof

/-- Operations whose F32 result the reference only bounds (spec/07 R174). -/
inductive Approx | rcp | rsq | exp2 | log2 | sin | cos
  deriving DecidableEq, Repr

/-- Free: the F32 bits that this part returns for an approximated function, the source bits and FTZ
(spec/07 R174: "Each result depends only on the source bits, the type and FTZ"). -/
opaque Config.approx : Approx → Word → Bool → Word

/-- Free: values that the reference leaves unstated in a result it lets the machine write, numbered by the counter
`State.free` (log entry 3): for example INFO0 and INFO1 of trap records whose cause detail no entry states. -/
opaque Config.unstated : Nat → DWord

/-- Free: the share of a die's monument cache that the control processor gives an interface (spec/13 R292), which the
reference does not state. Arguments: interface and die. -/
opaque Config.monumentShare : Nat → Nat → Nat

/-- Free: the word that the translation of a CY3 word without counterpart holds above its LEN and MAJ fields (spec/03 R74:
"a word that raises ILLEGAL_INSTRUCTION when it issues"). -/
opaque Config.cy3Word : DWord → BitVec 54

end Sys2Proof
end

