-- ==== Sys2Proof/Syntax.lean ====
section
/-!
DEFINITION. The instructions and events of the CY4: one constructor of `Instr` for every row of spec/opcode_table.json.
An instruction carries the fields of its word (spec/03 R55, R61 to R66), with operand specifiers already turned into
`Src`. An event of the part has no encoding and no field: what identifies it (a core, a slot, a queue, ...) and what an
outside party brings (an address, bytes, a register value) are its operands `EvArgs`, which the turn of the tape
that raises the event carries.
-/
namespace Sys2Proof

/-- Operand specifiers (spec/03 R58), without the reserved patterns. -/
inductive Src
  | v (n : BitVec 8)       -- vector register of the lane
  | vl (n : BitVec 8)      -- of the left neighbour lane
  | vr (n : BitVec 8)      -- of the right neighbour lane
  | s (n : BitVec 7)       -- scalar register
  | latch (p : Fin 3)      -- operand latch slot
  | idx (i : BitVec 3)     -- vector register through index register x_i
  | k (c : BitVec 4)       -- architected constant
  | g (n : BitVec 4)       -- group-shared scalar register
  deriving DecidableEq, Repr

/-- Type codes (spec/03 R63). -/
inductive Ty
  | b32 | b64 | b16 | b8 | i32 | i64 | i16 | i8
  | n32 | n64 | n16 | n8 | f32 | f64 | f16 | bf16
  | e4m3 | e5m2 | se7 | se4 | se2 | se7f | se4f | se2f
  | i4 | n4 | i2 | n2 | bin1
  deriving DecidableEq, Repr

/-- Rounding modes (spec/03 R62). -/
inductive Rnd | ne | rz | rp | rm
  deriving DecidableEq, Repr

/-- Edge modes of neighbour sources (spec/02 R34, spec/04 R80). -/
inductive Edge | zero | clamp | wrap
  deriving DecidableEq, Repr

/-- Scopes (spec/00 R7, spec/03 R65). -/
inductive Scope | device | warp | group | core | die | fabric | system
  deriving DecidableEq, Repr

/-- Memory orderings (spec/00 R8). -/
inductive Ord | rlx | acq | rel | acqrel
  deriving DecidableEq, Repr

/-- Access sizes of memory instructions in bytes per lane (spec/03 R64). -/
inductive Size | b1 | b2 | b4 | b8 | b16
  deriving DecidableEq, Repr

/-- The HOLD field: nothing, or a capture of OPA, OPB or the result into a latch slot (spec/03 R56). -/
inductive Hold | none | a (p : Fin 3) | b (p : Fin 3) | d (p : Fin 3)
  deriving DecidableEq, Repr

/-- The modifier word (spec/03 R62). -/
structure Mod where
  rnd : Rnd := .ne
  ftz : Bool := false
  sat : Bool := false
  edge : Edge := .zero
  ty2 : Ty := .b32
  aux : BitVec 21 := 0
  deriving DecidableEq, Repr

/-- Extension of a scalar, control or vector instruction (spec/03 R61). -/
inductive Ext
  | none
  | imm (w : Word)
  | mod (m : Mod)
  | imm64 (d : DWord)
  | immMod (w : Word) (m : Mod)
  deriving DecidableEq, Repr

/-- Fields of a scalar, control or vector instruction but MAJ and TY (spec/03 R55, R61). An unused specifier is `v 0`. -/
structure COp where
  hold : Hold := .none
  fe : BitVec 3 := 0
  dst : Src := .v 0
  a : Src := .v 0
  b : Src := .v 0
  c : Src := .v 0
  ext : Ext := .none
  deriving DecidableEq, Repr

/-- Extension of a memory instruction (spec/03 R64). -/
inductive MExt
  | none
  | short (sc : Scope) (off : BitVec 24)
  | long (sc : Scope) (abs : Bool) (off : BitVec 57)
  deriving DecidableEq, Repr

/-- Fields of a memory instruction but MAJ (spec/03 R64). -/
structure MOp where
  size : Size := .b4
  ord : Ord := .rlx
  sub : BitVec 2 := 0
  fe : BitVec 3 := 0
  dst : Src := .v 0
  a : Src := .v 0
  b : Src := .v 0
  c : Src := .v 0
  ext : MExt := .none
  deriving DecidableEq, Repr

/-- The engine frame (spec/03 R66). -/
structure Frame where
  scope : Scope := .device
  pbv : Bool := false
  pb : BitVec 18 := 0
  tid : BitVec 8 := 0
  tileA : BitVec 6 := 0
  tileB : BitVec 6 := 0
  acc : BitVec 5 := 0
  aux : BitVec 17 := 0
  deriving DecidableEq, Repr

/-- Fields of an engine command but MAJ; `frame` is none in the 64-bit form (spec/03 R66). -/
structure EOp where
  fn : BitVec 7 := 0
  fe : BitVec 3 := 0
  dst : Src := .v 0
  a : Src := .v 0
  b : Src := .v 0
  c : Src := .v 0
  frame : Option Frame := none
  deriving DecidableEq, Repr

/-- Trap codes (spec/04 R112). -/
inductive TrapCode
  | illegalInstruction | reservedField | fetchBoundary | emptyRegister | staleLatch | indexBounds | illegalConvergence
  | formatCombination | roleViolation | scratchBounds | poisonUse | misaligned | pageFault | protection | tileUndefined
  | surveyFault | breakpoint | softwareTrap | eccUncorrectable | contextNotRestorable | killed
  deriving DecidableEq, Repr

/-- Roles of a warp (spec/04 R92). -/
inductive Role | general | copy | matrix | epilogue
  deriving DecidableEq, Repr

/-- The operands of an event. Each event's meaning says which of them it reads. -/
structure EvArgs where
  core : Nat := 0
  slot : Nat := 0
  id : Nat := 0
  die : Nat := 0
  vi : Nat := 0
  q : Nat := 0
  launch : Nat := 0
  wg : Nat := 0
  call : Nat := 0
  chunk : Nat := 0
  src : Nat := 0
  ctr : Nat := 0
  tag : Nat := 0
  nth : Nat := 0
  maj : Nat := 0
  addr : Nat := 0
  len : Nat := 0
  ver : Nat := 0
  secVer : Nat := 0
  meas : Nat := 0
  ok : Bool := false
  flag : Bool := false
  val : DWord := 0
  val2 : DWord := 0
  data : List Byte := []
  nums : List Nat := []
  saves : List Nat := []
  deriving DecidableEq, Repr

/-- The table's operations and events. Comments name the group of rows. -/
inductive Instr
  -- scalar arithmetic, logic, compares (spec/05 R120 to R122)
  | smov (t : Ty) (o : COp)
  | sadd (t : Ty) (o : COp)
  | ssub (t : Ty) (o : COp)
  | smul (t : Ty) (o : COp)
  | smulh (t : Ty) (o : COp)
  | smin (t : Ty) (o : COp)
  | smax (t : Ty) (o : COp)
  | sand (t : Ty) (o : COp)
  | sor (t : Ty) (o : COp)
  | sxor (t : Ty) (o : COp)
  | snot (t : Ty) (o : COp)
  | sshl (t : Ty) (o : COp)
  | sshr (t : Ty) (o : COp)
  | ssra (t : Ty) (o : COp)
  | spopc (t : Ty) (o : COp)
  | sclz (t : Ty) (o : COp)
  | sbfe (t : Ty) (o : COp)
  | sbfi (t : Ty) (o : COp)
  | scmpeq (t : Ty) (o : COp)
  | scmpne (t : Ty) (o : COp)
  | scmplt (t : Ty) (o : COp)
  | scmple (t : Ty) (o : COp)
  | ssel (t : Ty) (o : COp)
  -- special registers and the execution mask (R123 to R125)
  | sgetr (o : COp)
  | ssetr (o : COp)
  | setx (o : COp)
  | getx (o : COp)
  | xand (o : COp)
  | xandn (o : COp)
  | xrestore (o : COp)
  | xrestoreMasked (o : COp)
  -- branches (R126 to R129)
  | bra (o : COp)
  | brcT (o : COp)
  | brcF (o : COp)
  | brxz (o : COp)
  | brxnz (o : COp)
  | call (o : COp)
  | ret (o : COp)
  | jmpi (o : COp)
  | jmpiIndex (o : COp)
  | jmpiImm (o : COp)
  | loop (o : COp)
  -- code changes, stopping, ending (R131 to R139)
  | icinv (o : COp)
  | icsync (o : COp)
  | sleep (o : COp)
  | nop (o : COp)
  | nopW96 (o : COp)
  | nopW128 (o : COp)
  | exit (o : COp)
  | halt (o : COp)
  | trap (o : EOp)
  | trapT (o : EOp)
  | trapF (o : EOp)
  | bkpt (o : EOp)
  -- vector arithmetic (spec/07 R164 to R166)
  | vmov (t : Ty) (o : COp)
  | vadd (t : Ty) (o : COp)
  | vsub (t : Ty) (o : COp)
  | vmul (t : Ty) (o : COp)
  | vmulh (t : Ty) (o : COp)
  | vmulw (t : Ty) (o : COp)
  | vfma (t : Ty) (o : COp)
  | vmin (t : Ty) (o : COp)
  | vmax (t : Ty) (o : COp)
  | vclamp (t : Ty) (o : COp)
  | vabs (t : Ty) (o : COp)
  | vneg (t : Ty) (o : COp)
  | vcsgn (t : Ty) (o : COp)
  | vaddc (t : Ty) (o : COp)
  | vsubb (t : Ty) (o : COp)
  | vdot2 (t : Ty) (o : COp)
  | vdot4 (t : Ty) (o : COp)
  -- vector logic, bits (R167, R168)
  | vand (t : Ty) (o : COp)
  | vor (t : Ty) (o : COp)
  | vxor (t : Ty) (o : COp)
  | vnot (t : Ty) (o : COp)
  | vshl (t : Ty) (o : COp)
  | vshr (t : Ty) (o : COp)
  | vsra (t : Ty) (o : COp)
  | vpopc (t : Ty) (o : COp)
  | vclz (t : Ty) (o : COp)
  | vbrev (t : Ty) (o : COp)
  | vbfe (t : Ty) (o : COp)
  | vbfi (t : Ty) (o : COp)
  | vpermb (t : Ty) (o : COp)
  -- vector compares and select (R169, R170)
  | vcmpeq (t : Ty) (o : COp)
  | vcmpne (t : Ty) (o : COp)
  | vcmplt (t : Ty) (o : COp)
  | vcmple (t : Ty) (o : COp)
  | vcmpu (t : Ty) (o : COp)
  | vsel (t : Ty) (o : COp)
  -- conversions, roots, transcendentals (R171 to R175)
  | vcvt (t : Ty) (o : COp)
  | vsepack (t : Ty) (o : COp)
  | vseunpk (t : Ty) (o : COp)
  | vfract (t : Ty) (o : COp)
  | vldexp (t : Ty) (o : COp)
  | vrint (t : Ty) (o : COp)
  | vsqrt (t : Ty) (o : COp)
  | vrcp (t : Ty) (o : COp)
  | vrsq (t : Ty) (o : COp)
  | vexp2 (t : Ty) (o : COp)
  | vlog2 (t : Ty) (o : COp)
  | vsin (t : Ty) (o : COp)
  | vcos (t : Ty) (o : COp)
  -- lanes, votes, index registers, poison (R176 to R182)
  | vshflIdx (t : Ty) (o : COp)
  | vshflXor (t : Ty) (o : COp)
  | vshflUp (t : Ty) (o : COp)
  | vshflDn (t : Ty) (o : COp)
  | vvoteAny (o : COp)
  | vvoteAll (o : COp)
  | vvoteBallot (o : COp)
  | vlaneId (o : COp)
  | vlanePfx (o : COp)
  | vbcast (t : Ty) (o : COp)
  | vxset (o : COp)
  | vxadd (o : COp)
  | vptest (o : COp)
  -- memory (spec/09 R207 to R214)
  | ld (o : MOp)
  | st (o : MOp)
  | ldg (o : MOp)
  | stg (o : MOp)
  | lds (o : MOp)
  | sts (o : MOp)
  | ldl (o : MOp)
  | stl (o : MOp)
  | ldc (o : MOp)
  | ldnc (o : MOp)
  | aadd (o : MOp)
  | amin (o : MOp)
  | amax (o : MOp)
  | aand (o : MOp)
  | aor (o : MOp)
  | axor (o : MOp)
  | axch (o : MOp)
  | acas (o : MOp)
  | afadd (o : MOp)
  | fenceAcq (o : MOp)
  | fenceRel (o : MOp)
  | fenceAcqrel (o : MOp)
  | prefetch (o : MOp)
  -- matrix (spec/11 R245 to R257)
  | mmat (o : EOp)
  | mmar (o : EOp)
  | mvb (o : EOp)
  | mvbTile (o : EOp)
  | accz (o : EOp)
  | accld (o : EOp)
  | accst (o : EOp)
  | accrd (o : EOp)
  | tidset (o : EOp)
  | tidget (o : EOp)
  | chkcfg (o : EOp)
  -- copy engine, tiles, phase barriers (spec/12 R264 to R278)
  | cpin (o : EOp)
  | cpout (o : EOp)
  | tldef (o : EOp)
  | tlwait (o : EOp)
  | tlfree (o : EOp)
  | tlstate (o : EOp)
  | pbinit (o : EOp)
  | pbarr (o : EOp)
  | pbexp (o : EOp)
  | pbwait (o : EOp)
  -- barriers, watches, waits (spec/13 R293 to R302)
  | bar (o : EOp)
  | bararr (o : EOp)
  | barwait (o : EOp)
  | watch (o : EOp)
  | unwatch (o : EOp)
  | unwatchAll (o : EOp)
  | waitw (o : EOp)
  | waitc (o : EOp)
  | yield (o : EOp)
  -- tasks (spec/15 R332 to R338)
  | tspawn (o : EOp)
  | tspawnr (o : EOp)
  | trng (o : EOp)
  | tsplitq (o : EOp)
  | tsplitqPin (o : EOp)
  | tsplitqUnpin (o : EOp)
  | tdone (o : EOp)
  | tabort (o : EOp)
  | tfrontq (o : EOp)
  | tsync (o : EOp)
  | tisspec (o : EOp)
  | tctx (o : EOp)
  -- survey (spec/17 R349 to R354)
  | svgrp (o : EOp)
  | svgrpClr (o : EOp)
  | svld (o : EOp)
  | svinfo (o : EOp)
  -- collectives and stakes (spec/19 R370 to R381, spec/21 R400)
  | collAllreduce (o : EOp)
  | collReducescatter (o : EOp)
  | collAllgather (o : EOp)
  | collBroadcast (o : EOp)
  | collA2av (o : EOp)
  | collq (o : EOp)
  | stake (o : EOp)
  | stakeq (o : EOp)
  -- system (spec/22 R419 to R424)
  | cntrd (o : EOp)
  | clkrd (o : EOp)
  | clkrdTag (o : EOp)
  | hintq (o : EOp)
  | dbgmark (o : EOp)
  -- a word that the decoder rejects, with its bits (spec/03 R69)
  | undefinedEncoding (bits : BitVec 128)
  -- events of a core (spec/03 R77, spec/04 R105, R109, spec/05 R130 to R136)
  | icacheFill
  | fairnessCountExpire
  | longLatencyWriteback
  | branchPenaltyEnd
  | sleepExpire
  | icinvComplete
  | trapRecordWrite
  | warpSlotRelease
  | workgroupRetire
  -- events of the memory system (spec/09 R194 to R201)
  | l1Eviction
  | boundaryWriteDrain
  | releaseComplete
  | pageWalkComplete
  | invalidationComplete
  -- events of the matrix and copy engines (spec/11, spec/12)
  | mmatComplete
  | accumulatorMoveComplete
  | accstComplete
  | mvbComplete
  | checkComplete
  | tidsetComplete
  | copyComplete
  | copyFault
  -- events of the rotation engine (spec/13)
  | workgroupPlace
  | parkStart
  | saveComplete
  | restoreComplete
  | quantumExpire
  | plumbRecognise
  -- events of the task engine and of launches (spec/15, spec/21 R397)
  | taskDispatch
  | taskCommit
  | launchComplete
  -- events of the collective engine and the fabric (spec/19)
  | collAccept
  | chunkCounterRaise
  | collComplete
  | collFault
  | readRequest
  | readResponse
  | write
  | atomic
  | collectiveData
  | collectiveControl
  | acknowledgement
  | flitResend
  | peerTimeout
  | domainKeyLoad
  -- packets and queues (spec/21 R389 to R404)
  | launch
  | launchb
  | wait
  | waitSatisfied
  | signal
  | marker
  | timestamp
  | copyh
  | copyhComplete
  | nopPacket
  | qwptrWrite
  | queueEnable
  | queueDisable
  | queueReset
  | coreSetGrant
  | queueQuantumExpire
  | graceExpire
  | rampWindowExpire
  -- interfaces, firmware, start (spec/21 R406 to R412)
  | lockInterfaceRequest
  | startInterfaceRequest
  | stopInterfaceRequest
  | getDeviceInterfaceReport
  | firmwareStage
  | firmwareActivate
  | cancel
  | firmwareSwitch
  | summary
  | coldStart
  | warmStart
  | partReady
  -- register apertures (spec/22 R413 to R418)
  | invalidate
  | trbaseWrite
  | trtailWrite
  | trflagClear
  | cntclr
  | eccstatClear
  | domlostClear
  | scrubError
  | boostInterval
  | boostRefill
  | boostStepDown
  -- debug aperture, remaining rows (spec/22 R425, spec/00 R11, spec/03 R69, spec/13 R298)
  | resume
  | kill
  | replay
  | debugWindowWrite
  | registerWrite
  | hostWrite
  | matchTimeout
  deriving DecidableEq, Repr

end Sys2Proof
end

