-- ==== Sys2Proof/Decode.lean ====
section
/-!
DEFINITION. Decoding and encoding of instruction words (spec/03 R51 to R70).
`Raw` is a word split into its fields; `formatCheck` is the order of format traps of R70 over a raw word;
`build` turns a raw word into the instruction it stands for and `Instr.raw?` is the encoder.
-/
namespace Sys2Proof

/-! ## Fields -/

/-- An instruction word split as spec/03 R55 lays it out; `ext` holds bits [127:64], zero where the word is shorter. -/
structure Raw where
  len : BitVec 2
  maj : BitVec 8
  hold : BitVec 4
  fe : BitVec 3
  dst : BitVec 10
  a : BitVec 10
  b : BitVec 10
  c : BitVec 10
  fn : BitVec 7
  ext : BitVec 64
  deriving DecidableEq, Repr

/-- The word of the fields (R55). -/
def Raw.bits (r : Raw) : BitVec 128 :=
  r.ext ++ r.fn ++ r.c ++ r.b ++ r.a ++ r.dst ++ r.fe ++ r.hold ++ r.maj ++ r.len

/-- The fields of a word (R55). -/
def Raw.ofBits (w : BitVec 128) : Raw where
  len := w.extractLsb' 0 2
  maj := w.extractLsb' 2 8
  hold := w.extractLsb' 10 4
  fe := w.extractLsb' 14 3
  dst := w.extractLsb' 17 10
  a := w.extractLsb' 27 10
  b := w.extractLsb' 37 10
  c := w.extractLsb' 47 10
  fn := w.extractLsb' 57 7
  ext := w.extractLsb' 64 64

/-- Length in bytes of a word whose LEN field is `len` (R51). -/
def lenBytes (len : BitVec 2) : Nat :=
  match len.toNat with
  | 0 => 8
  | 1 => 12
  | 2 => 16
  | _ => 4

/-- Keeps the bits of a word that an instruction of `n` bytes has; the bits above are not part of it. -/
def maskLen (n : Nat) (w : BitVec 128) : BitVec 128 :=
  if n ≥ 16 then w else w &&& BitVec.ofNat 128 (2 ^ (8 * n) - 1)

/-! ## Operand specifiers, types, small codes (R58, R62, R63, R65) -/

/-- The 10-bit specifier of an operand (R58). -/
def Src.code : Src → BitVec 10
  | .v n => 0#2 ++ n
  | .vl n => 1#2 ++ n
  | .vr n => 2#2 ++ n
  | .s n => 6#3 ++ n
  | .latch p => 0x70#7 ++ BitVec.ofNat 3 p.val
  | .idx i => 0x71#7 ++ i
  | .k c => 0x39#6 ++ c
  | .g n => 0x3A#6 ++ n

/-- The operand of a specifier; none for the reserved patterns (R58). -/
def Src.ofCode (x : BitVec 10) : Option Src :=
  let n := x.toNat
  if n < 256 then some (.v (x.extractLsb' 0 8))
  else if n < 512 then some (.vl (x.extractLsb' 0 8))
  else if n < 768 then some (.vr (x.extractLsb' 0 8))
  else if n < 896 then some (.s (x.extractLsb' 0 7))
  else if n = 896 then some (.latch 0)
  else if n = 897 then some (.latch 1)
  else if n = 898 then some (.latch 2)
  else if n < 904 then none
  else if n < 912 then some (.idx (x.extractLsb' 0 3))
  else if n < 928 then some (.k (x.extractLsb' 0 4))
  else if n < 944 then some (.g (x.extractLsb' 0 4))
  else none

/-- The 5-bit type code (R63). -/
def Ty.code : Ty → BitVec 5
  | .b32 => 0x00 | .b64 => 0x01 | .b16 => 0x02 | .b8 => 0x03
  | .i32 => 0x04 | .i64 => 0x05 | .i16 => 0x06 | .i8 => 0x07
  | .n32 => 0x08 | .n64 => 0x09 | .n16 => 0x0A | .n8 => 0x0B
  | .f32 => 0x0C | .f64 => 0x0D | .f16 => 0x0E | .bf16 => 0x0F
  | .e4m3 => 0x10 | .e5m2 => 0x11 | .se7 => 0x12 | .se4 => 0x13
  | .se2 => 0x14 | .se7f => 0x15 | .se4f => 0x16 | .se2f => 0x17
  | .i4 => 0x18 | .n4 => 0x19 | .i2 => 0x1A | .n2 => 0x1B | .bin1 => 0x1C

/-- The type of a code; none for 0x1D to 0x1F (R63). -/
def Ty.ofCode (x : BitVec 5) : Option Ty :=
  match x.toNat with
  | 0 => some .b32 | 1 => some .b64 | 2 => some .b16 | 3 => some .b8
  | 4 => some .i32 | 5 => some .i64 | 6 => some .i16 | 7 => some .i8
  | 8 => some .n32 | 9 => some .n64 | 10 => some .n16 | 11 => some .n8
  | 12 => some .f32 | 13 => some .f64 | 14 => some .f16 | 15 => some .bf16
  | 16 => some .e4m3 | 17 => some .e5m2 | 18 => some .se7 | 19 => some .se4
  | 20 => some .se2 | 21 => some .se7f | 22 => some .se4f | 23 => some .se2f
  | 24 => some .i4 | 25 => some .n4 | 26 => some .i2 | 27 => some .n2
  | 28 => some .bin1 | _ => none

def Rnd.code : Rnd → BitVec 2
  | .ne => 0 | .rz => 1 | .rp => 2 | .rm => 3

def Rnd.ofCode (x : BitVec 2) : Rnd :=
  match x.toNat with
  | 0 => .ne | 1 => .rz | 2 => .rp | _ => .rm

def Edge.code : Edge → BitVec 2
  | .zero => 0 | .clamp => 1 | .wrap => 2

/-- EDGE = 0b11 is reserved (R62). -/
def Edge.ofCode (x : BitVec 2) : Option Edge :=
  match x.toNat with
  | 0 => some .zero | 1 => some .clamp | 2 => some .wrap | _ => none

/-- SCOPE codes (R65). -/
def Scope.code : Scope → BitVec 3
  | .device => 0 | .warp => 1 | .group => 2 | .core => 3 | .die => 4 | .fabric => 6 | .system => 7

/-- SCOPE code 0b101 is reserved (R65). -/
def Scope.ofCode (x : BitVec 3) : Option Scope :=
  match x.toNat with
  | 0 => some .device | 1 => some .warp | 2 => some .group | 3 => some .core
  | 4 => some .die | 6 => some .fabric | 7 => some .system | _ => none

def Ord.code : Ord → BitVec 2
  | .rlx => 0 | .acq => 1 | .rel => 2 | .acqrel => 3

def Ord.ofCode (x : BitVec 2) : Ord :=
  match x.toNat with
  | 0 => .rlx | 1 => .acq | 2 => .rel | _ => .acqrel

def Size.code : Size → BitVec 3
  | .b1 => 0 | .b2 => 1 | .b4 => 2 | .b8 => 3 | .b16 => 4

/-- SIZE codes 0b101 to 0b111 are undefined (R64). -/
def Size.ofCode (x : BitVec 3) : Option Size :=
  match x.toNat with
  | 0 => some .b1 | 1 => some .b2 | 2 => some .b4 | 3 => some .b8 | 4 => some .b16 | _ => none

def Size.bytes : Size → Nat
  | .b1 => 1 | .b2 => 2 | .b4 => 4 | .b8 => 8 | .b16 => 16

/-- The HOLD field: bits [3:2] SEL, bits [1:0] SLOT (R56). -/
def Hold.code : Hold → BitVec 4
  | .none => 0
  | .a p => 1#2 ++ BitVec.ofNat 2 p.val
  | .b p => 2#2 ++ BitVec.ofNat 2 p.val
  | .d p => 3#2 ++ BitVec.ofNat 2 p.val

/-- None where SLOT is 3, or SEL is 0 with SLOT nonzero (R56). -/
def Hold.ofCode (x : BitVec 4) : Option Hold :=
  match x.toNat with
  | 0 => some .none
  | 4 => some (.a 0) | 5 => some (.a 1) | 6 => some (.a 2)
  | 8 => some (.b 0) | 9 => some (.b 1) | 10 => some (.b 2)
  | 12 => some (.d 0) | 13 => some (.d 1) | 14 => some (.d 2)
  | _ => Option.none

def bit1 (b : Bool) : BitVec 1 := if b then 1 else 0

/-- The modifier word (R62). -/
def Mod.word (m : Mod) : Word :=
  m.rnd.code ++ bit1 m.ftz ++ bit1 m.sat ++ m.edge.code ++ m.ty2.code ++ m.aux

/-- None where EDGE is reserved or TY2 is undefined (R62, R63). -/
def Mod.ofWord (w : Word) : Option Mod := do
  let edge ← Edge.ofCode (w.extractLsb' 26 2)
  let ty2 ← Ty.ofCode (w.extractLsb' 21 5)
  return { rnd := Rnd.ofCode (w.extractLsb' 30 2), ftz := w.getLsbD 29, sat := w.getLsbD 28,
           edge := edge, ty2 := ty2, aux := w.extractLsb' 0 21 }

/-! ## Extensions (R61, R64, R66) -/

def Ext.len : Ext → BitVec 2
  | .none => 0
  | .imm _ => 1
  | .mod _ => 1
  | .imm64 _ => 2
  | .immMod _ _ => 2

def Ext.immBit : Ext → BitVec 1
  | .none => 0 | .imm _ => 1 | .mod _ => 0 | .imm64 _ => 1 | .immMod _ _ => 1

def Ext.xmBit : Ext → BitVec 1
  | .none => 0 | .imm _ => 0 | .mod _ => 1 | .imm64 _ => 0 | .immMod _ _ => 1

def Ext.bits : Ext → BitVec 64
  | .none => 0
  | .imm w => 0#32 ++ w
  | .mod m => 0#32 ++ m.word
  | .imm64 d => d
  | .immMod w m => m.word ++ w

/-- The extension of a word of MAJ 0x00 to 0x9F from LEN, IMM, XM and bits [127:64]; none for an illegal combination (R61). -/
def Ext.ofBits (len : BitVec 2) (imm xm : Bool) (e : BitVec 64) : Option Ext :=
  match len.toNat, imm, xm with
  | 0, false, false => some .none
  | 1, true, false => some (.imm (e.extractLsb' 0 32))
  | 1, false, true => (Mod.ofWord (e.extractLsb' 0 32)).map .mod
  | 2, true, false => some (.imm64 e)
  | 2, true, true => (Mod.ofWord (e.extractLsb' 32 32)).map (.immMod (e.extractLsb' 0 32))
  | _, _, _ => Option.none

def MExt.len : MExt → BitVec 2
  | .none => 0 | .short _ _ => 1 | .long _ _ _ => 2

def MExt.bits : MExt → BitVec 64
  | .none => 0
  | .short sc off => 0#32 ++ sc.code ++ 0#5 ++ off
  | .long sc abs off => sc.code ++ bit1 abs ++ 0#3 ++ off

/-- Extension of a memory word; none where a reserved bit is set, the scope is reserved or LEN is 0b11 (R64, R65). -/
def MExt.ofBits (len : BitVec 2) (e : BitVec 64) : Option MExt :=
  match len.toNat with
  | 0 => some .none
  | 1 =>
    if e.extractLsb' 24 5 = 0 then
      (Scope.ofCode (e.extractLsb' 29 3)).map fun sc => .short sc (e.extractLsb' 0 24)
    else Option.none
  | 2 =>
    if e.extractLsb' 57 3 = 0 then
      (Scope.ofCode (e.extractLsb' 61 3)).map fun sc => .long sc (e.getLsbD 60) (e.extractLsb' 0 57)
    else Option.none
  | _ => Option.none

def Frame.bits (f : Frame) : BitVec 64 :=
  f.scope.code ++ bit1 f.pbv ++ f.pb ++ f.tid ++ f.tileA ++ f.tileB ++ f.acc ++ f.aux

/-- The engine frame of bits [127:64]; none where SCOPE is reserved (R66). -/
def Frame.ofBits (e : BitVec 64) : Option Frame :=
  (Scope.ofCode (e.extractLsb' 61 3)).map fun sc =>
    { scope := sc, pbv := e.getLsbD 60, pb := e.extractLsb' 42 18, tid := e.extractLsb' 34 8,
      tileA := e.extractLsb' 28 6, tileB := e.extractLsb' 22 6, acc := e.extractLsb' 17 5, aux := e.extractLsb' 0 17 }

/-! ## From operands to words -/

def COp.raw (o : COp) (maj : BitVec 8) (ty : BitVec 5) : Raw where
  len := o.ext.len
  maj := maj
  hold := o.hold.code
  fe := o.fe
  dst := o.dst.code
  a := o.a.code
  b := o.b.code
  c := o.c.code
  fn := ty ++ o.ext.immBit ++ o.ext.xmBit
  ext := o.ext.bits

def MOp.raw (o : MOp) (maj : BitVec 8) : Raw where
  len := o.ext.len
  maj := maj
  hold := 0
  fe := o.fe
  dst := o.dst.code
  a := o.a.code
  b := o.b.code
  c := o.c.code
  fn := o.size.code ++ o.ord.code ++ o.sub
  ext := o.ext.bits

def EOp.raw (o : EOp) (maj : BitVec 8) : Raw where
  len := if o.frame.isSome then 2 else 0
  maj := maj
  hold := 0
  fe := o.fe
  dst := o.dst.code
  a := o.a.code
  b := o.b.code
  c := o.c.code
  fn := o.fn
  ext := match o.frame with
    | none => 0
    | some f => f.bits

/-- Reads the operands of a scalar, control or vector word. -/
def COp.ofRaw (r : Raw) : Option COp := do
  let hold ← Hold.ofCode r.hold
  let dst ← Src.ofCode r.dst
  let a ← Src.ofCode r.a
  let b ← Src.ofCode r.b
  let c ← Src.ofCode r.c
  let ext ← Ext.ofBits r.len (r.fn.getLsbD 1) (r.fn.getLsbD 0) r.ext
  return { hold := hold, fe := r.fe, dst := dst, a := a, b := b, c := c, ext := ext }

/-- Reads the operands of a memory word. -/
def MOp.ofRaw (r : Raw) : Option MOp := do
  if r.hold ≠ 0 then none
  let size ← Size.ofCode (r.fn.extractLsb' 4 3)
  let dst ← Src.ofCode r.dst
  let a ← Src.ofCode r.a
  let b ← Src.ofCode r.b
  let c ← Src.ofCode r.c
  let ext ← MExt.ofBits r.len r.ext
  return { size := size, ord := Ord.ofCode (r.fn.extractLsb' 2 2), sub := r.fn.extractLsb' 0 2,
           fe := r.fe, dst := dst, a := a, b := b, c := c, ext := ext }

/-- Reads the operands of an engine word. -/
def EOp.ofRaw (r : Raw) : Option EOp := do
  if r.hold ≠ 0 then none
  let dst ← Src.ofCode r.dst
  let a ← Src.ofCode r.a
  let b ← Src.ofCode r.b
  let c ← Src.ofCode r.c
  match r.len.toNat with
  | 0 => return { fn := r.fn, fe := r.fe, dst := dst, a := a, b := b, c := c, frame := none }
  | 2 => do
    let f ← Frame.ofBits r.ext
    return { fn := r.fn, fe := r.fe, dst := dst, a := a, b := b, c := c, frame := some f }
  | _ => none

/-! ## What a form permits (R56 to R70, and the tables of each chapter) -/

/-- What the check of a word depends on beyond its bits: the warp width `w` and the registers `mg` of a mask group
(W/32, R82), the vector-register budget (R91) and the role (R92). -/
structure Ctx where
  w : Nat
  mg : Nat
  budget : Nat
  role : Role
  deriving DecidableEq, Repr

/-- The widest context: every word that some warp of some launch may issue passes in it. -/
def Ctx.wide : Ctx := { w := 128, mg := 1, budget := 256, role := .general }

/-- The operand kinds a specifier field permits (R60). A direct `v` and an `s` operand names `n` registers and is
aligned to `n`; where `cnt` is not 0 it reads `cnt` registers instead; `zero`: a zero specifier reads as unused.
`dash`: an unused field whose entry forbids the v, neighbour, indexed and latch kinds in every field (R293, R332, R349). -/
structure Rule where
  used : Bool := true
  dash : Bool := false
  zero : Bool := false
  v : Bool := false
  nb : Bool := false
  idx : Bool := false
  latch : Bool := false
  s : Bool := false
  g : Bool := false
  k : Bool := false
  k0 : Bool := false
  mask : Bool := false
  n : Nat := 1
  cnt : Nat := 0
  deriving DecidableEq, Repr

/-- A field the form does not use: it must be zero (R60). -/
def Rule.unused : Rule := { used := false }
/-- A field that must be zero in an entry that forbids the v, neighbour, indexed and latch kinds in any field (R293, R332,
R349): such a kind raises ILLEGAL_INSTRUCTION, any other nonzero value RESERVED_FIELD. -/
def Rule.dashed : Rule := { used := false, dash := true }
/-- A source of a vector instruction over `n` registers (R159). -/
def Rule.vAny (n : Nat) : Rule :=
  { v := true, nb := true, idx := true, latch := true, s := true, g := n == 1, k := true, n := n }
/-- A source of a scalar instruction over `n` registers (R115, R116). -/
def Rule.sAny (n : Nat) : Rule := { s := true, g := n == 1, k := true, n := n }
/-- A scalar destination (R115). -/
def Rule.sDst (n : Nat) : Rule := { s := true, g := n == 1, n := n }
/-- A scalar register or aligned group. -/
def Rule.sReg (n : Nat) : Rule := { s := true, n := n }
/-- A vector destination (R159). -/
def Rule.vDst (n : Nat) : Rule := { v := true, idx := true, n := n }
/-- A direct vector register or aligned group. -/
def Rule.vReg (n : Nat) : Rule := { v := true, n := n }
/-- A mask group (R82). -/
def Rule.maskGroup : Rule := { mask := true }
/-- The value operand: s, g or k (R264, R293). -/
def Rule.sgk : Rule := { s := true, g := true, k := true }
/-- The same, absent when zero. -/
def Rule.sgkOpt : Rule := { s := true, g := true, k := true, zero := true }
def Rule.sOpt : Rule := { s := true, zero := true }
/-- Data of a store or atomic over `n` registers; 16-byte data from a v group only (R209). -/
def Rule.data (n : Nat) (g : Bool) : Rule :=
  if n = 4 then .vReg 4
  else { v := true, nb := true, idx := true, latch := true, s := true, g := g, k := true, n := n }
/-- An address of 64 bits: an even v or s register (R210). -/
def Rule.addr64 : Rule := { v := true, s := true, n := 2 }
/-- An offset address: a v or s register (R210). -/
def Rule.addr32 : Rule := { v := true, s := true }

/-- Which fields of the modifier word a form gives a meaning (R62, R119, R161); EDGE has one when a source is a neighbour. -/
structure ModUse where
  rnd : Bool := false
  ftz : Bool := false
  sat : Bool := false
  ty2 : Bool := false
  aux : BitVec 21 := 0
  deriving DecidableEq, Repr

/-- Which fields of the engine frame a form uses (R66). -/
structure FrameUse where
  scope : Bool := false
  pb : Bool := false
  tid : Bool := false
  tileA : Bool := false
  tileB : Bool := false
  acc : Bool := false
  aux : BitVec 17 := 0
  deriving DecidableEq, Repr

/-- The checks of one form. `last`: the source an immediate may replace (1 OPA, 2 OPB, 3 OPC; 0 none).
`fnOk`: the FN value (or a value field that selects a form) is defined. `present`: every required operand is there.
`resOk`: the form's own reserved-field rules hold. -/
structure Form where
  lenOk : Bool := true
  fnOk : Bool := true
  present : Bool := true
  resOk : Bool := true
  dst : Rule := .unused
  a : Rule := .unused
  b : Rule := .unused
  c : Rule := .unused
  last : Nat := 0
  mods : ModUse := {}
  frame : FrameUse := {}
  deriving DecidableEq, Repr

def Ty.is64 : Ty → Bool
  | .b64 => true | .i64 => true | .n64 => true | .f64 => true | _ => false

/-- Registers that a value of the type occupies (R160). -/
def Ty.regs (t : Ty) : Nat := if t.is64 then 2 else 1

/-- F16, BF16, F32, F64: the group Flt of R164. -/
def Ty.isFlt : Ty → Bool
  | .f16 => true | .bf16 => true | .f32 => true | .f64 => true | _ => false

/-- B32, B64: the group Bits of R164. -/
def Ty.isBits : Ty → Bool
  | .b32 => true | .b64 => true | _ => false

/-- The group Int of R164. -/
def Ty.isInt : Ty → Bool
  | .i16 => true | .i32 => true | .i64 => true | .n16 => true | .n32 => true | .n64 => true | _ => false

def Ty.isI : Ty → Bool
  | .i8 => true | .i16 => true | .i32 => true | .i64 => true | .i4 => true | .i2 => true | _ => false

/-- I32, I64, N32, N64. -/
def Ty.isInt3264 : Ty → Bool
  | .i32 => true | .i64 => true | .n32 => true | .n64 => true | _ => false

/-- I8 to I64, N8 to N64 (R171). -/
def Ty.isIntAny : Ty → Bool
  | .i8 => true | .n8 => true | t => t.isInt

def Ty.isF8 : Ty → Bool
  | .e4m3 => true | .e5m2 => true | _ => false

def Ty.isSE : Ty → Bool
  | .se7 => true | .se4 => true | .se2 => true | .se7f => true | .se4f => true | .se2f => true | _ => false

/-- The floating types a register can hold (R147, R148). -/
def Ty.isFloat (t : Ty) : Bool := t.isFlt || t.isF8

/-- The signed integers of VABS and VNEG (R164). -/
def Ty.isIVec : Ty → Bool
  | .i16 => true | .i32 => true | .i64 => true | _ => false

/-- F32, F16, BF16. -/
def Ty.isF3 : Ty → Bool
  | .f32 => true | .f16 => true | .bf16 => true | _ => false

/-- The pairs of VCVT (R171): to `t` from `u`. -/
def cvtPair (t u : Ty) : Bool :=
  (t != u) &&
  ((t.isFloat && u.isFloat) || (u.isFlt && t.isIntAny) || (u.isIntAny && t.isFlt) || (u.isIntAny && t.isIntAny))

/-- The TY field of a scalar, control or vector word. -/
def Raw.tyBits (r : Raw) : BitVec 5 := r.fn.extractLsb' 2 5
def Raw.ty? (r : Raw) : Option Ty := Ty.ofCode r.tyBits
def Raw.imm (r : Raw) : Bool := r.fn.getLsbD 1
def Raw.xm (r : Raw) : Bool := r.fn.getLsbD 0

/-- The combinations of LEN, IMM and XM that R61 lists. -/
def Raw.comboOk (r : Raw) : Bool :=
  match r.len.toNat, r.imm, r.xm with
  | 0, false, false => true
  | 1, true, false => true
  | 1, false, true => true
  | 2, true, false => true
  | 2, true, true => true
  | _, _, _ => false

/-- The modifier word, zero when absent (R62). -/
def Raw.modWord (r : Raw) : Word :=
  match r.len.toNat, r.imm, r.xm with
  | 1, false, true => r.ext.extractLsb' 0 32
  | 2, true, true => r.ext.extractLsb' 32 32
  | _, _, _ => 0

def Raw.aux21 (r : Raw) : BitVec 21 := r.modWord.extractLsb' 0 21
def Raw.ty2? (r : Raw) : Option Ty := Ty.ofCode (r.modWord.extractLsb' 21 5)

/-- The forms with a type: `p` says which types, `f` gives the rules. -/
def typed (r : Raw) (p : Ty → Bool) (f : Ty → Form) : Form :=
  match r.ty? with
  | some t => if p t then f t else { fnOk := false }
  | none => { fnOk := false }

def allT (t : Ty) : Bool := t.isBits || t.isInt3264

def scalar1 (r : Raw) (p : Ty → Bool) : Form :=
  typed r p fun t => { dst := .sDst t.regs, a := .sAny t.regs, last := 1 }
def scalar2 (r : Raw) (p : Ty → Bool) (sat : Bool := false) : Form :=
  typed r p fun t => { dst := .sDst t.regs, a := .sAny t.regs, b := .sAny t.regs, last := 2,
                       mods := { sat := sat && t.isInt3264 } }
def scalarShift (r : Raw) : Form :=
  typed r Ty.isBits fun t => { dst := .sDst t.regs, a := .sAny t.regs, b := .sAny 1, last := 2 }
def scalarCount (r : Raw) : Form :=
  typed r Ty.isBits fun t => { dst := .sDst 1, a := .sAny t.regs, last := 1 }
def scalarField (r : Raw) (p : Ty → Bool) : Form :=
  typed r p fun t => { dst := .sDst t.regs, a := .sAny t.regs, b := .sAny 1, c := .sAny 1, last := 3 }
def scalarCmp (r : Raw) (p : Ty → Bool) : Form :=
  typed r p fun t => { a := .sAny t.regs, b := .sAny t.regs, last := 2 }

/-- A branch to a label: 96 bits with an immediate (R126). -/
def branchLen (r : Raw) : Bool := r.len == 1 && r.imm && !r.xm
/-- LEN of a form whose entry fixes it (R129); a combination with IMM and XM that R61 does not list raises RESERVED_FIELD. -/
def lenIs (r : Raw) (n : BitVec 2) : Bool := r.len == n

/-- The special registers of R96: destination rule of SGETR (R123). -/
def specialDst (n : Nat) : Option Rule :=
  match n with
  | 0x00 => some (.vReg 2)
  | 0x01 => some (.vReg 1) | 0x02 => some (.vReg 1) | 0x03 => some (.vReg 1)
  | 0x04 => some (.vReg 1) | 0x05 => some (.vReg 1) | 0x06 => some (.vReg 1)
  | 0x08 => some (.sReg 1) | 0x09 => some (.sReg 1) | 0x0A => some (.sReg 1)
  | 0x0B => some (.sReg 1) | 0x0C => some (.sReg 1) | 0x0D => some (.sReg 1)
  | 0x10 => some (.sReg 2)
  | 0x11 => some (.sReg 1) | 0x12 => some (.sReg 1) | 0x13 => some (.sReg 1)
  | 0x14 => some (.sReg 1) | 0x15 => some (.sReg 1)
  | 0x18 => some (.sReg 4) | 0x19 => some (.sReg 4) | 0x1A => some (.sReg 4)
  | 0x1B => some (.sReg 2)
  | _ => none

/-- Scalar and control, MAJ 0x00 to 0x2B (R115 to R137). -/
def scalarForm (r : Raw) (maj : Nat) : Option Form :=
  let ty0 := r.tyBits == 0
  match maj with
  | 0x00 => some (scalar1 r Ty.isBits)
  | 0x01 => some (scalar2 r allT true)
  | 0x02 => some (scalar2 r allT true)
  | 0x03 => some (scalar2 r allT true)
  | 0x04 => some (scalar2 r Ty.isInt3264)
  | 0x05 => some (scalar2 r Ty.isInt3264)
  | 0x06 => some (scalar2 r Ty.isInt3264)
  | 0x07 => some (scalar2 r Ty.isBits)
  | 0x08 => some (scalar2 r Ty.isBits)
  | 0x09 => some (scalar2 r Ty.isBits)
  | 0x0A => some (scalar1 r Ty.isBits)
  | 0x0B => some (scalarShift r)
  | 0x0C => some (scalarShift r)
  | 0x0D => some (scalarShift r)
  | 0x0E => some (scalarCount r)
  | 0x0F => some (scalarCount r)
  | 0x10 => some (scalarField r Ty.isInt3264)
  | 0x11 => some (scalarField r Ty.isBits)
  | 0x12 => some (scalarCmp r allT)
  | 0x13 => some (scalarCmp r allT)
  | 0x14 => some (scalarCmp r Ty.isInt3264)
  | 0x15 => some (scalarCmp r Ty.isInt3264)
  | 0x16 => some (scalar2 r Ty.isBits)
  | 0x17 =>
    let d := specialDst (r.aux21.extractLsb' 0 8).toNat
    some { fnOk := ty0 && d.isSome, dst := d.getD .unused, mods := { aux := 0xFF } }
  | 0x18 =>
    some { fnOk := ty0 && r.aux21.extractLsb' 0 8 == 0x13, a := .sAny 1, last := 1, mods := { aux := 0xFF } }
  | 0x19 => some { fnOk := ty0, a := { mask := true, k := true }, last := 1 }
  | 0x1A => some { fnOk := ty0, dst := .maskGroup }
  | 0x1B => some { fnOk := ty0, dst := .maskGroup, a := .maskGroup }
  | 0x1C => some { fnOk := ty0, dst := .maskGroup, a := .maskGroup }
  | 0x1D => some { fnOk := ty0, a := .maskGroup, b := { mask := true, zero := true } }
  | 0x1E => some { lenOk := branchLen r, fnOk := ty0, last := 1 }
  | 0x1F => some { lenOk := branchLen r, fnOk := r.tyBits == 0 || r.tyBits == 1, last := 1 }
  | 0x20 => some { lenOk := branchLen r, fnOk := ty0, last := 1 }
  | 0x21 => some { lenOk := branchLen r, fnOk := ty0, last := 1 }
  | 0x22 => some { lenOk := branchLen r, fnOk := ty0, dst := .sReg 2, last := 1 }
  | 0x23 => some { lenOk := lenIs r 0, fnOk := ty0, a := .sReg 2 }
  | 0x24 =>
    some { lenOk := lenIs r 0 || (lenIs r 1 && (r.imm || !r.xm)), fnOk := ty0, a := .sReg 2,
           b := { s := true, g := true, zero := true }, last := 2 }
  | 0x25 => some { lenOk := branchLen r, fnOk := ty0, dst := .sDst 1, last := 1 }
  | 0x26 =>
    let sc := (r.aux21.extractLsb' 0 3).toNat
    some { fnOk := ty0 && (sc == 0 || sc == 3 || sc == 4 || sc == 5), resOk := sc != 5, mods := { aux := 7 } }
  | 0x27 => some { fnOk := ty0, resOk := !r.xm }
  | 0x28 => some { fnOk := ty0, resOk := !r.xm, a := .sAny 1, last := 1 }
  | 0x29 =>
    some { resOk := ty0 && !r.xm && r.ext == 0, last := 4 }
  | 0x2A => some { fnOk := ty0, resOk := !r.xm }
  | 0x2B => some { fnOk := ty0, resOk := !r.xm }
  | _ => none

def vector1 (r : Raw) (p : Ty → Bool) (m : Ty → ModUse := fun _ => {}) : Form :=
  typed r p fun t => { dst := .vDst t.regs, a := .vAny t.regs, last := 1, mods := m t }
def vector2 (r : Raw) (p : Ty → Bool) (m : Ty → ModUse := fun _ => {}) : Form :=
  typed r p fun t => { dst := .vDst t.regs, a := .vAny t.regs, b := .vAny t.regs, last := 2, mods := m t }
def vector3 (r : Raw) (p : Ty → Bool) (m : Ty → ModUse := fun _ => {}) : Form :=
  typed r p fun t => { dst := .vDst t.regs, a := .vAny t.regs, b := .vAny t.regs, c := .vAny t.regs, last := 3, mods := m t }
def vectorShift (r : Raw) : Form :=
  typed r Ty.isBits fun t => { dst := .vDst t.regs, a := .vAny t.regs, b := .vAny 1, last := 2 }
def vectorField (r : Raw) (p : Ty → Bool) : Form :=
  typed r p fun t => { dst := .vDst t.regs, a := .vAny t.regs, b := .vAny 1, c := .vAny 1, last := 3 }
def vectorCmp (r : Raw) (p : Ty → Bool) : Form :=
  typed r p fun t => { dst := .maskGroup, a := .vAny t.regs, b := .vAny t.regs, last := 2, mods := { ftz := t.isFlt } }

/-- RND and FTZ on floating forms, SAT on integer forms (R161). -/
def arithMods (t : Ty) : ModUse := { rnd := t.isFloat, ftz := t.isFloat, sat := t.isIntAny }
def ftzMods (t : Ty) : ModUse := { ftz := t.isFlt }

/-- Vector, MAJ 0x40 to 0x77 (R159 to R182). DESIGN CHOICE: the narrow integers, which take no immediate (R37), are I4, N4, I2 and N2, not
I8, N8, I16 and N16 (log entry 111). DESIGN CHOICE: the even v register of VADDC and VSUBB may be named as v[x_i] (log entry 118). -/
def vectorForm (w : Nat) (r : Raw) (maj : Nat) : Option Form :=
  let ty0 := r.tyBits == 0
  match maj with
  | 0x40 => some (vector1 r Ty.isBits)
  | 0x41 => some (vector2 r (fun t => t.isInt || t.isBits || t.isFlt) arithMods)
  | 0x42 => some (vector2 r (fun t => t.isInt || t.isBits || t.isFlt) arithMods)
  | 0x43 => some (vector2 r (fun t => t.isInt || t.isBits || t.isFlt) arithMods)
  | 0x44 => some (vector2 r Ty.isInt3264)
  | 0x45 =>
    some (typed r (fun t => t == .i32 || t == .n32) fun _ => { dst := .vDst 2, a := .vAny 1, b := .vAny 1, last := 2 })
  | 0x46 => some (vector3 r (fun t => t == .i32 || t == .n32 || t.isFlt) arithMods)
  | 0x47 => some (vector2 r (fun t => t.isInt || t.isFlt) ftzMods)
  | 0x48 => some (vector2 r (fun t => t.isInt || t.isFlt) ftzMods)
  | 0x49 => some (vector3 r (fun t => t.isInt || t.isFlt) ftzMods)
  | 0x4A => some (vector1 r (fun t => t.isIVec || t.isFlt) fun t => { sat := t.isIVec })
  | 0x4B => some (vector1 r (fun t => t.isIVec || t.isFlt) fun t => { sat := t.isIVec })
  | 0x4C => some (vector2 r Ty.isFlt)
  | 0x4D =>
    some (typed r (fun t => t == .n32) fun _ => { dst := .vDst 2, a := .vAny 1, b := .vAny 1, c := .vAny 1, last := 3 })
  | 0x4E =>
    some (typed r (fun t => t == .n32) fun _ => { dst := .vDst 2, a := .vAny 1, b := .vAny 1, c := .vAny 1, last := 3 })
  | 0x4F => some (vector3 r (fun t => t == .i16 || t == .n16 || t == .f16 || t == .bf16) arithMods)
  | 0x50 => some (vector3 r (fun t => t == .i8 || t == .n8 || t.isF8) arithMods)
  | 0x51 => some (vector2 r Ty.isBits)
  | 0x52 => some (vector2 r Ty.isBits)
  | 0x53 => some (vector2 r Ty.isBits)
  | 0x54 => some (vector1 r Ty.isBits)
  | 0x55 => some (vectorShift r)
  | 0x56 => some (vectorShift r)
  | 0x57 => some (vectorShift r)
  | 0x58 => some (typed r Ty.isBits fun t => { dst := .vDst 1, a := .vAny t.regs, last := 1 })
  | 0x59 => some (typed r Ty.isBits fun t => { dst := .vDst 1, a := .vAny t.regs, last := 1 })
  | 0x5A => some (vector1 r Ty.isBits)
  | 0x5B => some (vectorField r Ty.isInt3264)
  | 0x5C => some (vectorField r Ty.isBits)
  | 0x5D => some (vector3 r (fun t => t == .b32))
  | 0x5E => some (vectorCmp r (fun t => t.isInt || t.isBits || t.isFlt))
  | 0x5F => some (vectorCmp r (fun t => t.isInt || t.isBits || t.isFlt))
  | 0x60 => some (vectorCmp r (fun t => t.isInt || t.isFlt))
  | 0x61 => some (vectorCmp r (fun t => t.isInt || t.isFlt))
  | 0x62 => some (vectorCmp r Ty.isFlt)
  | 0x63 =>
    some (typed r Ty.isBits fun t =>
      { dst := .vDst t.regs, a := .vAny t.regs, b := .vAny t.regs, c := .maskGroup, last := 2 })
  | 0x64 =>
    match r.ty2? with
    | some u =>
      some (typed r (fun t => cvtPair t u) fun t =>
        { dst := .vDst t.regs, a := .vAny u.regs, last := if u.isF8 then 0 else 1,
          mods := { rnd := true, ftz := t.isFloat || u.isFloat, sat := t.isF8 || (t.isIntAny && u.isIntAny), ty2 := true } })
    | none => some { fnOk := false }
  | 0x65 =>
    match r.ty2? with
    | some u =>
      some (typed r (fun t => t.isSE && u.isF3) fun _ =>
        { dst := .vDst 1, a := .vAny 1, last := 1, mods := { ty2 := true } })
    | none => some { fnOk := false }
  | 0x66 =>
    match r.ty2? with
    | some u =>
      some (typed r (fun t => t.isF3 && u.isSE) fun t =>
        { dst := .vDst 1, a := .vReg 1, mods := { ty2 := true, rnd := t != .f32 } })
    | none => some { fnOk := false }
  | 0x67 => some (vector1 r Ty.isFlt ftzMods)
  | 0x68 =>
    some (typed r Ty.isFlt fun t =>
      { dst := .vDst t.regs, a := .vAny t.regs, b := .vAny 1, last := 2, mods := { rnd := true, ftz := true } })
  | 0x69 => some (vector1 r Ty.isFlt fun _ => { rnd := true, ftz := true })
  | 0x6A => some (vector1 r Ty.isF3 ftzMods)
  | 0x6B => some (vector1 r Ty.isF3 ftzMods)
  | 0x6C => some (vector1 r Ty.isF3 ftzMods)
  | 0x6D => some (vector1 r Ty.isF3 ftzMods)
  | 0x6E => some (vector1 r Ty.isF3 ftzMods)
  | 0x6F => some (vector1 r Ty.isF3 ftzMods)
  | 0x70 =>
    let seg := (r.aux21.extractLsb' 2 3).toNat
    some (typed r (fun t => t.isBits && decide (2 ^ seg ≤ w)) fun t =>
      { dst := .vDst t.regs, a := .vReg t.regs, b := .vAny 1, last := 2, mods := { aux := 0x1F } })
  | 0x71 =>
    let form := r.tyBits.toNat
    some { fnOk := decide (form ≤ 2), dst := if form = 2 then .maskGroup else .sOpt, a := .vAny 1, last := 1 }
  | 0x72 => some { fnOk := decide (r.tyBits.toNat ≤ 1), dst := .vDst 1 }
  | 0x73 =>
    some (typed r Ty.isBits fun t =>
      { dst := { v := true, idx := true, s := true, n := t.regs }, a := .vReg t.regs, b := .sAny 1, last := 2 })
  | 0x74 => some { fnOk := ty0, a := .vAny 1, b := .vAny 1, c := .vAny 1, last := 3, mods := { aux := 7 } }
  | 0x75 => some { fnOk := ty0, a := .vAny 1, last := 1, mods := { aux := 7 } }
  | 0x76 => some { fnOk := ty0, dst := .maskGroup, a := .vAny 1, last := 1 }
  | 0x77 => some (vector1 r Ty.isFlt fun _ => { rnd := true, ftz := true })
  | _ => none

/-- Classes of memory instructions (R207, R209). -/
inductive MemKind | load | store | atomic | cas | fence | prefetch
  deriving DecidableEq, Repr

def memKind (maj : Nat) : Option MemKind :=
  match maj with
  | 0xA0 => some .load | 0xA1 => some .store | 0xA2 => some .load | 0xA3 => some .store
  | 0xA4 => some .load | 0xA5 => some .store | 0xA6 => some .load | 0xA7 => some .store
  | 0xA8 => some .load | 0xA9 => some .load
  | 0xAA => some .atomic | 0xAB => some .atomic | 0xAC => some .atomic | 0xAD => some .atomic
  | 0xAE => some .atomic | 0xAF => some .atomic | 0xB0 => some .atomic | 0xB1 => some .cas | 0xB2 => some .atomic
  | 0xB3 => some .fence | 0xB4 => some .prefetch
  | _ => none

/-- LDS, STS, LDL, STL and LDC take an offset of 32 bits (R210). -/
def memOffsetForm (maj : Nat) : Bool := decide (0xA4 ≤ maj ∧ maj ≤ 0xA8)
/-- LDL, STL, LDC accept .rlx only (R207). -/
def memRlxOnly (maj : Nat) : Bool := decide (0xA6 ≤ maj ∧ maj ≤ 0xA8)

/-- Memory, MAJ 0xA0 to 0xB4 (R207 to R214). -/
def memForm (r : Raw) (maj : Nat) : Option Form :=
  match memKind maj with
  | none => none
  | some kind =>
    let size := (r.fn.extractLsb' 4 3).toNat
    let ord := (r.fn.extractLsb' 2 2).toNat
    let s57 := r.fn.getLsbD 0
    let s58 := r.fn.getLsbD 1
    let regs := if size = 4 then 4 else if size = 3 then 2 else 1
    let abs := r.len == 2 && r.ext.getLsbD 60
    let addr := if abs then Rule.unused else if memOffsetForm maj then .addr32 else .addr64
    let extOk :=
      match r.len.toNat with
      | 0 => true
      | 1 => r.ext.extractLsb' 24 5 == 0 && r.ext.extractLsb' 29 3 != 5
      | _ => r.ext.extractLsb' 57 3 == 0 && r.ext.extractLsb' 61 3 != 5
    match kind with
    | .load =>
      some { fnOk := decide (size ≤ 4) && (ord == 0 || (ord == 1 && !memRlxOnly maj)) && !s58 && (!s57 || decide (size ≤ 1)),
             resOk := extOk, dst := .vReg regs, a := addr }
    | .store =>
      some { fnOk := decide (size ≤ 4) && (ord == 0 || (ord == 2 && !memRlxOnly maj)) && !s58 && !s57,
             resOk := extOk, a := addr, b := .data regs (size == 2) }
    | .atomic =>
      some { fnOk := (size == 2 || size == 3) && (!s58 || maj == 0xAB || maj == 0xAC),
             resOk := extOk, dst := if s57 then .vReg regs else .unused, a := addr, b := .data regs (size == 2) }
    | .cas =>
      some { fnOk := (size == 2 || size == 3) && !s58,
             resOk := extOk, dst := if s57 then .vReg regs else .unused, a := addr,
             b := .data regs (size == 2), c := .data regs (size == 2) }
    | .fence =>
      some { fnOk := size == 0 && ord != 0 && !s58 && !s57,
             resOk := extOk && (match r.len.toNat with
               | 0 => true
               | 1 => r.ext.extractLsb' 0 24 == 0
               | _ => r.ext.extractLsb' 0 57 == 0 && !abs) }
    | .prefetch =>
      some { fnOk := size == 0 && ord == 0 && !s58, resOk := extOk, a := addr }

/-- The frame fields of an engine word; zero in the 64-bit form (R66). -/
def Raw.scopeBits (r : Raw) : BitVec 3 := r.ext.extractLsb' 61 3
def Raw.pbv (r : Raw) : Bool := r.ext.getLsbD 60
def Raw.pbBits (r : Raw) : BitVec 18 := r.ext.extractLsb' 42 18
def Raw.tidBits (r : Raw) : BitVec 8 := r.ext.extractLsb' 34 8
def Raw.tileABits (r : Raw) : BitVec 6 := r.ext.extractLsb' 28 6
def Raw.tileBBits (r : Raw) : BitVec 6 := r.ext.extractLsb' 22 6
def Raw.accBits (r : Raw) : BitVec 5 := r.ext.extractLsb' 17 5
def Raw.aux17 (r : Raw) : BitVec 17 := r.ext.extractLsb' 0 17

/-- The value operand V: OPA, or AUX when OPA is zero (R264). -/
def vResOk (r : Raw) : Bool := r.a == 0 || r.aux17 == 0

/-- Engine commands, MAJ 0xC0 to 0xFB (R245, R264, R293, R332, R349, R370, R400, R419, R138, R139).
FN bit numbers of the tables minus 57. -/
def engineForm (r : Raw) (maj : Nat) : Option Form :=
  let fn := r.fn
  let l := r.len != 1
  let base : Form := { lenOk := l }
  let row : Form := { lenOk := l, dst := .dashed, a := .dashed, b := .dashed, c := .dashed }
  match maj with
  | 0xC0 => some { base with fnOk := fn.extractLsb' 0 4 == 0,
                             frame := { tileA := true, tileB := true, acc := true, aux := 0xF } }
  | 0xC1 => some { base with fnOk := fn == 0, dst := .vReg 8, a := .vReg 4, b := .vReg 4,
                             c := { v := true, k0 := true, n := 8 }, frame := { tid := true } }
  | 0xC2 =>
    let rd := fn.getLsbD 6
    some { base with fnOk := fn.extractLsb' 0 6 == 0, dst := if rd then .vReg 1 else .unused, a := .sgk,
                     frame := { tid := true, tileA := true, tileB := !rd } }
  | 0xC3 => some { base with fnOk := fn.extractLsb' 0 5 == 0, frame := { acc := true } }
  | 0xC4 => some { base with fnOk := fn.extractLsb' 0 5 == 0, frame := { acc := true, tileA := true } }
  | 0xC5 => some { base with fnOk := fn.extractLsb' 0 4 == 0, frame := { acc := true, tileA := true } }
  | 0xC6 => some { base with fnOk := fn == 0, dst := .vReg 8, frame := { acc := true, aux := 0xF } }
  | 0xC7 => some { base with fnOk := fn == 0, a := .sReg 2, frame := { tid := true } }
  | 0xC8 => some { base with fnOk := fn == 0, dst := .sReg 4, frame := { tid := true, aux := 7 } }
  | 0xC9 => some { base with fnOk := fn == 0, a := .sReg 2, b := { s := true, k := true }, frame := { aux := 0x1F } }
  | 0xD0 => some { base with fnOk := fn == 0, a := .sReg 16, frame := { pb := true, tid := true, tileA := true } }
  | 0xD1 => some { base with fnOk := fn.extractLsb' 0 6 == 0, a := .sReg 16,
                             frame := { pb := true, tid := true, tileA := true } }
  | 0xD2 => some { base with fnOk := fn == 0, a := .sgk, frame := { tid := true, aux := 0x3F } }
  | 0xD3 => some { base with fnOk := fn == 0, frame := { tileA := true } }
  | 0xD4 => some { base with fnOk := fn == 0, frame := { aux := 0x3F } }
  | 0xD5 => some { base with fnOk := fn == 0, dst := .sReg 1, frame := { aux := 0x3F } }
  | 0xD6 =>
    some { base with fnOk := fn.extractLsb' 1 6 == 0, present := r.pbv, resOk := vResOk r, a := .sgkOpt,
                     frame := { scope := !fn.getLsbD 0, pb := true, aux := 0x1FFFF } }
  | 0xD7 =>
    some { base with fnOk := fn.extractLsb' 1 6 == 0, present := r.pbv, resOk := vResOk r, a := .sgkOpt,
                     frame := { pb := true, aux := 0x1FFFF } }
  | 0xD8 =>
    some { row with fnOk := fn.extractLsb' 0 4 == 0 && fn.extractLsb' 4 3 != 0 && fn.extractLsb' 4 3 != 7,
                     frame := { aux := 0xF } }
  | 0xD9 =>
    some { row with fnOk := fn.extractLsb' 0 4 == 0 && fn.extractLsb' 4 3 != 0 && fn.extractLsb' 4 3 != 7,
                     dst := .sOpt, frame := { aux := 0xF } }
  | 0xDA =>
    some { row with fnOk := fn.extractLsb' 0 4 == 0 && fn.extractLsb' 4 3 != 0 && fn.extractLsb' 4 3 != 7,
                     a := .sgk, frame := { aux := 0xF } }
  | 0xDB => some { row with fnOk := fn.extractLsb' 2 5 == 0, a := .sReg 2 }
  | 0xDC => some { row with fnOk := fn.extractLsb' 3 4 == 0 && (!fn.getLsbD 2 || fn.extractLsb' 0 2 == 0) }
  | 0xDD => some { row with fnOk := fn.extractLsb' 1 6 == 0, dst := .sOpt, frame := { scope := fn.getLsbD 0 } }
  | 0xDE =>
    let w64 := fn.getLsbD 6
    some { row with fnOk := fn.extractLsb' 1 5 == 0,
                     dst := { s := true, zero := true, n := if w64 then 2 else 1 }, a := .sReg 2,
                     b := { s := true, g := !w64, k := true, n := if w64 then 2 else 1 }, frame := { scope := fn.getLsbD 0 } }
  | 0xDF => some { row with fnOk := fn == 0 }
  | 0xE0 =>
    let narg := (fn.extractLsb' 4 3).toNat
    some { row with fnOk := fn.extractLsb' 0 1 == 0 && decide (narg ≤ 4),
                     resOk := (fn.getLsbD 3 || fn.extractLsb' 1 2 == 0) && (narg != 0 || r.b == 0),
                     a := .sReg 2, b := if narg = 0 then .sOpt else { s := true, cnt := narg }, frame := { aux := 0x1FFFF },
                     present := narg == 0 || decide ((r.b.extractLsb' 0 7).toNat + narg ≤ 128) }
  | 0xE1 =>
    let narg := (fn.extractLsb' 4 3).toNat
    some { row with fnOk := fn.extractLsb' 0 1 == 0 && decide (narg ≤ 4),
                     resOk := (fn.getLsbD 3 || fn.extractLsb' 1 2 == 0) && (narg != 0 || r.b == 0),
                     a := .sReg 2, b := if narg = 0 then .sOpt else { s := true, cnt := narg }, c := .sReg 2, frame := { aux := 0x1FFFF },
                     present := narg == 0 || decide ((r.b.extractLsb' 0 7).toNat + narg ≤ 128) }
  | 0xE2 => some { row with fnOk := fn == 0, resOk := vResOk r, dst := .sReg 2, a := .sgkOpt, frame := { aux := 0x1FFFF } }
  | 0xE3 => some { row with fnOk := fn.extractLsb' 2 5 == 0 && fn.extractLsb' 0 2 != 3 }
  | 0xE4 => some { row with fnOk := fn.extractLsb' 1 6 == 0 }
  | 0xE5 => some { row with fnOk := fn == 0 }
  | 0xE6 => some { row with fnOk := fn.extractLsb' 1 6 == 0, a := .sReg 2, frame := { aux := if fn.getLsbD 0 then 0xF else 0 } }
  | 0xE7 => some { row with fnOk := fn.extractLsb' 1 6 == 0, a := .sReg 2, frame := { aux := if fn.getLsbD 0 then 0xF else 0 } }
  | 0xE8 => some { row with fnOk := fn == 0 }
  | 0xE9 => some { row with fnOk := fn == 0, dst := .sReg 4 }
  | 0xEC =>
    if fn.getLsbD 1 then
      some { row with fnOk := fn.extractLsb' 0 1 == 0, resOk := fn.extractLsb' 2 5 == 0, frame := { aux := 0xF } }
    else
      some { row with fnOk := fn.extractLsb' 0 1 == 0, a := .sgk, b := .sgk, frame := { aux := 0xF } }
  | 0xED =>
    some { row with fnOk := fn.extractLsb' 0 3 == 0 && !fn.getLsbD 6, dst := .vReg 1, a := .addr64,
                     frame := { aux := 0x1FFFF } }
  | 0xEE => some { row with fnOk := fn == 0, dst := .sReg 4, frame := { aux := 0xF } }
  | 0xF0 =>
    let kind := (fn.extractLsb' 4 3).toNat
    let op := (fn.extractLsb' 0 4).toNat
    let t := r.aux17.getLsbD 16
    some { base with fnOk := decide (kind ≤ 4) && decide (op ≤ 7) && (decide (kind ≤ 1) || op == 0) && (kind != 4 || !t),
                     present := r.pbv, a := .sReg 8,
                     frame := { pb := true, tid := !t, tileA := t, aux := if kind = 4 then 0x1FFFF else 0x10000 } }
  | 0xF1 => some { base with fnOk := fn == 0, dst := .sReg 4 }
  | 0xF2 => some { base with fnOk := fn == 0, resOk := vResOk r, dst := .sReg 2, a := .sgkOpt, frame := { aux := 0x1FFFF } }
  | 0xF3 => some { base with fnOk := fn == 0, dst := .sReg 2 }
  | 0xF6 =>
    some { base with fnOk := fn == 0, dst := .sReg 2, frame := { aux := 0x7FF } }
  | 0xF7 =>
    some { base with fnOk := fn.extractLsb' 1 6 == 0, dst := .sReg (if fn.getLsbD 0 then 4 else 2) }
  | 0xF8 => some { base with fnOk := fn == 0, dst := .sReg 4, a := .sReg 2 }
  | 0xF9 => some { base with fnOk := fn == 0, a := .sgkOpt, frame := { aux := 0xFFFF } }
  | 0xFA => some { base with fnOk := fn.extractLsb' 2 5 == 0 && fn.extractLsb' 0 2 != 3, a := .sOpt, frame := { aux := 0xFFFF } }
  | 0xFB => some { base with fnOk := fn == 0, frame := { aux := 0xFFFF } }
  | _ => none

/-- The form of a word; none where R69 leaves the major opcode undefined. -/
def formOf (w : Nat) (r : Raw) : Option Form :=
  let maj := r.maj.toNat
  if maj < 0x40 then scalarForm r maj
  else if maj < 0xA0 then vectorForm w r maj
  else if maj < 0xC0 then memForm r maj
  else engineForm r maj

/-! ## The checks -/

/-- The registers of a group of `n` starting at `m` are aligned and below `lim` (R60). -/
def groupOk (m n lim : Nat) : Bool := m % n == 0 && decide (m + n ≤ lim)

/-- A nonzero specifier of a v, neighbour, indexed or latch kind (R58). -/
def isVectorKind (x : BitVec 10) : Bool :=
  x != 0 && (match Src.ofCode x with
    | some (.v _) => true | some (.vl _) => true | some (.vr _) => true | some (.idx _) => true | some (.latch _) => true
    | _ => false)

/-- A specifier of a defined kind that the rule does not permit (R60). `gone`: an immediate stands in its place. DESIGN CHOICE: of an
unused DST that names a latch, a constant or a neighbour only the breach of the unused field counts (log entry 113). -/
def Rule.forbids (rule : Rule) (ctx : Ctx) (gone : Bool) (x : BitVec 10) : Bool :=
  if !rule.used then rule.dash && isVectorKind x
  else if gone then false
  else if rule.zero && x == 0 then false
  else
    match Src.ofCode x with
    | none => false
    | some (.v m) => !(rule.v && groupOk m.toNat rule.n ctx.budget)
    | some (.vl m) => !(rule.nb && groupOk m.toNat rule.n ctx.budget)
    | some (.vr m) => !(rule.nb && groupOk m.toNat rule.n ctx.budget)
    | some (.s m) => !((rule.s && groupOk m.toNat rule.n 128) || (rule.mask && groupOk m.toNat ctx.mg 128))
    | some (.latch _) => !rule.latch
    | some (.idx _) => !rule.idx
    | some (.k c) => !(rule.k || (rule.k0 && c == 0))
    | some (.g _) => !rule.g

/-- A reserved pattern in a used field, or a nonzero unused field (R58, R60). -/
def Rule.reserved (rule : Rule) (gone : Bool) (x : BitVec 10) : Bool :=
  if !rule.used || gone then x != 0
  else (Src.ofCode x).isNone

/-- The field names an operand. -/
def Rule.holds (rule : Rule) (gone : Bool) (x : BitVec 10) : Bool := rule.used && !gone && !(rule.zero && x == 0)

/-- An FE bit may be set only for a source that carries full/empty bits (R57). -/
def Rule.feBad (rule : Rule) (gone : Bool) (x : BitVec 10) (fe : Bool) : Bool :=
  fe && !(rule.holds gone x &&
    (match Src.ofCode x with
     | some (.v _) => true | some (.vl _) => true | some (.vr _) => true | some (.idx _) => true | some (.s _) => true
     | _ => false))

def isNeighbour (rule : Rule) (gone : Bool) (x : BitVec 10) : Bool :=
  rule.holds gone x && decide (256 ≤ x.toNat ∧ x.toNat < 768)

/-- HOLD of a scalar, control or vector word (R56). -/
def holdBad (r : Raw) (f : Form) (imm : Bool) : Bool :=
  match Hold.ofCode r.hold with
  | none => true
  | some .none => false
  | some (.a _) => !(f.a.holds false r.a || (imm && f.last == 1))
  | some (.b _) => !(f.b.holds false r.b || (imm && f.last == 2))
  | some (.d _) => !f.dst.holds false r.dst

/-- Fields of the modifier word without a meaning (R62, R161). -/
def modBad (r : Raw) (f : Form) (neighbour : Bool) : Bool :=
  let w := r.modWord
  (w.extractLsb' 30 2 != 0 && !f.mods.rnd)
  || (w.getLsbD 29 && !f.mods.ftz)
  || (w.getLsbD 28 && !f.mods.sat)
  || (w.extractLsb' 26 2 != 0 && !neighbour)
  || w.extractLsb' 26 2 == 3
  || (w.extractLsb' 21 5 != 0 && !f.mods.ty2)
  || (w.extractLsb' 0 21 &&& ~~~f.mods.aux) != 0

/-- Frame fields that the form does not use (R66). -/
def frameBad (r : Raw) (u : FrameUse) : Bool :=
  r.scopeBits == 5
  || (r.scopeBits != 0 && !u.scope)
  || (r.pbv && !u.pb)
  || (r.pbBits != 0 && !(u.pb && r.pbv))
  || (r.tidBits != 0 && !u.tid)
  || (r.tileABits != 0 && !u.tileA)
  || (r.tileBBits != 0 && !u.tileB)
  || (r.accBits != 0 && !u.acc)
  || (r.aux17 &&& ~~~u.aux) != 0

/-- Which roles may issue a major opcode (R92). -/
def roleAllows (role : Role) (maj : Nat) : Bool :=
  match role with
  | .general => true
  | .copy => !decide ((0x40 ≤ maj ∧ maj ≤ 0x9F) ∨ (0xC0 ≤ maj ∧ maj ≤ 0xC9) ∨ (0xE0 ≤ maj ∧ maj ≤ 0xEE))
  | .matrix => !decide ((0x40 ≤ maj ∧ maj ≤ 0xBF) ∨ (0xD0 ≤ maj ∧ maj ≤ 0xD1) ∨ (0xE0 ≤ maj ∧ maj ≤ 0xEE))
  | .epilogue => !decide (0xC0 ≤ maj ∧ maj ≤ 0xC2)

/-- An immediate stands in place of source `i` of the form. -/
def Raw.replaces (r : Raw) (f : Form) (i : Nat) : Bool :=
  r.maj.toNat < 0xA0 && r.imm && r.len != 0 && f.last == i

/-- An operand of a kind that the form does not permit, or a required operand that is absent (R60, R264). -/
def operandBad (ctx : Ctx) (r : Raw) (f : Form) : Bool :=
  let core := decide (r.maj.toNat < 0xA0)
  !f.present
  || (core && r.imm && r.len != 0 && f.last == 0)
  || f.dst.forbids ctx false r.dst
  || f.a.forbids ctx (r.replaces f 1) r.a
  || f.b.forbids ctx (r.replaces f 2) r.b
  || f.c.forbids ctx (r.replaces f 3) r.c

/-- A 64-bit immediate in a position narrower than 64 bits with bits [63:32] set (R61). -/
def imm64Bad (r : Raw) (f : Form) : Bool :=
  r.len == 2 && r.imm && !r.xm && r.ext.extractLsb' 32 32 != 0 &&
  !((f.last == 1 && f.a.n == 2) || (f.last == 2 && f.b.n == 2) || (f.last == 3 && f.c.n == 2))

/-- The reserved-field rules (R56 to R62, R64 to R66). -/
def reservedBad (r : Raw) (f : Form) : Bool :=
  let core := decide (r.maj.toNat < 0xA0)
  let engine := decide (0xC0 ≤ r.maj.toNat)
  let ga := r.replaces f 1
  let gb := r.replaces f 2
  let gc := r.replaces f 3
  !f.resOk
  || f.dst.reserved false r.dst || f.a.reserved ga r.a || f.b.reserved gb r.b || f.c.reserved gc r.c
  || f.a.feBad ga r.a (r.fe.getLsbD 0) || f.b.feBad gb r.b (r.fe.getLsbD 1) || f.c.feBad gc r.c (r.fe.getLsbD 2)
  || (core && (!r.comboOk || holdBad r f (r.imm && r.len != 0) || imm64Bad r f
        || modBad r f (isNeighbour f.a ga r.a || isNeighbour f.b gb r.b || isNeighbour f.c gc r.c)))
  || (!core && r.hold != 0)
  || (engine && frameBad r f.frame)

/-- The first trap that the word's format raises, in the order of R70 (after FETCH_BOUNDARY and the fill word). -/
def formatCheck (ctx : Ctx) (r : Raw) : Option TrapCode :=
  match formOf ctx.w r with
  | none => some .illegalInstruction
  | some f =>
    if !f.lenOk || !f.fnOk || operandBad ctx r f then some .illegalInstruction
    else if reservedBad r f then some .reservedField
    else if !roleAllows ctx.role r.maj.toNat then some .roleViolation
    else none

/-! ## From words to instructions -/

/-- The instruction of a scalar or control word whose operands are `o`. -/
def buildScalar (r : Raw) (o : COp) : Nat → Option Instr
  | 0x00 => r.ty?.map fun t => .smov t o
  | 0x01 => r.ty?.map fun t => .sadd t o
  | 0x02 => r.ty?.map fun t => .ssub t o
  | 0x03 => r.ty?.map fun t => .smul t o
  | 0x04 => r.ty?.map fun t => .smulh t o
  | 0x05 => r.ty?.map fun t => .smin t o
  | 0x06 => r.ty?.map fun t => .smax t o
  | 0x07 => r.ty?.map fun t => .sand t o
  | 0x08 => r.ty?.map fun t => .sor t o
  | 0x09 => r.ty?.map fun t => .sxor t o
  | 0x0A => r.ty?.map fun t => .snot t o
  | 0x0B => r.ty?.map fun t => .sshl t o
  | 0x0C => r.ty?.map fun t => .sshr t o
  | 0x0D => r.ty?.map fun t => .ssra t o
  | 0x0E => r.ty?.map fun t => .spopc t o
  | 0x0F => r.ty?.map fun t => .sclz t o
  | 0x10 => r.ty?.map fun t => .sbfe t o
  | 0x11 => r.ty?.map fun t => .sbfi t o
  | 0x12 => r.ty?.map fun t => .scmpeq t o
  | 0x13 => r.ty?.map fun t => .scmpne t o
  | 0x14 => r.ty?.map fun t => .scmplt t o
  | 0x15 => r.ty?.map fun t => .scmple t o
  | 0x16 => r.ty?.map fun t => .ssel t o
  | 0x17 => some (.sgetr o)
  | 0x18 => some (.ssetr o)
  | 0x19 => some (.setx o)
  | 0x1A => some (.getx o)
  | 0x1B => some (.xand o)
  | 0x1C => some (.xandn o)
  | 0x1E => some (.bra o)
  | 0x20 => some (.brxz o)
  | 0x21 => some (.brxnz o)
  | 0x22 => some (.call o)
  | 0x23 => some (.ret o)
  | 0x25 => some (.loop o)
  | 0x26 => some (.icinv o)
  | 0x27 => some (.icsync o)
  | 0x28 => some (.sleep o)
  | 0x2A => some (.exit o)
  | 0x2B => some (.halt o)
  | 0x1D => some (if o.b = .v 0 then .xrestore o else .xrestoreMasked o)
  | 0x1F => some (if r.tyBits = 0 then .brcT o else .brcF o)
  | 0x24 =>
    match o.ext with
    | .imm _ => some (.jmpiImm o)
    | _ => some (if o.b = .v 0 then .jmpi o else .jmpiIndex o)
  | 0x29 =>
    match o.ext with
    | .imm _ => some (.nopW96 o)
    | .imm64 _ => some (.nopW128 o)
    | _ => some (.nop o)
  | _ => none

/-- The FORM field of VSHFL (R177). -/
def Ext.aux : Ext → BitVec 21
  | .mod m => m.aux
  | .immMod _ m => m.aux
  | _ => 0

def shflForm (o : COp) : Nat := (o.ext.aux.extractLsb' 0 2).toNat

/-- The instruction of a vector word whose operands are `o`. -/
def buildVector (r : Raw) (o : COp) : Nat → Option Instr
  | 0x40 => r.ty?.map fun t => .vmov t o
  | 0x41 => r.ty?.map fun t => .vadd t o
  | 0x42 => r.ty?.map fun t => .vsub t o
  | 0x43 => r.ty?.map fun t => .vmul t o
  | 0x44 => r.ty?.map fun t => .vmulh t o
  | 0x45 => r.ty?.map fun t => .vmulw t o
  | 0x46 => r.ty?.map fun t => .vfma t o
  | 0x47 => r.ty?.map fun t => .vmin t o
  | 0x48 => r.ty?.map fun t => .vmax t o
  | 0x49 => r.ty?.map fun t => .vclamp t o
  | 0x4A => r.ty?.map fun t => .vabs t o
  | 0x4B => r.ty?.map fun t => .vneg t o
  | 0x4C => r.ty?.map fun t => .vcsgn t o
  | 0x4D => r.ty?.map fun t => .vaddc t o
  | 0x4E => r.ty?.map fun t => .vsubb t o
  | 0x4F => r.ty?.map fun t => .vdot2 t o
  | 0x50 => r.ty?.map fun t => .vdot4 t o
  | 0x51 => r.ty?.map fun t => .vand t o
  | 0x52 => r.ty?.map fun t => .vor t o
  | 0x53 => r.ty?.map fun t => .vxor t o
  | 0x54 => r.ty?.map fun t => .vnot t o
  | 0x55 => r.ty?.map fun t => .vshl t o
  | 0x56 => r.ty?.map fun t => .vshr t o
  | 0x57 => r.ty?.map fun t => .vsra t o
  | 0x58 => r.ty?.map fun t => .vpopc t o
  | 0x59 => r.ty?.map fun t => .vclz t o
  | 0x5A => r.ty?.map fun t => .vbrev t o
  | 0x5B => r.ty?.map fun t => .vbfe t o
  | 0x5C => r.ty?.map fun t => .vbfi t o
  | 0x5D => r.ty?.map fun t => .vpermb t o
  | 0x5E => r.ty?.map fun t => .vcmpeq t o
  | 0x5F => r.ty?.map fun t => .vcmpne t o
  | 0x60 => r.ty?.map fun t => .vcmplt t o
  | 0x61 => r.ty?.map fun t => .vcmple t o
  | 0x62 => r.ty?.map fun t => .vcmpu t o
  | 0x63 => r.ty?.map fun t => .vsel t o
  | 0x64 => r.ty?.map fun t => .vcvt t o
  | 0x65 => r.ty?.map fun t => .vsepack t o
  | 0x66 => r.ty?.map fun t => .vseunpk t o
  | 0x67 => r.ty?.map fun t => .vfract t o
  | 0x68 => r.ty?.map fun t => .vldexp t o
  | 0x69 => r.ty?.map fun t => .vsqrt t o
  | 0x6A => r.ty?.map fun t => .vrcp t o
  | 0x6B => r.ty?.map fun t => .vrsq t o
  | 0x6C => r.ty?.map fun t => .vexp2 t o
  | 0x6D => r.ty?.map fun t => .vlog2 t o
  | 0x6E => r.ty?.map fun t => .vsin t o
  | 0x6F => r.ty?.map fun t => .vcos t o
  | 0x73 => r.ty?.map fun t => .vbcast t o
  | 0x77 => r.ty?.map fun t => .vrint t o
  | 0x74 => some (.vxset o)
  | 0x75 => some (.vxadd o)
  | 0x76 => some (.vptest o)
  | 0x70 => r.ty?.map fun t =>
    match shflForm o with
    | 0 => .vshflIdx t o
    | 1 => .vshflXor t o
    | 2 => .vshflUp t o
    | _ => .vshflDn t o
  | 0x71 =>
    match r.tyBits.toNat with
    | 0 => some (.vvoteAny o)
    | 1 => some (.vvoteAll o)
    | _ => some (.vvoteBallot o)
  | 0x72 => some (if r.tyBits = 0 then .vlaneId o else .vlanePfx o)
  | _ => none

/-- The instruction of a memory word whose operands are `o`. -/
def buildMem (o : MOp) : Nat → Option Instr
  | 0xA0 => some (.ld o)
  | 0xA1 => some (.st o)
  | 0xA2 => some (.ldg o)
  | 0xA3 => some (.stg o)
  | 0xA4 => some (.lds o)
  | 0xA5 => some (.sts o)
  | 0xA6 => some (.ldl o)
  | 0xA7 => some (.stl o)
  | 0xA8 => some (.ldc o)
  | 0xA9 => some (.ldnc o)
  | 0xAA => some (.aadd o)
  | 0xAB => some (.amin o)
  | 0xAC => some (.amax o)
  | 0xAD => some (.aand o)
  | 0xAE => some (.aor o)
  | 0xAF => some (.axor o)
  | 0xB0 => some (.axch o)
  | 0xB1 => some (.acas o)
  | 0xB2 => some (.afadd o)
  | 0xB4 => some (.prefetch o)
  | 0xB3 =>
    match o.ord with
    | .rlx => none
    | .acq => some (.fenceAcq o)
    | .rel => some (.fenceRel o)
    | .acqrel => some (.fenceAcqrel o)
  | _ => none

/-- The instruction of an engine word whose operands are `o`. -/
def buildEngine (o : EOp) : Nat → Option Instr
  | 0xC0 => some (.mmat o)
  | 0xC1 => some (.mmar o)
  | 0xC3 => some (.accz o)
  | 0xC4 => some (.accld o)
  | 0xC5 => some (.accst o)
  | 0xC6 => some (.accrd o)
  | 0xC7 => some (.tidset o)
  | 0xC8 => some (.tidget o)
  | 0xC9 => some (.chkcfg o)
  | 0xD0 => some (.cpin o)
  | 0xD1 => some (.cpout o)
  | 0xD2 => some (.tldef o)
  | 0xD3 => some (.tlwait o)
  | 0xD4 => some (.tlfree o)
  | 0xD5 => some (.tlstate o)
  | 0xD8 => some (.bar o)
  | 0xD9 => some (.bararr o)
  | 0xDA => some (.barwait o)
  | 0xDB => some (.watch o)
  | 0xDD => some (.waitw o)
  | 0xDE => some (.waitc o)
  | 0xDF => some (.yield o)
  | 0xE0 => some (.tspawn o)
  | 0xE1 => some (.tspawnr o)
  | 0xE2 => some (.trng o)
  | 0xE4 => some (.tdone o)
  | 0xE5 => some (.tabort o)
  | 0xE6 => some (.tfrontq o)
  | 0xE7 => some (.tsync o)
  | 0xE8 => some (.tisspec o)
  | 0xE9 => some (.tctx o)
  | 0xED => some (.svld o)
  | 0xEE => some (.svinfo o)
  | 0xF1 => some (.collq o)
  | 0xF2 => some (.stake o)
  | 0xF3 => some (.stakeq o)
  | 0xF6 => some (.cntrd o)
  | 0xF8 => some (.hintq o)
  | 0xF9 => some (.dbgmark o)
  | 0xFB => some (.bkpt o)
  | 0xC2 => some (if o.fn.getLsbD 6 then .mvb o else .mvbTile o)
  | 0xD6 => some (if o.fn.getLsbD 0 then .pbarr o else .pbinit o)
  | 0xD7 => some (if o.fn.getLsbD 0 then .pbwait o else .pbexp o)
  | 0xDC => some (if o.fn.getLsbD 2 then .unwatchAll o else .unwatch o)
  | 0xE3 =>
    match (o.fn.extractLsb' 0 2).toNat with
    | 0 => some (.tsplitq o)
    | 1 => some (.tsplitqPin o)
    | _ => some (.tsplitqUnpin o)
  | 0xEC => some (if o.fn.getLsbD 1 then .svgrpClr o else .svgrp o)
  | 0xF0 =>
    match (o.fn.extractLsb' 4 3).toNat with
    | 0 => some (.collAllreduce o)
    | 1 => some (.collReducescatter o)
    | 2 => some (.collAllgather o)
    | 3 => some (.collBroadcast o)
    | _ => some (.collA2av o)
  | 0xF7 => some (if o.fn.getLsbD 0 then .clkrdTag o else .clkrd o)
  | 0xFA =>
    match (o.fn.extractLsb' 0 2).toNat with
    | 0 => some (.trap o)
    | 1 => some (.trapT o)
    | _ => some (.trapF o)
  | _ => none

/-- The instruction of a word that passes `formatCheck`. -/
def build (r : Raw) : Option Instr :=
  let maj := r.maj.toNat
  if maj < 0x40 then (COp.ofRaw r).bind fun o => buildScalar r o maj
  else if maj < 0xA0 then (COp.ofRaw r).bind fun o => buildVector r o maj
  else if maj < 0xC0 then (MOp.ofRaw r).bind fun o => buildMem o maj
  else (EOp.ofRaw r).bind fun o => buildEngine o maj

/-! ## The encoder -/

/-- The fields of an instruction's word; none for an event. -/
def Instr.raw? : Instr → Option Raw
  | .smov t o => some (o.raw 0x00 t.code)
  | .sadd t o => some (o.raw 0x01 t.code)
  | .ssub t o => some (o.raw 0x02 t.code)
  | .smul t o => some (o.raw 0x03 t.code)
  | .smulh t o => some (o.raw 0x04 t.code)
  | .smin t o => some (o.raw 0x05 t.code)
  | .smax t o => some (o.raw 0x06 t.code)
  | .sand t o => some (o.raw 0x07 t.code)
  | .sor t o => some (o.raw 0x08 t.code)
  | .sxor t o => some (o.raw 0x09 t.code)
  | .snot t o => some (o.raw 0x0A t.code)
  | .sshl t o => some (o.raw 0x0B t.code)
  | .sshr t o => some (o.raw 0x0C t.code)
  | .ssra t o => some (o.raw 0x0D t.code)
  | .spopc t o => some (o.raw 0x0E t.code)
  | .sclz t o => some (o.raw 0x0F t.code)
  | .sbfe t o => some (o.raw 0x10 t.code)
  | .sbfi t o => some (o.raw 0x11 t.code)
  | .scmpeq t o => some (o.raw 0x12 t.code)
  | .scmpne t o => some (o.raw 0x13 t.code)
  | .scmplt t o => some (o.raw 0x14 t.code)
  | .scmple t o => some (o.raw 0x15 t.code)
  | .ssel t o => some (o.raw 0x16 t.code)
  | .vmov t o => some (o.raw 0x40 t.code)
  | .vadd t o => some (o.raw 0x41 t.code)
  | .vsub t o => some (o.raw 0x42 t.code)
  | .vmul t o => some (o.raw 0x43 t.code)
  | .vmulh t o => some (o.raw 0x44 t.code)
  | .vmulw t o => some (o.raw 0x45 t.code)
  | .vfma t o => some (o.raw 0x46 t.code)
  | .vmin t o => some (o.raw 0x47 t.code)
  | .vmax t o => some (o.raw 0x48 t.code)
  | .vclamp t o => some (o.raw 0x49 t.code)
  | .vabs t o => some (o.raw 0x4A t.code)
  | .vneg t o => some (o.raw 0x4B t.code)
  | .vcsgn t o => some (o.raw 0x4C t.code)
  | .vaddc t o => some (o.raw 0x4D t.code)
  | .vsubb t o => some (o.raw 0x4E t.code)
  | .vdot2 t o => some (o.raw 0x4F t.code)
  | .vdot4 t o => some (o.raw 0x50 t.code)
  | .vand t o => some (o.raw 0x51 t.code)
  | .vor t o => some (o.raw 0x52 t.code)
  | .vxor t o => some (o.raw 0x53 t.code)
  | .vnot t o => some (o.raw 0x54 t.code)
  | .vshl t o => some (o.raw 0x55 t.code)
  | .vshr t o => some (o.raw 0x56 t.code)
  | .vsra t o => some (o.raw 0x57 t.code)
  | .vpopc t o => some (o.raw 0x58 t.code)
  | .vclz t o => some (o.raw 0x59 t.code)
  | .vbrev t o => some (o.raw 0x5A t.code)
  | .vbfe t o => some (o.raw 0x5B t.code)
  | .vbfi t o => some (o.raw 0x5C t.code)
  | .vpermb t o => some (o.raw 0x5D t.code)
  | .vcmpeq t o => some (o.raw 0x5E t.code)
  | .vcmpne t o => some (o.raw 0x5F t.code)
  | .vcmplt t o => some (o.raw 0x60 t.code)
  | .vcmple t o => some (o.raw 0x61 t.code)
  | .vcmpu t o => some (o.raw 0x62 t.code)
  | .vsel t o => some (o.raw 0x63 t.code)
  | .vcvt t o => some (o.raw 0x64 t.code)
  | .vsepack t o => some (o.raw 0x65 t.code)
  | .vseunpk t o => some (o.raw 0x66 t.code)
  | .vfract t o => some (o.raw 0x67 t.code)
  | .vldexp t o => some (o.raw 0x68 t.code)
  | .vsqrt t o => some (o.raw 0x69 t.code)
  | .vrcp t o => some (o.raw 0x6A t.code)
  | .vrsq t o => some (o.raw 0x6B t.code)
  | .vexp2 t o => some (o.raw 0x6C t.code)
  | .vlog2 t o => some (o.raw 0x6D t.code)
  | .vsin t o => some (o.raw 0x6E t.code)
  | .vcos t o => some (o.raw 0x6F t.code)
  | .vbcast t o => some (o.raw 0x73 t.code)
  | .vrint t o => some (o.raw 0x77 t.code)
  | .sgetr o => some (o.raw 0x17 0)
  | .ssetr o => some (o.raw 0x18 0)
  | .setx o => some (o.raw 0x19 0)
  | .getx o => some (o.raw 0x1A 0)
  | .xand o => some (o.raw 0x1B 0)
  | .xandn o => some (o.raw 0x1C 0)
  | .bra o => some (o.raw 0x1E 0)
  | .brxz o => some (o.raw 0x20 0)
  | .brxnz o => some (o.raw 0x21 0)
  | .call o => some (o.raw 0x22 0)
  | .ret o => some (o.raw 0x23 0)
  | .loop o => some (o.raw 0x25 0)
  | .icinv o => some (o.raw 0x26 0)
  | .icsync o => some (o.raw 0x27 0)
  | .sleep o => some (o.raw 0x28 0)
  | .exit o => some (o.raw 0x2A 0)
  | .halt o => some (o.raw 0x2B 0)
  | .vxset o => some (o.raw 0x74 0)
  | .vxadd o => some (o.raw 0x75 0)
  | .vptest o => some (o.raw 0x76 0)
  | .xrestore o => some (o.raw 0x1D 0)
  | .xrestoreMasked o => some (o.raw 0x1D 0)
  | .brcT o => some (o.raw 0x1F 0)
  | .brcF o => some (o.raw 0x1F 1)
  | .jmpi o => some (o.raw 0x24 0)
  | .jmpiIndex o => some (o.raw 0x24 0)
  | .jmpiImm o => some (o.raw 0x24 0)
  | .nop o => some (o.raw 0x29 0)
  | .nopW96 o => some (o.raw 0x29 0)
  | .nopW128 o => some (o.raw 0x29 0)
  | .vshflIdx t o => some (o.raw 0x70 t.code)
  | .vshflXor t o => some (o.raw 0x70 t.code)
  | .vshflUp t o => some (o.raw 0x70 t.code)
  | .vshflDn t o => some (o.raw 0x70 t.code)
  | .vvoteAny o => some (o.raw 0x71 0)
  | .vvoteAll o => some (o.raw 0x71 1)
  | .vvoteBallot o => some (o.raw 0x71 2)
  | .vlaneId o => some (o.raw 0x72 0)
  | .vlanePfx o => some (o.raw 0x72 1)
  | .ld o => some (o.raw 0xA0)
  | .st o => some (o.raw 0xA1)
  | .ldg o => some (o.raw 0xA2)
  | .stg o => some (o.raw 0xA3)
  | .lds o => some (o.raw 0xA4)
  | .sts o => some (o.raw 0xA5)
  | .ldl o => some (o.raw 0xA6)
  | .stl o => some (o.raw 0xA7)
  | .ldc o => some (o.raw 0xA8)
  | .ldnc o => some (o.raw 0xA9)
  | .aadd o => some (o.raw 0xAA)
  | .amin o => some (o.raw 0xAB)
  | .amax o => some (o.raw 0xAC)
  | .aand o => some (o.raw 0xAD)
  | .aor o => some (o.raw 0xAE)
  | .axor o => some (o.raw 0xAF)
  | .axch o => some (o.raw 0xB0)
  | .acas o => some (o.raw 0xB1)
  | .afadd o => some (o.raw 0xB2)
  | .prefetch o => some (o.raw 0xB4)
  | .mmat o => some (o.raw 0xC0)
  | .mmar o => some (o.raw 0xC1)
  | .accz o => some (o.raw 0xC3)
  | .accld o => some (o.raw 0xC4)
  | .accst o => some (o.raw 0xC5)
  | .accrd o => some (o.raw 0xC6)
  | .tidset o => some (o.raw 0xC7)
  | .tidget o => some (o.raw 0xC8)
  | .chkcfg o => some (o.raw 0xC9)
  | .cpin o => some (o.raw 0xD0)
  | .cpout o => some (o.raw 0xD1)
  | .tldef o => some (o.raw 0xD2)
  | .tlwait o => some (o.raw 0xD3)
  | .tlfree o => some (o.raw 0xD4)
  | .tlstate o => some (o.raw 0xD5)
  | .bar o => some (o.raw 0xD8)
  | .bararr o => some (o.raw 0xD9)
  | .barwait o => some (o.raw 0xDA)
  | .watch o => some (o.raw 0xDB)
  | .waitw o => some (o.raw 0xDD)
  | .waitc o => some (o.raw 0xDE)
  | .yield o => some (o.raw 0xDF)
  | .tspawn o => some (o.raw 0xE0)
  | .tspawnr o => some (o.raw 0xE1)
  | .trng o => some (o.raw 0xE2)
  | .tdone o => some (o.raw 0xE4)
  | .tabort o => some (o.raw 0xE5)
  | .tfrontq o => some (o.raw 0xE6)
  | .tsync o => some (o.raw 0xE7)
  | .tisspec o => some (o.raw 0xE8)
  | .tctx o => some (o.raw 0xE9)
  | .svld o => some (o.raw 0xED)
  | .svinfo o => some (o.raw 0xEE)
  | .collq o => some (o.raw 0xF1)
  | .stake o => some (o.raw 0xF2)
  | .stakeq o => some (o.raw 0xF3)
  | .cntrd o => some (o.raw 0xF6)
  | .hintq o => some (o.raw 0xF8)
  | .dbgmark o => some (o.raw 0xF9)
  | .bkpt o => some (o.raw 0xFB)
  | .fenceAcq o => some (o.raw 0xB3)
  | .fenceRel o => some (o.raw 0xB3)
  | .fenceAcqrel o => some (o.raw 0xB3)
  | .mvb o => some (o.raw 0xC2)
  | .mvbTile o => some (o.raw 0xC2)
  | .pbinit o => some (o.raw 0xD6)
  | .pbarr o => some (o.raw 0xD6)
  | .pbexp o => some (o.raw 0xD7)
  | .pbwait o => some (o.raw 0xD7)
  | .unwatch o => some (o.raw 0xDC)
  | .unwatchAll o => some (o.raw 0xDC)
  | .tsplitq o => some (o.raw 0xE3)
  | .tsplitqPin o => some (o.raw 0xE3)
  | .tsplitqUnpin o => some (o.raw 0xE3)
  | .svgrp o => some (o.raw 0xEC)
  | .svgrpClr o => some (o.raw 0xEC)
  | .collAllreduce o => some (o.raw 0xF0)
  | .collReducescatter o => some (o.raw 0xF0)
  | .collAllgather o => some (o.raw 0xF0)
  | .collBroadcast o => some (o.raw 0xF0)
  | .collA2av o => some (o.raw 0xF0)
  | .clkrd o => some (o.raw 0xF7)
  | .clkrdTag o => some (o.raw 0xF7)
  | .trap o => some (o.raw 0xFA)
  | .trapT o => some (o.raw 0xFA)
  | .trapF o => some (o.raw 0xFA)
  | .undefinedEncoding _ => none
  | .icacheFill => none
  | .fairnessCountExpire => none
  | .longLatencyWriteback => none
  | .branchPenaltyEnd => none
  | .sleepExpire => none
  | .icinvComplete => none
  | .trapRecordWrite => none
  | .warpSlotRelease => none
  | .workgroupRetire => none
  | .l1Eviction => none
  | .boundaryWriteDrain => none
  | .releaseComplete => none
  | .pageWalkComplete => none
  | .invalidationComplete => none
  | .mmatComplete => none
  | .accumulatorMoveComplete => none
  | .accstComplete => none
  | .mvbComplete => none
  | .checkComplete => none
  | .tidsetComplete => none
  | .copyComplete => none
  | .copyFault => none
  | .workgroupPlace => none
  | .parkStart => none
  | .saveComplete => none
  | .restoreComplete => none
  | .quantumExpire => none
  | .plumbRecognise => none
  | .taskDispatch => none
  | .taskCommit => none
  | .launchComplete => none
  | .collAccept => none
  | .chunkCounterRaise => none
  | .collComplete => none
  | .collFault => none
  | .readRequest => none
  | .readResponse => none
  | .write => none
  | .atomic => none
  | .collectiveData => none
  | .collectiveControl => none
  | .acknowledgement => none
  | .flitResend => none
  | .peerTimeout => none
  | .domainKeyLoad => none
  | .launch => none
  | .launchb => none
  | .wait => none
  | .waitSatisfied => none
  | .signal => none
  | .marker => none
  | .timestamp => none
  | .copyh => none
  | .copyhComplete => none
  | .nopPacket => none
  | .qwptrWrite => none
  | .queueEnable => none
  | .queueDisable => none
  | .queueReset => none
  | .coreSetGrant => none
  | .queueQuantumExpire => none
  | .graceExpire => none
  | .rampWindowExpire => none
  | .lockInterfaceRequest => none
  | .startInterfaceRequest => none
  | .stopInterfaceRequest => none
  | .getDeviceInterfaceReport => none
  | .firmwareStage => none
  | .firmwareActivate => none
  | .cancel => none
  | .firmwareSwitch => none
  | .summary => none
  | .coldStart => none
  | .warmStart => none
  | .partReady => none
  | .invalidate => none
  | .trbaseWrite => none
  | .trtailWrite => none
  | .trflagClear => none
  | .cntclr => none
  | .eccstatClear => none
  | .domlostClear => none
  | .scrubError => none
  | .boostInterval => none
  | .boostRefill => none
  | .boostStepDown => none
  | .resume => none
  | .kill => none
  | .replay => none
  | .debugWindowWrite => none
  | .registerWrite => none
  | .hostWrite => none
  | .matchTimeout => none

/-- The bits of an instruction, zero above its length; zero for an event. -/
def encodeBits (i : Instr) : BitVec 128 :=
  match i.raw? with
  | some r => r.bits
  | none => 0

/-- Length in bytes of an instruction; 0 for an event. -/
def encodeLen (i : Instr) : Nat :=
  match i.raw? with
  | some r => lenBytes r.len
  | none => 0

/-- The bytes of the low `n` bytes of `w`, least significant first (R4). -/
def bytesOf (n : Nat) (w : BitVec 128) : List Byte :=
  (List.range n).map fun k => w.extractLsb' (8 * k) 8

/-- The value of bytes, least significant first (R4). -/
def bitsOfBytes : List Byte → Nat
  | [] => 0
  | b :: bs => b.toNat + 256 * bitsOfBytes bs

/-- The 32-bit words of an instruction, lowest address first. -/
def encode (i : Instr) : List Word :=
  (List.range (encodeLen i / 4)).map fun k => (encodeBits i).extractLsb' (32 * k) 32

/-- The bytes of an instruction, lowest address first (R4, R51). -/
def encodeBytes (i : Instr) : List Byte := bytesOf (encodeLen i) (encodeBits i)

/-! ## The decoder -/

/-- Why bytes stand for no instruction. -/
inductive Reject
  | short                 -- fewer bytes than the LEN field asks for
  | fill                  -- a fill word, which fetch skips (R52)
  | trap (c : TrapCode)   -- the trap that the word raises (R70)
  deriving DecidableEq, Repr

/-- What the decoder reads. -/
inductive Decoded
  | instr (i : Instr)
  | reject (r : Reject)
  deriving DecidableEq, Repr

/-- Decodes a word whose bits above its length are ignored (R51 to R70). -/
def decodeBits (w : BitVec 128) : Decoded :=
  let n := lenBytes (w.extractLsb' 0 2)
  if n = 4 then
    if w.extractLsb' 0 32 = 3 then .reject .fill else .reject (.trap .reservedField)
  else
    let r := Raw.ofBits (maskLen n w)
    match formatCheck .wide r with
    | some c => .reject (.trap c)
    | none =>
      match build r with
      | some i => .instr i
      | none => .reject (.trap .illegalInstruction)

/-- Decodes the instruction at the head of a list of bytes. -/
def decode (bs : List Byte) : Decoded :=
  let w := BitVec.ofNat 128 (bitsOfBytes (bs.take 16))
  if bs.length < 4 ∨ bs.length < lenBytes (w.extractLsb' 0 2) then .reject .short
  else decodeBits w

/-- The instruction that issues for a fetched word: a word that the decoder rejects issues as `undefinedEncoding`,
whose meaning raises the trap of R70. -/
def issueOf (w : BitVec 128) : Instr :=
  match decodeBits w with
  | .instr i => i
  | .reject _ => .undefinedEncoding (maskLen (lenBytes (w.extractLsb' 0 2)) w)

/-- The instruction that the decoder reads from a word of `nbits` bits numbered as the opcode table numbers them,
its bits above `nbits` zero. -/
def decodeTableWord (nbits w : Nat) : Option Instr :=
  match decode (bytesOf 16 (BitVec.ofNat 128 (w % 2 ^ nbits))) with
  | .instr i => some i
  | .reject _ => none

end Sys2Proof
end

