-- ==== Sys2Proof/Machine/Sparse.lean ====
section
/-!
DEFINITION. Finite maps as plain data. `Sparse` is a total map with a default, in one canonical form: keys strictly
rising, no entry equal to the default. `Tab` is a partial map with strictly rising keys. `MCells` is memory.
-/
namespace Sys2Proof.Machine

/-- A total map from numbers, as its entries that differ from a default. -/
abbrev Sparse (α : Type) := List (Nat × α)

/-- The value at a key. -/
def sget {α : Type} (d : α) : Sparse α → Nat → α
  | [], _ => d
  | (k, v) :: m, i => if i = k then v else sget d m i

/-- Puts an entry into a map with rising keys. -/
def putEntry {α : Type} (x : α) : Sparse α → Nat → Sparse α
  | [], i => [(i, x)]
  | (k, y) :: m, i =>
    if i < k then (i, x) :: (k, y) :: m
    else if i = k then (i, x) :: m
    else (k, y) :: putEntry x m i

/-- Puts an entry into a map with rising keys; `none` removes the key. -/
def putAt {α : Type} (v : Option α) (m : Sparse α) (i : Nat) : Sparse α :=
  match v with
  | some x => putEntry x m i
  | none => m.filter fun e => e.1 != i

/-- The map with the value at a key replaced; the default removes the entry. -/
def sset {α : Type} [DecidableEq α] (d : α) (m : Sparse α) (i : Nat) (v : α) : Sparse α :=
  putAt (if v = d then none else some v) m i

/-- Keys strictly rising and above a bound. -/
def risingFrom {α : Type} : Nat → Sparse α → Bool
  | _, [] => true
  | b, (k, _) :: m => decide (b ≤ k) && risingFrom (k + 1) m

/-- The canonical form of a map with default `d`. -/
def scanon {α : Type} [DecidableEq α] (d : α) (m : Sparse α) : Bool :=
  risingFrom 0 m && m.all fun e => decide (e.2 ≠ d)

/-- A partial map from numbers. -/
abbrev Tab (α : Type) := List (Nat × α)

/-- The entry of a key. -/
def tget {α : Type} : Tab α → Nat → Option α
  | [], _ => none
  | (k, v) :: m, i => if i = k then some v else tget m i

/-- Puts or replaces an entry. -/
def tput {α : Type} (m : Tab α) (i : Nat) (v : α) : Tab α := putAt (some v) m i

/-- Removes an entry. -/
def tdel {α : Type} (m : Tab α) (i : Nat) : Tab α := putAt none m i

/-- Applies a function to every entry. -/
def tmap {α : Type} (f : Nat → α → α) (m : Tab α) : Tab α := m.map fun e => (e.1, f e.1 e.2)

/-- Memory: the bytes that differ from what an unlisted address reads as (see `memDefault`). -/
abbrev Memory := List Host.Cell

/-- What a byte of HBM or host memory that nothing has written reads as. DESIGN CHOICE (log entry 4): R222 leaves the
initial value of HBM unspecified but fixed, and gives host memory the value its owner gives it; the model takes 0.
Unsafe: a claim could lean on the zero. -/
def memDefault : Byte := 0

/-- The byte at an address. -/
def Memory.byte (m : Memory) (a : Nat) : Byte := sget memDefault m a

/-- The memory with one byte written, in canonical form. -/
def Memory.write (m : Memory) (a : Nat) (b : Byte) : Memory := sset memDefault m a b

/-- Writes bytes at rising addresses. -/
def Memory.writeBytes (m : Memory) (a : Nat) : List Byte → Memory
  | [] => m
  | b :: bs => Memory.writeBytes (m.write a b) (a + 1) bs

/-- `n` bytes from an address. -/
def Memory.bytes (m : Memory) (a : Nat) : Nat → List Byte
  | 0 => []
  | n + 1 => m.byte a :: Memory.bytes m (a + 1) n

/-- The canonical form of memory: addresses strictly rising, no byte equal to `memDefault`. -/
def Memory.wf (m : Memory) : Bool := scanon memDefault m

end Sys2Proof.Machine
end

