-- ==== Sys2Proof/WellFormed.lean ====
section
/-!
DEFINITION. Which terms of `Instr` are instructions of the CY4: the format rules of spec/03 R56 to R66 hold in the widest
context, and the fields that select a form agree with the constructor.
-/
namespace Sys2Proof

/-- The immediate of a jump or no-operation form. -/
def Ext.isImm : Ext → Bool
  | .imm _ => true
  | _ => false

def Ext.isImm64 : Ext → Bool
  | .imm64 _ => true
  | _ => false

/-- The fields that select a form of an instruction with several constructors agree with the constructor. -/
def Instr.selectorOk : Instr → Bool
  | .xrestore o => o.b == .v 0
  | .xrestoreMasked o => o.b != .v 0
  | .jmpi o => !o.ext.isImm && o.b == .v 0
  | .jmpiIndex o => !o.ext.isImm && o.b != .v 0
  | .jmpiImm o => o.ext.isImm
  | .nop o => !o.ext.isImm && !o.ext.isImm64
  | .nopW96 o => o.ext.isImm
  | .nopW128 o => o.ext.isImm64
  | .vshflIdx _ o => shflForm o == 0
  | .vshflXor _ o => shflForm o == 1
  | .vshflUp _ o => shflForm o == 2
  | .vshflDn _ o => shflForm o == 3
  | .fenceAcq o => o.ord == .acq
  | .fenceRel o => o.ord == .rel
  | .fenceAcqrel o => o.ord == .acqrel
  | .mvb o => o.fn.getLsbD 6
  | .mvbTile o => !o.fn.getLsbD 6
  | .pbinit o => !o.fn.getLsbD 0
  | .pbarr o => o.fn.getLsbD 0
  | .pbexp o => !o.fn.getLsbD 0
  | .pbwait o => o.fn.getLsbD 0
  | .unwatch o => !o.fn.getLsbD 2
  | .unwatchAll o => o.fn.getLsbD 2
  | .tsplitq o => (o.fn.extractLsb' 0 2).toNat == 0
  | .tsplitqPin o => (o.fn.extractLsb' 0 2).toNat == 1
  | .tsplitqUnpin o => (o.fn.extractLsb' 0 2).toNat == 2
  | .svgrp o => !o.fn.getLsbD 1
  | .svgrpClr o => o.fn.getLsbD 1
  | .collAllreduce o => (o.fn.extractLsb' 4 3).toNat == 0
  | .collReducescatter o => (o.fn.extractLsb' 4 3).toNat == 1
  | .collAllgather o => (o.fn.extractLsb' 4 3).toNat == 2
  | .collBroadcast o => (o.fn.extractLsb' 4 3).toNat == 3
  | .collA2av o => (o.fn.extractLsb' 4 3).toNat == 4
  | .clkrd o => !o.fn.getLsbD 0
  | .clkrdTag o => o.fn.getLsbD 0
  | .trap o => (o.fn.extractLsb' 0 2).toNat == 0
  | .trapT o => (o.fn.extractLsb' 0 2).toNat == 1
  | .trapF o => (o.fn.extractLsb' 0 2).toNat == 2
  | _ => true

/-- Why a term is no instruction: it has no word, its format raises a trap, or its selecting fields name another form. -/
inductive Malformed
  | noWord
  | format (c : TrapCode)
  | selector
  deriving DecidableEq, Repr

/-- The first thing wrong with a term; none for a well-formed instruction. -/
def Instr.malformed (i : Instr) : Option Malformed :=
  match i.raw? with
  | none => some .noWord
  | some r =>
    match formatCheck .wide r with
    | some c => some (.format c)
    | none => if i.selectorOk then none else some .selector

/-- The term is an instruction of the CY4. -/
abbrev Instr.WF (i : Instr) : Prop := i.malformed = none

end Sys2Proof
end

