-- ==== Sys2Proof/Machine/State.lean ====
section
/-!
DEFINITION. The state of the machine: everything spec/ gives the CY4, as plain data, and the state after reset.
A location is a physical address: a global one below 2^40 (R199), or `hostBase` plus a host physical address.
-/
namespace Sys2Proof.Machine

/-- Why the machine stops. -/
inductive Fault
  /-- Raised by PAGE_WALK_COMPLETE when a translation root points outside the 40-bit global memory (R198, R199):
  the table that the walk must read does not exist. Safe: the machine stops where the reference gives no effect. -/
  | noSuchAddress
  deriving DecidableEq, Repr

/-- Why an instruction has no meaning. -/
inductive Refusal
  /-- Raised only by the arms of `exec` that have no meaning yet. Safe: the machine stops. -/
  | notModelled (mnemonic : String)
  deriving DecidableEq, Repr

/-! ## Memory -/

/-- A translation in use (R200): the page, log2 of its size, the leaf entry, and the interface and die whose root gave it. -/
structure Xlat where
  vi : Nat := 0
  die : Nat := 0
  page : Nat := 0
  lg : Nat := 16
  level : Nat := 0
  leaf : DWord := 0
  deriving DecidableEq, Repr

/-- The unpublished mark of a sector (R194, R226): the marking warp and the bytes covered. A mark is present exactly
while its flag is set. -/
structure Mark where
  warp : Nat
  cover : BitVec 32
  deriving DecidableEq, Repr

/-- A 32-byte sector of an L1 (R193), its valid and dirty bytes, data and mark. `priv`: its line holds private data. -/
structure Sector where
  valid : BitVec 32 := 0
  dirty : BitVec 32 := 0
  data : BitVec 256 := 0
  mark : Option Mark := none
  priv : Bool := false
  deriving DecidableEq, Repr

/-- An entry of a die's boundary write buffer (R195): bytes of one sector on their way to their home. `id` is 4·count + die.
`host`: the home is host memory (R196). `vi` is the interface that counts it (R206). -/
structure WEntry where
  id : Nat
  sector : Nat
  mask : BitVec 32
  data : BitVec 256
  mark : Option Mark
  host : Bool
  vi : Nat
  deriving DecidableEq, Repr

/-- A page walk that a die's walker has to do (R198, R200). `acc`: 0 read, 1 write, 2 atomic, 3 fetch. -/
structure Walk where
  id : Nat
  warp : Nat
  vi : Nat
  va : Nat
  acc : Nat
  deriving DecidableEq, Repr

/-- What a walk found (R199, R202). -/
inductive WalkResult
  | ok (x : Xlat)
  | refused (level : Nat)      -- PROTECTION by the walker
  | invalid (level : Nat)      -- V = 0
  | hole                       -- a table outside global memory
  | pending                    -- a table on a stack that is not ready (R411)
  | bad (addr : Nat)           -- an entry in an uncorrectable word (R416): its physical address
  deriving DecidableEq, Repr

/-! ## Warps -/

/-- An index register of a lane (R93, R94). -/
structure XReg where
  index : BitVec 9 := 0
  base : BitVec 9 := 0
  limit : BitVec 9 := 0
  deriving DecidableEq, Repr

/-- A watch slot (R298): the location's sector. -/
structure Watch where
  sector : Nat := 0
  armed : Bool := false
  fired : Bool := false
  deriving DecidableEq, Repr

/-- A warp's record of a barrier (R294). -/
structure BarRec where
  arr : Bool := false
  p : Bool := false
  deriving DecidableEq, Repr

/-- A value for one register of one lane, or of the warp: `key` is 128·n + lane for v_n, n for s_n. -/
structure RegVal where
  key : Nat
  val : Word
  poison : Bool
  deriving DecidableEq, Repr

/-- A peer's answer to one lane of an access (R368): the bytes it returned, or the bit of R429 that refuses it. -/
structure Answer where
  lane : Nat
  data : List Byte := []
  refused : Option Nat := none
  deriving DecidableEq, Repr

/-- An accepted SVLD that has not read its members: OP, its members and the offsets of its lanes. It is suspended where it met an
uncorrectable word (R416, R417); otherwise it waits for a member in transit (R305, R353). -/
structure SvHeld where
  suspended : Bool := true
  op : Nat
  members : List Nat
  offs : List (Nat × Nat)
  pc : DWord := 0                -- the SVLD's address and length
  len : Nat := 8
  deriving DecidableEq, Repr

/-- A long-latency producer in flight (R97): the registers it marks full, the values it writes, what it waits for. -/
structure Producer where
  id : Nat
  vec : Bool
  base : Nat
  count : Nat
  vals : List RegVal
  engine : Bool := false       -- an engine event finishes it (ACCRD, MVB)
  survey : Bool := false       -- an SVLD (R357)
  held : Option SvHeld := none -- an SVLD that has not read its members
  deriving DecidableEq, Repr

/-- A fetch block (R53): address of its first byte and its 32 bytes. -/
structure Block where
  addr : Nat
  bits : BitVec 256
  deriving DecidableEq, Repr

/-- One lane's part of a memory access: its address and the data of OPB and OPC (R203 keeps them for the replay). -/
structure LaneReq where
  lane : Nat
  addr : DWord
  b : BitVec 128
  c : BitVec 128
  deriving DecidableEq, Repr

/-- One instruction that the plumb monitor has seen (R296): its address, what it loaded and wrote, whether it fails a
condition of its own (1, 3 or 4), the sectors it loaded, and whether it is a RET. -/
structure PlumbStep where
  pc : Nat
  vals : List RegVal
  bad : Bool
  secs : List Nat
  ret : Bool := false
  deriving DecidableEq, Repr

/-- The plumb monitor of a warp (R296): whether it follows a loop, its T and B, the count, EXEC and SCC at B, the latest
instructions and how many of all have issued since B was last taken, the last iteration (none where the next has none before it),
the watched sectors of a recognised loop; `pend`, `pendBad`: the loads of the instruction that is completing. -/
structure Plumb where
  on : Bool := false
  target : Nat := 0
  branch : Nat := 0
  count : Nat := 0
  exec : Lanes := 0
  scc : BitVec 2 := 0
  cur : List PlumbStep := []
  last : Option (List PlumbStep) := none
  pend : List Nat := []
  pendBad : Bool := false
  since : Nat := 0
  hit : Bool := false            -- a sector that the iteration under way has loaded was written since (R283, R309)
  sectors : List Nat := []
  recognised : Bool := false
  deriving DecidableEq, Repr

/-- Recognised waits (R281) and what they wait for (R283). -/
inductive Wait
  | barrier (level num : Nat) (v : Bool)
  | pb (off : Nat) (epoch : BitVec 16)
  | watch
  | counter (sector : Nat)
  | plumb (sectors : List Nat)
  | survey (members : List Nat)
  deriving DecidableEq, Repr

/-- What holds a warp that is neither eligible nor waiting by a recognised means. -/
inductive Held
  | walks (ids : List Nat)                 -- page walks of its instruction (R200)
  | release (entries : List Nat)           -- RELEASE_COMPLETE (R196)
  | icinv (scope : Scope) (entries : List Nat)      -- ICINV_COMPLETE (R131)
  | tidset (addr : Nat) (scratch : Bool)   -- TIDSET_COMPLETE (R254)
  | coll                                   -- the meeting of a COLL (R374)
  | peer                                   -- peers have not answered its access (R368)
  deriving DecidableEq, Repr

/-- What a warp does. -/
inductive Status
  | ready
  | penalty (till : Nat)       -- a taken branch (R130)
  | asleep (till : Nat)        -- SLEEP (R134)
  | waiting (w : Wait)
  | held (h : Held)
  | halted (code : Nat)        -- by a trap with this code (R111)
  | replay                     -- parked for replay (R202)
  | deferred                   -- a speculative task's trap (R325)
  | stalled                    -- a speculative task that must become the frontier (R324)
  | exited
  deriving DecidableEq, Repr

/-- What the instruction at the PC has already done, when it issues again after a wait. -/
inductive Cont
  | none
  | released                   -- its release is complete
  | arrived (v : Bool)         -- BAR: arrived with this parity (R294)
  | met                        -- COLL: accepted
  | answered                   -- its peers have answered (R368)
  | stored                     -- a release store: performed, its writes on their way (R298)
  | probing                    -- peers are asked whether their windows let its lanes pass (R211, R368)
  deriving DecidableEq, Repr

/-- The warp that issues in this step, the length of its instruction in bytes and its bits. `adv`: bytes from its address
to the next instruction's; `half`: the next instruction is the second word of a two-word CY3 translation (R72), at the same
address. -/
structure Cur where
  warp : Nat := 0
  len : Nat := 8
  bits : BitVec 128 := 0
  adv : Nat := 8
  half : Bool := false
  deriving DecidableEq, Repr

/-- A warp (R93). `v` is keyed 128·n + lane, `x` 128·i + lane, `latch` 128·p + lane, `vP` by n, `bars` 16·k + n.
`sE`, `vE`: bit n set while register n is empty (R98). `latchAge`: instructions issued since the capture, none if the
slot never held one (R107). -/
structure Warp where
  gid : Nat := 0
  f1 : Nat := 0
  role : Role := .general
  place : Option (Nat × Nat) := none
  pc : DWord := 0
  exec : Lanes := 0
  scc : Bool := false
  sccP : Bool := false
  fstat : Word := 0
  s : Sparse Word := []
  sP : BitVec 128 := 0
  sE : BitVec 128 := 0
  v : Sparse Word := []
  vP : Sparse Lanes := []
  vE : BitVec 256 := 0
  x : Sparse XReg := []
  latch : Sparse DWord := []
  latchP : Sparse Lanes := []
  latchAge : Sparse (Option Nat) := []
  bars : Sparse BarRec := []
  watches : Sparse Watch := []
  lastPage : Tab Xlat := []
  fetched : Option Block := none
  loopBuf : List Nat := []
  retPred : List DWord := []
  flight : List Producer := []
  nextProd : Nat := 0
  plumb : Plumb := {}
  status : Status := .ready
  woken : Bool := false
  before : Status := .ready      -- where it stood when another warp's HALT stopped it (R137)
  word : Option Cur := none      -- the instruction at the PC, issued already and held or waiting
  cont : Cont := .none
  walkRes : List (Nat × Nat × WalkResult) := []
  half : Bool := false           -- the second word of a two-word CY3 translation is next (R72, R76)
  redo : List LaneReq := []
  stopping : Option DWord := none  -- HALT of another warp met it during a replay (R137): INFO1 of its record
  prvLane : Nat := 0
  waitClock : Nat := 0           -- CLOCK when its wait began (R285)
  elig : Nat := 0
  eligSince : Option Nat := none -- CLOCK since which it is eligible (R109)
  overdue : Bool := false
  answers : List Answer := []    -- what peers answered to the access under way (R368)
  badRegs : Tab Nat := []        -- registers whose SRAM word is uncorrectable (R416), keyed 128·n + lane for v_n, 40000 + n for s_n: its pool offset
  win : List (Nat × Nat × Byte) := [] -- aperture writes that take effect at resume (R114): PRVLANE, offset, byte
  deriving DecidableEq, Repr

/-! ## Workgroups and launches -/

/-- States of a tile (R259). -/
inductive TileState | empty | filling | ready | draining
  deriving DecidableEq, Repr

/-- A defined entry of the tile table (R259). -/
structure Tile where
  off : Nat
  tid : Nat
  st : TileState
  deriving DecidableEq, Repr

/-- Accumulation formats (R245): AF codes 0 to 3. -/
inductive AccFmt | f32 | bf16 | f16 | f64
  deriving DecidableEq, Repr

/-- The tag of an accumulator slot (R238). -/
inductive Tag
  | unset
  | head (f : AccFmt)
  | tail (f : AccFmt)
  deriving DecidableEq, Repr

/-- States of a workgroup (R87, R282); an unstarted workgroup has no record. -/
inductive GState | resident | saving | parked | restoring | retired
  deriving DecidableEq, Repr

/-- An open meeting of a COLL (R374): its PC, descriptor registers, first warp's slot and the warps that issued. -/
structure Meeting where
  pc : DWord
  desc : List Word
  slot : Nat
  issued : List Nat
  op : EOp
  kind : Nat
  deriving DecidableEq, Repr

/-- A workgroup (R87 to R93, R282). `f` holds F2 to F5. `acc` is keyed by byte of the slots, `par` by 16·k + n.
Tags absent from `tags` are those of R238 at start. -/
structure Group where
  lid : Nat := 0
  linear : Nat := 0
  f : List Nat := []
  state : GState := .resident
  core : Nat := 0
  warps : List Nat := []
  g : Sparse Word := []
  gP : BitVec 16 := 0
  gWrote : Sparse (Nat × Nat) := []   -- CLOCK plus one and F1 of the latest write of a g register (R95)
  scratch : Memory := []
  acc : Sparse Byte := []
  badWords : Tab Nat := []       -- uncorrectable words (R416), keyed by word of the scratchpad, 2^30 + word of the accumulator slots: the pool offset
  tags : Tab Tag := []
  tiles : Tab Tile := []
  par : Sparse Bool := []
  arrived : List Nat := []       -- keys 16·k + n at which the workgroup has arrived in the current phase (R291)
  pool : Nat := 0
  resSince : Nat := 0
  expired : Bool := false
  parkClock : Nat := 0
  passed : Nat := 0              -- placements that passed over it since its park (R286)
  wasWaiting : Bool := false
  mcs : Nat := 0                 -- MCS of its saved header (R303)
  parking : Bool := false        -- chosen as a victim, waits for the rotation point (R284)
  notices : List Nat := []       -- held barrier notices (R291)
  meet : Option Meeting := none
  first : Bool := true           -- its first start is under way
  suspended : Bool := false      -- save or restore stopped by a fault (R398)
  deriving DecidableEq, Repr

/-- A survey group entry (R347). -/
structure SvGroup where
  lo : Nat
  hi : Nat
  die : Nat
  fld : Nat
  deriving DecidableEq, Repr

/-- A monument entry (R290). -/
structure Monument where
  key : DWord := 0
  ph : Bool := false
  level : Nat := 0
  num : Nat := 0
  expect : Nat := 0
  parkw : Nat := 0
  arrived : Nat := 0
  retired : Nat := 0
  deriving DecidableEq, Repr

/-- A `.role` record (R394). -/
structure RoleRec where
  role : Role
  first : Nat
  count : Nat
  vregs : Nat
  deriving DecidableEq, Repr

/-- Launch kinds (R21). -/
inductive Kind | full | persistent | task
  deriving DecidableEq, Repr

/-- The check configuration (R256). -/
structure CheckCfg where
  l : Nat := 0
  base : DWord := 0
  size : Nat := 16
  deriving DecidableEq, Repr

/-- States of a task (R331); a committed or discarded task has no record. -/
inductive TState | queued | running | stalled | direct | deferred | finished
  deriving DecidableEq, Repr

/-- A trap record (R113). -/
structure TrapRec where
  code : Nat := 0
  len : Nat := 0
  flags : Nat := 0
  slot : Nat := 0
  core : Nat := 0
  pc : DWord := 0
  wid : DWord := 0
  lanes : Lanes := 0
  info0 : DWord := 0
  info1 : DWord := 0
  clock : Nat := 0
  deriving DecidableEq, Repr

/-- A task (R314) with its engine state: buffer (bytes by location), read and write sets (sectors), sources (R319). -/
structure Task where
  ts : DWord := 0
  seq : Word := 0
  lo : Word := 0
  hi : Word := 0
  cur : Word := 0
  range : Bool := false
  pin : Bool := false
  split : Bool := false
  narg : Nat := 0
  entry : Nat := 0
  args : List Word := []
  st : TState := .queued
  die : Nat := 0
  core : Nat := 0
  parent : Option Nat := none
  warp : Nat := 0
  wbuf : Tab Byte := []
  rset : List Nat := []
  wset : List Nat := []
  srcs : List Nat := []
  trap : Option TrapRec := none
  aborted : Bool := false        -- TABORT: finishes with an empty buffer
  deriving DecidableEq, Repr

/-- A placement for which a victim is parked (R285): the victim, its core, and the workgroup that takes the core: the parked
one of this number, or the unstarted one of this linear index. -/
structure Claim where
  victim : Nat
  core : Nat
  parked : Bool
  n : Nat
  deriving DecidableEq, Repr

/-- A launch (R393, R394). `chkCount` counts the MMATs of each core since CHKCFG (R256). `nextWg`, `skipped`: the
unstarted workgroups are those at or above `nextWg` and those skipped. `frozen`: its queue entered ERROR on its
account and it stays as it stands (R391). `killed`: its warps have ended under R403. -/
structure Launch where
  vi : Nat := 0
  q : Nat := 0
  kind : Kind := .full
  gen : Nat := 4
  w : Nat := 32
  widths : List Nat := []
  exts : List Nat := []
  partw : Word := 0
  quantum : Nat := 65536
  monuC : List Nat := []
  privP : Nat := 0
  savePer : Nat := 0
  hdr : DWord := 0
  codeBase : DWord := 0
  codeSize : Nat := 0
  const : Memory := []
  constSize : Nat := 0
  roles : List RoleRec := []
  coll : Bool := false
  pslots : Nat := 0
  save : DWord := 0
  saveSize : Nat := 0
  priv : DWord := 0
  sig : Bool := false
  csig : DWord := 0
  cval : DWord := 0
  args : List Word := []
  cores : List Nat := []         -- cores left for placement (R21); for TASK the reserved cores
  collCores : List Nat := []
  tids : Sparse (BitVec 1024) := []
  survey : Tab SvGroup := []
  mon : Tab Monument := []
  nextStake : Nat := 0
  stakes : Nat := 0
  nextSeq : Word := 1
  check : CheckCfg := {}
  chkCount : Sparse Nat := []
  start : Nat := 0
  nextWg : Nat := 0
  skipped : List Nat := []
  total : Nat := 0
  retired : Nat := 0
  passed : Nat := 0              -- placements that passed over every unstarted workgroup (R286)
  jumped : Sparse Nat := []      -- further ones that passed over an unstarted workgroup, by its linear index
  claim : Option Claim := none   -- the workgroup for which a victim is parked (R285)
  frozen : Bool := false
  killed : Bool := false
  deriving DecidableEq, Repr

/-! ## Engine commands -/

/-- Operations queued at the core matrix engine (R242). -/
inductive MatKind | mmat | accz | accld | accst | accrd
  deriving DecidableEq, Repr

/-- A command accepted by the core matrix engine, with the entries it captured (R243). -/
structure MatCmd where
  id : Nat
  warp : Nat
  gid : Nat
  kind : MatKind
  fmt : AccFmt
  acc : Nat
  ro : Nat := 0
  co : Nat := 0
  za : Bool := false
  sat : Bool := false
  tileA : Option Nat := none
  tileB : Option Nat := none
  offA : Nat := 0
  offB : Nat := 0
  descA : BitVec 1024 := 0
  descB : BitVec 1024 := 0
  count : Nat := 0               -- the core's MMAT count (R256)
  check : CheckCfg := {}         -- l = 0: not checked
  prod : Nat := 0                -- ACCRD: its producer
  exec : Lanes := 0
  wid : DWord := 0
  slot : Nat := 0                -- its warp's slot, its instruction's address and length (R274)
  pc : DWord := 0
  len : Nat := 8
  suspended : Bool := false      -- it met an uncorrectable word (R416)
  deriving DecidableEq, Repr

/-- A check of an MMAT that has not finished (R256). -/
structure Check where
  id : Nat
  core : Nat
  vi : Nat
  cfg : CheckCfg
  acc : Nat
  seq : Nat
  wid : DWord
  abs : Word
  rel : Word
  deriving DecidableEq, Repr

/-- A copy (R272); `done` iterations are complete; `fault` while suspended (R274). -/
structure CopyCmd where
  id : Nat
  warp : Nat
  slot : Nat
  gid : Nat
  out : Bool
  keep : Bool
  tile : Nat
  off : Nat
  tensor : BitVec 1024
  tdesc : BitVec 1024
  regs : List Word
  pb : Option Nat
  pc : DWord
  len : Nat
  done : Nat := 0
  suspended : Bool := false
  asked : Bool := false          -- the row it stands at lies at peers, and they have been asked (R272, R368)
  pages : List Xlat := []        -- the translations with which they were asked (R201)
  peer : List Answer := []       -- what they answered, by the offset in the row
  deriving DecidableEq, Repr

/-- An MVB on its stack (R249). `seq`: its place in the order of arrival (R251). -/
structure MvbCmd where
  id : Nat
  warp : Nat
  gid : Nat
  home : Nat
  desc : BitVec 1024
  row0 : Nat
  rd : Bool
  prod : Nat
  yTile : Nat
  yOff : Nat
  yRows : Nat
  xTile : Nat
  xOff : Nat
  xDesc : BitVec 1024
  yDesc : BitVec 1024 := 0
  seq : Nat := 0
  exec : Lanes
  pages : List Xlat
  slot : Nat := 0                -- its warp's slot, its instruction's address and length (R274)
  pc : DWord := 0
  len : Nat := 8
  suspended : Bool := false      -- it met an uncorrectable word (R416)
  deriving DecidableEq, Repr

/-- A core. `rr`: one more than the slot that issued last (modulo 32), keyed 4·sub-core + class (R109). `icache` is keyed by block number. -/
structure Core where
  l1 : Tab Sector := []
  icache : Tab (BitVec 256) := []
  tlb : List Xlat := []
  rr : Sparse Nat := []
  matq : List MatCmd := []
  copyq : List CopyCmd := []
  mvbs : List MvbCmd := []
  nextCmd : Nat := 0
  badTags : List Nat := []       -- lines of the L1 whose tag fails its parity twice when it is next read (R416)
  issueClock : Nat := 0          -- CLOCK of the latest issue of the core, and its slot (R113, R242)
  issueSlot : Nat := 0
  deriving DecidableEq, Repr

/-- Clock states of a cluster (R418): nominal, 2.6 GHz, 2.8 GHz. -/
inductive Boost | nominal | mid | high
  deriving DecidableEq, Repr

/-- A 128-byte line of an L2 (R195) and the bytes of it that the L2 holds. -/
structure L2Line where
  line : Nat
  held : BitVec 128
  deriving DecidableEq, Repr

/-- A die. `clusters`: keyed 0 to 3. `l2`: the lines that its L2 holds, the latest first (R195); their bytes are those of
the point of coherence under the die's own waiting writes. -/
structure Die where
  wbuf : List WEntry := []
  l2 : List L2Line := []
  badTags : List Nat := []       -- lines of the L2 whose tag fails its parity twice when it is next read (R416)
  nextEntry : Nat := 0
  tlb : List Xlat := []
  walks : List Walk := []
  nextWalk : Nat := 0
  permits : Nat := 64
  clusters : Sparse Boost := []
  lastGrant : Nat := 3
  stepDown : Nat := 0            -- steps left of a step-down (R418)
  calm : Nat := 0                -- CLOCK since which no cluster has run above nominal, or of the refill after it
  rampUsed : Nat := 0            -- granules moved in this ramp window, and the CLOCK of its start (R404)
  rampStart : Nat := 0
  rampMoves : List (Nat × Nat) := []   -- the moves of the last 1 µs: CLOCK and granules
  boostAt : Nat := 0             -- CLOCK of the last interval boundary and of the last step-down (R418)
  stepAt : Nat := 0
  deriving DecidableEq, Repr

/-! ## Interfaces -/

/-- Packets (R392). -/
inductive Packet
  | launch (b : Bool)            -- LAUNCH, LAUNCHB: running as a launch
  | wait (addr : DWord) (val : DWord)
  | copyh (src dst : DWord) (len : Nat)
  deriving DecidableEq, Repr

/-- A queue (R389). `keep`: the cores that it holds; `served`: round-robin stamp of its last grant (R401). `preempt`: CLOCK of
the pre-emption request on its launch (R403). -/
structure Queue where
  qbase : DWord := 0
  qsize : Word := 4
  qwptr : Word := 0
  qrptr : Word := 0
  qprio : Word := 0
  qquant : Word := 1000
  qset : Word := 0
  qnote : DWord := 0
  qmark : DWord := 0
  en : Bool := false
  error : Option (Nat × Nat) := none     -- CODE, DETAIL
  packet : Option Packet := none
  lid : Option Nat := none
  keep : BitVec 256 := 0
  grantClock : Nat := 0          -- CLOCK of the grant, and QQUANT as it was then (R390)
  grantQuant : Nat := 0
  quantExp : Bool := false
  served : Nat := 0
  preempt : Option Nat := none
  notice : Bool := false         -- the notice word of the request waits for its stack (R403, R411)
  qlv : Option Nat := none       -- the layout version of its queue-state record; none: that of the cold start (R405)
  deriving DecidableEq, Repr

/-- Fabric flits (R366). -/
inductive FlitKind | readRequest | readResponse | write | atomic | collData | collControl | ack
  deriving DecidableEq, Repr

/-- A flit that this package has sent and that is not acknowledged (R367). -/
structure Flit where
  rank : Nat
  ctr : Nat
  kind : FlitKind
  addr : Nat := 0
  tag : Nat := 0
  nth : Nat := 0
  len : Nat := 0                 -- bytes of the access
  data : List Byte := []
  sent : Nat := 0
  warp : Option Nat := none      -- the warp whose lane `nth` waits for the answer
  copy : Option (Nat × Nat) := none   -- the core and copy that wait for the answer to the bytes from `nth` of a row
  call : Option (Nat × Nat) := none   -- the collective call and the chunk whose counter the peer raises (R378)
  refused : Bool := false        -- an answer to an access outside the fabric window (R368)
  deriving DecidableEq, Repr

/-- TDISP states (R406). -/
inductive Tdisp | unlocked | locked | run | error
  deriving DecidableEq, Repr

/-- What a peer has sent for its call number `nth` with a tag (R376): its exchanged values, for A2AV the end of its counts
stage, and operand bytes by their offset. -/
structure PeerCall where
  src : Nat
  tag : Nat
  nth : Nat
  vals : Option (List Nat) := none
  counted : Bool := false
  data : Tab Byte := []
  deriving DecidableEq, Repr

/-- A virtual interface (R406, R413). `apertures`: bases of the register, debug and memory apertures. `csets` keyed 0 to 15; `counters` keyed 0x80·die + n; `cores`, `hbm`: the cores and stacks assigned. -/
structure Vi where
  queues : Tab Queue := []
  troot : Sparse DWord := []
  invStart : DWord := 0
  invCount : Word := 0
  invGo : Bool := false
  hintBase : DWord := 0
  hintCnt : Word := 0
  csets : Sparse (BitVec 256) := []
  domSize : Word := 1
  domRank : Word := 0
  domCtl : Word := 0
  domTmo : Word := 10000
  fwinBase : DWord := 0
  fwinSize : DWord := 0
  lost : List Nat := []
  grace : Word := 2000
  ramp : Sparse Word := []
  trBase : DWord := 0
  trSize : Word := 0
  trHead : Word := 0
  trTail : Word := 0
  trFlag : Word := 0
  trHeld : List TrapRec := []
  trBlocked : Bool := false      -- a record's write met a translation fault (R414)
  mkBase : DWord := 0
  mkSize : Word := 0
  mkHead : Word := 0
  viReady : Bool := false
  eccStat : Word := 0
  eccAddr : DWord := 0
  boostCtl : Word := 0
  counters : Sparse DWord := []
  cores : BitVec 256 := 0
  hbm : BitVec 16 := 0
  apertures : List DWord := [0, 0, 0]
  tdisp : Tdisp := .unlocked
  keys : Bool := false
  txCtr : Sparse Nat := []       -- flit counters, by peer rank (R367)
  rxHigh : Sparse Nat := []      -- one more than the highest counter accepted, by source
  rxSeen : Tab (List Nat) := []  -- counters accepted within the replay window, by source
  dropped : Nat := 0             -- flits dropped and counted (R366, R367)
  lastAck : Option Flit := none  -- the latest acknowledgement sent; none is held for repetition
  flits : List Flit := []
  nextTag : Nat := 0
  tagNext : Sparse Nat := []     -- accepted calls by TAG (R376)
  peerCalls : List PeerCall := []
  deriving DecidableEq, Repr

/-- A collective call that was accepted (R374 to R381). `me`: this package's member index. `staged`: x_m, the operand's bytes
(for A2AV the rows to send). `counts`: for A2AV the send counts. `stage`: 0 accepted, 1 operand read and values sent, 2 the
counts stage of A2AV done, 3 operand bytes sent. `raised`: chunks that have landed. -/
structure Call where
  lid : Nat
  gid : Nat
  warp : Nat
  slot : Nat
  vi : Nat
  core : Nat
  tag : Nat
  nth : Nat
  kind : Nat
  op : Nat
  first : Nat
  stride : Nat
  count : Nat
  root : Nat
  sw : Nat
  cntb : DWord
  tile : Option Nat
  off : Nat
  desc : BitVec 1024
  rdesc : BitVec 1024
  cdesc : BitVec 1024
  pb : Nat
  pc : DWord
  len : Nat
  me : Nat
  start : Nat
  place : DWord := 0             -- where the staging area of a tile operand begins (R375, log entry 88)
  staged : List Byte := []
  counts : List Nat := []
  raised : List Nat := []
  stage : Nat := 0
  suspended : Bool := false
  deriving DecidableEq, Repr

/-! ## The package -/

/-- A firmware image (R405, R409). -/
structure Firmware where
  version : Nat := 0
  secVer : Nat := 0
  meas : Nat := 0
  sigOk : Bool := true
  qlvs : List Nat := []
  saves : List Nat := [1]
  deriving DecidableEq, Repr

/-- The control processor's state (R405 to R411). `status`: reason and number of R410. -/
structure Control where
  running : Firmware := {}
  staged : Option Firmware := none
  activating : Bool := false
  previous : Nat := 0
  status : Nat × Nat := (0, 0)
  enrolled : Bool := false
  cfgOk : Bool := true
  cfgMeas : Nat := 0
  qlv : Nat := 0
  deriving DecidableEq, Repr

/-- What the last management message was answered with (R407, R412): named numbers. -/
abbrev Reply := List (String × Nat)

/-- Who acts in a turn: an issue slot of a sub-core, or an event with its operands. -/
inductive Act
  | issue (core sub : Nat)
  | event (i : Instr) (args : EvArgs)
  deriving DecidableEq, Repr

/-- A turn of the tape: the clocks that pass, and who acts. -/
structure Turn where
  dt : Nat
  act : Act
  deriving DecidableEq, Repr

/-- The machine. `tape`, `cur`, `ev`, `free` and the `next` numbers are the model's own.
`mem`: global and host memory at their points of coherence (R223). `marks`: the unpublished marks of sectors at home.
`warps`, `launches`, `groups`, `tasks`, `calls` are keyed by numbers given out in order; `slots` maps
32·core + slot to the warp it holds. `tasks` carries the launch in the key: see `Task`. -/
structure State where
  tape : List Turn := []
  cur : Cur := {}
  ev : EvArgs := {}
  free : Nat := 0
  clock : Nat := 0
  mem : Memory := []
  marks : Tab Mark := []
  hostq : List WEntry := []            -- host writes that every die sees and the host has not acknowledged (R195, R196)
  bad : List Nat := []                 -- HBM words of 8 bytes known to be uncorrectable (R416)
  vis : Tab Vi := []
  dies : Tab Die := []
  cores : Tab Core := []
  slots : Tab Nat := []
  warps : Tab Warp := []
  launches : Tab Launch := []
  groups : Tab Group := []
  tasks : Tab (Nat × Task) := []       -- launch and task
  calls : Tab Call := []
  checks : List Check := []
  ready : BitVec 57 := 0
  ctl : Control := {}
  reply : Reply := []
  nextWarp : Nat := 0
  nextGroup : Nat := 0
  nextLaunch : Nat := 0
  nextTask : Nat := 0
  nextCall : Nat := 0
  nextCheck : Nat := 0
  nextMvb : Nat := 0
  deriving DecidableEq, Repr

/-- Host physical address 0 as a location; global locations lie below 2^40 (R199). -/
def hostBase : Nat := 2 ^ 52

/-- The first interface after reset: it holds all cores and stacks (log entry 6). -/
def resetVi0 : Vi := { cores := BitVec.allOnes 256, hbm := BitVec.allOnes 16, csets := [(0, BitVec.allOnes 256)] }

/-- The machine right after reset, before the start events of R411. An interface, die or core without an entry holds the
reset values of its fields: nothing is assigned to interfaces 1 to 63. -/
def State.reset : State := { vis := [(0, resetVi0)] }

end Sys2Proof.Machine
end

