-- ==== Sys2Proof/Machine/Cy3.lean ====
section
/-!
DEFINITION. The translation of CY3 code (spec/03 R71 to R76): a 64-bit CY3 word becomes one or two CY4 words. The model
keeps CY3 words in the instruction cache and translates at issue, which is the same since a block's translation depends on
nothing else (R77).
-/
namespace Sys2Proof.Machine

/-- A CY3 operand byte re-encoded under R58; none for constants 16 to 63. -/
def cy3Operand (q : BitVec 8) : Option (BitVec 10) :=
  if q.toNat < 128 then some (q.setWidth 10)
  else if q.toNat < 192 then some (6#3 ++ 0#1 ++ q.extractLsb' 0 6)
  else if q.toNat < 208 then some (0x39#6 ++ q.extractLsb' 0 4)
  else none

/-- A T3 code as a type (R71). -/
def cy3Type (t : BitVec 4) : Option Ty :=
  match t.toNat with
  | 0 => some .b32 | 1 => some .i32 | 2 => some .n32 | 3 => some .f32 | 4 => some .f16
  | 5 => some .bf16 | 6 => some .f64 | 7 => some .i64 | 8 => some .n64 | _ => none

/-- The fields of a CY3 word (R71). -/
structure Cy3 where
  im16 : BitVec 16
  b47 : Bool
  ie : Bool
  rn3 : BitVec 2
  t3 : BitVec 4
  qc : BitVec 8
  qb : BitVec 8
  qa : BitVec 8
  qd : BitVec 8
  op : BitVec 8
  deriving DecidableEq, Repr

def Cy3.ofBits (x : DWord) : Cy3 where
  im16 := x.extractLsb' 48 16
  b47 := x.getLsbD 47
  ie := x.getLsbD 46
  rn3 := x.extractLsb' 44 2
  t3 := x.extractLsb' 40 4
  qc := x.extractLsb' 32 8
  qb := x.extractLsb' 24 8
  qa := x.extractLsb' 16 8
  qd := x.extractLsb' 8 8
  op := x.extractLsb' 0 8

/-- The byte offset of a CY3 branch from its own address: IM16 counts words from the word after it (R72). -/
def Cy3.skip (c : Cy3) : Word := c.im16.signExtend 32 * 8 + 8

/-- A word with an immediate and a modifier word as they are needed (R72). -/
def cy3Word (maj : BitVec 8) (ty : BitVec 5) (dst a b c : BitVec 10) (imm : Option Word) (m : Mod) : BitVec 128 :=
  let ext : Ext :=
    match imm, m == {} with
    | none, true => .none
    | some x, true => .imm x
    | none, false => .mod m
    | some x, false => .immMod x m
  Raw.bits { len := ext.len, maj := maj, hold := 0, fe := 0, dst := dst, a := a, b := b, c := c,
             fn := ty ++ ext.immBit ++ ext.xmBit, ext := ext.bits }

/-- MAJ values whose translation is one word of MAJ = OP3 (R72). -/
def cy3Plain (n : Nat) : Bool :=
  decide (n ≤ 0x18 ∨ (0x1E ≤ n ∧ n ≤ 0x2B) ∨ (0x40 ≤ n ∧ n ≤ 0x64) ∨ (0x67 ≤ n ∧ n ≤ 0x73) ∨
          n = 0xF6 ∨ n = 0xF7 ∨ n = 0xFA ∨ n = 0xFB)
def cy3Branch (n : Nat) : Bool := decide ((0x1E ≤ n ∧ n ≤ 0x22) ∨ n = 0x25)
def cy3Memory (n : Nat) : Bool := decide ((0xA0 ≤ n ∧ n ≤ 0xA5) ∨ n = 0xA8 ∨ (0xAA ≤ n ∧ n ≤ 0xB4))

/-- Translates a memory word (R72, R73). IE and RN3 are not looked at (log entry 82). -/
def Cy3.memory (c : Cy3) : Option (BitVec 128) := do
  let n := c.op.toNat
  let cas := n == 0xB1
  if c.t3.extractLsb' 0 2 = 3 ∨ (!cas ∧ c.qc.extractLsb' 3 5 ≠ 0) then none
  let dst ← cy3Operand c.qd
  let a ← cy3Operand c.qa
  let b ← cy3Operand c.qb
  let new ← if cas then cy3Operand c.qc else some 0
  let sc : Scope := match (c.t3.extractLsb' 0 2).toNat with
    | 0 => .group | 1 => .device | _ => .system
  let size : BitVec 3 := if cas then 2 else c.qc.extractLsb' 0 3
  let atomic := decide (0xAA ≤ n ∧ n ≤ 0xB2)
  let sub : BitVec 2 := bit1 (n == 0xAB || n == 0xAC) ++ bit1 atomic
  let ext := MExt.short sc (c.im16.signExtend 24)
  return Raw.bits { len := ext.len, maj := c.op, hold := 0, fe := 0, dst := dst, a := a, b := b, c := new,
                    fn := size ++ c.t3.extractLsb' 2 2 ++ sub, ext := ext.bits }

/-- Translates any other word (R72, R73). Of a branch, IFM and IFNM, IE is not looked at (log entry 82).
DESIGN CHOICE: T3 of 0xF6, 0xF7, 0xFA and 0xFB lands in FN[63:59], and with IE = 1 the operand byte that IM16 replaces is still
translated (log entry 112). -/
def Cy3.plain (c : Cy3) : Option (List (BitVec 128)) := do
  let n := c.op.toNat
  let dst ← cy3Operand c.qd
  let a ← cy3Operand c.qa
  let b ← cy3Operand c.qb
  let taken := n == 0x64 || n == 0x70
  let q ← if taken then some 0 else cy3Operand c.qc
  let ty ← if n = 0x1F ∨ n = 0x71 ∨ n = 0x72 then some (c.t3.setWidth 5) else (cy3Type c.t3).map Ty.code
  let m : Mod := { rnd := Rnd.ofCode c.rn3 }
  let imm : Option Word := if c.ie then some (c.im16.signExtend 32) else none
  if n = 0x19 ∨ n = 0x1A then
    return [cy3Word (if n = 0x19 then 0x1B else 0x1C) ty dst a b q none m, cy3Word 0x20 0 0 0 0 0 (some c.skip) {}]
  else if n = 0x1B then return [cy3Word 0x1D ty dst a b q imm m]
  else if !cy3Plain n then none
  else if cy3Branch n then return [cy3Word c.op ty dst a b q (some c.skip) m]
  else if n = 0x17 ∨ n = 0x18 then
    if c.ie ∨ c.im16.toNat > 0x10 then none
    else return [Raw.bits { len := 1, maj := c.op, hold := 0, fe := 0, dst := dst, a := a, b := b, c := q,
                            fn := ty ++ 1#2, ext := 0#32 ++ Mod.word { m with aux := c.im16.setWidth 21 } }]
  else if n = 0x64 then
    if c.qc.extractLsb' 4 4 ≠ 0 then none
    else
      let ty2 ← cy3Type (c.qc.extractLsb' 0 4)
      return [cy3Word c.op ty dst a b q imm { m with ty2 := ty2 }]
  else if n = 0x70 then
    if c.qc.extractLsb' 2 6 ≠ 0 then none
    else return [cy3Word c.op ty dst a b q imm { m with aux := (c.qc.extractLsb' 0 2).setWidth 21 }]
  else if n = 0xF7 ∧ c.qd.extractLsb' 0 2 = 0 then return [cy3Word c.op ty dst a b q imm m ||| BitVec.ofNat 128 (2 ^ 57)]
  else return [cy3Word c.op ty dst a b q imm m]

/-- The workgroup barrier, BAR at level 2 whatever T3 says (R72, log entry 80), and the matrix word. -/
def Cy3.engine (c : Cy3) : Option (BitVec 128) := do
  let dst ← cy3Operand c.qd
  let a ← cy3Operand c.qa
  let b ← cy3Operand c.qb
  let q ← cy3Operand c.qc
  let bad := c.ie || c.rn3 != 0
  if c.op = 0xD8 then
    let _ ← cy3Type c.t3
    return Raw.bits { len := if bad then 1 else 0, maj := c.op, hold := 0, fe := 0, dst := dst, a := a, b := b, c := q,
                      fn := 0x20, ext := 0 }
  else if c.t3.getLsbD 3 then none
  else return Raw.bits { len := if bad then 1 else 2, maj := c.op, hold := 0, fe := 0, dst := dst, a := a, b := b, c := q,
                         fn := 0, ext := Frame.bits { tid := 248 + c.t3.setWidth 8 } }

/-- The CY4 words of a CY3 word; a word without counterpart becomes one that raises ILLEGAL_INSTRUCTION (R74). -/
def cy3Translate (x : DWord) : List (BitVec 128) :=
  let c := Cy3.ofBits x
  let n := c.op.toNat
  let r : Option (List (BitVec 128)) :=
    if c.b47 then none
    else if cy3Memory n then c.memory.map fun w => [w]
    else if n = 0xC1 ∨ n = 0xD8 then c.engine.map fun w => [w]
    else c.plain
  r.getD [0#64 ++ Config.cy3Word x ++ 0xFF#8 ++ 0#2]

end Sys2Proof.Machine
end

