-- ==== Sys2Proof/Machine/Ops.lean ====
section
/-!
DEFINITION. The named operations over the state: lookups, identifiers (spec/04 R83 to R96), results of registers,
full/empty, the operand latch (R106, R107), the common start and end of an instruction (R70, R98, R108), and taking an
exception (R111 to R114).
-/
namespace Sys2Proof.Machine

/-! ## Bits -/

/-- `b` with bit `i` set to `v`. -/
def setBit {n : Nat} (b : BitVec n) (i : Nat) (v : Bool) : BitVec n :=
  if v then b ||| BitVec.ofNat n (2 ^ i) else b &&& ~~~(BitVec.ofNat n (2 ^ i))

/-- Bits `k` to `k + n - 1` of a number. -/
def field (x k n : Nat) : Nat := x / 2 ^ k % 2 ^ n

/-- The lowest set bit among the first `n`; `n` if none. -/
def lowBit (b : Lanes) : Nat → Nat → Nat
  | 0, i => i
  | n + 1, i => if b.getLsbD i then i else lowBit b n (i + 1)

/-- The mask of a list of lanes. -/
def lanesOf (ls : List Nat) : Lanes := ls.foldl (fun b l => setBit b l true) 0

/-- One bit for each of `w` lanes. -/
def allLanes (w : Nat) : Lanes := BitVec.ofNat 128 (2 ^ w - 1)

/-- What a meaning answers. -/
abbrev Out := Host.Outcome State Fault Refusal

/-! ## Lookups. An entry that is absent holds the reset values of its fields. -/

def State.warp (s : State) (id : Nat) : Warp := (tget s.warps id).getD {}
def State.group (s : State) (gid : Nat) : Group := (tget s.groups gid).getD {}
def State.launchOf (s : State) (lid : Nat) : Launch := (tget s.launches lid).getD {}
def State.core (s : State) (c : Nat) : Core := (tget s.cores c).getD {}
def State.die (s : State) (d : Nat) : Die := (tget s.dies d).getD {}
def State.vi (s : State) (v : Nat) : Vi := (tget s.vis v).getD {}
def Vi.queue (v : Vi) (q : Nat) : Queue := (tget v.queues q).getD {}
def State.queue (s : State) (v q : Nat) : Queue := (s.vi v).queue q

def State.setWarp (s : State) (id : Nat) (w : Warp) : State := { s with warps := tput s.warps id w }
def State.setGroup (s : State) (gid : Nat) (g : Group) : State := { s with groups := tput s.groups gid g }
def State.setLaunch (s : State) (lid : Nat) (l : Launch) : State := { s with launches := tput s.launches lid l }
def State.setCore (s : State) (c : Nat) (x : Core) : State := { s with cores := tput s.cores c x }
def State.setDie (s : State) (d : Nat) (x : Die) : State := { s with dies := tput s.dies d x }
def State.setVi (s : State) (v : Nat) (x : Vi) : State := { s with vis := tput s.vis v x }
def State.setQueue (s : State) (v q : Nat) (x : Queue) : State :=
  s.setVi v { s.vi v with queues := tput (s.vi v).queues q x }
def State.setTask (s : State) (tid : Nat) (lid : Nat) (t : Task) : State := { s with tasks := tput s.tasks tid (lid, t) }

/-- The issuing warp, its workgroup and its launch. -/
def State.me (s : State) : Warp := s.warp s.cur.warp
def State.setMe (s : State) (w : Warp) : State := s.setWarp s.cur.warp w
def State.myGroup (s : State) : Group := s.group s.me.gid
def State.myLaunch (s : State) : Launch := s.launchOf s.myGroup.lid

/-- The core and slot of a warp; core 0 for a warp that is not resident. -/
def Warp.core (w : Warp) : Nat := (w.place.getD (0, 0)).1
def Warp.slot (w : Warp) : Nat := (w.place.getD (0, 0)).2
def Warp.die (w : Warp) : Nat := w.core / 64

def State.launchOfWarp (s : State) (w : Warp) : Launch := s.launchOf (s.group w.gid).lid

/-! ## Work identifiers and budgets (R83 to R92) -/

/-- Widths `w_k` and offsets `o_k` of the WID fields (R83). -/
def Launch.width (l : Launch) (k : Nat) : Nat := l.widths.getD k 0
def Launch.off (l : Launch) (k : Nat) : Nat := (l.widths.take k).foldl (· + ·) 0
/-- Extents (R84). -/
def Launch.ext (l : Launch) (k : Nat) : Nat := l.exts.getD k 1
/-- The top level (R85): one more than the highest field of nonzero width. -/
def Launch.top (l : Launch) : Nat :=
  1 + (List.range 6).foldl (fun h k => if l.width k > 0 then k else h) 0

/-- The value of field `k` for a lane of a warp of a workgroup. -/
def widField (g : Group) (f1 lane k : Nat) : Nat :=
  match k with
  | 0 => lane
  | 1 => f1
  | _ => g.f.getD (k - 2) 0

/-- The work identifier of a lane (R83). -/
def Launch.wid (l : Launch) (g : Group) (f1 lane : Nat) : DWord :=
  BitVec.ofNat 64 ((List.range 6).foldl (fun a k => a + widField g f1 lane k * 2 ^ l.off k) 0)

/-- The WID with the bits below `o_k` zero: the group at level `k` (R85, R290). -/
def Launch.key (l : Launch) (g : Group) (k : Nat) : DWord :=
  BitVec.ofNat 64 ((List.range 6).foldl (fun a j => if j < k then a else a + widField g 0 0 j * 2 ^ l.off j) 0)

/-- Barrier numbers at a level of 3 or more (R289). -/
def Launch.monuCount (l : Launch) (k : Nat) : Nat := l.monuC.getD (k - 3) 0

/-- Groups at level k: `G_k` is the product of the extents from k on (R289). -/
def Launch.groupsAt (l : Launch) (k : Nat) : Nat := ((List.range 6).filter fun j => decide (k ≤ j)).foldl (fun a j => a * l.ext j) 1

/-- Entries of the monument table (R289). -/
def Launch.monEntries (l : Launch) : Nat := ([3, 4, 5, 6].map fun k => l.monuCount k * l.groupsAt k).foldl (· + ·) 0

/-- Warps of a workgroup, `e_1`. -/
def Launch.warps (l : Launch) : Nat := l.ext 1

/-- Granules of the partition word (R89). -/
def regsOf (partw : Word) : Nat := (partw.extractLsb' 0 7).toNat
def scratchOf (partw : Word) : Nat := (partw.extractLsb' 7 7).toNat
def accOf (partw : Word) : Nat := (partw.extractLsb' 14 7).toNat
def Launch.regs (l : Launch) : Nat := regsOf l.partw
def Launch.scratch (l : Launch) : Nat := scratchOf l.partw
def Launch.acc (l : Launch) : Nat := accOf l.partw
def Launch.granules (l : Launch) : Nat := l.regs + l.scratch + l.acc
/-- Bytes of a scratchpad allocation (R90). -/
def Launch.scratchBytes (l : Launch) : Nat := l.scratch * 16384

/-- The role record that covers a warp (R91). -/
def Launch.roleRec (l : Launch) (f1 : Nat) : Option RoleRec :=
  l.roles.find? fun r => decide (r.first ≤ f1 ∧ f1 < r.first + r.count)

/-- The vector-register budget (R91). -/
def Launch.budget (l : Launch) (f1 : Nat) : Nat :=
  if l.roles.isEmpty then min 256 (l.regs * 16384 / (l.warps * l.w * 4))
  else ((l.roleRec f1).map RoleRec.vregs).getD 0

/-- What the format check of a word depends on (R60, R92). -/
def Launch.ctx (l : Launch) (w : Warp) : Ctx :=
  { w := l.w, mg := l.w / 32, budget := l.budget w.f1, role := w.role }

/-- Lanes of a warp whose EXEC bit is set, in increasing order (R12). -/
def Warp.active (w : Warp) (W : Nat) : List Nat := (List.range W).filter fun l => w.exec.getLsbD l

/-! ## Counters (R415) -/

def Vi.count (v : Vi) (die n k : Nat) : Vi :=
  { v with counters := sset 0 v.counters (0x80 * die + n) (sget 0 v.counters (0x80 * die + n) + BitVec.ofNat 64 k) }

/-- Adds to counter `n` of a die of an interface. -/
def State.count (s : State) (vi die n k : Nat) : State := s.setVi vi ((s.vi vi).count die n k)

/-! ## Registers of a warp -/

/-- A value of up to 64 bits and its poison bit (R100). -/
structure Val where
  bits : DWord := 0
  p : Bool := false
  deriving DecidableEq, Repr

def Warp.vreg (w : Warp) (n lane : Nat) : Word := sget 0 w.v (128 * n + lane)
def Warp.vPoison (w : Warp) (n lane : Nat) : Bool := (sget 0 w.vP n).getLsbD lane
def Warp.sreg (w : Warp) (n : Nat) : Word := sget 0 w.s n

/-- Writes one register of one lane. -/
def Warp.putV (w : Warp) (n lane : Nat) (x : Word) (p : Bool) : Warp :=
  { w with v := sset 0 w.v (128 * n + lane) x, vP := sset 0 w.vP n (setBit (sget 0 w.vP n) lane p),
           badRegs := tdel w.badRegs (128 * n + lane) }

/-- Writes one scalar register. -/
def Warp.putS (w : Warp) (n : Nat) (x : Word) (p : Bool) : Warp :=
  { w with s := sset 0 w.s n x, sP := setBit w.sP n p, badRegs := tdel w.badRegs (40000 + n) }

/-- The register, or the pair whose even register is `n`, of a lane. -/
def Warp.vval (w : Warp) (n regs lane : Nat) : Val :=
  if regs = 2 then
    { bits := pair (w.vreg n lane) (w.vreg (n + 1) lane), p := w.vPoison n lane || w.vPoison (n + 1) lane }
  else { bits := (w.vreg n lane).setWidth 64, p := w.vPoison n lane }

def Warp.sval (w : Warp) (n regs : Nat) : Val :=
  if regs = 2 then
    { bits := pair (w.sreg n) (w.sreg (n + 1)), p := w.sP.getLsbD n || w.sP.getLsbD (n + 1) }
  else { bits := (w.sreg n).setWidth 64, p := w.sP.getLsbD n }

def Group.gval (g : Group) (n : Nat) : Val := { bits := (sget 0 g.g n).setWidth 64, p := g.gP.getLsbD n }

def Warp.putVVal (w : Warp) (n regs lane : Nat) (x : Val) : Warp :=
  let w := w.putV n lane (lo32 x.bits) x.p
  if regs = 2 then w.putV (n + 1) lane (hi32 x.bits) x.p else w

def Warp.putSVal (w : Warp) (n regs : Nat) (x : Val) : Warp :=
  let w := w.putS n (lo32 x.bits) x.p
  if regs = 2 then w.putS (n + 1) (hi32 x.bits) x.p else w

/-- Writes consecutive scalar registers, unpoisoned. -/
def Warp.putSList (w : Warp) (n : Nat) : List Word → Warp
  | [] => w
  | x :: xs => Warp.putSList (w.putS n x false) (n + 1) xs

/-- The mask that a mask group of `mg` registers holds (R82), and whether any register of it is poisoned. -/
def Warp.mask (w : Warp) (n mg : Nat) : Lanes :=
  BitVec.ofNat 128 ((List.range mg).foldl (fun a i => a + (w.sreg (n + i)).toNat * 2 ^ (32 * i)) 0)
def Warp.maskPoison (w : Warp) (n mg : Nat) : Bool := (List.range mg).any fun i => w.sP.getLsbD (n + i)

/-- Writes a mask group (R82); `p` gives the poison bit of each register. -/
def Warp.putMask (w : Warp) (n : Nat) (m : Lanes) (p : Nat → Bool) : Nat → Warp
  | 0 => w
  | k + 1 => (Warp.putMask w n m p k).putS (n + k) (m.extractLsb' (32 * k) 32) (p k)

/-- Writes one register value, whose key is 128·n + lane for a vector register and n for a scalar one. -/
def Warp.putReg (w : Warp) (vec : Bool) (r : RegVal) : Warp :=
  if vec then w.putV (r.key / 128) (r.key % 128) r.val r.poison else w.putS r.key r.val r.poison

/-! ## Full/empty bits (R97 to R99) -/

/-- Some of `n` vector or scalar registers from `m` is empty. -/
def Warp.vEmpty (w : Warp) (m n : Nat) : Bool := (List.range n).any fun i => w.vE.getLsbD (m + i)
def Warp.sEmpty (w : Warp) (m n : Nat) : Bool := (List.range n).any fun i => w.sE.getLsbD (m + i)

/-- Marks `n` registers from `m` empty or full. -/
def Warp.markRegs (w : Warp) (vec : Bool) (m : Nat) (empty : Bool) : Nat → Warp
  | 0 => w
  | n + 1 =>
    let w := Warp.markRegs w vec m empty n
    if vec then { w with vE := setBit w.vE (m + n) empty } else { w with sE := setBit w.sE (m + n) empty }

/-- Starts a long-latency producer: its registers become empty (R97). -/
def Warp.produce (w : Warp) (p : Producer) : Warp :=
  { Warp.markRegs w p.vec p.base true p.count with
    flight := w.flight ++ [{ p with id := w.nextProd }], nextProd := w.nextProd + 1 }

/-- The resolved register of an indexed operand in a lane (R94). -/
def Warp.idxReg (w : Warp) (i lane : Nat) : Nat :=
  let x := sget {} w.x (128 * i + lane)
  x.base.toNat + x.index.toNat

/-- The bounds of R94 and R160 in a lane: not below the limit, not below the budget, or odd for a pair. Both registers of a pair are
held to the budget, its first alone to the limit (log entry 89). -/
def Warp.idxBad (w : Warp) (budget i regs lane : Nat) : Bool :=
  let x := sget {} w.x (128 * i + lane)
  let n := w.idxReg i lane
  decide (n ≥ x.limit.toNat) || decide (n + regs > budget) || (regs == 2 && n % 2 == 1)

/-- Some register of an operand of `n` registers is empty (R98). -/
def Warp.operandEmpty (w : Warp) (W : Nat) (x : Src) (n : Nat) : Bool :=
  match x with
  | .v m => w.vEmpty m.toNat n
  | .vl m => w.vEmpty m.toNat n
  | .vr m => w.vEmpty m.toNat n
  | .s m => w.sEmpty m.toNat n
  | .idx i => (w.active W).any fun l => w.vEmpty (w.idxReg i.toNat l) n
  | _ => false

/-! ## Tasks (R314 to R331) -/

/-- SEQ `a` precedes SEQ `b` (R315). -/
def seqBefore (a b : Word) : Bool := decide (a ≠ b) && decide ((b - a).toNat < 2 ^ 31)

/-- The order of triples (TS, SEQ, LO) (R315). -/
def tripleBefore (ts1 : DWord) (seq1 lo1 : Word) (ts2 : DWord) (seq2 lo2 : Word) : Bool :=
  decide (ts1.toNat < ts2.toNat) ||
    (decide (ts1 = ts2) && (seqBefore seq1 seq2 || (decide (seq1 = seq2) && decide (lo1.toNat < lo2.toNat))))

def Task.before (a b : Task) : Bool := tripleBefore a.ts a.seq a.lo b.ts b.seq b.lo

/-- The tasks of a launch, with their numbers. -/
def State.tasksOf (s : State) (lid : Nat) : List (Nat × Task) :=
  s.tasks.filterMap fun e => if e.2.1 = lid then some (e.1, e.2.2) else none

/-- The entry of least triple. -/
def leastTask : List (Nat × Task) → Option (Nat × Task)
  | [] => none
  | e :: es =>
    match leastTask es with
    | none => some e
    | some m => if e.2.before m.2 then some e else some m

/-- The frontier of a launch (R316). -/
def State.frontier (s : State) (lid : Nat) : Option (Nat × Task) := leastTask (s.tasksOf lid)

/-- The task has a warp. -/
def TState.hasWarp : TState → Bool
  | .running => true | .stalled => true | .direct => true | .deferred => true | _ => false

/-- The task that a warp runs. -/
def State.taskOf (s : State) (lid warp : Nat) : Option (Nat × Task) :=
  (s.tasksOf lid).find? fun e => decide (e.2.warp = warp) && e.2.st.hasWarp

/-- The task of the issuing warp. -/
def State.myTask (s : State) : Option (Nat × Task) := s.taskOf s.myGroup.lid s.cur.warp

/-- The task is the frontier of its launch. -/
def State.isFrontier (s : State) (lid tid : Nat) : Bool := (s.frontier lid).map Prod.fst == some tid

/-- The task of the issuing warp is speculative (R319). -/
def State.speculative (s : State) : Bool :=
  match s.myTask with
  | some (tid, t) => !s.isFrontier s.myGroup.lid tid && t.st != .direct
  | none => false

/-! ## Traps (R111 to R114) -/

/-- The code of a trap (R112). -/
def trapNumber : TrapCode → Nat
  | .illegalInstruction => 0x01 | .reservedField => 0x02 | .fetchBoundary => 0x03 | .emptyRegister => 0x04
  | .staleLatch => 0x05 | .indexBounds => 0x06 | .illegalConvergence => 0x07 | .formatCombination => 0x08
  | .roleViolation => 0x09 | .scratchBounds => 0x0A | .poisonUse => 0x0B | .misaligned => 0x0C
  | .pageFault => 0x0D | .protection => 0x0E | .tileUndefined => 0x0F | .surveyFault => 0x10
  | .breakpoint => 0x11 | .softwareTrap => 0x12 | .eccUncorrectable => 0x13 | .contextNotRestorable => 0x14
  | .killed => 0x15

/-- A trap about to be taken: LANES, INFO0 and INFO1 of its record. -/
structure TrapInfo where
  code : TrapCode
  lanes : Lanes := BitVec.allOnes 128
  info0 : DWord := 0
  info1 : DWord := 0
  deriving DecidableEq, Repr

/-- The trap ring is set up (R414) and has room for a record beyond those held. -/
def Vi.ringRoom (v : Vi) : Bool :=
  decide (v.trBase ≠ 0) && decide (v.trSize ≠ 0) &&
    decide ((v.trHead - v.trTail).toNat + v.trHeld.length < v.trSize.toNat)

/-- Two records of warps of one core in one cycle: the lower slot's is written first (R113). -/
def TrapRec.precedes (r x : TrapRec) : Bool := x.core == r.core && x.clock == r.clock && decide (r.slot < x.slot)

/-- The held records with one more, behind those that it does not precede. -/
def addRecord (r : TrapRec) : List TrapRec → List TrapRec
  | [] => [r]
  | x :: xs => if r.precedes x then r :: x :: xs else x :: addRecord r xs

/-- A record falls due (R111, R113, R414): it is held until TRAP_RECORD_WRITE writes it; where the ring has no room the
overflow flag is set. -/
def Vi.trapDue (v : Vi) (r : TrapRec) : Vi :=
  { v with trHeld := addRecord r v.trHeld, trFlag := if v.ringRoom then v.trFlag else setBit v.trFlag 0 true }

def State.trapDue (s : State) (vi : Nat) (r : TrapRec) : State := s.setVi vi ((s.vi vi).trapDue r)

/-- The record of a trap of a warp (R113). -/
def State.trapRec (s : State) (id : Nat) (t : TrapInfo) (len flags : Nat) : TrapRec :=
  let w := s.warp id
  let g := s.group w.gid
  let l := s.launchOf g.lid
  { code := (trapNumber t.code), len := len, flags := flags + (if l.gen = 3 then 1 else 0), slot := w.slot, core := w.core,
    pc := w.pc, wid := l.wid g w.f1 0, lanes := t.lanes, info0 := t.info0, info1 := t.info1, clock := s.clock }

/-- Resume continues after the instruction (R114): BREAKPOINT, and SOFTWARE_TRAP with INFO1 bit 62 clear. -/
def TrapInfo.skips (t : TrapInfo) : Bool :=
  t.code == .breakpoint || (t.code == .softwareTrap && !t.info1.getLsbD 62)

/-- Halts a warp at its instruction with a record (R111). The PC it holds then is its resume point (R114). -/
def haltWarp (id : Nat) (t : TrapInfo) (len adv flags : Nat) (half : Bool) (s : State) : State :=
  let w := s.warp id
  let w' := { w with status := .halted (trapNumber t.code), elig := 0, overdue := false, walkRes := [], before := .ready,
                     word := none,
                     cont := if t.skips then .none else w.cont, stopping := none,
                     pc := if t.skips then w.pc + BitVec.ofNat 64 adv else w.pc,
                     half := if t.skips then half else w.half }
  (s.setWarp id w').trapDue (s.launchOfWarp w).vi (s.trapRec id t len flags)

/-- A speculative task's trap is deferred (R325): the warp stops, the task holds the record. -/
def deferTrap (tid : Nat) (t : Task) (r : TrapRec) (s : State) : State :=
  let w := s.me
  let l := s.myLaunch
  ((s.setMe { w with status := .deferred, elig := 0, overdue := false, cont := .none, walkRes := [],
                       word := none }).setTask tid s.myGroup.lid
    { t with st := .deferred, trap := some r }).count l.vi w.die 0x22 1

/-- TAKES A TRAP (R111): the issuing warp halts at its instruction, the record falls due on the ring of its interface,
nothing else changes; a speculative task's trap is deferred (R325). -/
def takeTrap (t : TrapInfo) (s : State) : State :=
  match s.myTask with
  | some (tid, k) =>
    if s.speculative then deferTrap tid k (s.trapRec s.cur.warp t s.cur.len 2) s
    else haltWarp s.cur.warp t s.cur.len s.cur.adv 0 s.cur.half s
  | none => haltWarp s.cur.warp t s.cur.len s.cur.adv 0 s.cur.half s

/-- TAKES A PAGE FAULT (R202): the issuing warp is parked for replay with the requests that the replay performs again. -/
def takePageFault (t : TrapInfo) (redo : List LaneReq) (s : State) : State :=
  let stop := s.me.stopping
  match s.myTask with
  | some (tid, k) =>
    if s.speculative then
      let s := deferTrap tid k (s.trapRec s.cur.warp t s.cur.len 6) s
      s.setMe { s.me with redo := redo, word := some s.cur }
    else
      let s := haltWarp s.cur.warp t s.cur.len s.cur.adv 4 s.cur.half s
      s.setMe { s.me with status := .replay, redo := redo, word := some s.cur, stopping := stop }
  | none =>
    let s := haltWarp s.cur.warp t s.cur.len s.cur.adv 4 s.cur.half s
    s.setMe { s.me with status := .replay, redo := redo, word := some s.cur, stopping := stop }

/-- The trap of a poisoned operand or of SCC (R101, R140): INFO0 is the specifier, 0x3FF for SCC. -/
def poisonInfo (spec : BitVec 10) (lanes : Lanes := BitVec.allOnes 128) : TrapInfo :=
  { code := .poisonUse, lanes := lanes, info0 := spec.setWidth 64 }

/-- RESUMES a halted warp at the PC that it holds (R114). A warp that another warp's HALT stopped goes on where it stood;
one that was waiting looks at its condition again (R137). -/
def resumeWarp (id : Nat) (s : State) : State :=
  let w := s.warp id
  let st := match w.before with
    | .waiting _ => Status.ready
    | x => x
  s.setWarp id { w with status := st, before := .ready, fetched := none }

/-- A park is abandoned (R282, R285): the workgroup keeps its core, and no absent workgroup has a claim on it any more. -/
def State.abandonPark (s : State) (gid : Nat) : State :=
  let g := s.group gid
  let l := s.launchOf g.lid
  let s := s.setGroup gid { g with parking := false }
  if l.claim.any fun c => c.victim == gid then s.setLaunch g.lid { l with claim := none } else s

/-- A barrier word whose LEVEL alone is undefined: LEVEL 0 or 7 with LEN and the other FN bits sound (R293). -/
def badLevel (r : Raw) : Bool :=
  decide (0xD8 ≤ r.maj.toNat ∧ r.maj.toNat ≤ 0xDA) && r.len != 1 && r.fn.extractLsb' 0 4 == 0 &&
    (r.fn.extractLsb' 4 3 == 0 || r.fn.extractLsb' 4 3 == 7)

/-- INFO1 of ILLEGAL_INSTRUCTION for a level (R306): LEVEL, NUM and the top level. -/
def levelInfo (r : Raw) (top : Nat) : DWord :=
  BitVec.ofNat 64 ((r.fn.extractLsb' 4 3).toNat + 256 * (r.aux17.extractLsb' 0 4).toNat + 65536 * top)

/-- The trap of a word that breaks the format rules (R70, R140, R306). INFO0 and INFO1 of ROLE_VIOLATION are unstated. -/
def formatTrap (c : TrapCode) (bits : BitVec 128) (s : State) : State :=
  if c = .roleViolation then
    takeTrap { code := c, info0 := Config.unstated s.free, info1 := Config.unstated (s.free + 1) }
      { s with free := s.free + 2 }
  else
    let r := Raw.ofBits bits
    let info1 := if badLevel r then levelInfo r s.myLaunch.top else bits.extractLsb' 64 64
    takeTrap { code := c, info0 := bits.extractLsb' 0 64, info1 := info1 } s

/-! ## The start of an instruction -/

/-- What stands between an instruction and its issue. -/
inductive Gate
  | go
  | wait
  | trap (t : TrapInfo)
  deriving DecidableEq, Repr

/-- The next check, where nothing stopped so far. -/
def Gate.then (g h : Gate) : Gate :=
  match g with
  | .go => h
  | .wait => .wait
  | .trap t => .trap t

/-- Registers that an operand of a rule names (R60, R82). -/
def ruleRegs (rule : Rule) (ctx : Ctx) : Nat :=
  if rule.mask then ctx.mg else if rule.cnt ≠ 0 then rule.cnt else rule.n

/-- The operands of a word: rule, specifier, FE bit, and whether an immediate stands in its place. -/
def operandsOf (f : Form) (r : Raw) : List (Rule × BitVec 10 × Bool × Bool) :=
  [(f.a, r.a, r.fe.getLsbD 0, r.replaces f 1), (f.b, r.b, r.fe.getLsbD 1, r.replaces f 2),
   (f.c, r.c, r.fe.getLsbD 2, r.replaces f 3)]

/-- The operand is read and some register of it is empty. -/
def emptySource (ctx : Ctx) (w : Warp) (e : Rule × BitVec 10 × Bool × Bool) : Bool :=
  e.1.holds e.2.2.2 e.2.1 &&
    (match Src.ofCode e.2.1 with
     | some x => w.operandEmpty ctx.w x (ruleRegs e.1 ctx)
     | none => false)

/-- The full/empty check (R98): waits for a destination or an FE 0 source, traps on an FE 1 source. -/
def emptyGate (ctx : Ctx) (f : Form) (r : Raw) (w : Warp) : Gate :=
  let ops := operandsOf f r
  if emptySource ctx w (f.dst, r.dst, false, false) || (ops.any fun e => !e.2.2.1 && emptySource ctx w e) then .wait
  else
    match ops.find? fun e => e.2.2.1 && emptySource ctx w e with
    | some e => .trap { code := .emptyRegister, info0 := e.2.1.setWidth 64 }
    | none => .go

/-- The count of instructions since the capture of a slot, all ones where it never held one. -/
def Warp.latchCount (w : Warp) (p : Nat) : DWord :=
  match sget none w.latchAge p with
  | some a => BitVec.ofNat 64 a
  | none => BitVec.allOnes 64

/-- The slot holds a live capture (R107). -/
def Warp.latchLive (w : Warp) (p : Nat) : Bool :=
  match sget none w.latchAge p with
  | some a => decide (a < 2)
  | none => false

/-- STALE_LATCH (R107, R183). -/
def latchGate (f : Form) (r : Raw) (w : Warp) : Gate :=
  match (operandsOf f r).find? fun e => e.1.holds e.2.2.2 e.2.1 &&
      (match Src.ofCode e.2.1 with
       | some (.latch p) => !w.latchLive p.val
       | _ => false) with
  | some e => .trap { code := .staleLatch, info0 := e.2.1.setWidth 64, info1 := w.latchCount (e.2.1.toNat % 8) }
  | none => .go

/-- INDEX_BOUNDS of the indexed operands (R94, R160, R183). Which operand the record names where several are out of bounds is
unstated: DESIGN CHOICE, the first of OPA, OPB, OPC and DST (log entry 116). -/
def indexGate (ctx : Ctx) (f : Form) (r : Raw) (w : Warp) : Gate :=
  let bad (e : Rule × BitVec 10 × Bool × Bool) : List Nat :=
    if e.1.holds e.2.2.2 e.2.1 then
      match Src.ofCode e.2.1 with
      | some (.idx i) => (w.active ctx.w).filter fun l => w.idxBad ctx.budget i.toNat (ruleRegs e.1 ctx) l
      | _ => []
    else []
  match (operandsOf f r ++ [(f.dst, r.dst, false, false)]).find? fun e => !(bad e).isEmpty with
  | some e =>
    let ls := bad e
    let i := e.2.1.toNat % 8
    .trap { code := .indexBounds, lanes := lanesOf ls, info0 := BitVec.ofNat 64 i,
            info1 := BitVec.ofNat 64 (w.idxReg i (ls.headD 0)) }
  | none => .go

/-- Where an uncorrectable SRAM word lies (R416): the core and the pool offset. -/
def sramPlace (core off : Nat) : DWord := BitVec.ofNat 64 (core % 2 ^ 16 + 2 ^ 16 * (off % 2 ^ 20))

/-- What reads an uncorrectable word of the register file in an operand: the lane, none for a scalar register, whose read
concerns the whole instruction; with the pool offset of the word. -/
def Warp.badReads (w : Warp) (W : Nat) (x : Src) (n : Nat) : List (Option Nat × Nat) :=
  let at' (l : Option Nat) (key : Nat) : Option (Option Nat × Nat) := (tget w.badRegs key).map fun o => (l, o)
  let lanes (ls : List Nat) (m : Nat → Nat) : List (Option Nat × Nat) :=
    ls.flatMap fun l => (List.range n).filterMap fun i => at' (some l) (128 * (m l + i) + l)
  match x with
  | .v m => lanes (w.active W) fun _ => m.toNat
  | .idx i => lanes (w.active W) fun l => w.idxReg i.toNat l
  | .vl m => lanes (List.range W) fun _ => m.toNat
  | .vr m => lanes (List.range W) fun _ => m.toNat
  | .s m => (List.range n).filterMap fun i => at' none (40000 + m.toNat + i)
  | _ => []

/-- LANES of ECC_UNCORRECTABLE (R416): the lanes concerned, all ones where a scalar register is. -/
def badLanes (ls : List (Option Nat × Nat)) : Lanes :=
  if ls.any fun e => e.1.isNone then BitVec.allOnes 128 else lanesOf (ls.filterMap Prod.fst)

/-- The instructions that read their destination as a further source: SBFI and VBFI (R120), LOOP (R128). -/
def readsDst (maj : Nat) : Bool := maj == 0x11 || maj == 0x5C || maj == 0x25

/-- ECC_UNCORRECTABLE of the register file (R416). -/
def sramGate (ctx : Ctx) (f : Form) (r : Raw) (w : Warp) : Gate :=
  let old := if readsDst r.maj.toNat then [(f.dst, r.dst, false, false)] else []
  let bad := (operandsOf f r ++ old).flatMap fun e =>
    if e.1.holds e.2.2.2 e.2.1 then
      match Src.ofCode e.2.1 with
      | some x => w.badReads ctx.w x (ruleRegs e.1 ctx)
      | none => []
    else []
  match bad with
  | [] => .go
  | e :: _ => .trap { code := .eccUncorrectable, lanes := badLanes bad, info0 := sramPlace w.core e.2 }

/-- All checks of operand values that every instruction makes before its own (R98, R107, R94, R183, R416). -/
def operandGate (ctx : Ctx) (f : Form) (r : Raw) (w : Warp) : Gate :=
  (((emptyGate ctx f r w).then (latchGate f r w)).then (indexGate ctx f r w)).then
    (if w.badRegs.isEmpty then .go else sramGate ctx f r w)

/-- What the body of an instruction reads: the issuing warp, its workgroup and launch as they stand at issue (R12). -/
structure Env where
  w : Warp
  g : Group
  l : Launch
  deriving DecidableEq, Repr

/-- Lanes of the warp. -/
def Env.W (e : Env) : Nat := e.l.w
/-- Registers of a mask group. -/
def Env.mg (e : Env) : Nat := e.l.w / 32
def Env.active (e : Env) : List Nat := e.w.active e.l.w
def Env.ctx (e : Env) : Ctx := e.l.ctx e.w

def State.env (s : State) : Env := { w := s.me, g := s.myGroup, l := s.myLaunch }

/-- An uncorrectable SRAM word was met (R416): ECCSTAT, and ECCADDR where it is the first. -/
def State.sramSeen (s : State) (vi : Nat) (place : DWord) : State :=
  let v := s.vi vi
  s.setVi vi { v with eccStat := setBit v.eccStat 0 true, eccAddr := if v.eccStat = 0 then place else v.eccAddr }

/-- What a trap of the operand checks notes besides: an uncorrectable word sets ECCSTAT. -/
def sramNote (e : Env) (t : TrapInfo) (s : State) : State :=
  if t.code = .eccUncorrectable then s.sramSeen e.l.vi t.info0 else s

/-- Issues an instruction of word `r` (R70, R98, R108): traps of the format, then `pre`, the checks that an entry puts
before EMPTY_REGISTER, then the operand checks, then its effect. An instruction that is not eligible changes nothing. -/
def issueAfter (pre : Env → Gate) (r : Raw) (body : Env → State → State) (s : State) : State :=
  match tget s.warps s.cur.warp with
  | none => s
  | some _ =>
    let e := s.env
    match formatCheck e.ctx r with
    | some c => formatTrap c r.bits s
    | none =>
      match formOf e.W r with
      | none => s
      | some f =>
        match (pre e).then (operandGate e.ctx f r e.w) with
        | .wait => s
        | .trap t => takeTrap t (sramNote e t s)
        | .go => body e s

/-- The same where the entry has no earlier check. -/
def issue (r : Raw) (body : Env → State → State) (s : State) : State := issueAfter (fun _ => .go) r body s

/-! ## The plumb monitor's observations (R296) -/

/-- What an instruction writes in the registers that its word names as destinations, keyed apart by kind: v below 40000,
s from 40000, g from 50000, x from 60000. A long-latency producer writes the values that it will put there. -/
def observed (e : Env) (r : Raw) (w : Warp) (g : Group) : List RegVal :=
  let svals (n k : Nat) : List RegVal :=
    (List.range k).map fun i => { key := 40000 + n + i, val := w.sreg (n + i), poison := w.sP.getLsbD (n + i) }
  let vvals (n k l : Nat) : List RegVal :=
    (List.range k).map fun i => { key := 128 * (n + i) + l, val := w.vreg (n + i) l, poison := w.vPoison (n + i) l }
  let xs : List RegVal :=
    if r.maj = 0x74 ∨ r.maj = 0x75 then
      let i := (r.aux21.extractLsb' 0 3).toNat
      e.active.map fun l =>
        let x := sget {} w.x (128 * i + l)
        { key := 60000 + 128 * i + l, val := 0#5 ++ x.limit ++ x.base ++ x.index, poison := false }
    else []
  let flight : List RegVal := (w.flight.drop e.w.flight.length).flatMap Producer.vals
  match formOf e.W r with
  | none => []
  | some f =>
    if !flight.isEmpty then flight
    else if f.dst.holds false r.dst then
      match Src.ofCode r.dst with
      | some (.s n) => svals n.toNat (ruleRegs f.dst e.ctx)
      | some (.g n) => [{ key := 50000 + n.toNat, val := sget 0 g.g n.toNat, poison := g.gP.getLsbD n.toNat }]
      | some (.v n) => (e.active.flatMap fun l => vvals n.toNat (ruleRegs f.dst e.ctx) l)
      | some (.idx i) => e.active.flatMap fun l => vvals (e.w.idxReg i.toNat l) (ruleRegs f.dst e.ctx) l
      | _ => []
    else xs

/-- The instruction fails condition 3 of R296: a store, atomic, fence, engine command, or one that writes a special
register, EXEC or fetch state. -/
def plumbForbids (maj : Nat) : Bool :=
  maj == 0xA1 || maj == 0xA3 || maj == 0xA5 || maj == 0xA7 || decide (0xAA ≤ maj ∧ maj ≤ 0xB3) || decide (0xC0 ≤ maj) ||
  maj == 0x18 || maj == 0x19 || maj == 0x1B || maj == 0x1C || maj == 0x1D || maj == 0x26 || maj == 0x27 ||
  maj == 0xA6 || maj == 0xA8

/-- Instructions that the monitor keeps: one more than an iteration may issue. -/
def plumbKept : Nat := 17

/-- The monitor sees one instruction. -/
def Plumb.see (p : Plumb) (pc maj : Nat) (vals : List RegVal) : Plumb :=
  let x : PlumbStep := { pc := pc, vals := vals, bad := p.pendBad || plumbForbids maj, secs := p.pend, ret := maj == 0x23 }
  { p with cur := (if plumbKept ≤ p.cur.length then p.cur.drop 1 else p.cur) ++ [x], pend := [], pendBad := false,
           since := p.since + 1 }

/-- The monitor follows no loop; the latest instructions stay. -/
def Plumb.lost (p : Plumb) : Plumb := { cur := p.cur }

/-- The monitor after an instruction that does not branch: where it is the loop's own branch, the loop has ended. -/
def Plumb.fell (p : Plumb) (pc : Nat) : Plumb := if p.on && pc == p.branch then p.lost else p

/-- The latest instruction fails a condition of every iteration that holds it. -/
def spoil (xs : List PlumbStep) : List PlumbStep :=
  match xs.reverse with
  | [] => []
  | x :: rest => ({ x with bad := true } :: rest).reverse

/-- What two iterations must have in common (conditions 6 and 7). -/
def PlumbStep.same (a b : PlumbStep) : Bool := a.pc == b.pc && a.vals == b.vals

def sameSteps : List PlumbStep → List PlumbStep → Bool
  | [], [] => true
  | a :: as, b :: bs => a.same b && sameSteps as bs
  | _, _ => false

/-- The sectors of an iteration. -/
def stepSectors (it : List PlumbStep) : List Nat := (it.flatMap PlumbStep.secs).eraseDups

/-- The branches that may close a loop: BRA, BRC, BRXZ and BRXNZ (R296). -/
def plumbBranch (maj : Nat) : Bool := maj == 0x1E || maj == 0x1F || maj == 0x20 || maj == 0x21

/-- The latest instructions in a loop from `lo` to `hi`, the latest first, since the warp entered it (log entry 127), and whether none
before them is kept. What a CALL of the loop reaches belongs to its iteration: `out`, from its RET back to the CALL. -/
def visit (lo hi : Nat) : Bool → List PlumbStep → List PlumbStep × Bool
  | _, [] => ([], true)
  | out, x :: xs =>
    let inside := decide (lo ≤ x.pc ∧ x.pc ≤ hi)
    if inside || out || x.ret then
      let r := visit lo hi (!inside) xs
      (x :: r.1, r.2)
    else ([], false)

/-- The iteration that ends at B, and whether some of its instructions are no longer kept. In a loop that the monitor follows it
began after the last taken B; in another one it began at the first issue at T since the warp entered the loop. -/
def Plumb.iteration (p : Plumb) (b t : Nat) (again : Bool) : List PlumbStep × Bool :=
  if again then (if p.since ≤ plumbKept then (p.cur.drop (p.cur.length - p.since), false) else ([], true))
  else
    let v := visit t b false p.cur.reverse
    (v.1.reverse.dropWhile fun x => x.pc != t,
     v.2 && decide (plumbKept ≤ p.cur.length) && (v.1.getLast?.map PlumbStep.pc) != some t)

/-- The monitor after a taken branch from `b` to `t` (R296): an iteration ends, or the iterations under way fail condition 1, or the
loop is left. A loop is recognised when its branch is taken for the eighth time with eight sound iterations; a failing iteration is
compared with the next. -/
def Plumb.taken (p : Plumb) (b t maj : Nat) (exec : Lanes) (scc : BitVec 2) : Plumb :=
  let inside (x : Nat) : Bool := decide (p.target ≤ x) && decide (x ≤ p.branch)
  let cur := spoil p.cur
  if !(decide (t ≤ b) && plumbBranch maj) then
    if p.on && maj != 0x22 && inside b && !inside t then { cur := cur } else { p with cur := cur }
  else
    let again := p.on && p.branch == b && p.target == t
    let it := p.iteration b t again
    let loop : Plumb := { on := true, target := t, branch := b, exec := exec, scc := scc, cur := cur }
    if it.1.isEmpty && !it.2 then loop
    else
      let same := match if again then p.last else none with
        | some l => sameSteps it.1 l && p.exec == exec && p.scc == scc
        | none => true
      let secs := stepSectors it.1
      let sound := same && !it.2 && decide (it.1.length ≤ 16) && !(it.1.any PlumbStep.bad) && decide (secs.length ≤ 4)
      let n := if sound then (if again then p.count else 0) + 1 else 0
      { loop with count := n, last := some it.1, sectors := if n = 8 then secs else [], recognised := n = 8,
                  hit := n = 8 && p.hit }

/-- The monitor after a wake: the count at zero, no iteration before the next (R297). -/
def Plumb.rested (p : Plumb) : Plumb := { on := p.on, target := p.target, branch := p.branch }

/-- A write to a sector meets the monitor: it notes one to a sector that the iteration under way has loaded, or that a recognised
loop watches (R283, R297). -/
def Plumb.wrote (p : Plumb) (sec : Nat) : Plumb :=
  if p.pend.contains sec || p.sectors.contains sec || ((p.cur.drop (p.cur.length - p.since)).any fun x => x.secs.contains sec)
  then { p with hit := true } else p

/-! ## The end of an instruction -/

/-- One instruction more since each capture (R107). -/
def Warp.aged (w : Warp) : Warp :=
  { w with latchAge := w.latchAge.map fun e => (e.1, e.2.map (· + 1)) }

/-- One lane of a capture. -/
def Warp.captureLane (p : Nat) (w : Warp) (l : Nat) (x : Val) : Warp :=
  { w with latch := sset 0 w.latch (128 * p + l) x.bits,
           latchP := sset 0 w.latchP p (setBit (sget 0 w.latchP p) l x.p) }

/-- Captures a value into a latch slot (R106): `f` gives the value and poison of each lane active at issue (`exec`);
inactive lanes receive zero. -/
def Warp.capture (w : Warp) (exec : Lanes) (W p : Nat) (f : Nat → Val) : Warp :=
  (List.range W).foldl (fun w l => w.captureLane p l (if exec.getLsbD l then f l else {}))
    { w with latchAge := sset none w.latchAge p (some 0) }

/-- What completing an instruction does to its warp besides its effect: the PC moves, latch counts rise, waits and counts
are forgotten. -/
def Warp.completed (w : Warp) (pc : DWord) (half : Bool) : Warp :=
  { w.aged with pc := pc, half := half, cont := .none, walkRes := [], answers := [], redo := [], word := none, elig := 0, overdue := false,
                woken := false, status := .ready }

/-- The address of a block and the latest blocks fetched (R53, R130). -/
def blockOf (pc : DWord) : Nat := pc.toNat / 32

/-- The block that holds a warp's PC: what it has fetched already (R132), or the cache's (R77). -/
def fetchBlock (k : Core) (w : Warp) : Option (BitVec 256) :=
  match w.fetched.filter fun b => b.addr == blockOf w.pc * 32 with
  | some b => some b.bits
  | none => tget k.icache (blockOf w.pc)

/-- More than the words in the blocks that a core and a warp hold: a longer run of fill words leaves them (R49, R52). -/
def Core.fillWords (k : Core) : Nat := 8 * (k.icache.length + 2) + 1

/-- A warp past the fill words at its PC, as far as its fetch has read: at most `n` of them (R49, R52). -/
def Warp.pastFill (k : Core) : Nat → Warp → Warp
  | 0, w => w
  | n + 1, w =>
    match fetchBlock k w with
    | some b => if b.extractLsb' (8 * (w.pc.toNat % 32)) 32 = 3 then Warp.pastFill k n { w with pc := w.pc + 4 } else w
    | none => w

/-- A warp at the instruction that it issues next, or has issued and that is held: in generation-4 code no fill word is one. -/
def State.atNext (s : State) (w : Warp) : Warp :=
  if w.word.isSome || (s.launchOfWarp w).gen == 3 then w else w.pastFill (s.core w.core) (s.core w.core).fillWords

/-- The length of the word at a warp's PC as fetch sees it, for CY3 code that of the translated word (log entry 86); 8 where
it cannot be read (R113). -/
def State.nextLen (s : State) (w : Warp) : Nat :=
  match w.word with
  | some c => c.len
  | none =>
    let fromBits (b : BitVec 256) : Nat :=
      if (s.launchOfWarp w).gen = 3 then
        let ws := cy3Translate (b.extractLsb' (8 * (w.pc.toNat % 32)) 64)
        lenBytes ((ws.getD (if w.half then 1 else 0) 0).extractLsb' 0 2)
      else lenBytes (b.extractLsb' (8 * (w.pc.toNat % 32)) 2)
    ((fetchBlock (s.core w.core) w).map fromBits).getD 8

/-- A warp stops where it stands, with a record of another warp's HALT (R137). The record's PC is that of its next unissued
instruction, past fill words; for a warp that is held inside an instruction, that instruction's own (log entry 115). -/
def haltOther (id : Nat) (info1 : DWord) (s : State) : State :=
  let w := s.atNext (s.warp id)
  let s := s.setWarp id w
  let rec' := s.trapRec id { code := .softwareTrap, info1 := info1 } (s.nextLen w) 0
  (s.setWarp id { w with status := .halted 0x12, before := w.status, elig := 0, overdue := false, stopping := none }).trapDue
    (s.launchOfWarp w).vi rec'

/-- A replay that has ended under another warp's HALT stops its warp before the next instruction (R137). -/
def stopDue (s : State) : State :=
  match s.me.stopping with
  | some i => haltOther s.cur.warp i s
  | none => s

/-- Completes the issuing instruction, which does not branch. -/
def retire (e : Env) (s : State) : State :=
  let w := s.me
  let r := Raw.ofBits s.cur.bits
  let w' := w.completed (w.pc + BitVec.ofNat 64 s.cur.adv) s.cur.half
  stopDue (s.setMe { w' with plumb := (w.plumb.see w.pc.toNat r.maj.toNat (observed e r w s.myGroup)).fell w.pc.toNat })

/-- Captures into latch slot `p` what a completed instruction holds (R106, R107). -/
def captureHold (e : Env) (h : Option (Nat × (Nat → Val))) (s : State) : State :=
  match h with
  | some (p, f) => s.setMe (s.me.capture e.w.exec e.W p f)
  | none => s

/-- Completes the instruction and then captures into latch slot `p` (R106, R107). -/
def retireHold (e : Env) (h : Option (Nat × (Nat → Val))) (s : State) : State :=
  captureHold e h (retire e s)

/-- Completes a taken branch to `t` (R54, R130, R296): 6 cycles unless the target lies in the loop buffer behind it or
`predicted`. -/
def branchTo (e : Env) (t : DWord) (predicted : Bool) (s : State) : State :=
  let w := s.me
  let r := Raw.ofBits s.cur.bits
  let w' := w.completed t false
  let free := predicted || (decide (t.toNat ≤ w.pc.toNat) && w.loopBuf.contains (blockOf t))
  let pl := (w.plumb.see w.pc.toNat r.maj.toNat (observed e r w s.myGroup)).taken w.pc.toNat t.toNat r.maj.toNat w.exec
    (bit1 w.sccP ++ bit1 w.scc)
  s.setMe { w' with plumb := pl, fetched := none, status := if free then .ready else .penalty (s.clock + 6) }

/-- Does `f`, branches and captures `h`, or traps MISALIGNED with nothing done where the target is no word address (R54, R140); CY3 targets are multiples of 8 (R76). -/
def jump (e : Env) (t : DWord) (predicted : Bool) (h : Option (Nat × (Nat → Val))) (f : State → State) (s : State) : State :=
  if t.toNat % (if e.l.gen = 3 then 8 else 4) ≠ 0 then takeTrap { code := .misaligned, info0 := t } s
  else captureHold e h (branchTo e t predicted (f s))

/-- The warp waits by a recognised means and issues the instruction again on waking (R281). -/
def waitFor (x : Wait) (c : Cont) (s : State) : State :=
  s.setMe { s.me with status := .waiting x, cont := c, word := some s.cur, woken := false, waitClock := s.clock, elig := 0, overdue := false }

/-- The warp is held until an engine or event lets it go. -/
def holdFor (x : Held) (c : Cont) (s : State) : State :=
  s.setMe { s.me with status := .held x, cont := c, word := some s.cur, elig := 0, overdue := false }

end Sys2Proof.Machine
end

