-- ==== Sys2Proof/Machine/Hier.lean ====
section
/-!
DEFINITION. The memory hierarchy (spec/09 R193 to R197, spec/10 R221 to R232): sectors of the L1s, the view of a die (its
L2), its boundary write buffer, the point of coherence with its unpublished marks and watches, releases and acquires; and
translation (R198 to R201). The directory keeps the L2s coherent, so that of a clean L2 copy the model holds the presence
only: a die sees the point of coherence through the writes that wait in its own buffer (log entry 12).
-/
namespace Sys2Proof.Machine

/-! ## Locations -/

/-- The sector of a location, and the byte of the sector (R193). -/
def sectorOf (a : Nat) : Nat := a / 32
def isHost (a : Nat) : Bool := decide (hostBase ≤ a)
/-- The die that owns the stack of a global location (R195, R199): stack [39:36], four stacks a die. -/
def homeDie (a : Nat) : Nat := a / 2 ^ 38 % 4

/-- The sector of a scratchpad byte, as watches name it (R298). -/
def scratchSector (gid off : Nat) : Nat := 2 ^ 55 + gid * 2 ^ 27 + off / 32

def secByte (d : BitVec 256) (i : Nat) : Byte := d.extractLsb' (8 * i) 8
def secPut (d : BitVec 256) (i : Nat) (b : Byte) : BitVec 256 :=
  (d &&& ~~~(255#256 <<< (8 * i))) ||| ((b.setWidth 256) <<< (8 * i))

/-- Bytes of a sector selected by a mask replaced by those of `y`. -/
def secMerge (x y : BitVec 256) (mask : BitVec 32) : BitVec 256 :=
  (List.range 32).foldl (fun d i => if mask.getLsbD i then secPut d i (secByte y i) else d) x

/-- Set bits of a mask. -/
def bytesIn (m : BitVec 32) : Nat := ((List.range 32).filter fun i => m.getLsbD i).length

/-! ## Unpublished marks (R194, R226) -/

/-- A mark covering some bytes; none where it covers none. -/
def markOf (warp : Nat) (cover : BitVec 32) : Option Mark := if cover = 0 then none else some { warp := warp, cover := cover }

/-- A mark without some bytes. -/
def Mark.minus (m : Option Mark) (bytes : BitVec 32) : Option Mark := m.bind fun k => markOf k.warp (k.cover &&& ~~~bytes)

/-- A mark kept to some bytes. -/
def Mark.within (m : Option Mark) (bytes : BitVec 32) : Option Mark := m.bind fun k => markOf k.warp (k.cover &&& bytes)

/-- The mark of a copy after bytes with mark `new` are written into it (R226). Published bytes leave the cover; bytes that
carry a set flag join the mark of the same warp, or replace the mark of another. -/
def overMark (old : Option Mark) (bytes : BitVec 32) (new : Option Mark) : Option Mark :=
  match new with
  | none => Mark.minus old bytes
  | some n =>
    match old with
    | some o => if o.warp = n.warp then markOf n.warp ((o.cover &&& ~~~bytes) ||| n.cover) else some n
    | none => some n

/-- A mark with the flag of warp `id` cleared. -/
def Mark.cleared (id : Nat) (m : Option Mark) : Option Mark := m.bind fun k => if k.warp = id then none else some k

/-- The mark covers a byte for a reader other than the marking warp (R227). -/
def Mark.poisons (m : Option Mark) (reader i : Nat) : Bool :=
  match m with
  | some k => decide (k.warp ≠ reader) && k.cover.getLsbD i
  | none => false

def State.setMark (s : State) (sec : Nat) (m : Option Mark) : State := { s with marks := putAt m s.marks sec }

/-! ## Watches and waits on a sector (R283, R298) -/

/-- What a write that reaches the point of coherence of a sector does to a warp (WATCH_FIRE, WARP_WAKE). -/
def Warp.wrote (w : Warp) (sec : Nat) : Warp :=
  let ws := w.watches.map fun e => if e.2.armed && e.2.sector == sec then (e.1, { e.2 with fired := true }) else e
  let hit := match w.status with
    | .waiting .watch => ws.any fun e => e.2.armed && e.2.fired
    | .waiting (.counter c) => c == sec
    | .waiting (.plumb cs) => cs.contains sec
    | _ => false
  { w with watches := ws, woken := w.woken || hit, plumb := w.plumb.wrote sec }

def State.wrote (s : State) (sec : Nat) : State := { s with warps := tmap (fun _ w => w.wrote sec) s.warps }

/-! ## Traffic counters (R15, R206) -/

def lowNeighbour (d : Nat) : Nat := [1, 0, 0, 1].getD d 0
def highNeighbour (d : Nat) : Nat := [2, 3, 3, 2].getD d 0

/-- Counts bytes over the boundary of two neighbour dies, on both. -/
def State.crossing (s : State) (vi a b n : Nat) : State :=
  let k (x y : Nat) : Nat := if lowNeighbour x = y then 1 else 2
  (s.count vi a (k a b) n).count vi b (k b a) n

/-- Counts bytes that travel between two dies on the default path (R15). -/
def State.travel (s : State) (vi a b n : Nat) : State :=
  if a = b then s
  else if a + b = 3 then
    let m := if a = 0 ∨ a = 3 then 1 else 0
    (s.crossing vi a m n).crossing vi m b n
  else s.crossing vi a b n

/-- Counts bytes that move on the stacks of some locations for a party that is no die of the package (R206). -/
def State.stackTraffic (s : State) (vi : Nat) (locs : List Nat) : State :=
  locs.foldl (fun s a => if isHost a then s else s.count vi (homeDie a) 0 1) s

/-- Counts bytes that a die writes to the home of a location. -/
def State.traffic (s : State) (vi d a n : Nat) : State :=
  if isHost a then s.count vi d 5 n else (s.travel vi d (homeDie a) n).count vi (homeDie a) 0 n

/-! ## The L2 of a die (R16, R195) -/

/-- Lines of an L2: 96 MiB in lines of 128 bytes. -/
def l2Lines : Nat := 786432

/-- The bytes of a line that lie in a sector, from the mask of its bytes. -/
def lineMask (sec : Nat) (mask : BitVec 32) : BitVec 128 := mask.setWidth 128 <<< (32 * (sec % 4))

/-- What an L2 holds of a line. -/
def Die.l2Held (x : Die) (line : Nat) : BitVec 128 := ((x.l2.find? fun e => e.line == line).map L2Line.held).getD 0

/-- The L2 holds every byte of a sector. -/
def Die.l2Has (x : Die) (sec : Nat) : Bool :=
  x.l2Held (sec / 4) &&& lineMask sec (BitVec.allOnes 32) == lineMask sec (BitVec.allOnes 32)

/-- A die's L2 holds some bytes of a sector, a read's or a write's (log entry 123). Where it is full the line held longest leaves (log
entry 91). -/
def State.l2Put (s : State) (d sec : Nat) (mask : BitVec 32) : State :=
  let x := s.die d
  let held := x.l2Held (sec / 4) ||| lineMask sec mask
  s.setDie d { x with l2 := ({ line := sec / 4, held := held } :: x.l2.filter (·.line != sec / 4)).take l2Lines }

/-- An L2 without a sector. -/
def Die.l2Without (x : Die) (sec : Nat) : Die :=
  { x with l2 := x.l2.filterMap fun e =>
      if e.line != sec / 4 then some e
      else
        let held := e.held &&& ~~~(lineMask sec (BitVec.allOnes 32))
        if held = 0 then none else some { e with held := held } }

/-- The copies of a sector in the L2s of other dies than its home and the die that writes it are invalidated (R195). -/
def State.l2Drop (s : State) (sec : Nat) (writer : Option Nat) : State :=
  { s with dies := tmap (fun d x =>
      if writer == some d || (!isHost (32 * sec) && homeDie (32 * sec) == d) then x else x.l2Without sec) s.dies }

/-- A die reads a sector of global or host memory through its L2 (R195, R197), with the bytes that move counted (R206): over the
host link, or from the home die, whose L2 is filled from its stack where it lacks the sector. -/
def State.l2Fetch (s : State) (vi d sec : Nat) : State :=
  let all : BitVec 32 := BitVec.allOnes 32
  if (s.die d).l2Has sec then s
  else if isHost (32 * sec) then (s.count vi d 5 32).l2Put d sec all
  else
    let h := homeDie (32 * sec)
    let s := s.travel vi d h 32
    let s := if (s.die h).l2Has sec then s else (s.count vi h 0 32).l2Put h sec all
    if d = h then s else s.l2Put d sec all

/-- The same for every sector of some locations. -/
def State.l2FetchAll (s : State) (vi d : Nat) (locs : List Nat) : State :=
  (locs.map sectorOf).eraseDups.foldl (fun s sec => s.l2Fetch vi d sec) s

/-- The interface that holds a core (R413); interface 0 where none does. -/
def State.viOfCore (s : State) (c : Nat) : Nat :=
  ((s.vis.find? fun e => e.2.cores.getLsbD c).map Prod.fst).getD 0

/-! ## The point of coherence (R223) -/

/-- An uncorrectable HBM word was met (R416): ECCSTAT, and ECCADDR where it is the first. -/
def State.eccSeen (s : State) (vi loc : Nat) : State :=
  let v := s.vi vi
  s.setVi vi { v with eccStat := setBit v.eccStat 1 true, eccAddr := if v.eccStat = 0 then BitVec.ofNat 64 loc else v.eccAddr }

/-- A tag of a core's L1 failed its parity twice (R415, R416): a retry is counted; ECCSTAT, ECCADDR where it is the first; the line
is refetched. -/
def State.tagSeen (s : State) (vi c loc : Nat) : State :=
  let k := s.core c
  let s := s.count vi (c / 64) 0x42 1
  let v := s.vi vi
  (s.setVi vi { v with eccStat := setBit v.eccStat 2 true, eccAddr := if v.eccStat = 0 then BitVec.ofNat 64 loc else v.eccAddr
              }).setCore c { k with badTags := k.badTags.filter (· != loc / 128) }

/-- The L2 whose tag of a location's line fails its parity twice when die `d` reads it (R416): its own, or that of the home die from
which it fetches what it lacks. -/
def State.l2TagDie (s : State) (d a : Nat) : Option Nat :=
  if (s.die d).badTags.contains (a / 128) then some d
  else if !isHost a && !(s.die d).l2Has (sectorOf a) && (s.die (homeDie a)).badTags.contains (a / 128) then some (homeDie a)
  else none

/-- The first line among those of some locations whose tag fails so: its physical address. -/
def State.l2BadTag (s : State) (d : Nat) (locs : List Nat) : Option Nat :=
  if s.dies.all fun e => e.2.badTags.isEmpty then none
  else (locs.find? fun a => (s.l2TagDie d a).isSome).map fun a => a / 128 * 128

/-- The same as `tagSeen` for the tag of an L2 that a read of die `d` met. -/
def State.l2TagSeen (s : State) (vi d loc : Nat) : State :=
  let h := (s.l2TagDie d loc).getD d
  let k := s.die h
  let s := s.count vi h 0x42 1
  let v := s.vi vi
  (s.setVi vi { v with eccStat := setBit v.eccStat 2 true, eccAddr := if v.eccStat = 0 then BitVec.ofNat 64 loc else v.eccAddr
              }).setDie h { k with badTags := k.badTags.filter (· != loc / 128) }

/-- The physical address of the first uncorrectable word among some locations (R416). -/
def State.wordBad (s : State) (locs : List Nat) : Option Nat :=
  if s.bad.isEmpty then none else (locs.find? fun a => s.bad.contains (a / 8)).map fun a => a / 8 * 8

/-- What a read of some locations through the L2 of a die meets (R416): an uncorrectable word, or a line whose tag fails; its physical
address. -/
def State.readBad (s : State) (d : Nat) (locs : List Nat) : Option Nat := (s.wordBad locs).orElse fun _ => s.l2BadTag d locs

/-- It is noted. -/
def State.readBadSeen (s : State) (vi d a : Nat) : State := if s.bad.contains (a / 8) then s.eccSeen vi a else s.l2TagSeen vi d a

/-- Memory with the selected bytes of a sector written. -/
def putSector (m : Memory) (sec : Nat) (mask : BitVec 32) (data : BitVec 256) : Memory :=
  (List.range 32).foldl (fun m i => if mask.getLsbD i then m.write (32 * sec + i) (secByte data i) else m) m

/-- Words of 8 bytes of which a write gives every byte. -/
def wordsIn (sec : Nat) (mask : BitVec 32) : List Nat :=
  ((List.range 4).filter fun k => mask.extractLsb' (8 * k) 8 == BitVec.allOnes 8).map fun k => 4 * sec + k

/-- A write reaches the point of coherence: bytes, mark, watches (R195, R226, R298); `writer`: the die that it comes from. -/
def State.pocWrite (s : State) (writer : Option Nat) (sec : Nat) (mask : BitVec 32) (data : BitVec 256) (mark : Option Mark) :
    State :=
  let s := { s with mem := putSector s.mem sec mask data, bad := s.bad.filter fun b => !(wordsIn sec mask).contains b }
  ((s.setMark sec (overMark (tget s.marks sec) mask mark)).wrote sec).l2Drop sec writer

/-- An entry of a buffer reaches its home: bytes, and the traffic from its die (R195, R206). -/
def State.arrive (s : State) (d : Nat) (e : WEntry) : State :=
  (s.pocWrite (some d) e.sector e.mask e.data e.mark).traffic e.vi d (32 * e.sector) (bytesIn e.mask)

/-- Host writes that are on their way and that every die sees reach the host, oldest first: those of a sector (R223). -/
def State.hostDrain (s : State) (sec : Nat) : State :=
  ((s.hostq.filter fun e => e.sector == sec).foldl (fun s e => s.arrive (e.id % 4) e)
    { s with hostq := s.hostq.filter fun e => e.sector != sec })

/-- Bytes from a location as the mask and data of its sector. -/
def packBytes (locs : List Nat) (bytes : List Byte) : BitVec 32 × BitVec 256 :=
  (locs.zip bytes).foldl (fun r e => (setBit r.1 (e.1 % 32) true, secPut r.2 (e.1 % 32) e.2)) (0, 0)

/-- Groups bytes by sector and applies `f` to each. -/
def overSectors (f : Nat → BitVec 32 → BitVec 256 → State → State) (locs : List Nat) (bytes : List Byte) (s : State) : State :=
  let secs := (locs.map sectorOf).eraseDups
  secs.foldl (fun s sec =>
    let es := (locs.zip bytes).filter fun e => sectorOf e.1 == sec
    let p := packBytes (es.map Prod.fst) (es.map Prod.snd)
    f sec p.1 p.2 s) s

/-- Bytes written at the point of coherence by an engine, a packet or a party outside (R228, R298): no mark. -/
def State.engineWrite (s : State) (locs : List Nat) (bytes : List Byte) : State :=
  overSectors (fun sec mask data s => (s.hostDrain sec).pocWrite none sec mask data none) locs bytes s

/-- The same where the bytes come from a die, with the traffic counted (R15, R206). -/
def State.engineWriteFrom (s : State) (vi d : Nat) (locs : List Nat) (bytes : List Byte) : State :=
  overSectors (fun sec mask data s =>
    ((s.hostDrain sec).pocWrite (some d) sec mask data none).traffic vi d (32 * sec) (bytesIn mask)) locs bytes s

/-! ## The view of a die (R195) -/

/-- The latest waiting write of a byte in a buffer. -/
def pendingIn (es : List WEntry) (a : Nat) : Option WEntry :=
  es.reverse.find? fun e => e.sector == sectorOf a && e.mask.getLsbD (a % 32)
def Die.pending (d : Die) (a : Nat) : Option WEntry := pendingIn d.wbuf a

/-- The byte that a die's L2 serves: under its own waiting writes, the host writes that every die sees, and then the point of
coherence. -/
def State.dieByte (s : State) (d a : Nat) : Byte :=
  match (s.die d).pending a with
  | some e => secByte e.data (a % 32)
  | none =>
    match pendingIn s.hostq a with
    | some e => secByte e.data (a % 32)
    | none => s.mem.byte a

/-- The mark that the die's copy of a sector carries. -/
def State.dieMark (s : State) (d sec : Nat) : Option Mark :=
  ((s.hostq ++ (s.die d).wbuf).filter fun e => e.sector == sec).foldl (fun m e => overMark m e.mask e.mark) (tget s.marks sec)

/-- `n` bytes from a location in a die's view. -/
def State.dieBytes (s : State) (d a : Nat) : Nat → List Byte
  | 0 => []
  | n + 1 => s.dieByte d a :: State.dieBytes s d (a + 1) n

/-- The first `n` bytes of a number, lowest first (R4). -/
def leBytes (x : Nat) : Nat → List Byte
  | 0 => []
  | n + 1 => BitVec.ofNat 8 x :: leBytes (x / 256) n

/-- A write into the L2 of die `d`, whose copy it updates at once (R195): performed where the die is the home, otherwise entered in
its buffer. -/
def State.dieWrite (s : State) (d vi sec : Nat) (mask : BitVec 32) (data : BitVec 256) (mark : Option Mark) : State :=
  if mask = 0 then s
  else if isHost (32 * sec) || homeDie (32 * sec) != d then
    let s := s.l2Put d sec mask
    let x := s.die d
    let e : WEntry := { id := 4 * x.nextEntry + d, sector := sec, mask := mask, data := data, mark := mark,
                        host := isHost (32 * sec), vi := vi }
    s.setDie d { x with wbuf := x.wbuf ++ [e], nextEntry := x.nextEntry + 1 }
  else ((s.l2Put d sec mask).pocWrite (some d) sec mask data mark).traffic vi d (32 * sec) (bytesIn mask)

/-- An entry drains to its home and is acknowledged (R195); earlier host writes of the sector go before it. -/
def State.drain (s : State) (d : Nat) (e : WEntry) : State :=
  let x := s.die d
  ((s.setDie d { x with wbuf := x.wbuf.filter fun y => y.id != e.id }).hostDrain e.sector).arrive d e

/-- The host writes of a die become visible to every die of the package (R195, R220, log entry 92). -/
def State.shareHost (s : State) (d : Nat) : State :=
  let x := s.die d
  let es := x.wbuf.filter WEntry.host
  if es.isEmpty then s
  else
    let s := s.setDie d { x with wbuf := x.wbuf.filter fun e => !e.host }
    es.foldl (fun s e => s.l2Drop e.sector (some d)) { s with hostq := s.hostq ++ es }

/-- Drains every entry of a die that satisfies `p`, oldest first. -/
def State.drainAll (s : State) (d : Nat) (p : WEntry → Bool) : State :=
  ((s.die d).wbuf.filter p).foldl (fun s e => s.drain d e) s

/-! ## The L1 of a core (R193) -/

def Core.sector (c : Core) (sec : Nat) : Sector := (tget c.l1 sec).getD {}

def State.putL1 (s : State) (c sec : Nat) (x : Sector) : State :=
  let k := s.core c
  s.setCore c { k with l1 := putAt (if x.valid = 0 then none else some x) k.l1 sec }

/-- Writes the dirty bytes of a sector back to the die's L2; the mark stands in both copies (R194, R226). -/
def State.writeBack (s : State) (c sec : Nat) : State :=
  let x := (s.core c).sector sec
  if x.dirty = 0 then s
  else
    (s.putL1 c sec { x with dirty := 0 }).dieWrite (c / 64) (s.viOfCore c) sec x.dirty x.data (Mark.within x.mark x.dirty)

/-- A sector leaves the L1 (L1_EVICTION). -/
def State.evict (s : State) (c sec : Nat) : State := (s.writeBack c sec).putL1 c sec {}

/-- Lines of an L1: 128 KiB in lines of 128 bytes (R193). -/
def l1Lines : Nat := 1024

/-- The L1 allocates a line for a sector. Where it is full a line leaves it; which one is unstated (log entry 91): a free value. -/
def State.l1Room (s : State) (c sec : Nat) : State :=
  let lines := ((s.core c).l1.map fun e => e.1 / 4).eraseDups
  if lines.contains (sec / 4) || decide (lines.length < l1Lines) then s
  else
    let line := lines.getD ((Config.unstated s.free).toNat % lines.length) 0
    (List.range 4).foldl (fun s i => s.evict c (4 * line + i)) { s with free := s.free + 1 }

/-- A load of the bytes `need` of a sector. Where the L1 lacks one of them it fetches what it lacks of the sector from the die's
L2, with the mark of the copy (R193, R197, R226). -/
def State.l1Fill (s : State) (c sec : Nat) (need : BitVec 32) : State :=
  if need &&& ~~~((s.core c).sector sec).valid = 0 then s
  else
    let d := c / 64
    let s := (s.l1Room c sec).l2Fetch (s.viOfCore c) d sec
    let x := (s.core c).sector sec
    let miss := ~~~x.valid
    let data := (List.range 32).foldl (fun y i => if miss.getLsbD i then secPut y i (s.dieByte d (32 * sec + i)) else y) x.data
    s.putL1 c sec { x with valid := BitVec.allOnes 32, data := data,
                           mark := overMark x.mark miss (Mark.within (s.dieMark d sec) miss) }

/-- Loads of some locations. -/
def State.l1FillAll (s : State) (c : Nat) (locs : List Nat) : State :=
  overSectors (fun sec mask _ s => s.l1Fill c sec mask) locs (locs.map fun _ => 0) s

/-- A byte as the L1 serves it after the fill, and whether a mark covers it for `reader` (R227). -/
def State.l1Byte (s : State) (c a : Nat) : Byte := secByte ((s.core c).sector (sectorOf a)).data (a % 32)
def State.l1Poison (s : State) (c reader a : Nat) : Bool := Mark.poisons ((s.core c).sector (sectorOf a)).mark reader (a % 32)

/-- Loads some locations, sector by sector, each read as soon as it is there: what a later fill evicts has been read. The bytes, and
whether a mark covers each for `reader`. -/
def State.l1Read (s : State) (c reader : Nat) (locs : List Nat) : State × List (Byte × Bool) :=
  let r := (locs.map sectorOf).eraseDups.foldl (fun (r : State × List (Nat × Byte × Bool)) sec =>
    let ls := locs.filter fun a => sectorOf a == sec
    let s := r.1.l1Fill c sec (ls.foldl (fun m a => setBit m (a % 32) true) 0)
    (s, r.2 ++ ls.map fun a => (a, s.l1Byte c a, s.l1Poison c reader a))) (s, [])
  (r.1, locs.map fun a => (tget r.2 a).getD (0, false))

/-- The same for LDNC (R211): the L2, under the core's own dirty bytes (R218). -/
def State.ncByte (s : State) (c a : Nat) : Byte :=
  let x := (s.core c).sector (sectorOf a)
  if x.dirty.getLsbD (a % 32) then secByte x.data (a % 32) else s.dieByte (c / 64) a
def State.ncPoison (s : State) (c reader a : Nat) : Bool :=
  let x := (s.core c).sector (sectorOf a)
  if x.dirty.getLsbD (a % 32) then Mark.poisons x.mark reader (a % 32)
  else Mark.poisons (s.dieMark (c / 64) (sectorOf a)) reader (a % 32)

/-- The clean L1 bytes at some locations become invalid. A read past the L1 does so, since a later load of the warp may not return
an older byte (R215, R218, R223). -/
def State.l1Forget (s : State) (c : Nat) (locs : List Nat) : State :=
  overSectors (fun sec mask _ s =>
    let x := (s.core c).sector sec
    if x.valid = 0 then s
    else
      let gone := mask &&& ~~~x.dirty
      s.putL1 c sec { x with valid := x.valid &&& ~~~gone, mark := Mark.minus x.mark gone }) locs (locs.map fun _ => 0) s

/-- A store into the L1 (R193, R226): `mark` is the storing warp of a plain store to global or host memory. -/
def State.l1Store (s : State) (c : Nat) (mark : Option Nat) (locs : List Nat) (bytes : List Byte) : State :=
  overSectors (fun sec mask data s =>
    let s := s.l1Room c sec
    let x := (s.core c).sector sec
    s.putL1 c sec { x with valid := x.valid ||| mask, dirty := x.dirty ||| mask, data := secMerge x.data data mask,
                           mark := overMark x.mark mask (mark.bind fun w => markOf w mask) }) locs bytes s

/-- Notes whether the lines of some locations hold private data (R193): what the latest access took them for. -/
def State.l1Tag (s : State) (c : Nat) (priv : Bool) (locs : List Nat) : State :=
  overSectors (fun sec _ _ s =>
    let x := (s.core c).sector sec
    if x.priv = priv then s else s.putL1 c sec { x with priv := priv }) locs (locs.map fun _ => 0) s

/-- A store that goes through the L1 to the die's L2 without a mark: release stores at .die or wider (R298), CPOUT (R232). -/
def State.writeThrough (s : State) (c : Nat) (locs : List Nat) (bytes : List Byte) : State :=
  overSectors (fun sec mask data s =>
    let x := (s.core c).sector sec
    let s := if x.valid = 0 then s
      else s.putL1 c sec { x with dirty := x.dirty &&& ~~~mask, data := secMerge x.data data mask, mark := Mark.minus x.mark mask }
    s.dieWrite (c / 64) (s.viOfCore c) sec mask data none) locs bytes s

/-- The L1 bytes at some locations become invalid; their sector's dirty bytes have been written back. -/
def State.l1Drop (s : State) (c : Nat) (locs : List Nat) : State :=
  overSectors (fun sec mask _ s =>
    let x := (s.core c).sector sec
    s.putL1 c sec { x with valid := x.valid &&& ~~~mask, dirty := x.dirty &&& ~~~mask, mark := Mark.minus x.mark mask })
    locs (locs.map fun _ => 0) s

/-- Every dirty sector of a core is written back (R193). -/
def State.writeBackAll (s : State) (c : Nat) : State :=
  ((s.core c).l1.map Prod.fst).foldl (fun s sec => s.writeBack c sec) s

/-- What an acquire leaves of a sector: only dirty bytes; a line of private data stays where `keep` (R193). -/
def Sector.acquired (x : Sector) (keep : Bool) : Sector :=
  if keep && x.priv then x else { x with valid := x.dirty, mark := Mark.within x.mark x.dirty }

/-- The sectors of an L1 after an acquire. -/
def State.forgetL1 (s : State) (c : Nat) (keep : Bool) : State :=
  let k := s.core c
  s.setCore c { k with l1 := k.l1.filterMap fun e =>
    let x := Sector.acquired e.2 keep
    if x.valid = 0 then none else some (e.1, x) }

/-- The L1 action of an acquire on the global and host lines of a core (R193). -/
def State.invalidateL1 (s : State) (c : Nat) : State := s.forgetL1 c true

/-! ## Releases and acquires (R193 to R196, R213, R215, R221) -/

def Scope.atLeastDie : Scope → Bool
  | .die => true | .device => true | .fabric => true | .system => true | _ => false
def Scope.atLeastDevice : Scope → Bool
  | .device => true | .fabric => true | .system => true | _ => false

/-- Clears the flags of a warp in every copy (R226). -/
def State.publish (s : State) (id : Nat) : State :=
  { s with
    cores := tmap (fun _ c => { c with l1 := tmap (fun _ x => { x with mark := Mark.cleared id x.mark }) c.l1 }) s.cores,
    dies := tmap (fun _ d => { d with wbuf := d.wbuf.map fun e => { e with mark := Mark.cleared id e.mark } }) s.dies,
    hostq := s.hostq.map fun e => { e with mark := Mark.cleared id e.mark },
    marks := s.marks.filter fun e => e.2.warp != id }

/-- The cache actions of a release of warp `id` on core `c` (R193, R194); at .device and wider what its die has written to host
memory becomes visible to the other dies (R220). -/
def State.releaseAt (s : State) (id c : Nat) (sc : Scope) : State :=
  if sc = .warp then s
  else
    let s := s.publish id
    let s := if Scope.atLeastDie sc then s.writeBackAll c else s
    if Scope.atLeastDevice sc then s.shareHost (c / 64) else s

/-- The entries that a release waits for (R196, R221): those of the die's buffer, and for .system the host writes that every die
sees as well (log entry 26). -/
def State.releaseWaits (s : State) (c : Nat) (sc : Scope) : List Nat :=
  (if Scope.atLeastDevice sc then (s.die (c / 64)).wbuf.map WEntry.id else []) ++
  (if sc = .system then s.hostq.map WEntry.id else [])

/-- Some of these entries are still on their way. -/
def State.onTheWay (s : State) (d : Nat) (ids : List Nat) : Bool :=
  ((s.die d).wbuf ++ s.hostq).any fun e => ids.contains e.id

/-- A CPOUT of the warp has not finished (R232). -/
def State.copyingOut (s : State) (id : Nat) : Bool :=
  s.cores.any fun k => k.2.copyq.any fun x => x.out && x.warp == id

/-- A copy or an MVB of the warp has not been performed. A release waits for a CPOUT's writes (R232), and for the loads of a CPIN
and of an MVB, which are earlier accesses of the warp as well (R215, R216, R231, R250). -/
def State.copying (s : State) (id : Nat) : Bool :=
  s.cores.any fun k => (k.2.copyq.any fun x => x.warp == id) || k.2.mvbs.any fun x => x.warp == id

/-- Performs the release of the issuing instruction, then `k`. The warp is held until it is complete (R196, R232). -/
def withRelease (e : Env) (sc : Scope) (k : State → State) (s : State) : State :=
  match e.w.cont with
  | .none =>
    if s.copying s.cur.warp then holdFor (.release []) .none s
    else
      let s := s.releaseAt s.cur.warp e.w.core sc
      let ids := s.releaseWaits e.w.core sc
      if ids.isEmpty then k s else holdFor (.release ids) .released s
  | _ => k s

/-- A release at .device that completes within one step: its entries drain in it (R230, R231, R377). -/
def State.releaseDevice (s : State) (id c : Nat) : State :=
  (s.releaseAt id c .device).drainAll (c / 64) fun _ => true

/-- A release of an engine on a die at .device or wider (R221, R231): what waits in the die's buffer drains within the step, and
host writes become visible to every die. -/
def State.engineRelease (s : State) (d : Nat) : State := (s.shareHost d).drainAll d fun _ => true

/-- Every host write that is on its way reaches the host, for a release at .system that completes within one step (R196, R397). -/
def State.hostDrainAll (s : State) : State := (s.hostq.map WEntry.sector).eraseDups.foldl State.hostDrain s

/-- The acquire of a core (R193). -/
def State.acquireAt (s : State) (c : Nat) (sc : Scope) : State :=
  if Scope.atLeastDie sc then s.invalidateL1 c else s

/-! ## Translation (R198 to R202) -/

/-- What a page table entry is refused for (R199). DEDUCED: a frame beyond the machine's memory, bits 51 to 40 of FRAME in an entry that
is not the host's, is refused too (log entry 120). -/
def pteRefused (level : Nat) (e : DWord) : Bool :=
  let leaf := e.getLsbD 1
  let tgt := (e.extractLsb' 7 2).toNat
  let low := if level = 2 then e.extractLsb' 12 18 != 0 else if level = 1 then e.extractLsb' 12 9 != 0 else e.extractLsb' 12 4 != 0
  e.extractLsb' 9 3 != 0 || e.extractLsb' 2 2 != 0 || tgt == 3 || (e.extractLsb' 52 12 != 0 && (!leaf || tgt != 2)) ||
  (leaf && decide (3 ≤ level)) || (!leaf && level == 0) || (!leaf && tgt != 0) || (leaf && low) ||
  (e.extractLsb' 40 12 != 0 && tgt != 1)

/-- The index of a level in a virtual address, and the log of the page that its leaf maps (R198). -/
def levelIndex (level va : Nat) : Nat :=
  match level with
  | 0 => va / 2 ^ 16 % 32
  | l => va / 2 ^ (12 + 9 * l) % 512
def levelLog (level : Nat) : Nat :=
  match level with
  | 0 => 16
  | l => 12 + 9 * l

/-- The part that holds a location is usable (R411): its stack, or the host link. -/
def State.partReady (s : State) (a : Nat) : Bool := s.ready.getLsbD (if isHost a then 0 else 5 + a / 2 ^ 36 % 16)

/-- The walk from a table (R198, R199); `rd` reads an 8-byte entry of global memory on a stack that is `ok`, and `bad` tells the
entries in an uncorrectable word (R416). -/
def walkFrom (rd : Nat → DWord) (ok bad : Nat → Bool) (vi die va : Nat) : Nat → Nat → WalkResult
  | level, table =>
    if table ≥ 2 ^ 40 then .hole
    else if !ok table then .pending
    else if bad (table + 8 * levelIndex level va) then .bad (table + 8 * levelIndex level va)
    else
      let e := rd (table + 8 * levelIndex level va)
      if !e.getLsbD 0 then .invalid level
      else if pteRefused level e then .refused level
      else if e.getLsbD 1 then
        .ok { vi := vi, die := die, page := va / 2 ^ levelLog level, lg := levelLog level, level := level, leaf := e }
      else
        match level with
        | 0 => .refused 0
        | l + 1 => walkFrom rd ok bad vi die va l ((e.extractLsb' 12 40).toNat * 4096)

/-- The addresses of the entries that the same walk reads. -/
def walkReads (rd : Nat → DWord) (ok : Nat → Bool) (va : Nat) : Nat → Nat → List Nat
  | level, table =>
    if table ≥ 2 ^ 40 ∨ !ok table then []
    else
      let a := table + 8 * levelIndex level va
      let e := rd a
      if !e.getLsbD 0 || pteRefused level e || e.getLsbD 1 then [a]
      else
        match level with
        | 0 => [a]
        | l + 1 => a :: walkReads rd ok va l ((e.extractLsb' 12 40).toNat * 4096)

/-- The low 57 bits of a canonical address. -/
def vaOf (a : DWord) : Nat := a.toNat % 2 ^ 57

/-- The canonical address of 57 bits. -/
def canonOf (va : Nat) : DWord := (BitVec.ofNat 57 va).signExtend 64

/-- All of bits 63 to 57 equal bit 56 (R188). -/
def canonical (a : DWord) : Bool :=
  let h := a.extractLsb' 57 7
  if a.getLsbD 56 then h == BitVec.allOnes 7 else h == 0

/-- The walk of an interface on a die. -/
def State.walk (s : State) (vi die va : Nat) : WalkResult :=
  walkFrom (fun a => BitVec.ofNat 64 (bitsOfBytes (s.dieBytes die a 8))) s.partReady (fun a => s.bad.contains (a / 8)) vi die va 4 (sget 0 (s.vi vi).troot die).toNat

/-- The bytes that the die's walker fetches for a walk are counted (R206). -/
def State.walkTraffic (s : State) (vi die va : Nat) : State :=
  s.l2FetchAll vi die (walkReads (fun a => BitVec.ofNat 64 (bitsOfBytes (s.dieBytes die a 8))) s.partReady va 4
    (sget 0 (s.vi vi).troot die).toNat)

/-- A cached translation serves an address. -/
def Xlat.serves (x : Xlat) (vi die va : Nat) : Bool := x.vi == vi && x.die == die && x.page == va / 2 ^ x.lg

/-- The caches of R200 in order: the walk of the instruction under way, the lane's last page, the core's, the die's. -/
def State.lookup (s : State) (w : Warp) (vi c lane va : Nat) : Option WalkResult :=
  let d := c / 64
  match w.walkRes.find? fun r => r.1 == va / 65536 with
  | some r => some r.2.2
  | none =>
    match (tget w.lastPage lane).filter fun x => x.serves vi d va with
    | some x => some (.ok x)
    | none =>
      match (s.core c).tlb.find? fun x => x.serves vi d va with
      | some x => some (.ok x)
      | none => ((s.die d).tlb.find? fun x => x.serves vi d va).map .ok

/-- Entries of the core and die translation caches (R200). -/
def coreTlb : Nat := 2048
def dieTlb : Nat := 16384

/-- Puts a translation into the caches of a core and its die. -/
def State.cacheXlat (s : State) (c : Nat) (x : Xlat) : State :=
  let k := s.core c
  let s := s.setCore c { k with tlb := (x :: k.tlb.filter fun y => y != x).take coreTlb }
  let d := s.die (c / 64)
  s.setDie (c / 64) { d with tlb := (x :: d.tlb.filter fun y => y != x).take dieTlb }

/-- Where a byte that a warp, engine or packet names lies. -/
inductive Route
  | cells (locs : List Nat)                  -- global, host or private memory, byte by byte
  | scratch (off : Nat)
  | const (off : Nat)
  | peer (rank addr : Nat)
  | walk (va : Nat)                          -- not translated yet
  | refused (info1 : Nat)                    -- PROTECTION (R429)
  | faulted (va info1 : Nat)                 -- PAGE_FAULT (R202)
  | ecc (addr : Nat)                         -- an uncorrectable word in a page table (R416)
  deriving DecidableEq, Repr

/-- The access of `n` bytes through a leaf (R202, R368). `acc`: 0 read, 1 write, 2 atomic. A write to a page with
RPL = 1 faults whatever W holds (R205). -/
def Vi.leafRoute (v : Vi) (x : Xlat) (va acc n : Nat) : Route :=
  let rpl := x.leaf.getLsbD 6
  let ww := x.leaf.getLsbD 4
  let phys := (x.leaf.extractLsb' 12 40).toNat * 4096 + va % 2 ^ x.lg
  if acc ≠ 0 ∧ (rpl ∨ !ww) then .faulted va (acc + 4 * x.level + (if rpl then 32 else 0) + (if ww then 0 else 64))
  else
    match (x.leaf.extractLsb' 7 2).toNat with
    | 0 => .cells ((List.range n).map fun i => phys % 2 ^ 40 + i)
    | 1 => .cells ((List.range n).map fun i => hostBase + phys + i)
    | _ =>
      let rank := (x.leaf.extractLsb' 52 12).toNat
      if rank ≥ v.domSize.toNat ∨ v.lost.contains rank then .refused (acc + 1024) else .peer rank (phys % 2 ^ 40)

/-- What a walk's outcome means for an access. -/
def Vi.resultRoute (v : Vi) (r : WalkResult) (va acc n : Nat) : Route :=
  match r with
  | .ok x => v.leafRoute x va acc n
  | .refused l => .refused (acc + 4 * l + 128)
  | .invalid l => .faulted va (acc + 4 * l)
  | .hole => .walk va
  | .pending => .walk va
  | .bad a => .ecc a

/-- An access to a part that is not ready waits as one that is not translated yet (R411). -/
def State.gated (s : State) (r : Route) (va : Nat) : Route :=
  match r with
  | .cells ls => if ls.all s.partReady then r else .walk va
  | r => r

/-- The virtual addresses meet the survey group table or the monument table of a launch, which no program address reaches (R290, R347,
log entry 98). -/
def State.tableHidden (s : State) (vi va n : Nat) : Bool :=
  let meets (base len : Nat) : Bool := decide (va < base + len) && decide (base < va + n)
  s.launches.any fun e => e.2.vi == vi &&
    (meets (vaOf e.2.save) 256 || (e.2.monEntries != 0 && meets (vaOf e.2.save + 4096) (32 * e.2.monEntries)))

/-- The access of a lane of a warp to a virtual address. -/
def State.routeVa (s : State) (w : Warp) (vi c lane va acc n : Nat) : Route :=
  if s.tableHidden vi va n then .refused (acc + 2048)
  else
    match s.lookup w vi c lane va with
    | some r => s.gated ((s.vi vi).resultRoute r va acc n) va
    | none => .walk va

/-- The access of an engine or packet of an interface on a die, which walks at once; `.walk` where a table does not
exist. -/
def State.routeEngine (s : State) (vi die acc n : Nat) (a : DWord) : Route :=
  if canonical a then s.gated ((s.vi vi).resultRoute (s.walk vi die (vaOf a)) (vaOf a) acc n) (vaOf a)
  else .refused (acc + 2048)

/-- The pieces of `n` bytes from an address that lie in one 64 KiB block each: offset and length. -/
def rangePieces (a : DWord) (n : Nat) : List (Nat × Nat) :=
  let first := min n (65536 - a.toNat % 65536)
  let more := (n - first + 65535) / 65536
  (0, first) :: (List.range more).map fun j => (first + 65536 * j, min 65536 (n - first - 65536 * j))

/-- The table entries that an engine or packet on a die reads for an access of `n` bytes are counted (R15, R206); it keeps no
translation from one access to the next (log entry 122, DESIGN CHOICE). -/
def State.walked (s : State) (vi die : Nat) (a : DWord) (n : Nat) : State :=
  (rangePieces a n).foldl (fun s p =>
    let x := a + BitVec.ofNat 64 p.1
    if canonical x then s.walkTraffic vi die (vaOf x) else s) s

/-- The translations with which an engine reaches some bytes (R201). -/
def State.pagesOf (s : State) (vi die : Nat) (a : DWord) (n : Nat) : List Xlat :=
  (rangePieces a n).filterMap fun p => match s.walk vi die (vaOf (a + BitVec.ofNat 64 p.1)) with
    | .ok x => some x
    | _ => none

/-- Starts the walks of some addresses, one for each 64 KiB, and holds the issuing warp until they end (R200). Where the walks
have ended already, the access waits for a part that is not ready. -/
def startWalks (vi c : Nat) (vas : List Nat) (s : State) : State :=
  let d := c / 64
  let pages := ((vas.map fun v => v / 65536 * 65536).eraseDups).filter fun p =>
    !(s.me.walkRes.any fun r => r.1 == p / 65536)
  let x := s.die d
  let ws := (List.range pages.length).map fun i =>
    ({ id := x.nextWalk + i, warp := s.cur.warp, vi := vi, va := pages.getD i 0, acc := 0 } : Walk)
  if pages.isEmpty then s
  else
  let s := s.setDie d { x with walks := x.walks ++ ws, nextWalk := x.nextWalk + pages.length }
  holdFor (.walks (ws.map Walk.id)) s.me.cont s

end Sys2Proof.Machine
end

