-- ==== Sys2Proof/Machine/Tasks.lean ====
section
/-!
DEFINITION. The task engine (spec/15 R313 to R331): buffered reads and writes, aborts, direct mode, and what follows when
the frontier moves.
-/
namespace Sys2Proof.Machine

/-- Ends a warp: its slot is freed. -/
def State.dropWarp (s : State) (id : Nat) : State :=
  { s with warps := tdel s.warps id,
           slots := s.slots.filter fun e => e.2 != id }

/-- Stops the warp of a task and frees its slot and workgroup (R311, R323). -/
def State.dropTaskWarp (s : State) (t : Task) : State :=
  if t.st.hasWarp then
    let g := (s.warp t.warp).gid
    let s := s.dropWarp t.warp
    { s with groups := tdel s.groups g }
  else s

/-- A task as an abort leaves it in the queue (R323). PIN and SPLIT stand (log entry 14). -/
def Task.requeued (t : Task) : Task :=
  { t with st := .queued, cur := t.lo, warp := 0, wbuf := [], rset := [], wset := [], srcs := [], trap := none,
           aborted := false }

/-- Aborts or, where the flag is set, discards tasks, with all that follows (R322, R323). Each step takes one entry of the
list; `n` bounds the steps. A task in direct mode is never aborted. -/
def abortTasks : Nat → List (Nat × Bool) → State → State
  | 0, _, s => s
  | _, [], s => s
  | n + 1, (tid, gone) :: rest, s =>
    match tget s.tasks tid with
    | none => abortTasks n rest s
    | some (lid, t) =>
      if t.st = .direct ∨ (t.st = .queued ∧ !gone) then abortTasks n rest s
      else
        let kids := (s.tasksOf lid).filterMap fun e => if e.2.parent = some tid then some (e.1, true) else none
        let deps := (s.tasksOf lid).filterMap fun e => if e.2.srcs.contains tid then some (e.1, false) else none
        let s := s.dropTaskWarp t
        let s := if gone then { s with tasks := tdel s.tasks tid } else s.setTask tid lid t.requeued
        let s := s.count (s.launchOf lid).vi (if t.st = .queued then t.die else t.core / 64) 0x21 1
        abortTasks n (kids ++ deps ++ rest) s

/-- Enough steps for any list over the tasks there are. -/
def State.abortFuel (s : State) : Nat := (s.tasks.length + 2) * (s.tasks.length + 2)

def State.abort (s : State) (l : List (Nat × Bool)) : State := abortTasks (s.abortFuel + l.length) l s

/-- A write of task `t` into some sectors aborts the later tasks that have read them (R322). -/
def State.abortReaders (s : State) (lid : Nat) (t : Task) (secs : List Nat) : State :=
  s.abort ((s.tasksOf lid).filterMap fun e =>
    if t.before e.2 && (e.2.rset.any fun x => secs.contains x) then some (e.1, false) else none)

/-- The tasks that a task has spawned, and all they spawned, are discarded (R323, R336). -/
def State.discardChildren (s : State) (lid tid : Nat) : State :=
  s.abort ((s.tasksOf lid).filterMap fun e => if e.2.parent = some tid then some (e.1, true) else none)

/-- A task enters direct mode: its buffered bytes are written as plain stores of its warp (R324). -/
def State.enterDirect (s : State) (tid : Nat) : State :=
  match tget s.tasks tid with
  | some (lid, t) =>
    let s := s.l1Store t.core (some t.warp) (t.wbuf.map Prod.fst) (t.wbuf.map Prod.snd)
    s.setTask tid lid { t with st := .direct, wbuf := [] }
  | none => s

/-- The issuing speculative task stalls until it is the frontier (R324). -/
def stallTask (tid lid : Nat) (t : Task) (s : State) : State :=
  (s.setTask tid lid { t with st := .stalled }).setMe { s.me with status := .stalled, word := some s.cur, elig := 0, overdue := false }

/-- The new frontier of a launch leaves STALLED and DEFERRED (R324, R325, R331). -/
def State.settleFrontier (s : State) (lid : Nat) : State :=
  match s.frontier lid with
  | some (tid, t) =>
    if t.st = .stalled then
      let s := s.enterDirect tid
      s.setWarp t.warp { s.warp t.warp with status := .ready }
    else if t.st = .deferred then
      let s := s.enterDirect tid
      let w := s.warp t.warp
      match t.trap with
      | some r =>
        let k : Bool := r.code == 0x11 || (r.code == 0x12 && !r.info1.getLsbD 62)
        let w := { w with status := if r.flags / 4 % 2 = 1 then .replay else .halted r.code,
                          pc := if k then w.pc + BitVec.ofNat 64 r.len else w.pc }
        let s := (s.setWarp t.warp w).trapDue (s.launchOf lid).vi r
        match tget s.tasks tid with
        | some (_, t) => s.setTask tid lid { t with trap := none }
        | none => s
      | none => s
    else s
  | none => s

/-! ## Memory of a task that buffers (R319 to R324) -/

/-- The later of two tasks. -/
def laterTask (a : Nat × Task) (b : Option (Nat × Task)) : Option (Nat × Task) :=
  match b with
  | none => some a
  | some x => if x.2.before a.2 then some a else some x

/-- Where a byte of a task comes from (R320): its own buffer or that of the latest finished earlier task, with the task that
is then a source; none for committed memory. -/
def State.taskByte (s : State) (lid : Nat) (t : Task) (a : Nat) : Option (Byte × Option Nat) :=
  match tget t.wbuf a with
  | some b => some (b, none)
  | none =>
    let from' := (s.tasksOf lid).filter fun e => e.2.st == .finished && e.2.before t && (tget e.2.wbuf a).isSome
    match from'.foldr laterTask none with
    | some (k, u) => (tget u.wbuf a).map fun b => (b, some k)
    | none => none

/-- Some of the sectors lie in the write set of an earlier task that has not finished (R321). -/
def State.taskBlocked (s : State) (lid : Nat) (t : Task) (secs : List Nat) : Bool :=
  (s.tasksOf lid).any fun e => e.2.before t && e.2.st != .finished && (e.2.wset.any fun x => secs.contains x)

/-- Sets as lists without repeats. -/
def addAll (xs ys : List Nat) : List Nat := (xs ++ ys).eraseDups

/-- Entries of a core's read-set tracking and of its write buffers that some tasks of the core use. A task in direct mode uses none,
and a task that ended by TABORT has an empty buffer (R324, R336). -/
def readEntries (ts : List Task) : Nat :=
  ((ts.filter fun u => u.st != .direct).map fun u => u.rset.length).foldl (· + ·) 0
def writeEntries (ts : List Task) : Nat :=
  ((ts.filter fun u => u.st != .direct && !u.aborted).map fun u => u.wset.length).foldl (· + ·) 0

/-- The core has an entry for every sector that the task adds to a set (R324). -/
def State.taskRoom (s : State) (t : Task) (rs ws : List Nat) : Bool :=
  let on := (s.tasks.filter fun e => e.2.2.core == t.core && e.2.2.st != .queued).map fun e => e.2.2
  let r := (addAll t.rset rs).length - t.rset.length
  let w := (addAll t.wset ws).length - t.wset.length
  (r == 0 || decide (readEntries on + r ≤ 8192)) && (w == 0 || decide (writeEntries on + w ≤ 4096))

/-- Reads some locations through the L1 of a core or, for LDNC, past it (R211): the bytes, and whether a mark covers each. -/
def State.readPast (s : State) (nc : Bool) (c warp : Nat) (locs : List Nat) : State × List (Byte × Bool) :=
  if nc then
    let s := s.l2FetchAll (s.viOfCore c) (c / 64) locs
    (s.l1Forget c locs, locs.map fun a => (s.ncByte c a, s.ncPoison c warp a))
  else s.l1Read c warp locs

/-- Reads bytes for a task: the state, the bytes, and whether one of them is poisoned. -/
def State.taskRead (s : State) (nc : Bool) (lid tid c warp : Nat) (locs : List Nat) : State × List Byte × Bool :=
  match tget s.tasks tid with
  | none => (s, [], false)
  | some (_, t) =>
    let vals := locs.map fun a => (a, s.taskByte lid t a)
    let mem := (vals.filter fun e => e.2.isNone).map Prod.fst
    let x := s.readPast nc c warp mem
    let s := x.1
    let bytes := vals.map fun e =>
      match e.2 with
      | some b => b.1
      | none => (((mem.zip x.2).find? fun y => y.1 == e.1).map fun y => y.2.1).getD 0
    let srcs := vals.filterMap fun e => e.2.bind Prod.snd
    let t := { t with rset := addAll t.rset (locs.map sectorOf), srcs := addAll t.srcs srcs }
    (s.setTask tid lid t, bytes, x.2.any Prod.snd)

/-- Writes bytes into the buffer of a task. -/
def State.taskWrite (s : State) (lid tid : Nat) (locs : List Nat) (bytes : List Byte) : State :=
  match tget s.tasks tid with
  | none => s
  | some (_, t) =>
    let secs := (locs.map sectorOf).eraseDups
    let buf := (locs.zip bytes).foldl (fun m e => tput m e.1 e.2) t.wbuf
    let t := { t with wbuf := buf, wset := addAll t.wset secs }
    (s.setTask tid lid t).abortReaders lid t secs

/-- A buffering task's atomic at some locations writes nothing; their sectors enter the write set (R320). -/
def State.taskTouch (s : State) (tid : Nat) (locs : List Nat) : State :=
  match tget s.tasks tid with
  | none => s
  | some (lid, t) => s.setTask tid lid { t with wset := addAll t.wset (locs.map sectorOf) }

/-- A task in direct mode has written some sectors (R322, R324). -/
def State.taskWroteDirect (s : State) (lid tid : Nat) (locs : List Nat) : State :=
  match tget s.tasks tid with
  | none => s
  | some (_, t) =>
    let secs := (locs.map sectorOf).eraseDups
    let t := { t with wset := addAll t.wset secs }
    (s.setTask tid lid t).abortReaders lid t secs

/-- How the accesses of the issuing warp reach global memory: directly, or through the buffer of its task (R319). -/
inductive Mode | direct (task : Option Nat) | buffer (task : Nat)
  deriving DecidableEq, Repr

def State.modeOf (s : State) : Mode :=
  match s.myTask with
  | some (tid, t) => if t.st = .direct then .direct (some tid) else .buffer tid
  | none => .direct none

/-- An instruction that cannot run speculatively (R324): a speculative task stalls before it; the frontier enters direct
mode. -/
def requireDirect (e : Env) (k : State → State) (s : State) : State :=
  match s.myTask with
  | some (tid, t) =>
    if t.st = .direct then k s
    else if s.isFrontier e.g.lid tid then k (s.enterDirect tid)
    else stallTask tid e.g.lid t s
  | none => k s

/-! ## The end of a task (R327, R331, R336) -/

/-- Every location of some sectors. -/
def sectorLocs (secs : List Nat) : List Nat := secs.flatMap fun x => (List.range 32).map fun i => 32 * x + i

/-- The frontier commits (R327): its release at .device, its buffered bytes at the point of coherence without a mark, the copies
of every sector that it wrote, buffered or in direct mode, invalid in the L1s of the launch's cores (R320), the frontier moved. -/
def State.commitTask (s : State) (tid : Nat) : State :=
  match tget s.tasks tid with
  | none => s
  | some (lid, t) =>
    let l := s.launchOf lid
    let locs := t.wbuf.map Prod.fst
    let s := s.releaseDevice t.warp t.core
    let s := s.engineWriteFrom l.vi (t.core / 64) locs (t.wbuf.map Prod.snd)
    let s := l.cores.foldl (fun s c => s.l1Forget c (sectorLocs (addAll t.wset (locs.map sectorOf)))) s
    let s := s.count l.vi (t.core / 64) 0x20 1
    ({ s with tasks := tdel s.tasks tid }).settleFrontier lid

/-- Entries of a die's task queue (R313). -/
def taskQueueSize : Nat := 65536

def State.queuedOn (s : State) (d : Nat) : Nat := (s.tasks.filter fun e => e.2.2.st == .queued && e.2.2.die == d).length

/-- The die whose queue takes a task meant for die `d` (R313): the next with room, in order; none while all are full. -/
def State.dieWithRoom (s : State) (d : Nat) : Option Nat :=
  ((List.range 4).map fun i => (d + i) % 4).find? fun x => decide (s.queuedOn x < taskQueueSize)

/-- Adds a task record. -/
def State.addTask (s : State) (lid : Nat) (t : Task) : State :=
  { (s.setTask s.nextTask lid t) with nextTask := s.nextTask + 1 }

/-- Finished tasks that a core holds at most (R311), and those that it holds. -/
def taskHold : Nat := 32
def State.finishedOn (s : State) (lid c : Nat) : Nat :=
  ((s.tasksOf lid).filter fun e => e.2.core == c && e.2.st == .finished).length

/-- The task that warp `id` runs may end: its core may hold one more finished task, or it is the frontier (R311, log entry 95). -/
def State.mayEnd (s : State) (id : Nat) : Bool :=
  let lid := (s.group (s.warp id).gid).lid
  match s.taskOf lid id with
  | some (tid, t) => s.isFrontier lid tid || decide (s.finishedOn lid t.core < taskHold)
  | none => true

/-- Ends the task that warp `id` runs (R336): TDONE with its DROP bit, or TABORT. The warp issues nothing more. A task in direct
mode commits at once, where no copy of its warp is under way (R232); the frontier also where its core holds as many finished tasks
as it may. A remainder that finds every queue full is held on the task's own die (log entry 90). -/
def endTask (id : Nat) (drop abort : Bool) (s : State) : State :=
  let w := s.warp id
  let lid := (s.group w.gid).lid
  match s.taskOf lid id with
  | none => s
  | some (tid, t) =>
    let rest : Task := { t with lo := t.cur, split := false, pin := false, st := .queued, parent := none, warp := 0, wbuf := [],
                                rset := [], wset := [], srcs := [], trap := none, aborted := false }
    let more := t.range && decide (t.cur.toNat < t.hi.toNat) && !abort
    let s := if more && !drop then s.addTask lid { rest with die := (s.dieWithRoom t.die).getD t.die } else s
    let t' : Task := { t with hi := if more then t.cur else t.hi, aborted := abort }
    let s := s.setWarp id { s.warp id with status := .exited, elig := 0, overdue := false }
    let full := s.isFrontier lid tid && decide (taskHold ≤ s.finishedOn lid t.core)
    let s := s.setTask tid lid { t' with st := .finished, wbuf := if abort then [] else t.wbuf }
    let s := if abort then s.discardChildren lid tid else s
    if (t.st = .direct ∨ full) ∧ !s.copying id then s.commitTask tid else s

end Sys2Proof.Machine
end

