-- ==== Sys2Proof/Machine/Numeric.lean ====
section
/-!
DEFINITION. Number formats, rounding and sums (spec/06): exact dyadic numbers, one rounding at the end.
-/
namespace Sys2Proof.Machine

/-! ## Formats and exact values -/

/-- Flags of FSTAT (R153). -/
structure Flags where
  nv : Bool := false
  of : Bool := false
  nx : Bool := false
  deriving DecidableEq, Repr

/-- Both sets of flags. -/
def Flags.or (a b : Flags) : Flags := { nv := a.nv || b.nv, of := a.of || b.of, nx := a.nx || b.nx }

/-- The flags as FSTAT bits [2:0] (R153). -/
def Flags.word (f : Flags) : Word := 0#29 ++ bit1 f.nx ++ bit1 f.of ++ bit1 f.nv

/-- A floating format (R143, R147): exponent bits, fraction bits, bias; `inf`: the all-ones exponent holds infinity and
NaN as in IEEE; otherwise (E4M3) only S.1111.111 is NaN. -/
structure Fmt where
  eb : Nat
  fb : Nat
  bias : Nat
  inf : Bool := true
  deriving DecidableEq, Repr

def fmtF64 : Fmt := { eb := 11, fb := 52, bias := 1023 }
def fmtF32 : Fmt := { eb := 8, fb := 23, bias := 127 }
def fmtF16 : Fmt := { eb := 5, fb := 10, bias := 15 }
def fmtBf16 : Fmt := { eb := 8, fb := 7, bias := 127 }
def fmtE5m2 : Fmt := { eb := 5, fb := 2, bias := 15 }
def fmtE4m3 : Fmt := { eb := 4, fb := 3, bias := 7, inf := false }

/-- Width in bits. -/
def Fmt.bits (f : Fmt) : Nat := 1 + f.eb + f.fb

/-- The canonical NaN (R145). -/
def Fmt.nan (f : Fmt) : Nat :=
  if f.inf then (2 ^ f.eb - 1) * 2 ^ f.fb + 2 ^ (f.fb - 1) else 2 ^ (f.eb + f.fb) - 1

/-- The largest finite magnitude (R145). -/
def Fmt.maxFin (f : Fmt) : Nat :=
  if f.inf then (2 ^ f.eb - 1) * 2 ^ f.fb - 1 else 2 ^ (f.eb + f.fb) - 2

def Fmt.signBit (f : Fmt) (neg : Bool) : Nat := if neg then 2 ^ (f.eb + f.fb) else 0

/-- The infinity of a sign; the canonical NaN where the format has none (R148). -/
def Fmt.infinity (f : Fmt) (neg : Bool) : Nat :=
  if f.inf then f.signBit neg + (2 ^ f.eb - 1) * 2 ^ f.fb else f.nan

/-- A number: NaN (signalling or not), an infinity, or ±m·2^e. -/
inductive Num
  | nan (signalling : Bool)
  | inf (neg : Bool)
  | fin (neg : Bool) (m : Nat) (e : Int)
  deriving DecidableEq, Repr

def Num.zero : Num := .fin false 0 0

def Num.isZero : Num → Bool
  | .fin _ m _ => m == 0
  | _ => false

def Num.isNan : Num → Bool
  | .nan _ => true
  | _ => false

def Num.isSnan : Num → Bool
  | .nan s => s
  | _ => false

def Num.neg? : Num → Bool
  | .nan _ => false
  | .inf n => n
  | .fin n _ _ => n

/-- The value of stored bits (R143, R147). -/
def Fmt.unpack (f : Fmt) (b : Nat) : Num :=
  let frac := b % 2 ^ f.fb
  let ex := b / 2 ^ f.fb % 2 ^ f.eb
  let neg := b / 2 ^ (f.eb + f.fb) % 2 == 1
  let lsb : Int := 1 - (f.bias : Int) - (f.fb : Int)
  if f.inf && ex == 2 ^ f.eb - 1 then
    if frac = 0 then .inf neg else .nan (frac < 2 ^ (f.fb - 1))
  else if !f.inf && ex == 2 ^ f.eb - 1 && frac == 2 ^ f.fb - 1 then .nan false
  else if ex = 0 then .fin neg frac lsb
  else .fin neg (frac + 2 ^ f.fb) (lsb + (ex : Int) - 1)

/-- The stored bits denote a denormal number. -/
def Fmt.isDenormal (f : Fmt) (b : Nat) : Bool := b / 2 ^ f.fb % 2 ^ f.eb == 0 && b % 2 ^ f.fb != 0

/-- Whether a truncated magnitude is raised: `odd` its last bit, `r` and `d` the remainder and half-scale divisor (R146). -/
def roundUp (mode : Rnd) (neg : Bool) (odd : Bool) (r d : Nat) : Bool :=
  match mode with
  | .ne => decide (2 * r > d) || (decide (2 * r = d) && odd)
  | .rz => false
  | .rp => !neg && decide (r ≠ 0)
  | .rm => neg && decide (r ≠ 0)

/-- m·2^e as an integral multiple of 2^q in a mode, and whether that is exact (R146). -/
def quantize (mode : Rnd) (neg : Bool) (m : Nat) (e q : Int) : Nat × Bool :=
  if q ≤ e then (m * 2 ^ (e - q).toNat, true)
  else
    let d := 2 ^ (q - e).toNat
    let t := m / d
    let r := m % d
    (if roundUp mode neg (t % 2 == 1) r d then t + 1 else t, r == 0)

/-- The result on overflow (R146, R148). -/
def Fmt.overflow (f : Fmt) (mode : Rnd) (neg sat : Bool) : Nat :=
  if sat then f.signBit neg + f.maxFin
  else if !f.inf then f.nan
  else
    match mode with
    | .ne => f.infinity neg
    | .rz => f.signBit neg + f.maxFin
    | .rp => if neg then f.signBit neg + f.maxFin else f.infinity neg
    | .rm => if neg then f.infinity neg else f.signBit neg + f.maxFin

/-- One rounding of an exact number to a format (R143 to R148). -/
def Fmt.round (f : Fmt) (mode : Rnd) (sat : Bool) : Num → Nat × Flags
  | .nan s => (f.nan, { nv := s })
  | .inf neg =>
    if f.inf then
      if sat then (f.signBit neg + f.maxFin, { of := true }) else (f.infinity neg, {})
    else if sat then (f.signBit neg + f.maxFin, { of := true })
    else (f.nan, { nv := true })
  | .fin neg m e =>
    if m = 0 then (f.signBit neg, {})
    else
      let ex : Int := (Nat.log2 m : Int) + e
      let emin : Int := 1 - (f.bias : Int)
      let q : Int := (if ex < emin then emin else ex) - (f.fb : Int)
      let (t, exact) := quantize mode neg m e q
      -- t·2^q with t ≤ 2^(fb+1); the biased field and fraction are t plus a multiple of 2^fb
      let mag : Nat := ((q - (emin - (f.fb : Int))).toNat) * 2 ^ f.fb + t
      if mag > f.maxFin then (f.overflow mode neg sat, { of := true, nx := true })
      else (f.signBit neg + mag, { nx := !exact })

/-- FTZ on a source: a denormal becomes a zero of its sign (R144). -/
def Fmt.flush (f : Fmt) (ftz : Bool) (b : Nat) : Nat := if ftz && f.isDenormal b then b / 2 ^ (f.eb + f.fb) * 2 ^ (f.eb + f.fb) else b

/-- FTZ on a result: a denormal becomes a zero of its sign, with the inexact flag (R144). -/
def Fmt.flushResult (f : Fmt) (ftz : Bool) (r : Nat × Flags) : Nat × Flags :=
  if ftz && f.isDenormal r.1 then (f.signBit (r.1 / 2 ^ (f.eb + f.fb) % 2 == 1), { r.2 with nx := true }) else r

/-! ## Exact arithmetic -/

/-- ±m as an integer. -/
def signed (neg : Bool) (m : Nat) : Int := if neg then -(m : Int) else (m : Int)

/-- The number i·2^e; a zero takes the sign `zneg`. -/
def ofInt (zneg : Bool) (i : Int) (e : Int) : Num :=
  if i = 0 then .fin zneg 0 e else .fin (decide (i < 0)) i.natAbs e

/-- Exact sum; an exact zero of opposite signs is +0, or -0 toward -∞ (R143). -/
def numAdd (mode : Rnd) (a b : Num) : Num × Bool :=
  match a, b with
  | .nan s, .nan t => (.nan false, s || t)
  | .nan s, _ => (.nan false, s)
  | _, .nan t => (.nan false, t)
  | .inf x, .inf y => if x = y then (.inf x, false) else (.nan false, true)
  | .inf x, _ => (.inf x, false)
  | _, .inf y => (.inf y, false)
  | .fin na ma ea, .fin nb mb eb =>
    let e := if ea ≤ eb then ea else eb
    let s := signed na (ma * 2 ^ (ea - e).toNat) + signed nb (mb * 2 ^ (eb - e).toNat)
    (ofInt (if na = nb then na else mode == .rm) s e, false)

def numNeg : Num → Num
  | .nan s => .nan s
  | .inf n => .inf (!n)
  | .fin n m e => .fin (!n) m e

/-- Exact product; 0·∞ is invalid (R153). -/
def numMul (a b : Num) : Num × Bool :=
  match a, b with
  | .nan s, .nan t => (.nan false, s || t)
  | .nan s, _ => (.nan false, s)
  | _, .nan t => (.nan false, t)
  | .inf x, .inf y => (.inf (x != y), false)
  | .inf x, .fin y m _ => if m = 0 then (.nan false, true) else (.inf (x != y), false)
  | .fin x m _, .inf y => if m = 0 then (.nan false, true) else (.inf (x != y), false)
  | .fin x m e, .fin y n f => (.fin (x != y) (m * n) (e + f), false)

/-- A number times 2^k. -/
def numScale (k : Int) : Num → Num
  | .fin n m e => .fin n m (e + k)
  | x => x

/-- a·b + c with one rounding still to come; a NaN factor beside an invalid product keeps the invalid flag. -/
def numFma (mode : Rnd) (a b c : Num) : Num × Bool :=
  let (p, nv) := numMul a b
  let (s, nv') := numAdd mode p c
  (s, nv || nv')

/-- The order of two numbers that are not NaN: less, with -0 = +0. -/
def numLt (a b : Num) : Bool :=
  match a, b with
  | .nan _, _ => false
  | _, .nan _ => false
  | .inf x, .inf y => x && !y
  | .inf x, .fin _ _ _ => x
  | .fin _ _ _, .inf y => !y
  | .fin na ma ea, .fin nb mb eb =>
    let e := if ea ≤ eb then ea else eb
    decide (signed na (ma * 2 ^ (ea - e).toNat) < signed nb (mb * 2 ^ (eb - e).toNat))

def numEq (a b : Num) : Bool := !a.isNan && !b.isNan && !numLt a b && !numLt b a

/-- The floating format of a register type (R147, R148, R164). -/
def Ty.fmt? : Ty → Option Fmt
  | .f64 => some fmtF64 | .f32 => some fmtF32 | .f16 => some fmtF16 | .bf16 => some fmtBf16
  | .e4m3 => some fmtE4m3 | .e5m2 => some fmtE5m2 | _ => none

/-- The format of a floating type; F32 for any other. -/
def tyFmt (t : Ty) : Fmt := (Ty.fmt? t).getD fmtF32

/-- Width of a type in bits (R160). -/
def tyBits (t : Ty) : Nat :=
  match t with
  | .b64 => 64 | .i64 => 64 | .n64 => 64 | .f64 => 64
  | .b16 => 16 | .i16 => 16 | .n16 => 16 | .f16 => 16 | .bf16 => 16
  | .b8 => 8 | .i8 => 8 | .n8 => 8 | .e4m3 => 8 | .e5m2 => 8
  | _ => 32

/-! ## Operations on bits of a format -/

/-- The operands of a floating operation, flushed under FTZ. -/
def fin1 (f : Fmt) (ftz : Bool) (a : Nat) : Num := f.unpack (f.flush ftz (a % 2 ^ f.bits))

/-- Rounds an exact result, flushes it, and adds the invalid flag. -/
def finish (f : Fmt) (mode : Rnd) (ftz : Bool) (r : Num × Bool) : Nat × Flags :=
  let (b, fl) := f.flushResult ftz (f.round mode false r.1)
  (b, { fl with nv := fl.nv || r.2 })

def fpAdd (f : Fmt) (mode : Rnd) (ftz : Bool) (a b : Nat) : Nat × Flags :=
  finish f mode ftz (numAdd mode (fin1 f ftz a) (fin1 f ftz b))
def fpSub (f : Fmt) (mode : Rnd) (ftz : Bool) (a b : Nat) : Nat × Flags :=
  finish f mode ftz (numAdd mode (fin1 f ftz a) (numNeg (fin1 f ftz b)))
def fpMul (f : Fmt) (mode : Rnd) (ftz : Bool) (a b : Nat) : Nat × Flags :=
  finish f mode ftz (numMul (fin1 f ftz a) (fin1 f ftz b))
def fpFma (f : Fmt) (mode : Rnd) (ftz : Bool) (a b c : Nat) : Nat × Flags :=
  finish f mode ftz (numFma mode (fin1 f ftz a) (fin1 f ftz b) (fin1 f ftz c))

/-- min and max: the non-NaN operand when exactly one is NaN; -0 below +0 (R143). -/
def fpMinMax (f : Fmt) (ftz max : Bool) (a b : Nat) : Nat × Flags :=
  let x := f.flush ftz (a % 2 ^ f.bits)
  let y := f.flush ftz (b % 2 ^ f.bits)
  let nx := f.unpack x
  let ny := f.unpack y
  let nv := nx.isSnan || ny.isSnan
  let r :=
    if nx.isNan && ny.isNan then f.nan
    else if nx.isNan then y
    else if ny.isNan then x
    else
      let less := numLt nx ny || (numEq nx ny && nx.neg? && !ny.neg?)
      if less != max then x else if numEq nx ny && nx.neg? == ny.neg? then x else y
  (r, { nv := nv })

/-- |a|, -a and copysign: only the sign bit changes; a NaN gives the canonical NaN (R164). -/
def fpSign (f : Fmt) (sign : Bool → Bool) (a : Nat) : Nat × Flags :=
  let x := a % 2 ^ f.bits
  match f.unpack x with
  | .nan s => (f.nan, { nv := s })
  | n => (f.signBit (sign n.neg?) + x % 2 ^ (f.eb + f.fb), {})

/-- The predicates of R169 with the invalid flag. `quiet`: only a signalling NaN is invalid. -/
def fpCmp (f : Fmt) (ftz quiet : Bool) (p : Num → Num → Bool) (a b : Nat) : Bool × Flags :=
  let x := fin1 f ftz a
  let y := fin1 f ftz b
  (p x y, { nv := if quiet then x.isSnan || y.isSnan else x.isNan || y.isNan })

/-- The integer square root, bit by bit from bit `k`. -/
def isqrtLoop : Nat → Nat → Nat → Nat
  | 0, _, r => r
  | k + 1, n, r =>
    let t := r + 2 ^ k
    isqrtLoop k n (if t * t ≤ n then t else r)

/-- ⌊√n⌋. -/
def isqrt (n : Nat) : Nat := isqrtLoop (Nat.log2 n / 2 + 1) n 0

/-- The correctly rounded square root (R174, R175). -/
def fpSqrt (f : Fmt) (mode : Rnd) (ftz : Bool) (a : Nat) : Nat × Flags :=
  match fin1 f ftz a with
  | .nan s => (f.nan, { nv := s })
  | .inf neg => if neg then (f.nan, { nv := true }) else (f.infinity false, {})
  | .fin neg m e =>
    if m = 0 then (f.signBit neg, {})
    else if neg then (f.nan, { nv := true })
    else
      let k := 2 * (f.fb + 4) + (if e % 2 = 0 then 0 else 1)
      let n := m * 2 ^ k
      let r := isqrt n
      let exact := r * r == n
      -- √(m·2^e) = √n · 2^((e-k)/2); one more bit marks an inexact root
      finish f mode ftz (.fin false (2 * r + (if exact then 0 else 1)) ((e - (k : Int)) / 2 - 1), false)

/-- A number rounded to an integer in a mode, and whether that is exact. -/
def numToInt (mode : Rnd) (neg : Bool) (m : Nat) (e : Int) : Int × Bool :=
  let (t, exact) := quantize mode neg m e 0
  (signed neg t, exact)

/-- VRINT (R172). -/
def fpRint (f : Fmt) (mode : Rnd) (ftz : Bool) (a : Nat) : Nat × Flags :=
  let x := f.flush ftz (a % 2 ^ f.bits)
  match f.unpack x with
  | .nan s => (f.nan, { nv := s })
  | .inf _ => (x, {})
  | .fin neg m e =>
    if m = 0 then (x, {})
    else
      let (t, _) := quantize mode neg m e 0
      ((f.round .ne false (.fin neg t 0)).1, {})

/-- ⌊m·2^e⌋ with sign. -/
def numFloor (neg : Bool) (m : Nat) (e : Int) : Int := (numToInt .rm neg m e).1

/-- VFRACT (R172): a - floor(a). -/
def fpFract (f : Fmt) (ftz : Bool) (a : Nat) : Nat × Flags :=
  match fin1 f ftz a with
  | .nan s => (f.nan, { nv := s })
  | .inf _ => (f.nan, { nv := true })
  | .fin neg m e =>
    let fl := numFloor neg m e
    let d := (numAdd .ne (.fin neg m e) (ofInt false (-fl) 0)).1
    let one := (f.round .ne false (.fin false 1 0)).1
    match d with
    | .fin _ dm de =>
      let (b, g) := finish f .ne ftz (.fin false dm de, false)
      if b = one then (one - 1, g) else (b, g)
    | _ => (f.nan, {})

/-- VLDEXP (R172): a·2^k. -/
def fpLdexp (f : Fmt) (mode : Rnd) (ftz : Bool) (a : Nat) (k : Int) : Nat × Flags :=
  match fin1 f ftz a with
  | .nan s => (f.nan, { nv := s })
  | x =>
    -- beyond these scales every result overflows or is below half the least denormal
    let k' := if k > 5000 then 5000 else if k < -5000 then -5000 else k
    finish f mode ftz (numScale k' x, false)

/-! ## Conversions (R148, R152, R171) -/

/-- Between floating formats. -/
def fpConvert (src dst : Fmt) (mode : Rnd) (ftz sat : Bool) (a : Nat) : Nat × Flags :=
  let x := fin1 src ftz a
  dst.flushResult ftz (dst.round mode sat x)

/-- Least and greatest value of an integer type of `w` bits. -/
def intMin (signedTy : Bool) (w : Nat) : Int := if signedTy then -(2 ^ (w - 1) : Int) else 0
def intMax (signedTy : Bool) (w : Nat) : Int := if signedTy then (2 ^ (w - 1) : Int) - 1 else (2 ^ w : Int) - 1

def clampInt (lo hi x : Int) : Int := if x < lo then lo else if x > hi then hi else x

/-- The low `w` bits of an integer. -/
def wrapInt (w : Nat) (x : Int) : Nat := (x % (2 ^ w : Int)).toNat

/-- The integer that `w` bits hold. -/
def readInt (signedTy : Bool) (w : Nat) (b : Nat) : Int :=
  let u := b % 2 ^ w
  if signedTy && u ≥ 2 ^ (w - 1) then (u : Int) - (2 ^ w : Int) else (u : Int)

/-- Floating to integer (R152). -/
def fpToInt (src : Fmt) (signedTy : Bool) (w : Nat) (mode : Rnd) (ftz : Bool) (a : Nat) : Nat × Flags :=
  let lo := intMin signedTy w
  let hi := intMax signedTy w
  match fin1 src ftz a with
  | .nan _ => (0, { nv := true })
  | .inf neg => (wrapInt w (if neg then lo else hi), { nv := true })
  | .fin neg m e =>
    let (i, exact) := numToInt mode neg m e
    if i < lo ∨ i > hi then (wrapInt w (clampInt lo hi i), { nv := true }) else (wrapInt w i, { nx := !exact })

/-- Integer to floating (R152). -/
def intToFp (dst : Fmt) (mode : Rnd) (i : Int) : Nat × Flags := dst.round mode false (ofInt false i 0)

/-! ## Approximated functions (R174, R175) -/

/-- ⌈1/m⌉-style quotient with a sticky bit: 1/(m·2^e) to 70 bits. -/
def numRecip (m : Nat) (e : Int) : Num :=
  let k := Nat.log2 m + 70
  let q := 2 ^ k / m
  let exact := 2 ^ k % m == 0
  .fin false (2 * q + (if exact then 0 else 1)) (-(k : Int) - e - 1)

/-- 1/√(m·2^e) to 60 bits with a sticky bit. -/
def numRsqrt (m : Nat) (e : Int) : Num :=
  let e' := if e % 2 = 0 then e else e - 1
  let m' := if e % 2 = 0 then m else 2 * m
  let k := 2 * (Nat.log2 m' + 62)
  let q := isqrt (2 ^ k / m')
  .fin false (2 * q + 1) (-(k / 2 : Nat) - e' / 2 - 1)

def numLe (a b : Num) : Bool := numLt a b || numEq a b

/-- ln 2 and π in units of 2^-200 and 2^-320. -/
def ln2Fixed : Nat := 1113844574712631719546256151097547306333272293549090750737802
def piFixed : Nat := 6710401180212168915155840974220003240804194089427148950727106424351713218671805380099500388914039

/-- Products in units of 2^-200. -/
def fixMul (a b : Int) : Int := a * b / 2 ^ 200

/-- Sum of a series whose term `k` is the term before it times `f k`; `n` terms, in units of 2^-200. -/
def fixSeries (f : Nat → Int → Int) : Nat → Nat → Int → Int
  | 0, _, _ => 0
  | n + 1, k, t => t + fixSeries f n (k + 1) (f k t)

/-- 2^x and sin x and cos x of a number in units of 2^-200: 0 ≤ x < 1 and 0 ≤ x < 2. -/
def fixExp2 (x : Nat) : Int :=
  let y := fixMul x ln2Fixed
  fixSeries (fun k t => fixMul t y / ((k : Int) + 1)) 60 0 (2 ^ 200)
def fixSin (x : Nat) : Int :=
  let y := fixMul x x
  fixSeries (fun k t => -(fixMul t y) / (((2 * k + 2) * (2 * k + 3) : Nat) : Int)) 40 0 x
def fixCos (x : Nat) : Int :=
  let y := fixMul x x
  fixSeries (fun k t => -(fixMul t y) / (((2 * k + 1) * (2 * k + 2) : Nat) : Int)) 40 0 (2 ^ 200)

/-- log2 of a number from 1 to 2, in units of 2^-200: 2/ln 2 times the odd powers of (x-1)/(x+1). -/
def fixLog2 (x : Nat) : Int :=
  let z : Int := ((x : Int) - 2 ^ 200) * 2 ^ 200 / ((x : Int) + 2 ^ 200)
  let z2 := fixMul z z
  let odd := (List.range 70).foldr (fun (k : Nat) (a : Int) => fixMul a z2 + 2 ^ 200 / (2 * (k : Int) + 1)) 0
  2 * fixMul odd z * 2 ^ 200 / ln2Fixed

/-- A number in units of 2^-200. -/
def ofFixed (i : Int) (e : Int) : Num := .fin (decide (i < 0)) i.natAbs (e - 200)

/-- m·2^e in units of 2^-k; e is at least -149. -/
def toFixed (m : Nat) (e : Int) (k : Nat) : Nat := m * 2 ^ (e + k).toNat

/-- The exact value of a function at ±m·2^e, m > 0, correct to some 2^-180 of itself or, for VSIN and VCOS, of 1. -/
def approxExact (op : Approx) (neg : Bool) (m : Nat) (e : Int) : Num :=
  match op with
  | .rcp => match numRecip m e with
    | .fin _ q f => .fin neg q f
    | x => x
  | .rsq => numRsqrt m e
  | .exp2 =>
    if numLt (.fin false 512 0) (.fin false m e) then (if neg then .zero else .fin false 1 512)
    else
      let x : Int := if neg then -(toFixed m e 200 : Int) else toFixed m e 200
      ofFixed (fixExp2 (x % 2 ^ 200).toNat) (x / 2 ^ 200)
  | .log2 =>
    let k := Nat.log2 m
    ofFixed (fixLog2 (m * 2 ^ 200 / 2 ^ k) + ((k : Int) + e) * 2 ^ 200) 0
  | _ =>
    let x := toFixed m e 320
    let quarter := piFixed / 2
    let q := x / quarter + (if op == .cos then 1 else 0)
    let r := x % quarter / 2 ^ 120
    let y := if q % 2 = 0 then fixSin r else fixCos r
    ofFixed (if (q % 4 < 2) = (!neg || op == .cos) then y else -y) 0

/-- How far a result may lie from the exact value (R174): a unit in the last place is that of the exact value; where that is
denormal, 2 units of 2^-149 for every function. -/
def approxBound (op : Approx) (m : Nat) (e : Int) (x : Num) : Num :=
  let ulp (n : Nat) : Num := match x with
    | .fin _ k f =>
      let top : Int := (Nat.log2 k : Int) + f
      if k = 0 ∨ top < -126 then .fin false 2 (-149) else .fin false n (top - 23)
    | _ => .zero
  let denormal : Bool := match x with
    | .fin _ k f => k == 0 || decide ((Nat.log2 k : Int) + f < -126)
    | _ => false
  match op with
  | .rcp => ulp 1
  | .rsq => ulp 2
  | .exp2 => ulp 2
  | .log2 =>
    if numLe (.fin false 1 (-1)) (.fin false m e) && numLe (.fin false m e) (.fin false 2 0) then .fin false 1 (-22) else ulp 2
  | _ => if denormal then .fin false 2 (-149) else .fin false 1 (-21)

/-- The F32 result of an approximated function on a finite nonzero source that R175 gives no special case: the free value of
`Config.approx` where it lies within the bound of R174, otherwise the exact value rounded. -/
def approxF32 (op : Approx) (src : Word) (ftz : Bool) (m : Nat) (e : Int) (neg : Bool) : Nat :=
  let free := (Config.approx op src ftz).toNat
  let x := approxExact op neg m e
  let b := approxBound op m e x
  match fmtF32.unpack free with
  | .fin n k f =>
    let d := (numAdd .ne (.fin n k f) (numNeg x)).1
    if numLe d b && numLe (numNeg b) d then free else (fmtF32.round .ne false x).1
  | _ => (fmtF32.round .ne false x).1

/-- The special cases of R175; none where the function is approximated. -/
def approxSpecial (op : Approx) (x : Num) : Option (Nat × Flags) :=
  let f := fmtF32
  let one := (f.round .ne false (.fin false 1 0)).1
  let bad : Nat × Flags := (f.nan, { nv := true })
  match x with
  | .nan s => some (f.nan, { nv := s })
  | .inf neg =>
    match op with
    | .rcp => some (f.signBit neg, {})
    | .rsq => some (if neg then bad else (0, {}))
    | .exp2 => some (if neg then (0, {}) else (f.infinity false, {}))
    | .log2 => some (if neg then bad else (f.infinity false, {}))
    | .sin => some bad
    | .cos => some bad
  | .fin neg m e =>
    if m = 0 then
      match op with
      | .rcp => some (f.infinity neg, {})
      | .rsq => some (f.infinity neg, {})
      | .exp2 => some (one, {})
      | .log2 => some (f.infinity true, {})
      | .sin => some (f.signBit neg, {})
      | .cos => some (one, {})
    else if neg && (op == .rsq || op == .log2) then some bad
    else if numEq (.fin neg m e) (.fin false 1 0) then
      match op with
      | .rcp => some (one, {})
      | .rsq => some (one, {})
      | .exp2 => some ((f.round .ne false (.fin false 2 0)).1, {})
      | .log2 => some (0, {})
      | _ => none
    else none

/-- VRCP to VCOS at a type (R174, R175): evaluated as for F32, then rounded once to the type; OF is set by VEXP2 alone,
NX never. -/
def fpApprox (op : Approx) (f : Fmt) (ftz : Bool) (a : Nat) : Nat × Flags :=
  let x := fin1 f ftz a
  let src := (fmtF32.round .ne false x).1
  let (r32, fl) :=
    match approxSpecial op x with
    | some r => r
    | none =>
      match x with
      | .fin neg m e => (approxF32 op (BitVec.ofNat 32 src) ftz m e neg, {})
      | _ => (fmtF32.nan, {})
  let r := (f.round .ne false (fmtF32.unpack r32)).1
  let r := if ftz && f.isDenormal r then f.signBit (r / 2 ^ (f.eb + f.fb) % 2 == 1) else r
  let tooBig := op == .exp2 && r == f.infinity false && (match x with | .inf _ => false | _ => true)
  (r, { nv := fl.nv, of := tooBig })

/-! ## The shared-exponent family (R149 to R151) -/

/-- Element fields of an SE format: magnitude bits and whether the block has a shift byte (R149). -/
def seP : Ty → Nat
  | .se7 => 7 | .se7f => 7 | .se4 => 4 | .se4f => 4 | _ => 2

def seShifts : Ty → Bool
  | .se7 => true | .se4 => true | .se2 => true | _ => false

/-- Bytes of a block (R149). -/
def seBytes (t : Ty) : Nat := 1 + (if seShifts t then 1 else 0) + 2 * (seP t + 1)

/-- Element `i` of a block given as a number, least significant byte first (R150). -/
def seElem (t : Ty) (block : Nat) (i : Nat) : Num :=
  let p := seP t
  let e := block % 256
  let sh := if seShifts t then block / 256 % 256 / 4 ^ (i / 4) % 4 else 0
  let fields := block / (if seShifts t then 65536 else 256)
  let fld := fields / 2 ^ ((p + 1) * i) % 2 ^ (p + 1)
  let m := fld % 2 ^ p
  if e = 255 then .nan false
  else if m = 0 then .fin false 0 0
  else .fin (fld / 2 ^ p == 1) m ((e : Int) - 127 - (sh : Int) - ((p : Int) - 1))

/-- |x| · 2^(-unit) rounded to nearest even, and whether that is exact. -/
def seQuot (x : Num) (unit : Int) : Nat × Bool :=
  match x with
  | .fin _ m e => quantize .ne false m e unit
  | _ => (0, true)

def numAbsLt (a b : Num) : Bool :=
  match a, b with
  | .fin _ m e, .fin _ n f => numLt (.fin false m e) (.fin false n f)
  | _, _ => false

/-- The number of greatest magnitude. -/
def numMaxAbs (xs : List Num) : Num := xs.foldl (fun a b => if numAbsLt a b then b else a) .zero

/-- ⌊log2 |x|⌋ of a nonzero number. -/
def numLog2 : Num → Int
  | .fin _ m e => (Nat.log2 m : Int) + e
  | _ => 0

/-- The largest shift of 3 to 0 at which a quad fits, or 0 (R151). -/
def seShift (qm : Num) (e : Int) (p : Nat) : Nat :=
  let fits (t : Nat) : Bool := decide ((seQuot qm (e - 127 - (t : Int) - ((p : Int) - 1))).1 ≤ 2 ^ p - 1)
  if fits 3 then 3 else if fits 2 then 2 else if fits 1 then 1 else 0

/-- The conversion of 16 exact values into a block (R151): the block as a number, and its flags. -/
def seConvert (t : Ty) (xs : List Num) : Nat × Flags :=
  let p := seP t
  let isBad : Num → Bool := fun x => match x with | .fin _ _ _ => false | _ => true
  if xs.any isBad then (255, { nv := true })
  else
    let amax := numMaxAbs xs
    let e : Int := if amax.isZero then 0 else clampInt 0 254 (numLog2 amax + 127)
    let quad (j : Nat) : Num := numMaxAbs ((xs.drop (4 * j)).take 4)
    let sh (j : Nat) : Nat := if seShifts t then seShift (quad j) e p else 0
    let cells := (List.range 16).map fun i =>
      let x := xs.getD i .zero
      let (q, exact) := seQuot x (e - 127 - (sh (i / 4) : Int) - ((p : Int) - 1))
      let tooBig := decide (q > 2 ^ p - 1)
      let m := if tooBig then 2 ^ p - 1 else q
      let s := if m = 0 then 0 else if x.neg? then 1 else 0
      ((s * 2 ^ p + m, exact, tooBig) : Nat × Bool × Bool)
    let fields := (List.range 16).foldl (fun acc i => acc + (cells.getD i (0, true, false)).1 * 2 ^ ((p + 1) * i)) 0
    let shifts := (List.range 4).foldl (fun acc j => acc + sh j * 4 ^ j) 0
    let body := if seShifts t then shifts + 256 * fields else fields
    (e.toNat + 256 * body,
      { of := cells.any fun c => c.2.2, nx := cells.any fun c => !c.2.1 })

/-! ## Block sums, fused steps and trees (R154 to R157) -/

/-- Exact product of two factors of R154: a zero factor gives an exact zero whatever the other. -/
def blockProd (a b : Num) : Num :=
  if a.isZero || b.isZero then .zero else (numMul a b).1

/-- The window sum of a block's products that are not zero (R154). -/
def blockSum (nz : List Num) : Num :=
  let isP : Num → Bool := fun x => x == .inf false
  let isM : Num → Bool := fun x => x == .inf true
  if nz.any Num.isNan || (nz.any isP && nz.any isM) then .nan false
  else if nz.any isP then .inf false
  else if nz.any isM then .inf true
  else
    let logs := nz.map numLog2
    let emax := logs.foldl (fun a b => if a < b then b else a) (logs.headD 0)
    let bottom := emax - 47
    let total := nz.foldl (fun (acc : Int) x =>
      match x with
      | .fin n m e => acc + signed n (quantize .rz false m e bottom).1
      | _ => acc) 0
    ofInt false total bottom

/-- One block of R154 into the accumulator `c` (bits of format `f`). -/
def blockStep (f : Fmt) (c : Nat) (prods : List Num) : Nat :=
  let nz := prods.filter fun x => !x.isZero
  if nz.isEmpty then c
  else (f.round .ne false (numAdd .ne (f.unpack c) (blockSum nz)).1).1

/-- The sum rule of R154 over all blocks of 16 products; `n` blocks are left. -/
def blockDot (f : Fmt) : Nat → List Num → Nat → Nat
  | 0, _, c => c
  | n + 1, prods, c => blockDot f n (prods.drop 16) (blockStep f c (prods.take 16))

/-- The sum rule of R155: sequential fused multiply-add. -/
def fusedDot (f : Fmt) (c : Nat) : List (Num × Num) → Nat
  | [] => c
  | (a, b) :: ps => fusedDot f (f.round .ne false (numFma .ne a b (f.unpack c)).1).1 ps

/-- One level of the combining tree (R156). -/
def treeLevel {α : Type} (op : α → α → α) : List α → List α
  | a :: b :: rest => op a b :: treeLevel op rest
  | [a] => [a]
  | [] => []

/-- The combining tree of R156, with one level for each unit of fuel. -/
def treeLoop {α : Type} (op : α → α → α) : Nat → List α → List α
  | 0, xs => xs
  | n + 1, xs => if xs.length ≤ 1 then xs else treeLoop op n (treeLevel op xs)

/-- The reduction of a list in member-index order (R156). -/
def tree {α : Type} (op : α → α → α) (d : α) (xs : List α) : α := (treeLoop op (xs.length) xs).headD d

/-- The node operators of R157 by the OP code of R351; BF16 leaves are widened before. -/
def treeOp (op : Nat) (l r : Word) : Word :=
  match op with
  | 0 => BitVec.ofNat 32 (fpAdd fmtF32 .ne false l.toNat r.toNat).1
  | 1 => BitVec.ofNat 32 (fpAdd fmtF32 .ne false l.toNat r.toNat).1
  | 2 => l + r
  | 3 => if r.slt l then r else l
  | 4 => if l.slt r then r else l
  | 5 => l &&& r
  | 6 => l ||| r
  | _ => l ^^^ r

end Sys2Proof.Machine
end

