-- ==== Sys2Proof/Machine/Flags.lean ====
section
/-!
DEFINITION. The flags of a warp: SCC with its poison bit (spec/05 R122) and FSTAT (spec/06 R153), and the flag results
of the shared arithmetic.
-/
namespace Sys2Proof.Machine

/-- Writes SCC and its poison bit. -/
def Warp.setScc (w : Warp) (b p : Bool) : Warp := { w with scc := b, sccP := p }

/-- FSTAT := FSTAT or flags (R153, R163). -/
def Warp.orFstat (w : Warp) (f : Flags) : Warp := { w with fstat := w.fstat ||| f.word }

/-- The union of the flags of several lanes. -/
def flagsOf (fs : List Flags) : Flags := fs.foldl Flags.or {}

/-- FSTAT := value, undefined bits zero (R124). -/
def Warp.setFstat (w : Warp) (x : Word) : Warp := { w with fstat := x &&& 7 }

/-! ## Comparisons (R122, R169) -/

/-- A comparison: equal, not equal, less, less or equal, unordered. -/
inductive Cmp | eq | ne | lt | le | u
  deriving DecidableEq, Repr

/-- On exact integers; an integer compare is never unordered. -/
def Cmp.ints (c : Cmp) (a b : Int) : Bool :=
  match c with
  | .eq => decide (a = b)
  | .ne => decide (a ≠ b)
  | .lt => decide (a < b)
  | .le => decide (a ≤ b)
  | .u => false

/-- On floating numbers (R169). -/
def Cmp.nums (c : Cmp) (a b : Num) : Bool :=
  match c with
  | .eq => numEq a b
  | .ne => !numEq a b
  | .lt => numLt a b
  | .le => numLt a b || numEq a b
  | .u => a.isNan || b.isNan

/-- NV is set by a signalling NaN only (R169). -/
def Cmp.quiet : Cmp → Bool
  | .lt => false
  | .le => false
  | _ => true

end Sys2Proof.Machine
end

