-- ==== Sys2Proof/Machine/Operands.lean ====
section
/-!
DEFINITION. Operand forms: constants (spec/03 R59), immediates (R61), the scalar and per-lane reading of a source
(R80, R94, R106, R116, R159, R160), the latch captures (R106, R118) and the placing of results.
-/
namespace Sys2Proof.Machine

/-- The architected constants as 32-bit values (R59). -/
def const32 (c : Nat) : Nat :=
  match c with
  | 0 => 0 | 1 => 1 | 2 => 2 | 3 => 0xFFFFFFFF
  | 4 => 0x3F800000 | 5 => 0xBF800000 | 6 => 0x3F000000 | 7 => 0x40000000
  | 8 => 0x7F800000 | 9 => 0xFF800000 | 10 => 0x7FC00000 | 11 => 0x3FB8AA3B
  | 12 => 0x3F317218 | 13 => 0x40490FDB | 14 => 0x80000000 | _ => 0x7FFFFFFF

/-- The same in an F64 position (R59). -/
def constF64 (c : Nat) : Nat :=
  match c with
  | 0 => 0 | 1 => 1 | 2 => 2 | 3 => 0xFFFFFFFFFFFFFFFF
  | 4 => 0x3FF0000000000000 | 5 => 0xBFF0000000000000 | 6 => 0x3FE0000000000000 | 7 => 0x4000000000000000
  | 8 => 0x7FF0000000000000 | 9 => 0xFFF0000000000000 | 10 => 0x7FF8000000000000 | 11 => 0x3FF71547652B82FE
  | 12 => 0x3FE62E42FEFA39EF | 13 => 0x400921FB54442D18 | 14 => 0x8000000000000000 | _ => 0x7FFFFFFF

/-- Constants 0 and 4 to 14 are floating (R59). -/
def constFloat (c : Nat) : Bool := c == 0 || (decide (4 ≤ c) && decide (c ≤ 14))

/-- A constant in a position of a type (R59). -/
def constVal (t : Ty) (c : Nat) : DWord :=
  match t with
  | .f64 => BitVec.ofNat 64 (constF64 c)
  | .b64 => (BitVec.ofNat 32 (const32 c)).signExtend 64
  | .i64 => (BitVec.ofNat 32 (const32 c)).signExtend 64
  | .n64 => (BitVec.ofNat 32 (const32 c)).signExtend 64
  | .f16 => BitVec.ofNat 64 (if constFloat c then (fpConvert fmtF32 fmtF16 .ne false false (const32 c)).1 else const32 c % 2 ^ 16)
  | .bf16 => BitVec.ofNat 64 (if constFloat c then (fpConvert fmtF32 fmtBf16 .ne false false (const32 c)).1 else const32 c % 2 ^ 16)
  | .e4m3 => BitVec.ofNat 64 (if constFloat c then (fpConvert fmtF32 fmtE4m3 .ne false false (const32 c)).1 else const32 c % 2 ^ 8)
  | .e5m2 => BitVec.ofNat 64 (if constFloat c then (fpConvert fmtF32 fmtE5m2 .ne false false (const32 c)).1 else const32 c % 2 ^ 8)
  | .i16 | .n16 | .b16 => BitVec.ofNat 64 (const32 c % 2 ^ 16)
  | .i8 | .n8 | .b8 => BitVec.ofNat 64 (const32 c % 2 ^ 8)
  | _ => BitVec.ofNat 64 (const32 c)

/-- An FP32 value widened exactly to F64; a NaN keeps its sign, its quiet bit and its payload (R61, log entry 84). -/
def widenF32 (x : Word) : DWord :=
  if x.extractLsb' 23 8 = 0xFF then x.extractLsb' 31 1 ++ 0x7FF#11 ++ x.extractLsb' 0 23 ++ 0#29
  else BitVec.ofNat 64 (fpConvert fmtF32 fmtF64 .ne false false x.toNat).1

/-- A 32-bit immediate in a position of a type (R61). -/
def imm32Val (t : Ty) (x : Word) : DWord :=
  match t with
  | .i64 => x.signExtend 64
  | .f64 => widenF32 x
  | _ => x.setWidth 64

/-- The immediate of an extension as extended to the position's width (R61). -/
def immVal (t : Ty) : Ext → DWord
  | .imm x => imm32Val t x
  | .immMod x _ => imm32Val t x
  | .imm64 d => d
  | _ => 0

/-- The extension carries an immediate. -/
def hasImm : Ext → Bool
  | .imm _ => true
  | .immMod _ _ => true
  | .imm64 _ => true
  | _ => false

/-- The modifiers of an extension, with the defaults of R62. -/
def modOf : Ext → Mod
  | .mod m => m
  | .immMod _ m => m
  | _ => {}

/-- A source of a scalar instruction (R115, R116). An unused specifier reads zero. -/
def scalarVal (e : Env) (t : Ty) (x : Src) : Val :=
  match x with
  | .s n => e.w.sval n.toNat t.regs
  | .g n => e.g.gval n.toNat
  | .k c => { bits := constVal t c.toNat }
  | _ => {}

/-- Source `x` of a scalar instruction, or the immediate that stands in its place. -/
def scalarOp (e : Env) (t : Ty) (o : COp) (gone : Bool) (x : Src) : Val :=
  if gone then { bits := immVal t o.ext } else scalarVal e t x

/-- The lane a neighbour source reads; none where the edge gives zero (R80). -/
def neighbour (W : Nat) (edge : Edge) (left : Bool) (l : Nat) : Option Nat :=
  if left then
    if l = 0 then
      match edge with
      | .zero => none
      | .clamp => some 0
      | .wrap => some (W - 1)
    else some (l - 1)
  else if l + 1 = W then
    match edge with
    | .zero => none
    | .clamp => some (W - 1)
    | .wrap => some 0
  else some (l + 1)

/-- A source of a vector instruction in a lane (R80, R94, R106, R159, R160). What HOLD captures of a 16-bit or 8-bit one is the
register as read, all 32 bits (log entry 81). -/
def laneVal (e : Env) (t : Ty) (edge : Edge) (x : Src) (l : Nat) : Val :=
  match x with
  | .v n => e.w.vval n.toNat t.regs l
  | .vl n => ((neighbour e.W edge true l).map (e.w.vval n.toNat t.regs)).getD {}
  | .vr n => ((neighbour e.W edge false l).map (e.w.vval n.toNat t.regs)).getD {}
  | .s n => e.w.sval n.toNat t.regs
  | .latch p =>
    let d := sget 0 e.w.latch (128 * p.val + l)
    { bits := if t.is64 then d else (d.setWidth 32).setWidth 64, p := (sget 0 e.w.latchP p.val).getLsbD l }
  | .idx i => e.w.vval (e.w.idxReg i.toNat l) t.regs l
  | .k c => { bits := constVal t c.toNat }
  | .g n => e.g.gval n.toNat

/-- Source `x` in a lane, or the immediate that stands in its place. -/
def laneOp (e : Env) (t : Ty) (o : COp) (gone : Bool) (x : Src) (l : Nat) : Val :=
  if gone then { bits := immVal t o.ext } else laneVal e t (modOf o.ext).edge x l

/-- The capture that a HOLD field asks for: the lane values of OPA, OPB and the result (R56, R106). -/
def holdOf (h : Hold) (a b d : Nat → Val) : Option (Nat × (Nat → Val)) :=
  match h with
  | .none => Option.none
  | .a p => some (p.val, a)
  | .b p => some (p.val, b)
  | .d p => some (p.val, d)

/-- A lane's own bit of a mask group, with the poison of the register that holds it (R106). -/
def maskLane (w : Warp) (n l : Nat) : Val :=
  { bits := if (w.sreg (n + l / 32)).getLsbD (l % 32) then 1 else 0, p := w.sP.getLsbD (n + l / 32) }

/-- Writes a g register of a workgroup; where a warp of higher F1 wrote it in the same cycle, that value stands (R95). -/
def Group.putG (g : Group) (clock f1 n : Nat) (x : Val) : Group :=
  let last := sget (0, 0) g.gWrote n
  if last.1 = clock + 1 ∧ f1 < last.2 then g
  else { g with g := sset 0 g.g n (lo32 x.bits), gP := setBit g.gP n x.p, gWrote := sset (0, 0) g.gWrote n (clock + 1, f1) }

/-- Writes a scalar destination: s registers, or a g register of the workgroup (R95, R115). -/
def writeScalar (d : Src) (regs : Nat) (x : Val) (s : State) : State :=
  match d with
  | .s n => s.setMe (s.me.putSVal n.toNat regs x)
  | .g n =>
    s.setGroup s.me.gid (s.myGroup.putG s.clock s.me.f1 n.toNat x)
  | _ => s

/-- The register that a vector destination names in a lane. -/
def dstReg (w : Warp) (d : Src) (l : Nat) : Nat :=
  match d with
  | .v n => n.toNat
  | .idx i => w.idxReg i.toNat l
  | _ => 0

/-- Writes a vector destination in the given lanes. The registers are those resolved before the instruction. -/
def writeLanes (e : Env) (d : Src) (regs : Nat) (f : Nat → Val) (w : Warp) : List Nat → Warp
  | [] => w
  | l :: ls => writeLanes e d regs f (w.putVVal (dstReg e.w d l) regs l (f l)) ls

/-! ## Integers of a type (R116, R160) -/

/-- Places a result of a type's width in a register: sign copies above I16 and I8, zeros above every other (R160). -/
def place (t : Ty) (x : Nat) : DWord :=
  match t with
  | .i16 => ((BitVec.ofNat 16 x).signExtend 32).setWidth 64
  | .i8 => ((BitVec.ofNat 8 x).signExtend 32).setWidth 64
  | _ => BitVec.ofNat 64 (x % 2 ^ tyBits t)

/-- The integer that a register holds as a type; raw bits are read as unsigned. -/
def intOf (t : Ty) (x : DWord) : Int := readInt t.isI (tyBits t) x.toNat

/-- An exact integer result: clamped to the range of the type under SAT, else modulo 2^w. -/
def intRes (t : Ty) (sat : Bool) (i : Int) : DWord :=
  let w := tyBits t
  place t (wrapInt w (if sat then clampInt (intMin t.isI w) (intMax t.isI w) i else i))

end Sys2Proof.Machine
end

