-- ==== Sys2Proof/Machine/Arith.lean ====
section
/-!
DEFINITION. What the scalar and vector instructions compute of operand values: spec/05 R120 to R122 and spec/07 R164 to
R175, once for both.
-/
namespace Sys2Proof.Machine

/-- A result and the flags it raises. -/
structure Res where
  bits : DWord
  fl : Flags := {}
  deriving DecidableEq, Repr

/-- A floating result in a register. -/
def fpRes (t : Ty) (r : Nat × Flags) : Res := { bits := place t r.1, fl := r.2 }

/-- An operation with an integer and a floating form of two operands. -/
def arith2 (t : Ty) (m : Mod) (fi : Int → Int → Int) (ff : Fmt → Nat → Nat → Nat × Flags) (a b : DWord) : Res :=
  match Ty.fmt? t with
  | some f => fpRes t (ff f a.toNat b.toNat)
  | none => { bits := intRes t m.sat (fi (intOf t a) (intOf t b)) }

def opAdd (t : Ty) (m : Mod) (a b : DWord) : Res := arith2 t m (· + ·) (fun f => fpAdd f m.rnd m.ftz) a b
def opSub (t : Ty) (m : Mod) (a b : DWord) : Res := arith2 t m (· - ·) (fun f => fpSub f m.rnd m.ftz) a b
def opMul (t : Ty) (m : Mod) (a b : DWord) : Res := arith2 t m (· * ·) (fun f => fpMul f m.rnd m.ftz) a b

/-- Bits [2w-1:w] of the exact product (R120, R164). -/
def opMulh (t : Ty) (a b : DWord) : Res := { bits := intRes t false (intOf t a * intOf t b / 2 ^ tyBits t) }

/-- The exact 64-bit product of 32-bit factors (VMULW). -/
def opMulw (t : Ty) (a b : DWord) : Res := { bits := BitVec.ofNat 64 (wrapInt 64 (intOf t a * intOf t b)) }

/-- VFMA (R164). -/
def opFma (t : Ty) (m : Mod) (a b c : DWord) : Res :=
  match Ty.fmt? t with
  | some f => fpRes t (fpFma f m.rnd m.ftz a.toNat b.toNat c.toNat)
  | none => { bits := intRes t m.sat (intOf t a * intOf t b + intOf t c) }

def opMin (t : Ty) (m : Mod) (a b : DWord) : Res :=
  arith2 t m (fun x y => if x ≤ y then x else y) (fun f => fpMinMax f m.ftz false) a b
def opMax (t : Ty) (m : Mod) (a b : DWord) : Res :=
  arith2 t m (fun x y => if x ≤ y then y else x) (fun f => fpMinMax f m.ftz true) a b

/-- VMIN(VMAX(a, b), c) (R164). -/
def opClamp (t : Ty) (m : Mod) (a b c : DWord) : Res :=
  let x := opMax t m a b
  let y := opMin t m x.bits c
  { y with fl := x.fl.or y.fl }

def opAbs (t : Ty) (m : Mod) (a : DWord) : Res :=
  match Ty.fmt? t with
  | some f => fpRes t (fpSign f (fun _ => false) a.toNat)
  | none => { bits := intRes t m.sat (if intOf t a < 0 then -intOf t a else intOf t a) }

def opNeg (t : Ty) (m : Mod) (a : DWord) : Res :=
  match Ty.fmt? t with
  | some f => fpRes t (fpSign f (fun n => !n) a.toNat)
  | none => { bits := intRes t m.sat (-intOf t a) }

/-- VCSGN (R164). DEDUCED (log entry 11): a NaN in either source gives the canonical NaN. -/
def opCsgn (t : Ty) (a b : DWord) : Res :=
  let f := tyFmt t
  let y := f.unpack (b.toNat % 2 ^ f.bits)
  if y.isNan then
    fpRes t (f.nan, { nv := y.isSnan || (f.unpack (a.toNat % 2 ^ f.bits)).isSnan })
  else fpRes t (fpSign f (fun _ => y.neg?) a.toNat)

/-! ## Logic, shifts, bit fields (R120, R121, R167, R168) -/

def opAnd (a b : DWord) : Res := { bits := a &&& b }
def opOr (a b : DWord) : Res := { bits := a ||| b }
def opXor (a b : DWord) : Res := { bits := a ^^^ b }
def opNot (t : Ty) (a : DWord) : Res := { bits := place t (~~~a).toNat }

/-- A count, offset or width: N32 from bits [31:0]. -/
def countOf (b : DWord) : Nat := (lo32 b).toNat

def opShl (t : Ty) (a b : DWord) : Res :=
  { bits := if countOf b ≥ tyBits t then 0 else place t (a.toNat * 2 ^ countOf b) }
def opShr (t : Ty) (a b : DWord) : Res :=
  { bits := if countOf b ≥ tyBits t then 0 else place t (a.toNat % 2 ^ tyBits t / 2 ^ countOf b) }

/-- Shift right with copies of bit w-1; a count at or above w leaves w-1 shifts' worth (R120). -/
def opSra (t : Ty) (a b : DWord) : Res :=
  let w := tyBits t
  let k := if countOf b ≥ w then w - 1 else countOf b
  { bits := place t (wrapInt w (readInt true w a.toNat / 2 ^ k)) }

/-- One bits among the lowest `n`. -/
def popBits (x : Nat) : Nat → Nat
  | 0 => 0
  | n + 1 => popBits (x / 2) n + x % 2

def opPopc (t : Ty) (a : DWord) : Res := { bits := BitVec.ofNat 64 (popBits a.toNat (tyBits t)) }

/-- Leading zero bits of a `w`-bit value. -/
def clzBits (w x : Nat) : Nat := if x = 0 then w else w - 1 - Nat.log2 x

def opClz (t : Ty) (a : DWord) : Res :=
  { bits := BitVec.ofNat 64 (clzBits (tyBits t) (a.toNat % 2 ^ tyBits t)) }

/-- The lowest `n` bits in reverse order. -/
def revBits (x : Nat) : Nat → Nat
  | 0 => 0
  | n + 1 => x % 2 * 2 ^ n + revBits (x / 2) n

def opBrev (t : Ty) (a : DWord) : Res := { bits := BitVec.ofNat 64 (revBits a.toNat (tyBits t)) }

/-- SBFE, VBFE (R121). -/
def opBfe (t : Ty) (a off wid : DWord) : Res :=
  let w := tyBits t
  let o := countOf off
  let n := min (countOf wid) w
  let f := if o < w then a.toNat % 2 ^ w / 2 ^ o % 2 ^ n else 0
  { bits := if t.isI && decide (0 < n) then place t (wrapInt w (readInt true n f)) else place t f }

/-- SBFI, VBFI (R121): `d` is the old destination. -/
def opBfi (t : Ty) (a off wid d : DWord) : Res :=
  let w := tyBits t
  let o := countOf off
  let n := min (countOf wid) w
  let mm := if o < w then BitVec.ofNat 64 ((2 ^ n - 1) * 2 ^ o % 2 ^ w) else 0
  let x := if o < w then BitVec.ofNat 64 (a.toNat * 2 ^ o % 2 ^ w) else 0
  { bits := (d &&& ~~~mm) ||| (x &&& mm) }

/-- VPERMB (R168). -/
def opPermb (a b c : DWord) : Res :=
  let q := pair (lo32 a) (lo32 b)
  let byte (i : Nat) : Nat :=
    let s := field c.toNat (4 * i) 4
    if s ≥ 8 then 0 else field q.toNat (8 * s) 8
  { bits := BitVec.ofNat 64 (byte 0 + byte 1 * 2 ^ 8 + byte 2 * 2 ^ 16 + byte 3 * 2 ^ 24) }

/-- Compares: bit patterns for raw bits, the type's order else (R122, R169). -/
def opCmp (t : Ty) (m : Mod) (c : Cmp) (a b : DWord) : Bool × Flags :=
  match Ty.fmt? t with
  | some f => fpCmp f m.ftz c.quiet c.nums a.toNat b.toNat
  | none => (c.ints (intOf t a) (intOf t b), {})

/-! ## Carry chains and short dot products (R165, R166) -/

def opAddc (a b c : DWord) : Res :=
  let t := (lo32 a).toNat + (lo32 b).toNat + c.toNat % 2
  { bits := pair (BitVec.ofNat 32 t) (BitVec.ofNat 32 (t / 2 ^ 32)) }

def opSubb (a b c : DWord) : Res :=
  let t : Int := ((lo32 a).toNat : Int) - ((lo32 b).toNat : Int) - (c.toNat % 2 : Nat)
  { bits := pair (BitVec.ofNat 32 (wrapInt 32 t)) (if t < 0 then 1 else 0) }

/-- The exact sum of the terms with the sign of an exact zero of R166. -/
def dotSum (mode : Rnd) (terms : List Num) : Num :=
  let s := (terms.drop 1).foldl (fun a x => (numAdd mode a x).1) (terms.headD .zero)
  match s with
  | .fin _ 0 e =>
    let allZero := terms.all Num.isZero
    if allZero && terms.all Num.neg? then .fin true 0 e
    else if allZero && terms.all (fun x => !x.neg?) then .fin false 0 e
    else .fin (mode == .rm) 0 e
  | x => x

/-- VDOT2 and VDOT4 over `n` elements (R153, R166). Infinities that clash beside a NaN set no NV (log entry 85). -/
def opDot (t : Ty) (n : Nat) (m : Mod) (a b c : DWord) : Res :=
  let w := tyBits t
  match Ty.fmt? t with
  | some f =>
    let elem (x : DWord) (i : Nat) : Num := f.unpack (field x.toNat (w * i) w)
    let x := fin1 fmtF32 m.ftz (lo32 c).toNat
    let prods := (List.range n).map fun i => numMul (elem a i) (elem b i)
    let terms := x :: prods.map Prod.fst
    let snan := x.isSnan
    let nv := snan || prods.any Prod.snd
    let isP : Num → Bool := fun y => y == .inf false
    let isM : Num → Bool := fun y => y == .inf true
    let clash := !terms.any Num.isNan && terms.any isP && terms.any isM
    let s := if terms.any Num.isNan || clash then .nan false else dotSum m.rnd terms
    fpRes .f32 (finish fmtF32 m.rnd m.ftz (s, nv || clash))
  | none =>
    let elem (x : DWord) (i : Nat) : Int := readInt t.isI w (field x.toNat (w * i) w)
    let u : Ty := if t.isI then .i32 else .n32
    { bits := intRes u m.sat ((List.range n).foldl (fun s i => s + elem a i * elem b i) (intOf u c)) }

/-! ## Conversions and functions of one value (R171 to R175) -/

/-- VCVT to `t` from `u` (R171). -/
def opCvt (t u : Ty) (m : Mod) (a : DWord) : Res :=
  match Ty.fmt? u, Ty.fmt? t with
  | some fu, some ft => fpRes t (fpConvert fu ft m.rnd m.ftz m.sat a.toNat)
  | some fu, none => fpRes t (fpToInt fu t.isI (tyBits t) m.rnd m.ftz a.toNat)
  | none, some ft => fpRes t (ft.flushResult m.ftz (intToFp ft m.rnd (intOf u a)))
  | none, none => { bits := intRes t m.sat (intOf u a) }

def opFract (t : Ty) (m : Mod) (a : DWord) : Res := fpRes t (fpFract (tyFmt t) m.ftz a.toNat)
def opLdexp (t : Ty) (m : Mod) (a b : DWord) : Res :=
  fpRes t (fpLdexp (tyFmt t) m.rnd m.ftz a.toNat (intOf .i32 b))
def opRint (t : Ty) (m : Mod) (a : DWord) : Res := fpRes t (fpRint (tyFmt t) m.rnd m.ftz a.toNat)
def opSqrt (t : Ty) (m : Mod) (a : DWord) : Res := fpRes t (fpSqrt (tyFmt t) m.rnd m.ftz a.toNat)
def opApprox (op : Approx) (t : Ty) (m : Mod) (a : DWord) : Res := fpRes t (fpApprox op (tyFmt t) m.ftz a.toNat)

end Sys2Proof.Machine
end

