-- ==== Sys2Proof/Machine/Fabric.lean ====
section
/-!
DEFINITION. Flits toward peers (spec/19 R366 to R369): sending, answers to warps that wait for a peer, lost peers.
-/
namespace Sys2Proof.Machine

/-- A warp that waits for peers gets one answer; it may issue again when none is outstanding (R368). -/
def State.answerWarp (s : State) (vi id : Nat) (a : Answer) : State :=
  match tget s.warps id with
  | some w =>
    let more := (s.vi vi).flits.any fun f => f.warp == some id
    let free (x : Status) : Status := if x = .held .peer ∧ !more then .ready else x
    if w.status = .held .peer ∨ w.before = .held .peer then
      s.setWarp id { w with answers := w.answers ++ [a], status := free w.status, before := free w.before,
                            cont := if w.cont = .probing then .probing else .answered }
    else s
  | none => s

/-- A copy gets an answer to some bytes of its row (R272, R368). -/
def State.answerCopy (s : State) (core id : Nat) (a : Answer) : State :=
  let k := s.core core
  s.setCore core { k with copyq := k.copyq.map fun c => if c.id = id then { c with peer := c.peer ++ [a] } else c }

/-- The address of a chunk's counter (R378). -/
def Call.counter (c : Call) (k : Nat) : DWord := c.cntb + BitVec.ofNat 64 (4 * k)

/-- A call is suspended with a record (R381). -/
def State.suspendCall (s : State) (id : Nat) (c : Call) (t : TrapInfo) (flags : Nat) : State :=
  let s := { s with calls := tput s.calls id { c with suspended := true } }
  s.trapDue c.vi { s.trapRec c.warp t c.len flags with pc := c.pc, slot := c.slot, core := (s.group c.gid).core }

/-- A peer answers for the counter of chunk `k`, which it keeps. Where it refuses the access the call is suspended, and the chunk's
counter has not risen (R368, R378, R381, log entry 126). -/
def State.answerCall (s : State) (id k : Nat) (a : Answer) : State :=
  match tget s.calls id, a.refused with
  | some c, some _ =>
    if c.suspended then { s with calls := tput s.calls id { c with raised := c.raised.filter (· != k) } }
    else
    s.suspendCall id { c with raised := c.raised.filter (· != k) }
      { code := .protection, info0 := c.counter k, info1 := BitVec.ofNat 64 k } 0
  | _, _ => s

/-- Whoever waits for a flit gets its answer. -/
def State.answerFor (s : State) (vi : Nat) (f : Flit) (a : Answer) : State :=
  match f.warp, f.copy, f.call with
  | some id, _, _ => s.answerWarp vi id a
  | none, some (core, id), _ => s.answerCopy core id a
  | none, none, some (id, k) => s.answerCall id k a
  | none, none, none => s

/-- A flit is answered: it is no longer outstanding. -/
def State.answerFlit (s : State) (vi : Nat) (f : Flit) (data : List Byte) (refused : Option Nat) : State :=
  let v := s.vi vi
  (s.setVi vi { v with flits := v.flits.filter fun g => !(g.rank == f.rank && g.ctr == f.ctr) }).answerFor vi f
    { lane := f.nth, data := data, refused := refused }

/-- A peer becomes lost (R369): its flits are dropped, and the accesses that wait for it raise PROTECTION with bit 10. -/
def State.losePeer (s : State) (vi rank : Nat) : State :=
  let v := s.vi vi
  let s := s.setVi vi { v with lost := addAll v.lost [rank] }
  (v.flits.filter fun f => f.rank == rank).foldl (fun s f => s.answerFlit vi f [] (some 10)) s

/-- A counter toward a peer that has reached 2^63 makes the peer lost (R367, R369). -/
def State.counted (s : State) (vi rank : Nat) : State :=
  if 2 ^ 63 ≤ sget 0 (s.vi vi).txCtr rank then s.losePeer vi rank else s

/-- Sends a flit to a peer under the next counter of the pair (R367). A flit toward a lost peer is dropped, and an access that
waits for it is refused (R369). -/
def State.sendFlit (s : State) (vi : Nat) (f : Flit) : State :=
  let v := s.vi vi
  if v.lost.contains f.rank then s.answerFor vi f { lane := f.nth, refused := some 10 }
  else
    let ctr := sget 0 v.txCtr f.rank
    (s.setVi vi { v with txCtr := sset 0 v.txCtr f.rank (ctr + 1),
                         flits := v.flits ++ [{ f with ctr := ctr, sent := s.clock }] }).counted vi f.rank

/-- The next tag of an interface's requests. -/
def State.takeTag (s : State) (vi : Nat) : Nat × State :=
  let v := s.vi vi
  (v.nextTag, s.setVi vi { v with nextTag := v.nextTag + 1 })

end Sys2Proof.Machine
end

