-- ==== Sys2Proof/Machine/Formats.lean ====
section
/-!
DEFINITION. Tensor identifiers (spec/11 R233 to R236), element formats and rows (spec/06 R141, R142, spec/12 R260), dot products
(spec/06 R154, R155) and the rows that a copy moves (spec/12 R269 to R271).
-/
namespace Sys2Proof.Machine

/-! ## Descriptors (R234) -/

/-- A tensor identifier entry as its 128 bytes. -/
abbrev Desc := BitVec 1024

def Desc.base (d : Desc) : DWord := d.extractLsb' 0 64
def Desc.fmt (d : Desc) : Nat := (d.extractLsb' 64 5).toNat
def Desc.rank (d : Desc) : Nat := (d.extractLsb' 76 4).toNat
def Desc.scale (d : Desc) : Int := (d.extractLsb' 80 8).toInt
def Desc.home (d : Desc) : Nat := (d.extractLsb' 96 5).toNat
def Desc.ext (d : Desc) (k : Nat) : Nat := (d.extractLsb' (128 + 32 * k) 32).toNat
def Desc.stride (d : Desc) (k : Nat) : DWord := d.extractLsb' (448 + 64 * k) 64

/-- FMT, RANK and extents are zero (R233). -/
def Desc.unset (d : Desc) : Bool := d.fmt == 0 && d.rank == 0 && (List.range 9).all fun k => d.ext k == 0

/-- An entry of a launch. -/
def Launch.tid (l : Launch) (n : Nat) : Desc := sget 0 l.tids n

/-! ## Formats (R141, R142) -/

/-- The floating format of a code. -/
def mfFmt (c : Nat) : Option Fmt :=
  match c with
  | 0 => some fmtF64 | 1 => some fmtF32 | 2 => some fmtF16 | 3 => some fmtBf16 | 4 => some fmtE4m3 | 5 => some fmtE5m2
  | _ => none

/-- The shared-exponent type of a code. -/
def mfSe (c : Nat) : Option Ty :=
  match c with
  | 6 => some .se7 | 7 => some .se4 | 8 => some .se2 | 9 => some .se7f | 10 => some .se4f | 11 => some .se2f
  | _ => none

/-- Element bits of a code; 8 for the SE formats and undefined codes. -/
def mfBits (c : Nat) : Nat := [64, 32, 16, 16, 8, 8, 8, 8, 8, 8, 8, 8, 16, 8, 8, 4, 4, 2, 2, 1].getD c 8

/-- Bytes of a row of `n` elements (R142, R149, R260). -/
def mfRow (c n : Nat) : Nat :=
  match mfSe c with
  | some t => n / 16 * seBytes t
  | none => n * mfBits c / 8

/-- Element `i` of a packed row given as a number, lowest byte first. -/
def mfElem (c row i : Nat) : Num :=
  match mfSe c with
  | some t => seElem t (row / 2 ^ (8 * seBytes t * (i / 16)) % 2 ^ (8 * seBytes t)) (i % 16)
  | none =>
    let x := row / 2 ^ (mfBits c * i) % 2 ^ mfBits c
    match mfFmt c with
    | some f => f.unpack x
    | none =>
      if c = 19 then .fin (x == 0) 1 0
      else ofInt false (readInt (c == 12 || c == 13 || c == 15 || c == 17) (mfBits c) x) 0

/-- A row of values stored in a format (R252): bytes as one number. -/
def mfPack (c : Nat) (sat : Bool) (xs : List Num) : Nat :=
  match mfSe c with
  | some t =>
    (List.range (xs.length / 16)).foldl (fun a b =>
      a + (seConvert t ((xs.drop (16 * b)).take 16)).1 * 2 ^ (8 * seBytes t * b)) 0
  | none =>
    match mfFmt c with
    | some f => (List.range xs.length).foldl (fun a i => a + (f.round .ne sat (xs.getD i .zero)).1 * 2 ^ (f.bits * i)) 0
    | none => 0

/-! ## The triples of R240 -/

/-- Formats that may stand together as A and B, K, and the accumulations in AF codes. -/
def triples : List (List Nat × Nat × List Nat) :=
  [([0], 16, [3]), ([1], 32, [0]), ([3], 64, [0, 1]), ([2], 64, [0, 2]), ([12], 64, [0]), ([4, 5], 128, [0, 1, 2]),
   ([13, 14], 128, [0]), ([6, 9], 128, [0, 1]), ([7, 10], 256, [0, 1]), ([15, 16], 256, [0])] ++
  [([8, 11], 512, [0, 1, 2]), ([17, 18], 512, [0]), ([19], 1024, [0])]

/-- K of a triple; none where the engine does not implement it. -/
def tripleK (fa fb af : Nat) : Option Nat :=
  (triples.find? fun t => t.1.contains fa && t.1.contains fb && t.2.2.contains af).map fun t => t.2.1

/-- Sums by R155 rather than by R154. -/
def mfFused (c : Nat) : Bool := decide (c ≤ 1)

/-- A product of two scaled elements (R154, R235); a zero factor gives an exact zero. -/
def mfProd (s : Int) (a b : Num) : Num := numScale s (blockProd a b)

/-- The dot product of two rows of equal length into an accumulator of format `f` (R154, R155, R235). -/
def mfDot (f : Fmt) (fused : Bool) (s : Int) (c : Nat) (as bs : List Num) : Nat :=
  if fused then fusedDot f c ((as.map (numScale s)).zip bs)
  else blockDot f ((as.length + 15) / 16) ((as.zip bs).map fun p => mfProd s p.1 p.2) c

/-! ## Tiles (R259, R260) -/

def tileRows (d : Desc) : Nat := if d.rank = 1 then 1 else d.ext 1
def tileCols (d : Desc) : Nat := d.ext 0
def tileRB (d : Desc) : Nat := mfRow d.fmt (d.ext 0)
def tileBytes (d : Desc) : Nat := tileRows d * tileRB d

/-! ## Copies (R269 to R273) -/

/-- A level of a copy descriptor (R269): step, tile-row stride, dimension (0: unused), bound minus 1. -/
structure Level where
  step : Int
  q : Nat
  dim : Nat
  n : Nat
  deriving DecidableEq, Repr

def levelOf (x : Word) : Level :=
  { step := (x.extractLsb' 24 8).toInt, q := (x.extractLsb' 16 8).toNat, dim := (x.extractLsb' 12 4).toNat,
    n := (x.extractLsb' 0 12).toNat }

/-- The levels of a descriptor; an unused one iterates once. -/
def levels (regs : List Word) : List Level :=
  (List.range 5).map fun j =>
    let l := levelOf (regs.getD (9 + j) 0)
    if l.dim = 0 then { step := 0, q := 0, dim := 0, n := 0 } else l

def originOf (regs : List Word) (k : Nat) : Int := (regs.getD k 0).toInt

/-- Iterations of a copy. -/
def iterations (regs : List Word) : Nat := (levels regs).foldl (fun a l => a * (l.n + 1)) 1

/-- The iteration vector number `i`, level 0 innermost. -/
def iterVector : List Level → Nat → List Nat
  | [], _ => []
  | l :: ls, i => i % (l.n + 1) :: iterVector ls (i / (l.n + 1))

/-- Iteration `i` of a copy: its vector, its tile row, and its tensor coordinates. -/
def CopyCmd.vector (c : CopyCmd) (i : Nat) : List Nat := iterVector (levels c.regs) i
def CopyCmd.tileRow (c : CopyCmd) (i : Nat) : Nat :=
  (((levels c.regs).zip (c.vector i)).map fun x => x.2 * x.1.q).foldl (· + ·) 0
def CopyCmd.coord (c : CopyCmd) (i k : Nat) : Int :=
  (((levels c.regs).zip (c.vector i)).filter fun x => x.1.dim == k && decide (k ≠ 0)).foldl
    (fun a x => a + (x.2 : Int) * x.1.step) (originOf c.regs k)

/-- The coordinates other than dimension 0 lie within the tensor (R271). -/
def CopyCmd.outerIn (c : CopyCmd) (i : Nat) : Bool :=
  (List.range 9).all fun k => k == 0 ||
    (let x := c.coord i k
     if k < Desc.rank c.tensor then decide (0 ≤ x ∧ x < (Desc.ext c.tensor k : Int)) else x == 0)

/-- The columns of the tile row that lie within dimension 0: from, to. -/
def CopyCmd.columns (c : CopyCmd) : Nat × Nat :=
  let o := originOf c.regs 0
  let lo := (max 0 (-o)).toNat
  let hi := (min (tileCols c.tdesc : Int) ((Desc.ext c.tensor 0 : Int) - o)).toNat
  (lo, hi)

/-- The bytes that iteration `i` moves: tile row, offset in it, address, length; length 0 where all is out of bounds. -/
structure RowMove where
  row : Nat
  at_ : Nat
  addr : DWord
  len : Nat
  deriving DecidableEq, Repr

def CopyCmd.move (c : CopyCmd) (i : Nat) : RowMove :=
  let d : Desc := c.tensor
  let f := d.fmt
  let lo := c.columns.1
  let hi := c.columns.2
  let base := (List.range 9).foldl (fun a k =>
    if k = 0 ∨ d.rank ≤ k then a else a + BitVec.ofInt 64 (c.coord i k) * d.stride k) d.base
  let start := mfRow f (originOf c.regs 0 + lo).toNat
  { row := c.tileRow i, at_ := mfRow f lo, addr := base + BitVec.ofNat 64 start,
    len := if c.outerIn i ∧ lo < hi then mfRow f hi - mfRow f lo else 0 }

/-- The moves of a copy that are still to be made. -/
def CopyCmd.left (c : CopyCmd) : List RowMove :=
  ((List.range (iterations c.regs)).drop c.done).map c.move |>.filter fun m => m.len != 0

/-- Two ranges of bytes meet. -/
def rangesMeet (a n b m : Nat) : Bool := decide (a < b + m) && decide (b < a + n)

/-- A copy still has to move some of `n` bytes from an address. -/
def CopyCmd.meets (c : CopyCmd) (a n : Nat) : Bool := c.left.any fun m => rangesMeet (vaOf m.addr) m.len a n

/-- An access of a warp meets bytes of an earlier copy of the same warp (R218, R273). It waits for the copy: a load too, since a load
that follows a copy's may not return an older value (R218). -/
def Core.copyClash (k : Core) (warp a n : Nat) : Bool := k.copyq.any fun c => c.warp == warp && c.meets a n

/-! ## The rows of B of an MVB (R249, R250) -/

/-- The rows of B that a command names, as addresses of existing rows. -/
def mvbRows (d : Desc) (row0 n : Nat) : List DWord :=
  ((List.range n).filter fun i => decide (row0 + i < d.ext 1)).map fun i =>
    d.base + BitVec.ofNat 64 (row0 + i) * d.stride 1

/-- Where a byte of B lies, through the pages that the command captured. -/
def MvbCmd.loc (c : MvbCmd) (va : Nat) : Nat :=
  match c.pages.find? fun x => x.page == va / 2 ^ x.lg with
  | some x => (x.leaf.extractLsb' 12 40).toNat * 4096 % 2 ^ 40 + va % 2 ^ x.lg
  | none => 0

/-- Bytes of a row of B. -/
def MvbCmd.rowLen (c : MvbCmd) : Nat := mfRow (Desc.fmt c.desc) (Desc.ext c.desc 0)

/-- Where the rows of B lie: first place and length of each run. -/
def MvbCmd.spans (c : MvbCmd) (n : Nat) : List (Nat × Nat) :=
  (mvbRows c.desc c.row0 n).flatMap fun a => (rangePieces a c.rowLen).map fun p => (c.loc (vaOf (a + BitVec.ofNat 64 p.1)), p.2)

end Sys2Proof.Machine
end

