-- ==== Sys2Proof/Machine/Memory.lean ====
section
/-!
DEFINITION. The meanings of the memory instructions (spec/09 R188 to R191, R202, R203, R207 to R214): apertures, the stages
of R211, loads, stores, atomics, fences and prefetches.
-/
namespace Sys2Proof.Machine

/-! ## Forms and operands -/

/-- How a form computes its address (R207, R210). -/
inductive AddrForm | generic | virtual | scratch | priv | const
  deriving DecidableEq, Repr

/-- Where an address lies before translation (R188). -/
inductive Spot
  | virt
  | scratch (off : Nat)
  | priv (off : Nat)
  | const (off : Nat)
  | outside
  deriving DecidableEq, Repr

/-- The scope of a memory instruction (R64, R65). -/
def MExt.scope : MExt → Scope
  | .none => .device
  | .short sc _ => sc
  | .long sc _ _ => sc

/-- The sign-extended offset (R64, R210). -/
def MExt.offset : MExt → DWord
  | .none => 0
  | .short _ off => off.signExtend 64
  | .long _ _ off => off.signExtend 64

def MExt.isAbs : MExt → Bool
  | .long _ a _ => a
  | _ => false

/-- Registers of a datum (R209). -/
def sizeRegs (sz : Size) : Nat := if sz.bytes ≤ 4 then 1 else sz.bytes / 4

/-- The address base of a lane (R210). -/
def baseVal (e : Env) (f : AddrForm) (o : MOp) (l : Nat) : Val :=
  let regs := match f with
    | .generic => 2 | .virtual => 2 | _ => 1
  if MExt.isAbs o.ext then {}
  else
    match o.a with
    | .v n => e.w.vval n.toNat regs l
    | .s n => e.w.sval n.toNat regs
    | _ => {}

/-- The effective address of a lane (R210); for offset forms the exact sum in two's complement. -/
def laneAddr (e : Env) (f : AddrForm) (o : MOp) (l : Nat) : DWord := (baseVal e f o l).bits + MExt.offset o.ext

/-- Store data or an atomic operand of a lane, with its poison (R209). -/
def datum (e : Env) (o : MOp) (fl : Bool) (x : Src) (l : Nat) : BitVec 128 × Bool :=
  if o.size = .b16 then
    match x with
    | .v n =>
      let a := e.w.vval n.toNat 2 l
      let b := e.w.vval (n.toNat + 2) 2 l
      (b.bits ++ a.bits, a.p || b.p)
    | _ => (0, false)
  else
    let t : Ty := if o.size = .b8 then (if fl then .f64 else .b64) else .b32
    let a := laneVal e t .zero x l
    (a.bits.setWidth 128, a.p)

/-- The request of a lane. -/
def laneReq (e : Env) (f : AddrForm) (o : MOp) (fl : Bool) (l : Nat) : LaneReq :=
  { lane := l, addr := laneAddr e f o l, b := (datum e o fl o.b l).1, c := (datum e o fl o.c l).1 }

/-! ## Stages 1 to 4 of R211 -/

/-- The first poisoned operand of a lane; `ops` are the data operands in order. -/
def poisonedSpec (e : Env) (f : AddrForm) (o : MOp) (fl : Bool) (ops : List Src) (l : Nat) : Option (BitVec 10) :=
  if (baseVal e f o l).p then some o.a.code else (ops.find? fun x => (datum e o fl x l).2).map Src.code

/-- The requests that fail a check. -/
def failing (p : LaneReq → Bool) (rs : List LaneReq) : List LaneReq := rs.filter p
def reqLanes (rs : List LaneReq) : Lanes := lanesOf (rs.map LaneReq.lane)

/-- Where a generic address lies (R188). -/
def spotOf (a : DWord) : Spot :=
  let off := a.toNat % 2 ^ 32
  if canonical a then .virt
  else if a.extractLsb' 32 28 ≠ 0 then .outside
  else
    match (a.extractLsb' 60 4).toNat with
    | 8 => .scratch off
    | 9 => .priv off
    | 11 => .const off
    | _ => .outside

/-- Where the address of a form lies. -/
def formSpot (f : AddrForm) (a : DWord) : Spot :=
  match f with
  | .generic => spotOf a
  | .virtual => if canonical a then .virt else .outside
  | .scratch => .scratch a.toNat
  | .priv => .priv a.toNat
  | .const => .const a.toNat

/-- The aperture may not be reached (stage 3). `acc`: 0 read, 1 write, 2 atomic. -/
def badAperture (acc : Nat) (x : Spot) : Bool :=
  match x with
  | .outside => true
  | .const _ => acc != 0
  | _ => false

/-- The bounds of stage 4: scratchpad, and private or constant. -/
def badScratch (l : Launch) (n : Nat) (x : Spot) : Bool :=
  match x with
  | .scratch o => decide (o + n > l.scratchBytes)
  | _ => false
def badBounds (l : Launch) (n : Nat) (x : Spot) : Bool :=
  match x with
  | .priv o => decide (o + n > l.privP)
  | .const o => decide (o + n > l.constSize)
  | _ => false

/-- The offset that INFO0 of SCRATCH_BOUNDS holds (R191). -/
def spotOff (x : Spot) : Nat :=
  match x with
  | .scratch o => o | .priv o => o | .const o => o | _ => 0

/-- The PROTECTION record of an aperture or bounds check (R429). -/
def apertureInfo (acc : Nat) (rs : List LaneReq) : TrapInfo :=
  { code := .protection, lanes := reqLanes rs, info0 := (rs.map LaneReq.addr).headD 0, info1 := BitVec.ofNat 64 (acc + 2048) }

/-- Stages 2 to 4. -/
def boundsGate (l : Launch) (f : AddrForm) (acc n : Nat) (rs : List LaneReq) : Gate :=
  let mis := failing (fun r => r.addr.toNat % n ≠ 0) rs
  let out := failing (fun r => badAperture acc (formSpot f r.addr)) rs
  let scr := failing (fun r => badScratch l n (formSpot f r.addr)) rs
  let bnd := failing (fun r => badBounds l n (formSpot f r.addr)) rs
  if !mis.isEmpty then .trap { code := .misaligned, lanes := reqLanes mis, info0 := (mis.map LaneReq.addr).headD 0 }
  else if !out.isEmpty then .trap (apertureInfo acc out)
  else if !scr.isEmpty then
    .trap { code := .scratchBounds, lanes := reqLanes scr,
            info0 := BitVec.ofNat 64 ((scr.map fun r => spotOff (formSpot f r.addr)).headD 0),
            info1 := BitVec.ofNat 64 l.scratchBytes }
  else if !bnd.isEmpty then .trap (apertureInfo acc bnd)
  else .go

/-! ## Stage 5: where each lane's bytes lie -/

/-- The parts of a private access, 4 bytes or less each (R190): address in the launch's pool and length. -/
def privPieces (e : Env) (l off n : Nat) : List (Nat × Nat) :=
  let W := e.W
  let base := e.l.priv.toNat + e.g.pool * (e.l.warps * W * e.l.privP) + e.w.f1 * W * e.l.privP
  (List.range ((n + 3) / 4)).map fun j =>
    let o := off + 4 * j
    (base + o / 4 * (4 * W) + 4 * l + o % 4, min n 4)

/-- INFO1 of a refused access, the address and INFO1 of a faulted one, the address of one that is not translated yet, the uncorrectable
word that its walk met, and the plain bytes. -/
def Route.refusal : Route → Option Nat
  | .refused i => some i
  | _ => none
def Route.fault : Route → Option (Nat × Nat)
  | .faulted va i => some (va, i)
  | _ => none
def Route.missing : Route → Option Nat
  | .walk va => some va
  | _ => none
def Route.isPeer : Route → Bool
  | .peer _ _ => true
  | _ => false
def Route.broken : Route → Option Nat
  | .ecc a => some a
  | _ => none
def Route.locs : Route → List Nat
  | .cells ls => ls
  | _ => []

/-- One route over consecutive parts (R211): a part that is not translated yet, else one whose walk met an uncorrectable word, else a
refused one, else one that faults, else one at a peer stands for all. -/
def joinRoutes (rs : List Route) : Route :=
  let first (p : Route → Bool) (k : Route) : Route := (rs.find? p).getD k
  first (fun r => r.missing.isSome) (first (fun r => r.broken.isSome) (first (fun r => r.refusal.isSome)
    (first (fun r => r.fault.isSome) (first Route.isPeer (.cells (rs.flatMap Route.locs))))))

/-- The virtual addresses that an access of a lane translates, each with its bytes (R189, R190). -/
def laneVas (e : Env) (f : AddrForm) (n : Nat) (r : LaneReq) : List (Nat × Nat) :=
  match formSpot f r.addr with
  | .virt => [(vaOf r.addr, n)]
  | .priv o => (privPieces e r.lane o n).map fun p => (p.1 % 2 ^ 57, p.2)
  | _ => []

/-- The route of a lane. -/
def laneRoute (s : State) (e : Env) (f : AddrForm) (acc n : Nat) (r : LaneReq) : Route :=
  match formSpot f r.addr with
  | .scratch o => .scratch o
  | .const o => .const o
  | .outside => .refused (acc + 2048)
  | _ => joinRoutes ((laneVas e f n r).map fun p => s.routeVa e.w e.l.vi e.w.core r.lane p.1 acc p.2)

/-- A lane's request with its route; `virt`: the access is virtual, not private. -/
structure Access where
  req : LaneReq
  route : Route
  virt : Bool
  deriving DecidableEq, Repr

def Access.lane (a : Access) : Nat := a.req.lane

/-- What a peer answered for a lane. -/
def Env.answer (e : Env) (lane : Nat) : Option Answer := e.w.answers.find? fun a => a.lane == lane

/-- A lane that the tables or its peer refuse (R199, R368). -/
def Access.refusal (e : Env) (acc : Nat) (a : Access) : Option Nat :=
  match a.route with
  | .refused i => some i
  | .peer _ _ => ((e.answer a.lane).bind Answer.refused).map fun b => acc + 2 ^ b
  | _ => none

/-- The PROTECTION record of stage 5. -/
def refusalInfo (e : Env) (acc : Nat) (as : List Access) : Option TrapInfo :=
  match as.filter fun a => (a.refusal e acc).isSome with
  | [] => none
  | a :: rest =>
    some { code := .protection, lanes := lanesOf ((a :: rest).map Access.lane), info0 := a.req.addr,
           info1 := BitVec.ofNat 64 ((a.refusal e acc).getD 0) }

/-- The PAGE_FAULT record of R202. -/
def faultInfo (as : List Access) : Option TrapInfo :=
  match as.filter fun a => a.route.fault.isSome with
  | [] => none
  | a :: rest =>
    let f := a.route.fault.getD (0, 0)
    some { code := .pageFault, lanes := lanesOf ((a :: rest).map Access.lane), info0 := canonOf f.1, info1 := BitVec.ofNat 64 f.2 }

/-- Locations of a lane in global or host memory. -/
def Access.locs (a : Access) : List Nat := a.route.locs

/-- The physical address of an HBM word that is known to be uncorrectable and that the lane reads (R416). -/
def State.badWord (s : State) (a : Access) : Option Nat := s.wordBad a.locs

/-- The line of an L1 whose tag has failed its parity twice and that the lane reads (R416): its physical address. -/
def Core.badTag (k : Core) (a : Access) : Option Nat :=
  (a.locs.find? fun x => k.badTags.contains (x / 128)).map fun x => x / 128 * 128

/-- ECC_UNCORRECTABLE of some accesses: LANES and the physical address (R416). -/
def eccInfo (f : Access → Option Nat) (as : List Access) : Option TrapInfo :=
  match as.filter fun a => (f a).isSome with
  | [] => none
  | a :: rest =>
    some { code := .eccUncorrectable, lanes := lanesOf ((a :: rest).map Access.lane), info0 := BitVec.ofNat 64 ((f a).getD 0) }

/-- The place of an uncorrectable scratchpad word that the lane reads (R416). -/
def Group.badAt (g : Group) (off n : Nat) : Option Nat :=
  ((List.range n).find? fun i => (tget g.badWords ((off + i) / 4)).isSome).bind fun i => tget g.badWords ((off + i) / 4)
def badScratchWord (e : Env) (n : Nat) (a : Access) : Option Nat :=
  match a.route with
  | .scratch o => (e.g.badAt o n).map fun k => (sramPlace e.w.core k).toNat
  | _ => none

/-- The locations that a read of a core takes from the L2: those that the L1 lacks, or for LDNC those that are not dirty there. -/
def Core.fromL2 (k : Core) (nc : Bool) (locs : List Nat) : List Nat :=
  locs.filter fun x =>
    let y := k.sector (sectorOf x)
    !(if nc then y.dirty else y.valid).getLsbD (x % 32)

/-- What a read of some locations by a core meets (R416): an uncorrectable word, a tag of the L1, a tag of an L2; its physical address
with what it notes. -/
def State.coreBad (s : State) (vi c : Nat) (locs : List Nat) : Option (Nat × State) :=
  let k := s.core c
  match s.wordBad locs with
  | some a => some (a, s.eccSeen vi a)
  | none =>
    match locs.find? fun x => k.badTags.contains (x / 128) with
    | some x => some (x / 128 * 128, s.tagSeen vi c (x / 128 * 128))
    | none => (s.l2BadTag (c / 64) (k.fromL2 false locs)).map fun a => (a, s.l2TagSeen vi (c / 64) a)

/-- ECC_UNCORRECTABLE of a read (R416): an HBM word, a tag of the L1 or the L2, a word of the scratchpad; with what it notes. -/
def eccGate (s : State) (e : Env) (nc : Bool) (n : Nat) (as : List Access) : Option (TrapInfo × State) :=
  let k := s.core e.w.core
  match eccInfo s.badWord as with
  | some t => some (t, s.eccSeen e.l.vi t.info0.toNat)
  | none =>
    match if nc then none else eccInfo k.badTag as with
    | some t => some (t, s.tagSeen e.l.vi e.w.core t.info0.toNat)
    | none =>
      match eccInfo (fun a => s.l2BadTag e.w.die (k.fromL2 nc a.locs)) as with
      | some t => some (t, s.l2TagSeen e.l.vi e.w.die t.info0.toNat)
      | none => (eccInfo (badScratchWord e n) as).map fun t => (t, s.sramSeen e.l.vi t.info0)

/-- ECC_UNCORRECTABLE of an access whose walk met an uncorrectable word (R416). -/
def walkGate (s : State) (e : Env) (as : List Access) : Option (TrapInfo × State) :=
  (eccInfo (fun a => a.route.broken) as).map fun t => (t, s.eccSeen e.l.vi t.info0.toNat)

/-- A translation that a lane used becomes its last page (R200). One that its last page gave enters no cache. -/
def State.rememberPage (s : State) (e : Env) (lane va : Nat) (r : Option WalkResult) : State :=
  if ((tget s.me.lastPage lane).filter fun x => x.serves e.l.vi e.w.die va).isSome then s
  else
    match r with
    | some (.ok x) => (s.cacheXlat e.w.core x).setMe { s.me with lastPage := tput s.me.lastPage lane x }
    | _ => s

/-- The same for the lanes of an access, the latest last. -/
def State.rememberPages (s : State) (e : Env) (f : AddrForm) (n : Nat) (as : List Access) : State :=
  as.foldl (fun s a =>
    (laneVas e f n a.req).foldl (fun s p =>
      s.rememberPage e a.lane p.1 (s.lookup e.w e.l.vi e.w.core a.lane p.1)) s) s

/-! ## Performing the lanes -/

/-- Bytes of a value, as the low `n` bytes of 128 bits. -/
def datumBytes (x : BitVec 128) (n : Nat) : List Byte := leBytes x.toNat n

/-- Reads the bytes of one lane: the state, the bytes, and whether the destination is poisoned (R211, R227). `calm`: the
access is an acquire, which is never poisoned (R228). -/
def readLane (e : Env) (m : Mode) (nc calm : Bool) (n : Nat) (s : State) (a : Access) : State × List Byte × Bool :=
  match a.route with
  | .cells ls =>
    match m with
    | .buffer tid =>
      if a.virt then
        let r := s.taskRead nc e.g.lid tid e.w.core s.cur.warp ls
        (r.1, r.2.1, r.2.2 && !calm)
      else
        let r := s.l1Read e.w.core s.cur.warp ls
        (r.1.l1Tag e.w.core true ls, r.2.map Prod.fst, false)
    | .direct _ =>
      if nc then
        let s := s.l2FetchAll e.l.vi e.w.die ls
        (s.l1Forget e.w.core ls, ls.map (s.ncByte e.w.core), !calm && ls.any (s.ncPoison e.w.core s.cur.warp))
      else
        let r := s.l1Read e.w.core s.cur.warp ls
        (r.1.l1Tag e.w.core (!a.virt) ls, r.2.map Prod.fst, !calm && a.virt && r.2.any Prod.snd)
  | .scratch o => (s, (s.group e.w.gid).scratch.bytes o n, false)
  | .const o => (s, e.l.const.bytes o n, false)
  | .peer _ _ => (s, ((e.answer a.lane).map Answer.data).getD [], false)
  | _ => (s, [], false)

/-- EPOCH of a phase barrier (R275), and whether epoch `e` has passed. -/
def Group.pbEpoch (g : Group) (off : Nat) : Nat := bitsOfBytes (g.scratch.bytes (off + 6) 2)
def epochPassed (ep e : Nat) : Bool := decide (1 ≤ (ep + 65536 - e % 65536) % 65536 ∧ (ep + 65536 - e % 65536) % 65536 ≤ 2 ^ 15)

/-- A warp in PBWAIT wakes when the epoch that it names has passed (R277, R278). -/
def Warp.pbNotice (g : Group) (w : Warp) : Warp :=
  match w.status with
  | .waiting (.pb off e) => { w with woken := w.woken || epochPassed (g.pbEpoch off) e.toNat }
  | _ => w

/-- A write of bytes to the scratchpad of a workgroup, which is its own point of coherence (R298): watches fire and phase
barriers are looked at. -/
def State.scratchWrite (s : State) (gid off : Nat) (bytes : List Byte) : State :=
  let g := s.group gid
  let whole := g.badWords.filter fun e => !(decide (e.1 < 2 ^ 30) && decide (off ≤ 4 * e.1) && decide (4 * e.1 + 4 ≤ off + bytes.length))
  let g := { g with scratch := g.scratch.writeBytes off bytes, badWords := whole }
  let s := s.setGroup gid g
  let s := ((List.range bytes.length).map fun i => scratchSector gid (off + i)).eraseDups.foldl State.wrote s
  g.warps.foldl (fun s id => match tget s.warps id with
    | some w => s.setWarp id (w.pbNotice g)
    | none => s) s

/-- How a store leaves its warp: plain, or as a release (R194, R298). -/
inductive StoreKind | plain | near | far
  deriving DecidableEq, Repr

/-- Writes the bytes of one lane. -/
def writeLane (e : Env) (m : Mode) (k : StoreKind) (bytes : List Byte) (s : State) (a : Access) : State :=
  match a.route with
  | .cells ls =>
    if !a.virt then (s.l1Store e.w.core none ls bytes).l1Tag e.w.core true ls
    else
      match m with
      | .buffer tid => s.taskWrite e.g.lid tid ls bytes
      | .direct t =>
        let s := match k with
          | .plain => (s.l1Store e.w.core (some s.cur.warp) ls bytes).l1Tag e.w.core false ls
          | .near => (s.l1Store e.w.core none ls bytes).l1Tag e.w.core false ls
          | .far => s.writeThrough e.w.core ls bytes
        match t with
        | some tid => s.taskWroteDirect e.g.lid tid ls
        | none => s
  | .scratch o => s.scratchWrite e.w.gid o bytes
  | _ => s

/-- The new value of an atomic; none where it writes nothing (R212). `m` is the old value, all of `n` bytes. -/
def atomicNew (maj : Nat) (sgn : Bool) (n m b c : Nat) : Option Nat :=
  let w := 8 * n
  let less (x y : Nat) : Bool := decide (readInt sgn w x < readInt sgn w y)
  let t : Ty := if n = 8 then .f64 else .f32
  match maj with
  | 0xAA => some ((m + b) % 2 ^ w)
  | 0xAB => some (if less b m then b else m)
  | 0xAC => some (if less m b then b else m)
  | 0xAD => some (Nat.land m b)
  | 0xAE => some (Nat.lor m b)
  | 0xAF => some (Nat.xor m b)
  | 0xB0 => some b
  | 0xB1 => if m = b then some c else none
  | _ => some (opAdd t {} (BitVec.ofNat 64 m) (BitVec.ofNat 64 b)).bits.toNat

/-- Brings a sector's latest value to its point of coherence: the core's dirty bytes, the die's waiting writes of it and the host
writes that every die sees are performed first (R218, R220, R223). -/
def State.toPoc (s : State) (c sec : Nat) : State :=
  ((s.writeBack c sec).hostDrain sec).drainAll (c / 64) fun x => x.sector == sec

/-- Performs an atomic on one lane and answers the old value (R212, R223, R320). -/
def atomicLane (e : Env) (m : Mode) (maj : Nat) (sgn : Bool) (n : Nat) (s : State) (a : Access) : State × List Byte :=
  let b := a.req.b.toNat % 2 ^ (8 * n)
  let c := a.req.c.toNat % 2 ^ (8 * n)
  match a.route with
  | .peer _ _ => (s, ((e.answer a.lane).map Answer.data).getD [])
  | .cells ls =>
    match m, a.virt with
    | .direct t, true =>
      let sec := sectorOf (ls.headD 0)
      let s := s.toPoc e.w.core sec
      let old := ls.map fun x => s.mem.byte x
      let s := (s.l1Drop e.w.core ls).traffic e.l.vi e.w.die (ls.headD 0) n
      match atomicNew maj sgn n (bitsOfBytes old) b c with
      | some x =>
        let s := s.engineWrite ls (leBytes x n)
        (match t with
         | some tid => s.taskWroteDirect e.g.lid tid ls
         | none => s, old)
      | none =>
        (match t with
         | some tid => s.taskTouch tid ls
         | none => s, old)
    | m', v =>
      let r := readLane e m false true n s a
      match atomicNew maj sgn n (bitsOfBytes r.2.1) b c, m', v with
      | some x, _, _ => (writeLane e m .plain (leBytes x n) r.1 a, r.2.1)
      | none, .buffer tid, true => (r.1.taskTouch tid ls, r.2.1)
      | none, _, _ => (r.1, r.2.1)
  | _ =>
    let r := readLane e m false true n s a
    match atomicNew maj sgn n (bitsOfBytes r.2.1) b c with
    | some x => (writeLane e m .plain (leBytes x n) r.1 a, r.2.1)
    | none => (r.1, r.2.1)

/-- The register values that loaded bytes give a lane (R211): extended to 32 bits below 4 bytes. -/
def loadVals (dst : Nat) (sx : Bool) (lane : Nat) (bytes : List Byte) (p : Bool) : List RegVal :=
  let n := bytes.length
  let x := bitsOfBytes bytes
  if n < 4 then
    let v : Word := if sx then (if n = 1 then (BitVec.ofNat 8 x).signExtend 32 else (BitVec.ofNat 16 x).signExtend 32) else BitVec.ofNat 32 x
    [{ key := 128 * dst + lane, val := v, poison := p }]
  else (List.range (n / 4)).map fun j =>
    { key := 128 * (dst + j) + lane, val := BitVec.ofNat 32 (x / 2 ^ (32 * j)), poison := p }

/-- Loads of several lanes. -/
def loadLanes (e : Env) (m : Mode) (nc calm sx : Bool) (n dst : Nat) : List Access → State → State × List RegVal
  | [], s => (s, [])
  | a :: as, s =>
    let r := readLane e m nc calm n s a
    let rest := loadLanes e m nc calm sx n dst as r.1
    (rest.1, loadVals dst sx a.lane r.2.1 r.2.2 ++ rest.2)

/-- Stores of several lanes, in increasing lane order (R197). -/
def storeLanes (e : Env) (m : Mode) (k : StoreKind) (n : Nat) : List Access → State → State
  | [], s => s
  | a :: as, s => storeLanes e m k n as (writeLane e m k (datumBytes a.req.b n) s a)

/-- Atomics of several lanes, in increasing lane order (R197). -/
def atomicLanes (e : Env) (m : Mode) (maj : Nat) (sgn : Bool) (n dst : Nat) : List Access → State → State × List RegVal
  | [], s => (s, [])
  | a :: as, s =>
    let r := atomicLane e m maj sgn n s a
    let rest := atomicLanes e m maj sgn n dst as r.1
    (rest.1, loadVals dst false a.lane r.2 false ++ rest.2)

/-- The translations of an access stay those of its instruction while peers answer it (R201). -/
def State.pinPages (s : State) (e : Env) (f : AddrForm) (n : Nat) (as : List Access) : State :=
  let pins := (as.flatMap fun a => (laneVas e f n a.req).filterMap fun p =>
    (s.lookup e.w e.l.vi e.w.core a.lane p.1).map fun r => (p.1 / 65536, 0, r)).eraseDups
  s.setMe { s.me with walkRes := pins }

/-- Sends the flits of the lanes that reach peers and holds the warp until all are answered (R368, log entry 15). As `c` is
`.probing` the flits are reads that ask whether the peers' windows let the lanes pass. -/
def askPeers (c : Cont) (e : Env) (f : AddrForm) (acc n : Nat) (as : List Access) (s : State) : State :=
  let s := s.setMe { s.me with answers := [] }
  let s := as.foldl (fun s a =>
    match a.route with
    | .peer rank addr =>
      let t := s.takeTag e.l.vi
      let k : FlitKind := if acc = 0 then .readRequest else if acc = 1 then .write else .atomic
      let s := t.2.sendFlit e.l.vi { rank := rank, ctr := 0, kind := k, addr := addr, tag := t.1, nth := a.lane, len := n,
                                     data := if acc = 0 then [] else datumBytes a.req.b n ++ datumBytes a.req.c n,
                                     warp := some s.cur.warp }
      s.setMe { s.me with status := .held .peer }
    | _ => s) ((holdFor .peer c s).pinPages e f n as)
  let waits := (s.vi e.l.vi).flits.any fun x => x.warp == some s.cur.warp
  s.setMe { s.me with status := if waits then .held .peer else .ready }

/-- The peers' part of an access (R211, R368): where more than one lane writes there, all are asked first whether their windows let
them pass, so that no lane is performed before one is refused; then their flits go. -/
def meetPeers (e : Env) (f : AddrForm) (acc n : Nat) (as : List Access) (s : State) : State :=
  if acc ≠ 0 ∧ 2 ≤ (as.filter fun a => a.route.isPeer).length ∧ e.w.cont ≠ .probing then askPeers .probing e f 0 n as s
  else askPeers .answered e f acc n as s

/-- A release store's writes reach their points of coherence as part of the release (R298): the warp is held until the entries of
its die from number `from'` on have drained. -/
def finishStore (e : Env) (sc : Scope) (from' : Nat) (s : State) : State :=
  let mine (x : WEntry) : Bool := decide (4 * from' + e.w.die ≤ x.id)
  let ids := ((s.die e.w.die).wbuf.filter mine).map WEntry.id
  if !Scope.atLeastDevice sc || ids.isEmpty then retire e s
  else holdFor (.release ids) .stored (s.shareHost e.w.die)

/-! ## The common course of an access -/

/-- The parameters of a load, store or atomic. `dst`: the destination register, none where it has none. -/
structure MemForm where
  maj : Nat
  addr : AddrForm
  acc : Nat
  nc : Bool := false
  sx : Bool := false
  sgn : Bool := false
  dst : Option Nat := none
  deriving DecidableEq, Repr

/-- What the plumb monitor notes of a load (R296): its sectors, and whether it fails condition 4. -/
def Plumb.loads (p : Plumb) (gid : Nat) (as : List Access) : Plumb :=
  let bad := as.any fun a => match a.route with
    | .const _ => true | .peer _ _ => true | .cells _ => !a.virt | _ => false
  let secs := as.flatMap fun a => match a.route with
    | .cells ls => ls.map sectorOf
    | .scratch o => [scratchSector gid o]
    | _ => []
  { p with pend := addAll p.pend secs, pendBad := p.pendBad || bad }

/-- Takes a trap in a memory instruction: what peers answered is forgotten. -/
def memTrap (t : TrapInfo) (s : State) : State := takeTrap t (s.setMe { s.me with answers := [], cont := .none })

/-- Performs the lanes whose route is plain, then completes or takes the PAGE_FAULT of the others (R202, R211). -/
def performLanes (e : Env) (f : MemForm) (o : MOp) (m : Mode) (as : List Access) (s : State) : State :=
  let n := o.size.bytes
  let ok := as.filter fun a => a.route.fault.isNone
  let first := (s.die e.w.die).nextEntry
  let order := match m with
    | .buffer _ => Ord.rlx
    | .direct _ => o.ord
  let sc := MExt.scope o.ext
  let acq := order = .acq ∨ order = .acqrel
  let s := if acq then s.acquireAt e.w.core sc else s
  let k : StoreKind := if order = .rel then (if Scope.atLeastDie sc then .far else .near) else .plain
  let d := f.dst.getD 0
  let r : State × List RegVal :=
    if f.acc = 0 then loadLanes e m f.nc acq f.sx n d ok s
    else if f.acc = 1 then (storeLanes e m k n ok s, [])
    else atomicLanes e m f.maj f.sgn n d ok s
  let s := r.1
  let s := if f.acc = 0 then s.setMe { s.me with plumb := s.me.plumb.loads e.w.gid ok } else s
  let vals := if f.dst.isSome then r.2 else []
  match faultInfo as with
  | some t =>
    let s := if k = .far ∧ Scope.atLeastDevice sc then
        ((ok.flatMap Access.locs).map sectorOf).eraseDups.foldl (fun s sec => s.toPoc e.w.core sec) s
      else s
    let w := vals.foldl (fun w v => w.putReg true v) s.me
    let w := if f.dst.isSome then Warp.markRegs w true d true (sizeRegs o.size) else w
    let redo := (as.filter fun a => a.route.fault.isSome).map Access.req
    takePageFault t redo (s.setMe { w with answers := [], cont := .none })
  | none =>
    if f.dst.isSome && !as.isEmpty then
      retire e (s.setMe (s.me.produce { id := 0, vec := true, base := d, count := sizeRegs o.size, vals := vals }))
    else if k = .far then finishStore e sc first s
    else retire e s

/-- The sectors that a task's access tracks (R319). -/
def trackedSectors (as : List Access) : List Nat := (((as.filter fun a => a.virt).flatMap Access.locs).map sectorOf).eraseDups

/-- A buffering task's load or atomic waits for an earlier task (R321). -/
def State.taskWaits (s : State) (e : Env) (acc : Nat) (as : List Access) : Bool :=
  match s.modeOf, s.myTask with
  | .buffer _, some (_, t) => acc != 1 && s.taskBlocked e.g.lid t (trackedSectors as)
  | _, _ => false

/-- What holds a task back before it accesses memory (R324): it goes on, or goes on in direct mode. -/
def taskGate (e : Env) (acc : Nat) (as : List Access) (k : Mode → State → State) (s : State) : State :=
  match s.modeOf with
  | .direct t => k (.direct t) s
  | .buffer tid =>
    match s.myTask with
    | none => s
    | some (_, t) =>
      let secs := trackedSectors as
      let rs := if acc = 1 then [] else secs
      let ws := if acc = 0 then [] else secs
      let cause := as.any (fun a => a.route.isPeer || a.locs.any isHost) || !s.taskRoom t rs ws
      if cause then
        if s.isFrontier e.g.lid tid then k (.direct (some tid)) (s.enterDirect tid) else stallTask tid e.g.lid t s
      else k (.buffer tid) s

/-- Where the bytes that a copy still has to move lie: first place and length of each run. -/
def State.copySpans (s : State) (vi d : Nat) (c : CopyCmd) : List (Nat × Nat) :=
  c.left.flatMap fun m => (rangePieces m.addr m.len).filterMap fun p =>
    match s.routeEngine vi d (if c.out then 1 else 0) p.2 (m.addr + BitVec.ofNat 64 p.1) with
    | .cells (a :: ls) => some (a, ls.length + 1)
    | .peer rank a => some (2 ^ 60 + rank * 2 ^ 40 + a, p.2)
    | _ => none

/-- A location's place among those of `copySpans`. -/
def Access.spans (n : Nat) (a : Access) : List (Nat × Nat) :=
  match a.route with
  | .cells ls => ls.map fun x => (x, 1)
  | .peer rank x => [(2 ^ 60 + rank * 2 ^ 40 + x, n)]
  | _ => []

/-- Some runs of bytes meet some others. -/
def spansMeet (xs ys : List (Nat × Nat)) : Bool := xs.any fun x => ys.any fun y => rangesMeet x.1 x.2 y.1 y.2

/-- Where the rows of B of an accepted MVB lie. -/
def State.mvbSpans (s : State) (c : MvbCmd) : List (Nat × Nat) :=
  c.spans (if c.rd then (s.launchOf (s.group c.gid).lid).w else c.yRows)

/-- Some bytes meet those of an earlier copy of the issuing warp, or those of B of an earlier MVB of it that satisfies `p`. -/
def State.copyqMeets (s : State) (e : Env) (spans : List (Nat × Nat)) : Bool :=
  (s.core e.w.core).copyq.any fun c => c.warp == s.cur.warp && spansMeet (s.copySpans e.l.vi e.w.die c) spans
def State.mvbsMeet (s : State) (e : Env) (p : MvbCmd → Bool) (spans : List (Nat × Nat)) : Bool :=
  (s.core e.w.core).mvbs.any fun c => c.warp == s.cur.warp && p c && spansMeet (s.mvbSpans c) spans

/-- An access of the issuing warp meets bytes of an earlier copy or of B of an earlier MVB of the same warp, under whatever virtual
address, and waits for it (R218, R250, R273). -/
def State.copyMeets (s : State) (e : Env) (spans : List (Nat × Nat)) : Bool :=
  s.copyqMeets e spans || s.mvbsMeet e (fun _ => true) spans

/-- A load, store or atomic once its operands are full (R211). -/
def memBody (f : MemForm) (o : MOp) (ops : List Src) (e : Env) (s : State) : State :=
  let n := o.size.bytes
  let fl := f.maj == 0xB2
  let poisoned := if e.w.redo.isEmpty then e.active.filter fun l => (poisonedSpec e f.addr o fl ops l).isSome else []
  match poisoned with
  | l :: _ =>
    memTrap { code := .poisonUse, lanes := lanesOf poisoned, info0 := ((poisonedSpec e f.addr o fl ops l).getD 0).setWidth 64 } s
  | [] =>
    let rs := if e.w.redo.isEmpty then e.active.map (laneReq e f.addr o fl) else e.w.redo
    let k := s.core e.w.core
    let clash := rs.any fun r => formSpot f.addr r.addr == .virt && k.copyClash s.cur.warp (vaOf r.addr) n
    match boundsGate e.l f.addr f.acc n rs with
    | .trap t => memTrap t s
    | _ => if clash then s else
      let as := rs.map fun r =>
        ({ req := r, route := laneRoute s e f.addr f.acc n r, virt := formSpot f.addr r.addr == .virt } : Access)
      match as.filterMap fun a => a.route.missing with
      | va :: vas => startWalks e.l.vi e.w.core (va :: vas) s
      | [] => if s.copyMeets e (as.flatMap (Access.spans n)) then s else
        let ok := as.filter fun a => a.route.fault.isNone
        let seen := s.rememberPages e f.addr n ok
        match walkGate seen e as with
        | some t => memTrap t.1 t.2
        | none =>
        match refusalInfo e f.acc as with
        | some t => memTrap t seen
        | none =>
          match if f.acc = 1 then none else eccGate seen e f.nc n ok with
          | some t => memTrap t.1 t.2
          | none => if s.taskWaits e f.acc ok then s else
            taskGate e f.acc ok (fun m s =>
              let go (s : State) : State :=
                if e.w.cont ≠ .answered ∧ (ok.any fun a => a.route.isPeer) then meetPeers e f.addr f.acc n ok s
                else performLanes e f o m as s
              match m with
              | .buffer _ => go s
              | .direct _ => if o.ord = .rel ∨ o.ord = .acqrel then withRelease e (MExt.scope o.ext) go s else go s) seen

/-- Issues a memory instruction. A replay does not look at the registers again: its destination stays empty until it is complete
(R202, R203). A release store whose writes have drained completes (R298). -/
def memInstr (f : MemForm) (o : MOp) (ops : List Src) (s : State) : State :=
  if s.me.cont = .stored then retire s.env s
  else if s.me.redo.isEmpty then issue (o.raw (BitVec.ofNat 8 f.maj)) (memBody f o ops) s
  else memBody f o ops s.env s

/-- The number of a direct vector destination. -/
def vNumber : Src → Nat
  | .v n => n.toNat
  | _ => 0

def loadInstr (maj : Nat) (f : AddrForm) (nc : Bool) (o : MOp) (s : State) : Out :=
  .next (memInstr { maj := maj, addr := f, acc := 0, nc := nc, sx := o.sub.getLsbD 0, dst := some (vNumber o.dst) } o [] s)
def storeInstr (maj : Nat) (f : AddrForm) (o : MOp) (s : State) : Out :=
  .next (memInstr { maj := maj, addr := f, acc := 1 } o [o.b] s)
def atomicInstr (maj : Nat) (ops : MOp → List Src) (o : MOp) (s : State) : Out :=
  .next (memInstr { maj := maj, addr := .generic, acc := 2, sgn := o.sub.getLsbD 1,
                    dst := if o.sub.getLsbD 0 then some (vNumber o.dst) else none } o (ops o) s)

def execLd (o : MOp) (s : State) : Out := loadInstr 0xA0 .generic false o s
def execSt (o : MOp) (s : State) : Out := storeInstr 0xA1 .generic o s
def execLdg (o : MOp) (s : State) : Out := loadInstr 0xA2 .virtual false o s
def execStg (o : MOp) (s : State) : Out := storeInstr 0xA3 .virtual o s
def execLds (o : MOp) (s : State) : Out := loadInstr 0xA4 .scratch false o s
def execSts (o : MOp) (s : State) : Out := storeInstr 0xA5 .scratch o s
def execLdl (o : MOp) (s : State) : Out := loadInstr 0xA6 .priv false o s
def execStl (o : MOp) (s : State) : Out := storeInstr 0xA7 .priv o s
def execLdc (o : MOp) (s : State) : Out := loadInstr 0xA8 .const false o s
def execLdnc (o : MOp) (s : State) : Out := loadInstr 0xA9 .virtual true o s
def execAadd (o : MOp) (s : State) : Out := atomicInstr 0xAA (fun o => [o.b]) o s
def execAmin (o : MOp) (s : State) : Out := atomicInstr 0xAB (fun o => [o.b]) o s
def execAmax (o : MOp) (s : State) : Out := atomicInstr 0xAC (fun o => [o.b]) o s
def execAand (o : MOp) (s : State) : Out := atomicInstr 0xAD (fun o => [o.b]) o s
def execAor (o : MOp) (s : State) : Out := atomicInstr 0xAE (fun o => [o.b]) o s
def execAxor (o : MOp) (s : State) : Out := atomicInstr 0xAF (fun o => [o.b]) o s
def execAxch (o : MOp) (s : State) : Out := atomicInstr 0xB0 (fun o => [o.b]) o s
def execAcas (o : MOp) (s : State) : Out := atomicInstr 0xB1 (fun o => [o.b, o.c]) o s
def execAfadd (o : MOp) (s : State) : Out := atomicInstr 0xB2 (fun o => [o.b]) o s

/-! ## Fences and prefetches (R213, R214) -/

/-- A fence: release, then acquire, at its scope. It has no effect while a task buffers (R320). -/
def fenceInstr (rel acq : Bool) (o : MOp) (s : State) : State :=
  issue (o.raw 0xB3) (fun e s =>
    let sc := MExt.scope o.ext
    let last (s : State) : State := retire e (if acq then s.acquireAt e.w.core sc else s)
    match s.modeOf with
    | .buffer _ => retire e s
    | .direct _ => if rel then withRelease e sc last s else last s) s

def execFenceAcq (o : MOp) (s : State) : Out := .next (fenceInstr false true o s)
def execFenceRel (o : MOp) (s : State) : Out := .next (fenceInstr true false o s)
def execFenceAcqrel (o : MOp) (s : State) : Out := .next (fenceInstr true true o s)

/-- The translation of a prefetch (R214): where no cache gives it the walk is made at once. One that does not fault becomes the lane's
last page (R200). -/
def State.prefetchRoute (s : State) (e : Env) (lane va : Nat) : State × Route :=
  if s.tableHidden e.l.vi va 128 then (s, .refused 2048)
  else
    let known := s.lookup e.w e.l.vi e.w.core lane va
    let r := known.getD (s.walk e.l.vi e.w.die va)
    let t := if known.isSome then s else s.walkTraffic e.l.vi e.w.die va
    (t.rememberPage e lane va (some r), s.gated ((s.vi e.l.vi).resultRoute r va 0 128) va)

/-- PREFETCH (R214): the line of each lane whose address does not fault enters the die's L2, and the L1 where LVL = 1. -/
def execPrefetch (o : MOp) (s : State) : Out :=
  .next (issue (o.raw 0xB4) (fun e s =>
    match e.active.filter fun l => (baseVal e .virtual o l).p with
    | l :: ls => takeTrap { code := .poisonUse, lanes := lanesOf (l :: ls), info0 := o.a.code.setWidth 64 } s
    | [] =>
      let fill (s : State) (l : Nat) : State :=
        let a := laneAddr e .virtual o l
        if canonical a then
          let r := s.prefetchRoute e l (vaOf a / 128 * 128)
          match r.2 with
          | .cells ls =>
            let s := r.1.l2FetchAll e.l.vi e.w.die ls
            if o.sub.getLsbD 0 then (s.l1FillAll e.w.core ls).l1Tag e.w.core false ls else s
          | _ => r.1
        else s
      retire e (e.active.foldl fill s)) s)

end Sys2Proof.Machine
end

