-- ==== Sys2Proof/Machine/Tensor.lean ====
section
/-!
DEFINITION. Tiles in the scratchpad (spec/12 R259 to R262), the accumulators (spec/11 R237, R238) and what engines reach in
virtual memory.
-/
namespace Sys2Proof.Machine

/-- `n` bytes of a scratchpad allocation of `lim` bytes. Beyond it, where a tile can reach when its TID is rewritten after
TLDEF, the bytes are unstated (log entry 17): free values. -/
def Group.tileBytes (g : Group) (lim off : Nat) : Nat → List Byte
  | 0 => []
  | n + 1 =>
    (if off < lim then g.scratch.byte off else (Config.unstated off).setWidth 8) :: Group.tileBytes g lim (off + 1) n

/-- Row `i` of a tile at an offset, as a number. -/
def Group.tileRow (g : Group) (lim off : Nat) (d : Desc) (i : Nat) : Nat :=
  bitsOfBytes (g.tileBytes lim (off + i * tileRB d) (tileRB d))

/-- The elements of a tile row. -/
def Group.tileElems (g : Group) (lim off : Nat) (d : Desc) (i : Nat) : List Num :=
  let r := g.tileRow lim off d i
  (List.range (tileCols d)).map (mfElem d.fmt r)

/-- A tile's entry with its state replaced. -/
def Group.setTile (g : Group) (t : Nat) (st : TileState) : Group :=
  match tget g.tiles t with
  | some x => { g with tiles := tput g.tiles t { x with st := st } }
  | none => g

/-- The checks of named tiles: defined (TILE_UNDEFINED), then READY (R108, R258, R279). -/
def tileGate (g : Group) (ts : List Nat) : Gate :=
  match ts.find? fun t => (tget g.tiles t).isNone with
  | some t => .trap { code := .tileUndefined, info0 := BitVec.ofNat 64 t }
  | none => if ts.all fun t => (tget g.tiles t).map Tile.st == some .ready then .go else .wait

/-- An accepted command is reading a tile of a workgroup (R243, R268). -/
def State.tileRead (s : State) (gid t : Nat) : Bool :=
  let k := s.core (s.group gid).core
  (k.matq.any fun c => c.gid == gid && c.kind != .accst && (c.tileA == some t || c.tileB == some t)) ||
  (k.mvbs.any fun c => c.gid == gid && c.xTile == t) ||
  (k.copyq.any fun c => c.gid == gid && c.out && c.tile == t) ||
  (s.calls.any fun c => c.2.gid == gid && c.2.tile == some t)

/-- An accepted command reads or writes a tile (R262, R265). -/
def State.tileUsed (s : State) (gid t : Nat) : Bool :=
  let k := s.core (s.group gid).core
  s.tileRead gid t || (k.matq.any fun c => c.gid == gid && c.tileA == some t) ||
  (k.mvbs.any fun c => c.gid == gid && !c.rd && c.yTile == t) || (k.copyq.any fun c => c.gid == gid && c.tile == t)

/-- Bytes that an engine writes into a workgroup's scratchpad; bytes beyond the allocation are lost (log entry 17). -/
def State.engineScratch (s : State) (gid off : Nat) (bytes : List Byte) : State :=
  match tget s.groups gid with
  | none => s
  | some g => s.scratchWrite gid off (bytes.take ((s.launchOf g.lid).scratchBytes - off))

/-! ## Accumulators (R237, R238) -/

def AccFmt.ofAf (a : Nat) : AccFmt :=
  match a with
  | 0 => .f32 | 1 => .bf16 | 2 => .f16 | _ => .f64

def accFmt : AccFmt → Fmt
  | .f32 => fmtF32 | .bf16 => fmtBf16 | .f16 => fmtF16 | .f64 => fmtF64

/-- Matrix format code of an accumulation format. -/
def accCode : AccFmt → Nat
  | .f32 => 1 | .bf16 => 3 | .f16 => 2 | .f64 => 0

/-- Element bytes and slots of a tile. -/
def accBytes : AccFmt → Nat
  | .f32 => 4 | .bf16 => 2 | .f16 => 2 | .f64 => 8
def accSlots : AccFmt → Nat
  | .f32 => 2 | .bf16 => 1 | .f16 => 1 | .f64 => 4

/-- Slots of a workgroup. -/
def Launch.slots (l : Launch) : Nat := min 32 (2 * l.acc)

/-- a_n breaks R237. -/
def accBad (l : Launch) (f : AccFmt) (n : Nat) : Bool := n % accSlots f != 0 || decide (n + accSlots f > l.slots)

/-- The tag of a slot (R238). -/
def Group.tag (g : Group) (n : Nat) : Tag := (tget g.tags n).getD (if n % 2 = 0 then .head .f32 else .tail .f32)

/-- The slots of a_n carry the tags of format `f`. -/
def Group.tagged (g : Group) (f : AccFmt) (n : Nat) : Bool :=
  g.tag n == .head f && (List.range (accSlots f)).all fun i => i == 0 || g.tag (n + i) == .tail f

/-- The first slot of the tile that slot `n` belongs to, at most `k` below it. -/
def Group.headOf (g : Group) : Nat → Nat → Option (Nat × AccFmt)
  | k, n =>
    match g.tag n with
    | .head f => some (n, f)
    | .unset => none
    | .tail _ =>
      match k with
      | 0 => none
      | k + 1 => if n = 0 then none else Group.headOf g k (n - 1)

/-- UNSET for every slot of the tile that slot `n` belongs to. -/
def Group.unsetTile (g : Group) (n : Nat) : Group :=
  match g.headOf 3 n with
  | some (h, f) => (List.range (accSlots f)).foldl (fun g i => { g with tags := tput g.tags (h + i) .unset }) g
  | none => { g with tags := tput g.tags n .unset }

/-- ACCZ and ACCLD retag a_n as `f` (R238). -/
def Group.retag (g : Group) (f : AccFmt) (n : Nat) : Group :=
  let g := (List.range (accSlots f)).foldl (fun g i => g.unsetTile (n + i)) g
  (List.range (accSlots f)).foldl (fun g i =>
    { g with tags := tput g.tags (n + i) (if i = 0 then Tag.head f else Tag.tail f) }) g

/-- The byte of element (i, j) of a_n in the slots. -/
def accAddr (f : AccFmt) (n i j : Nat) : Nat := 8192 * n + (64 * i + j) * accBytes f

/-- Element (i, j) of a_n as stored bits, and the same written. -/
def Group.accGet (g : Group) (f : AccFmt) (n i j : Nat) : Nat :=
  bitsOfBytes ((List.range (accBytes f)).map fun b => sget 0 g.acc (accAddr f n i j + b))
def Group.accPut (g : Group) (f : AccFmt) (n i j x : Nat) : Group :=
  { g with acc := (List.range (accBytes f)).foldl (fun m b =>
      sset 0 m (accAddr f n i j + b) (BitVec.ofNat 8 (x / 256 ^ b))) g.acc,
           badWords := if 4 ≤ accBytes f then g.badWords.filter fun e => !(decide (accAddr f n i j ≤ 4 * (e.1 - 2 ^ 30)) &&
             decide (2 ^ 30 ≤ e.1) && decide (4 * (e.1 - 2 ^ 30) < accAddr f n i j + accBytes f)) else g.badWords }

/-! ## Engine accesses to virtual memory -/

/-- The places of `n` consecutive bytes as an engine reaches them: one route. -/
def State.routeRange (s : State) (vi die acc : Nat) (a : DWord) (n : Nat) : Route :=
  joinRoutes ((rangePieces a n).map fun p => s.routeEngine vi die acc p.2 (a + BitVec.ofNat 64 p.1))

/-- The same where a program names the bytes: none of its addresses reaches a table of R290 or R347. -/
def State.programRange (s : State) (vi die acc : Nat) (a : DWord) (n : Nat) : Route :=
  if canonical a && s.tableHidden vi (vaOf a) n then .refused (acc + 2048) else s.routeRange vi die acc a n

/-- The address in a refused range at which the first refused page begins. -/
def State.refusedAt (s : State) (vi die acc : Nat) (a : DWord) (n : Nat) : DWord :=
  let p := (rangePieces a n).find? fun p => (s.routeEngine vi die acc p.2 (a + BitVec.ofNat 64 p.1)).refusal.isSome
  a + BitVec.ofNat 64 ((p.map Prod.fst).getD 0)

end Sys2Proof.Machine
end

