-- ==== Sys2Proof/Machine/Barriers.lean ====
section
/-!
DEFINITION. Barriers and the monument table (spec/13 R288 to R291, R294), and what an exit of a warp does to them (R136).
-/
namespace Sys2Proof.Machine

/-- Workgroups of a group at level k: EXPECT (R290). -/
def Launch.membersAt (l : Launch) (k : Nat) : Nat :=
  ((List.range 6).filter fun j => decide (2 ≤ j ∧ j < k)).foldl (fun a j => a * l.ext j) 1

/-- The number of a workgroup's group at level k among the groups of that level. -/
def Launch.groupIndex (l : Launch) (g : Group) (k : Nat) : Nat :=
  ((List.range 6).reverse.filter fun j => decide (k ≤ j)).foldl (fun a j => a * l.ext j + widField g 0 0 j) 0

/-- The entry of barrier n of a workgroup's group at level k. -/
def Launch.entryIndex (l : Launch) (g : Group) (k n : Nat) : Nat :=
  ((List.range 7).filter fun j => decide (3 ≤ j ∧ j < k)).foldl (fun a j => a + l.monuCount j * l.groupsAt j) 0
    + n * l.groupsAt k + l.groupIndex g k

/-- The entry, zeroed with EXPECT filled in before its first use (R289, R290). -/
def Launch.monument (l : Launch) (g : Group) (k n : Nat) : Monument :=
  (tget l.mon (l.entryIndex g k n)).getD { key := l.key g k, level := k, num := n, expect := l.membersAt k }

/-- An entry of the table in the launch's save-area allocation (R290, R393). -/
def Launch.monAddr (l : Launch) (i : Nat) : DWord := l.save + BitVec.ofNat 64 (4096 + 32 * i)

/-- The 32 bytes of an entry (R290). -/
def Monument.bytes (m : Monument) : List Byte :=
  leBytes m.key.toNat 8 ++
  leBytes (m.expect % 2 ^ 48 + 2 ^ 56 * (m.num % 16) + 2 ^ 60 * (m.level % 8) + (if m.ph then 2 ^ 63 else 0)) 8 ++
  leBytes (m.arrived % 2 ^ 48 + 2 ^ 48 * (m.parkw % 2 ^ 16)) 8 ++ leBytes (m.retired % 2 ^ 48) 8

/-- The place of an entry for the die whose cache homes it (R292, R398). -/
def State.monRoute (s : State) (l : Launch) (i acc : Nat) : Route := s.routeRange l.vi (i % 4) acc (l.monAddr i) 32

/-- An entry changes: in the cache of its home die, and in memory where its page reaches it (R292, log entry 96). -/
def State.monPut (s : State) (lid : Nat) (g : Group) (k n : Nat) (m : Monument) : State :=
  let l := s.launchOf lid
  let i := l.entryIndex g k n
  let s := s.setLaunch lid { l with mon := tput l.mon i m }
  match s.monRoute l i 1 with
  | .cells ls => (s.walked l.vi (i % 4) (l.monAddr i) 32).engineWriteFrom l.vi (i % 4) ls m.bytes
  | _ => s

/-- The key of a barrier's local parity (R294). Level 1 belongs to one warp (R85, R288). -/
def barKey (k n f1 : Nat) : Nat := if k = 1 then 256 * (f1 + 1) + 16 + n else 16 * k + n

def Group.parity (g : Group) (k n f1 : Nat) : Bool := sget false g.par (barKey k n f1)

/-- Warps of a workgroup that have not exited. -/
def State.liveWarps (s : State) (g : Group) : List Nat := g.warps.filter fun id => (s.warp id).status != .exited

/-- A completion notice to a warp: its arrived flag clears, and a wait whose parity has passed wakes (R283, R291). -/
def Warp.notice (w : Warp) (k n : Nat) (ph : Bool) : Warp :=
  let r := sget {} w.bars (16 * k + n)
  let hit := match w.status with
    | .waiting (.barrier k' n' v) => k' == k && n' == n && v != ph
    | _ => false
  { w with bars := sset {} w.bars (16 * k + n) { r with arr := false }, woken := w.woken || hit }

/-- The local parity of a workgroup flips (R291). -/
def State.flipParity (s : State) (gid k n : Nat) : State :=
  let g := s.group gid
  let ph := !g.parity k n 0
  let s := s.setGroup gid { g with par := sset false g.par (16 * k + n) ph, arrived := g.arrived.filter (· != 16 * k + n) }
  g.warps.foldl (fun s id => s.setWarp id ((s.warp id).notice k n ph)) s

/-- A notice reaches a workgroup: held while it is in transit (R291). -/
def State.notify (s : State) (gid k n : Nat) : State :=
  let g := s.group gid
  if g.state = .saving ∨ g.state = .restoring then s.setGroup gid { g with notices := g.notices ++ [16 * k + n] }
  else s.flipParity gid k n

/-- Held notices are applied before any warp of the workgroup issues (R291). -/
def State.applyNotices (s : State) (gid : Nat) : State :=
  let g := s.group gid
  g.notices.foldl (fun s key => s.flipParity gid (key / 16) (key % 16)) (s.setGroup gid { g with notices := [] })

/-- A phase of an entry completes where all have arrived or retired (R291): PH flips and every started member is noticed. -/
def State.checkEntry (s : State) (lid : Nat) (g : Group) (k n : Nat) : State :=
  let l := s.launchOf lid
  let m := l.monument g k n
  if m.arrived + m.retired = m.expect then
    let s := s.monPut lid g k n { m with ph := !m.ph, arrived := 0, parkw := 0 }
    (s.groups.filter fun e => e.2.lid == lid && e.2.state != .retired && l.key e.2 k == l.key g k).foldl
      (fun s e => s.notify e.1 k n) s
  else s

/-- Every warp that has not exited has arrived at (k, n): the workgroup arrives, or at level 2 the phase completes (R291). -/
def State.settleBarrier (s : State) (gid k n : Nat) : State :=
  let g := s.group gid
  let live := s.liveWarps g
  if !live.isEmpty && live.all fun id => (sget {} (s.warp id).bars (16 * k + n)).arr then
    if k = 2 then s.flipParity gid 2 n
    else if g.arrived.contains (16 * k + n) then s
    else
      let s := s.setGroup gid { g with arrived := g.arrived ++ [16 * k + n] }
      let m := (s.launchOf g.lid).monument g k n
      let s := s.monPut g.lid g k n { m with arrived := m.arrived + 1 }
      s.checkEntry g.lid g k n
  else s

/-- Every barrier of levels 2 and above that a launch has. -/
def Launch.barriers (l : Launch) : List (Nat × Nat) :=
  (List.range 16).map (fun n => (2, n)) ++ [3, 4, 5, 6].flatMap fun k => (List.range (l.monuCount k)).map fun n => (k, n)

/-- A warp arrives at (k, n) and records the parity (R294). -/
def State.arriveAt (s : State) (id k n : Nat) : State :=
  let w := s.warp id
  let g := s.group w.gid
  let ph := g.parity k n w.f1
  if k = 1 then
    (s.setWarp id { w with bars := sset {} w.bars (16 + n) { arr := false, p := ph } }).setGroup w.gid
      { g with par := sset false g.par (barKey 1 n w.f1) (!ph) }
  else
    (s.setWarp id { w with bars := sset {} w.bars (16 * k + n) { arr := true, p := ph } }).settleBarrier w.gid k n

/-- A warp ends (R136): what remains of its workgroup may now have arrived (R291). -/
def State.exitWarp (s : State) (id : Nat) : State :=
  let w := s.warp id
  let s := s.setWarp id { w with status := .exited, elig := 0, overdue := false, woken := false }
  let l := s.launchOf (s.group w.gid).lid
  l.barriers.foldl (fun s b => s.settleBarrier w.gid b.1 b.2) s

end Sys2Proof.Machine
end

