-- ==== Sys2Proof/Machine/SaveArea.lean ====
section
/-!
DEFINITION. The save-area allocation of a launch (spec/13 R303, R430, spec/21 R393): where the parts of a save area lie, and
its bytes.
-/
namespace Sys2Proof.Machine

/-- Address of save area number `p` (R393). The monument table is taken as it stands, without rounding (log entry 19). -/
def Launch.saveAddr (l : Launch) (p : Nat) : DWord :=
  l.save + BitVec.ofNat 64 (4096 + 32 * l.monEntries + p * l.savePer * 4096)

/-- SAVEPER by the rule of R430. -/
def Launch.savePerRule (l : Launch) : Nat := 4 + 5 * l.warps + 4 * l.regs + 4 * min l.acc 16 + 4 * l.scratch

/-- First byte of the accumulator slots and of the scratchpad part (R430). -/
def Launch.accPart (l : Launch) : Nat := 4096 * (3 + 5 * l.warps + 4 * l.regs)
def Launch.scratchPart (l : Launch) : Nat := 4096 * (4 + 5 * l.warps + 4 * l.regs + 4 * min l.acc 16)

/-- The 64-byte header (R303), the rest of its unit zero. `mcs`: the monument-cache share of the interface on the saving
die, which the control processor gives (log entry 20). -/
def saveHeader (l : Launch) (g : Group) (wake : Bool) (mcs clock : Nat) : List Byte :=
  let tiles := g.tiles.foldl (fun a e => max a (e.1 + 1)) 0
  let body := leBytes 1 4 ++ leBytes l.savePerRule 4 ++ leBytes l.partw.toNat 4 ++
    leBytes (l.warps + 2 ^ 8 * l.w + 2 ^ 16 * tiles) 4 ++ leBytes mcs 4 ++
    leBytes ((if g.wasWaiting then 1 else 0) + (if wake then 2 else 0)) 4 ++ leBytes g.linear 8 ++ leBytes clock 8 ++
    leBytes 0 24
  body ++ leBytes 0 (4096 - body.length)

/-- The save area of a workgroup (R430): the header, the accumulator slots and the scratchpad as the manual lays them out; the
parts whose arrangement belongs to the layout version hold free values, numbered from `free` (log entry 9). -/
def saveParts (l : Launch) (g : Group) (wake : Bool) (mcs clock free : Nat) : List (Nat × List Byte) :=
  let open_ (base n : Nat) : List Byte := (List.range n).map fun i => (Config.unstated (free + base + i)).setWidth 8
  let accEnd := l.accPart + 8192 * l.slots
  [(0, saveHeader l g wake mcs clock),
   (4096, open_ 4096 (l.accPart - 4096)),
   (l.accPart, (List.range (8192 * l.slots)).map fun i => sget 0 g.acc i),
   (accEnd, open_ accEnd (l.scratchPart - accEnd)),
   (l.scratchPart, g.scratch.bytes 0 l.scratchBytes)]

/-- The place of part of a save area for the rotation engine on a die (R398). -/
def State.saveRoute (s : State) (l : Launch) (g : Group) (die acc off n : Nat) : Route :=
  s.routeRange l.vi die acc (l.saveAddr g.pool + BitVec.ofNat 64 off) n

/-- Every unit of a save area reaches memory; else what the first that does not meets, with its address. -/
def State.saveStop (s : State) (l : Launch) (g : Group) (die acc : Nat) : Option (Route × DWord) :=
  (List.range l.savePerRule).findSome? fun u =>
    match s.saveRoute l g die acc (4096 * u) 4096 with
    | .cells _ => none
    | r => some (r, l.saveAddr g.pool + BitVec.ofNat 64 (4096 * u))

/-- A list in pieces of at most `k`, with the offset of each. -/
def pieces (k : Nat) : Nat → Nat → List Byte → List (Nat × List Byte)
  | 0, _, _ => []
  | n + 1, o, bs => if bs.isEmpty then [] else (o, bs.take k) :: pieces k n (o + k) (bs.drop k)

/-- Writes part of a save area, sector by sector. -/
def State.savePart (s : State) (l : Launch) (g : Group) (die off : Nat) (bytes : List Byte) : State :=
  (pieces 32 bytes.length off bytes).foldl (fun s x =>
    match s.saveRoute l g die 1 x.1 x.2.length with
    | .cells ls => s.engineWriteFrom l.vi die ls x.2
    | _ => s) (s.walked l.vi die (l.saveAddr g.pool + BitVec.ofNat 64 off) bytes.length)

/-- Reads part of a save area. -/
def State.loadPart (s : State) (l : Launch) (g : Group) (die off n : Nat) : List Byte :=
  match s.saveRoute l g die 0 off n with
  | .cells ls => ls.map s.mem.byte
  | _ => []

/-- The traffic of reading a whole save area (R15, R206). -/
def State.loadTraffic (s : State) (l : Launch) (g : Group) (die : Nat) : State :=
  (List.range l.savePerRule).foldl (fun s u =>
    match s.saveRoute l g die 0 (4096 * u) 4096 with
    | .cells ls => s.l2FetchAll l.vi die ls
    | _ => s) (s.walked l.vi die (l.saveAddr g.pool) (4096 * l.savePerRule))

/-- The first location of a save area that an uncorrectable word holds (R417). -/
def State.saveBad (s : State) (l : Launch) (g : Group) (die : Nat) : Option Nat :=
  if s.bad.isEmpty then none
  else
    (List.range l.savePerRule).findSome? fun u =>
      match s.saveRoute l g die 0 (4096 * u) 4096 with
      | .cells ls => ls.find? fun a => s.bad.contains (a / 8)
      | _ => none

end Sys2Proof.Machine
end

