-- ==== Sys2Proof/Machine/Queues.lean ====
section
/-!
DEFINITION. What several engines do to a queue and its launch (spec/21 R391, R398, R403): the end of a killed launch and the
error states of a queue.
-/
namespace Sys2Proof.Machine

/-- The interface holds a core of a die. -/
def Vi.onDie (v : Vi) (d : Nat) : Bool := (List.range 64).any fun i => v.cores.getLsbD (64 * d + i)

/-- The die of the front end's accesses (R398): the lowest that holds a core of the interface. -/
def Vi.frontDie (v : Vi) : Nat := ((List.range 4).find? v.onDie).getD 0

/-- Ends every warp of a resident workgroup as a kill does (R114, R136). -/
def State.endGroup (s : State) (gid : Nat) : State :=
  let g := s.group gid
  g.warps.foldl (fun s id =>
    let w := s.warp id
    let s := if w.place.isSome && w.status != .exited then s.releaseDevice id w.core else s
    s.setWarp id { s.warp id with status := .exited, woken := false, word := none, cont := .none, elig := 0, overdue := false })
    (s.setGroup gid { g with state := .resident, parking := false, meet := none, suspended := false })

/-- Removes a workgroup that holds no core. -/
def State.discardGroup (s : State) (gid : Nat) : State :=
  let g := s.group gid
  { s with warps := s.warps.filter fun e => !g.warps.contains e.1, groups := tdel s.groups gid }

/-- Step 1 of R403: every warp of a launch ends, parked workgroups and tasks are discarded, accepted calls are abandoned
(R382). Its workgroups retire as their engine commands complete; the launch is gone with the last. -/
def State.killLaunch (s : State) (lid : Nat) : State :=
  let gids := (s.groups.filter fun e => e.2.lid == lid).map Prod.fst
  let s := gids.foldl (fun s gid => if (s.group gid).state = .parked then s.discardGroup gid else s.endGroup gid) s
  let s := { s with tasks := s.tasks.filter fun e => e.2.1 != lid, calls := s.calls.filter fun e => e.2.lid != lid }
  if s.groups.any fun e => e.2.lid == lid then s.setLaunch lid { s.launchOf lid with killed := true }
  else { s with launches := tdel s.launches lid }

/-- The record of a killed launch (R403): PC 0, all lanes, the CLOCK of the request. Its length, place and WID are unstated, and so
is INFO1 where no request was made (log entry 32): free values. -/
def State.killedRecord (s : State) (vi q : Nat) (asked : Option Nat) : State :=
  let free (i n : Nat) : Nat := (Config.unstated (s.free + i)).toNat % n
  let r : TrapRec :=
    { code := 0x15, len := free 0 256, slot := free 1 32, core := free 2 256, wid := Config.unstated (s.free + 3),
      lanes := BitVec.allOnes 128, info0 := BitVec.ofNat 64 q,
      info1 := (asked.map (BitVec.ofNat 64)).getD (Config.unstated (s.free + 4)), clock := s.clock }
  { s with free := s.free + 5 }.trapDue vi r

/-- A queue enters ERROR (R391). A launch in progress is killed as under R403, with its record, unless it caused the error itself
(`own`), in which case it stays as it stands. -/
def State.queueError (s : State) (vi q code detail : Nat) (own : Bool) : State :=
  let x := s.queue vi q
  let s := s.setQueue vi q
    { x with error := some (code, detail), packet := none, lid := if own then x.lid else none, preempt := none, notice := false }
  match x.lid with
  | some lid =>
    if own then s.setLaunch lid { s.launchOf lid with frozen := true } else (s.killedRecord vi q x.preempt).killLaunch lid
  | none => s

end Sys2Proof.Machine
end

