-- ==== Sys2Proof/Machine/Waits.lean ====
section
/-!
DEFINITION. The meanings of the barrier, watch and wait instructions (spec/13 R293 to R302).
-/
namespace Sys2Proof.Machine

/-- AUX and SCOPE of the frame; zero in the 64-bit form (R66). -/
def EOp.auxBits (o : EOp) : BitVec 17 := (o.frame.map Frame.aux).getD 0
def EOp.scopeOf (o : EOp) : Scope := (o.frame.map Frame.scope).getD .device

/-- A scalar operand of an engine instruction: s, g or k (R264). -/
def sgkVal (e : Env) (t : Ty) (x : Src) : Val := scalarVal e t x

/-- INFO0 of ILLEGAL_INSTRUCTION for a value: bits [63:0] of the instruction. -/
def wordInfo (s : State) (info1 : Nat) : TrapInfo :=
  { code := .illegalInstruction, info0 := s.cur.bits.extractLsb' 0 64, info1 := BitVec.ofNat 64 info1 }

/-- LEVEL and NUM (R293). -/
def barLevel (o : EOp) : Nat := (o.fn.extractLsb' 4 3).toNat
def barNum (o : EOp) : Nat := ((EOp.auxBits o).extractLsb' 0 4).toNat

/-- The scope of arrivals and completions at a level (R229). -/
def barScope (k : Nat) : Scope := if k ≤ 1 then .warp else if k = 2 then .group else .device

/-- The launch does not have the barrier (R294, R306). -/
def barGate (s : State) (e : Env) (k n : Nat) : Gate :=
  if k > e.l.top ∨ (3 ≤ k ∧ e.l.monuCount k ≤ n) ∨ (e.l.kind = .task ∧ 2 ≤ k) then
    .trap (wordInfo s (k + 256 * n + 65536 * e.l.top))
  else .go

/-- BARARR's part (R294): waits while the warp has arrived in a phase that has not completed, else releases and arrives,
then goes on with the recorded parity. -/
def arriveThen (e : Env) (k n : Nat) (next : Bool → State → State) (s : State) : State :=
  let rec' := sget {} e.w.bars (16 * k + n)
  let ph := e.g.parity k n e.w.f1
  if rec'.arr && ph == rec'.p then waitFor (.barrier k n rec'.p) .none s
  else withRelease e (barScope k) (fun s => next ph (s.arriveAt s.cur.warp k n)) s

/-- BARWAIT's part: completes once the local parity differs (R294). -/
def awaitParity (e : Env) (k n : Nat) (v : Bool) (s : State) : State :=
  if s.myGroup.parity k n e.w.f1 != v then retire e (s.acquireAt e.w.core (barScope k))
  else waitFor (.barrier k n v) (.arrived v) s

def execBar (o : EOp) (s : State) : Out :=
  .next (issue (o.raw 0xD8) (fun e s =>
    let k := barLevel o
    let n := barNum o
    match barGate s e k n with
    | .trap t => takeTrap t s
    | _ =>
      match e.w.cont with
      | .arrived v => awaitParity e k n v s
      | _ => arriveThen e k n (fun v s => awaitParity e k n v s) s) s)

def execBararr (o : EOp) (s : State) : Out :=
  .next (issue (o.raw 0xD9) (fun e s =>
    let k := barLevel o
    let n := barNum o
    match barGate s e k n with
    | .trap t => takeTrap t s
    | _ =>
      arriveThen e k n (fun v s => retire e (writeScalar o.dst 1 { bits := if v then 1 else 0 } s)) s) s)

def execBarwait (o : EOp) (s : State) : Out :=
  .next (issue (o.raw 0xDA) (fun e s =>
    let k := barLevel o
    let n := barNum o
    let v := sgkVal e .n32 o.a
    match barGate s e k n with
    | .trap t => takeTrap t s
    | _ => if v.p then takeTrap (poisonInfo o.a.code) s else awaitParity e k n (v.bits.getLsbD 0) s) s)

/-! ## Watches and counters (R298 to R301) -/

/-- The access of an instruction that executes once per warp to one generic address: goes on with its place, or traps,
or walks. Peer, private, constant and survey addresses are outside (R299, R301, R429). -/
def warpAccess (e : Env) (acc n : Nat) (a : DWord) (k : Route → State → State) (s : State) : State :=
  let outside : TrapInfo := { code := .protection, info0 := a, info1 := BitVec.ofNat 64 (acc + 2048) }
  if canonical a then
    match s.routeVa e.w e.l.vi e.w.core 128 (vaOf a) acc n with
    | .walk va => startWalks e.l.vi e.w.core [va] s
    | .refused i => takeTrap { code := .protection, info0 := a, info1 := BitVec.ofNat 64 i } s
    | .faulted va i => takePageFault { code := .pageFault, info0 := canonOf va, info1 := BitVec.ofNat 64 i } [] s
    | .ecc x => takeTrap { code := .eccUncorrectable, info0 := BitVec.ofNat 64 x } (s.eccSeen e.l.vi x)
    | .peer _ _ => takeTrap outside s
    | r => k r s
  else if a.extractLsb' 32 28 = 0 ∧ (a.extractLsb' 60 4).toNat = 8 then k (.scratch (a.toNat % 2 ^ 32)) s
  else takeTrap outside s

/-- The sector that a watch or a counter names. -/
def routeSector (gid : Nat) (r : Route) : Nat :=
  match r with
  | .cells ls => sectorOf (ls.headD 0)
  | .scratch o => scratchSector gid o
  | _ => 0

/-- WATCH (R299). -/
def execWatch (o : EOp) (s : State) : Out :=
  .next (issue (o.raw 0xDB) (fun e s =>
    requireDirect e (fun s =>
      let a := sgkVal e .n64 o.a
      if a.p then takeTrap (poisonInfo o.a.code) s
      else
        warpAccess e 0 1 a.bits (fun r s =>
          let w := s.me
          let x : Watch := { sector := routeSector e.w.gid r, armed := true, fired := false }
          retire e (s.setMe { w with watches := sset {} w.watches (o.fn.extractLsb' 0 2).toNat x })) s) s) s)

/-- UNWATCH of one slot and of all (R299). -/
def execUnwatch (o : EOp) (s : State) : Out :=
  .next (issue (o.raw 0xDC) (fun e s =>
    let w := s.me
    let n := (o.fn.extractLsb' 0 2).toNat
    let x := sget {} w.watches n
    retire e (s.setMe { w with watches := sset {} w.watches n { x with armed := false, fired := false } })) s)
def execUnwatchAll (o : EOp) (s : State) : Out :=
  .next (issue (o.raw 0xDC) (fun e s =>
    let w := s.me
    let ws := [0, 1, 2, 3].foldl (fun m n => sset {} m n { sget {} m n with armed := false, fired := false }) w.watches
    retire e (s.setMe { w with watches := ws })) s)

/-- The slots that are armed and have fired (R300). -/
def firedSlots (w : Warp) : List Nat := [0, 1, 2, 3].filter fun n => (sget {} w.watches n).armed && (sget {} w.watches n).fired

/-- WAITW (R300). -/
def execWaitw (o : EOp) (s : State) : Out :=
  .next (issue (o.raw 0xDD) (fun e s =>
    requireDirect e (fun s =>
      let w := s.me
      let armed := [0, 1, 2, 3].any fun n => (sget {} w.watches n).armed
      let fl := firedSlots w
      if armed && fl.isEmpty then waitFor .watch .none s
      else
        let ws := fl.foldl (fun m n => sset {} m n { sget {} m n with fired := false }) w.watches
        let mask := fl.foldl (fun a n => a + 2 ^ n) 0
        let s := writeScalar o.dst 1 { bits := BitVec.ofNat 64 mask } (s.setMe { w with watches := ws })
        retire e (if o.fn.getLsbD 0 then s.acquireAt e.w.core (EOp.scopeOf o) else s)) s) s)

/-- The bytes of a counter at its point of coherence (R301). -/
def State.counterBytes (s : State) (gid : Nat) (r : Route) (n : Nat) : List Byte :=
  match r with
  | .cells ls => ls.map fun a => s.mem.byte a
  | .scratch o => (s.group gid).scratch.bytes o n
  | _ => []

/-- The uncorrectable word that a read of an instruction that executes once per warp meets (R416), with what it notes. -/
def State.eccOnce (s : State) (e : Env) (n : Nat) (r : Route) : Option (TrapInfo × State) :=
  let info (a : DWord) : TrapInfo := { code := .eccUncorrectable, info0 := a }
  match r with
  | .cells ls => (s.wordBad ls).map fun x => (info (BitVec.ofNat 64 x), s.eccSeen e.l.vi x)
  | .scratch o => (e.g.badAt o n).map fun k => (info (sramPlace e.w.core k), s.sramSeen e.l.vi (sramPlace e.w.core k))
  | _ => none

/-- The sectors of some locations reach their points of coherence (R218): what reads there sees the warp's own earlier stores. -/
def State.toPocs (s : State) (c : Nat) (locs : List Nat) : State :=
  (locs.map sectorOf).eraseDups.foldl (fun s sec => s.toPoc c sec) s

/-- WAITC (R301): the counter is read at its point of coherence, which the warp's own earlier stores have reached (R218); it waits for an
earlier copy of the warp that meets it (log entry 128). A later load of the warp may not return an older value than the counter's (R215). -/
def execWaitc (o : EOp) (s : State) : Out :=
  .next (issue (o.raw 0xDE) (fun e s =>
    requireDirect e (fun s =>
      let wide := o.fn.getLsbD 6
      let n := if wide then 8 else 4
      let a := sgkVal e .n64 o.a
      let v := sgkVal e (if wide then .n64 else .n32) o.b
      if a.p then takeTrap (poisonInfo o.a.code) s
      else if v.p then takeTrap (poisonInfo o.b.code) s
      else if a.bits.toNat % n ≠ 0 then takeTrap { code := .misaligned, info0 := a.bits } s
      else
        warpAccess e 0 n a.bits (fun r s =>
          match (match r with
            | .scratch off => if off + n > e.l.scratchBytes then some off else none
            | _ => none) with
          | some off =>
            takeTrap { code := .scratchBounds, info0 := BitVec.ofNat 64 off, info1 := BitVec.ofNat 64 e.l.scratchBytes } s
          | none =>
          if s.copyMeets e (r.locs.map fun x => (x, 1)) then s else
          match s.eccOnce e n r with
          | some t => takeTrap t.1 t.2
          | none =>
            let s := s.toPocs e.w.core r.locs
            let c := bitsOfBytes (s.counterBytes e.w.gid r n)
            let lim := if wide then v.bits.toNat else (lo32 v.bits).toNat
            if lim ≤ c then
              let s := writeScalar o.dst (if wide then 2 else 1) { bits := BitVec.ofNat 64 c } (s.l1Forget e.w.core r.locs)
              retire e (if o.fn.getLsbD 0 then s.acquireAt e.w.core (EOp.scopeOf o) else s)
            else waitFor (.counter (routeSector e.w.gid r)) .none s) s) s) s)

/-- YIELD (R302): expires the quantum of a FULL launch's workgroup. -/
def execYield (o : EOp) (s : State) : Out :=
  .next (issue (o.raw 0xDF) (fun e s =>
    if e.l.kind = .full ∧ !e.g.expired then
      let s := s.setGroup e.w.gid { s.myGroup with expired := true }
      retire e (s.count e.l.vi e.w.die 0x13 1)
    else retire e s) s)

end Sys2Proof.Machine
end

