-- ==== Sys2Proof/Machine/TaskInstr.lean ====
section
/-!
DEFINITION. The meanings of the task instructions (spec/15 R332 to R338).
-/
namespace Sys2Proof.Machine

/-- The task of the issuing warp, or ILLEGAL_INSTRUCTION outside a TASK launch (R339). -/
def withTask (e : Env) (k : Nat → Task → State → State) (s : State) : State :=
  if e.l.kind ≠ .task then takeTrap (wordInfo s 1) s
  else
    match s.myTask with
    | some (tid, t) => k tid t s
    | none => s

/-- The value operand V (R264): OPA where it is not zero, else AUX. -/
def valueOp (e : Env) (o : EOp) : Val :=
  if o.a = .v 0 then { bits := (EOp.auxBits o).setWidth 64 } else sgkVal e .n32 o.a

/-- NARG and the argument registers' values (R332). -/
def narg (o : EOp) : Nat := (o.fn.extractLsb' 4 3).toNat
def argVals (e : Env) (o : EOp) : List Val :=
  match o.b with
  | .s m => (List.range (narg o)).map fun i => e.w.sval (m.toNat + i) 1
  | _ => []

/-- The latest of a list of tasks in commit order. -/
def lastTask (l : List (Nat × Task)) : Option (Nat × Task) := l.foldr laterTask none

/-- Aborts, in reverse commit order, speculative tasks that have spawned a still-queued task, until a queue has room (R330). -/
def makeRoom : Nat → Nat → Nat → State → State
  | 0, _, _, s => s
  | n + 1, lid, d, s =>
    if (s.dieWithRoom d).isSome then s
    else
      let parents := (s.tasksOf lid).filter fun e => !s.isFrontier lid e.1 && e.2.st != .queued &&
        ((s.tasksOf lid).any fun c => c.2.st == .queued && c.2.parent == some e.1)
      match lastTask parents with
      | some (k, _) => makeRoom n lid d (s.abort [(k, false)])
      | none => s

/-- Spawns a record, or waits for room (R313, R330, R333). A spawn of a launch that TASK_QUEUE_FULL has stopped waits for good (R391). -/
def spawn (e : Env) (tid : Nat) (o : EOp) (d : Nat) (ts : DWord) (range : Option (Word × Word)) (s : State) : State :=
  let lid := e.g.lid
  let front := s.isFrontier lid tid
  if e.l.frozen then s else
  let s' := if (s.dieWithRoom d).isNone ∧ front then makeRoom (s.tasks.length + 1) lid d s else s
  match s'.dieWithRoom d with
  | some die =>
    let l := s'.launchOf lid
    let r := range.getD (0, 0)
    let rec' : Task :=
      { ts := ts, seq := l.nextSeq, lo := r.1, hi := r.2, cur := r.1, range := range.isSome, narg := narg o,
        entry := (EOp.auxBits o).toNat, args := (argVals e o).map fun v => lo32 v.bits, die := die, parent := some tid }
    retire e ((s'.setLaunch lid { l with nextSeq := l.nextSeq + 1 }).addTask lid rec')
  | none => if front then (s'.queueError e.l.vi e.l.q 0x04 0 true).setMe { s'.me with word := some s.cur } else s

/-- TSPAWN and TSPAWNR (R333). -/
def spawnInstr (maj : BitVec 8) (o : EOp) (ranged : Bool) (s : State) : State :=
  issue (o.raw maj) (fun e s =>
    withTask e (fun tid t s =>
      let a := sgkVal e .n64 o.a
      let c := sgkVal e .n64 o.c
      let args := argVals e o
      if a.p then takeTrap (poisonInfo o.a.code) s
      else if args.any Val.p then takeTrap (poisonInfo o.b.code) s
      else if ranged && c.p then takeTrap (poisonInfo o.c.code) s
      else if a.bits.toNat < t.ts.toNat then takeTrap (wordInfo s 2) s
      else
        let d := if o.fn.getLsbD 3 then (o.fn.extractLsb' 1 2).toNat else e.w.die
        if ranged then
          if (hi32 c.bits).toNat ≤ (lo32 c.bits).toNat then retire e s
          else spawn e tid o d a.bits (some (lo32 c.bits, hi32 c.bits)) s
        else spawn e tid o d a.bits none s) s) s

def execTspawn (o : EOp) (s : State) : Out := .next (spawnInstr 0xE0 o false s)
def execTspawnr (o : EOp) (s : State) : Out := .next (spawnInstr 0xE1 o true s)

/-- A scalar destination's number. -/
def sNumber : Src → Nat
  | .s n => n.toNat
  | _ => 0

/-- A long-latency producer of scalar registers (R97). -/
def produceScalars (e : Env) (d : Nat) (ws : List Word) (s : State) : State :=
  let vals := (List.range ws.length).map fun i => ({ key := d + i, val := ws.getD i 0, poison := false } : RegVal)
  retire e (s.setMe (s.me.produce { id := 0, vec := false, base := d, count := ws.length, vals := vals }))

/-- TRNG (R334). -/
def execTrng (o : EOp) (s : State) : Out :=
  .next (issue (o.raw 0xE2) (fun e s =>
    withTask e (fun tid t s =>
      let v := valueOp e o
      if v.p then takeTrap (poisonInfo o.a.code) s
      else
        let k := if t.range then min (lo32 v.bits).toNat (t.hi.toNat - t.cur.toNat) else 0
        let start : Word := if t.range then t.cur else 0
        let s := s.setTask tid e.g.lid { t with cur := t.cur + BitVec.ofNat 32 k }
        produceScalars e (sNumber o.dst) [start, BitVec.ofNat 32 k] s) s) s)

/-- TSPLITQ (R335). -/
def splitInstr (pin : Option Bool) (o : EOp) (s : State) : State :=
  issue (o.raw 0xE3) (fun e s =>
    withTask e (fun tid t s =>
      let t := { t with pin := pin.getD t.pin }
      let s := s.setTask tid e.g.lid t
      retire e (s.setMe (s.me.setScc (t.range && decide (t.cur.toNat < t.hi.toNat)) false))) s) s

def execTsplitq (o : EOp) (s : State) : Out := .next (splitInstr none o s)
def execTsplitqPin (o : EOp) (s : State) : Out := .next (splitInstr (some true) o s)
def execTsplitqUnpin (o : EOp) (s : State) : Out := .next (splitInstr (some false) o s)

/-- An instruction that ends the issuing warp's task, as soon as its core may hold it finished (R311, R336, log entry 95). -/
def finishTask (e : Env) (drop abort : Bool) (s : State) : State :=
  if s.mayEnd s.cur.warp then endTask s.cur.warp drop abort (retire e s) else s

/-- TDONE and TABORT (R336). -/
def execTdone (o : EOp) (s : State) : Out :=
  .next (issue (o.raw 0xE4) (fun e s => withTask e (fun _ _ s => finishTask e (o.fn.getLsbD 0) false s) s) s)
def execTabort (o : EOp) (s : State) : Out :=
  .next (issue (o.raw 0xE5) (fun e s => withTask e (fun _ _ s => finishTask e false true s) s) s)

/-- The frontier of a launch has passed t (R337): its TS is greater, or nothing is left of it. -/
def State.passed (s : State) (lid : Nat) (t : DWord) : Bool :=
  match s.frontier lid with
  | some (_, k) => decide (t.toNat < k.ts.toNat)
  | none => true

/-- The launch whose frontier an instruction names: its own, or that of the TASK launch that runs on queue Q (R337). -/
def frontLaunch (s : State) (e : Env) (o : EOp) : Option Nat :=
  if o.fn.getLsbD 0 then
    (s.queue e.l.vi ((EOp.auxBits o).extractLsb' 0 4).toNat).lid.filter fun l => (s.launchOf l).kind == .task
  else some e.g.lid

/-- TFRONTQ and TSYNC (R337, R339). -/
def frontInstr (maj : BitVec 8) (sync : Bool) (o : EOp) (s : State) : State :=
  issue (o.raw maj) (fun e s =>
    let other := o.fn.getLsbD 0
    let t := sgkVal e .n64 o.a
    if !other && e.l.kind != .task then takeTrap (wordInfo s 1) s
    else if t.p then takeTrap (poisonInfo o.a.code) s
    else if sync && !other && (match s.myTask with
      | some (_, k) => decide (k.ts.toNat ≤ t.bits.toNat)
      | none => false) then takeTrap (wordInfo s 3) s
    else
      let ok := match frontLaunch s e o with
        | some lid => s.passed lid t.bits
        | none => true
      if sync then
        if ok then retire e (s.acquireAt e.w.core .device) else s
      else
        let s := s.setMe (s.me.setScc ok false)
        retire e (if ok then s.acquireAt e.w.core .device else s)) s

def execTfrontq (o : EOp) (s : State) : Out := .next (frontInstr 0xE6 false o s)
def execTsync (o : EOp) (s : State) : Out := .next (frontInstr 0xE7 true o s)

/-- TISSPEC (R338). -/
def execTisspec (o : EOp) (s : State) : Out :=
  .next (issue (o.raw 0xE8) (fun e s =>
    withTask e (fun tid t s =>
      retire e (s.setMe (s.me.setScc (!s.isFrontier e.g.lid tid && t.st != .direct) false))) s) s)

/-- TCTX (R338): the four argument words, zero beyond NARG. -/
def execTctx (o : EOp) (s : State) : Out :=
  .next (issue (o.raw 0xE9) (fun e s =>
    withTask e (fun _ t s =>
      produceScalars e (sNumber o.dst) ((List.range 4).map fun i => t.args.getD i 0) s) s) s)

end Sys2Proof.Machine
end

