-- ==== Sys2Proof/Machine/Matrix.lean ====
section
/-!
DEFINITION. The meanings of the matrix instructions (spec/11 R242 to R258): their checks at issue and their acceptance. The
events of EngineEvents.lean perform what is accepted.
-/
namespace Sys2Proof.Machine

/-! ## Checks -/

/-- The frame; zero in the 64-bit form (R66). -/
def EOp.fr (o : EOp) : Frame := o.frame.getD {}

/-- Raises a trap where `b` holds. -/
def trapIf (b : Bool) (t : TrapInfo) : Gate := if b then .trap t else .go

/-- Waits while `b` holds. -/
def waitIf (b : Bool) : Gate := if b then .wait else .go

/-- Goes on, waits or traps. -/
def runGate (g : Gate) (k : State → State) (s : State) : State :=
  match g with
  | .go => k s
  | .wait => s
  | .trap t => takeTrap t s

/-- ILLEGAL_INSTRUCTION with the word in INFO0 and INFO1 (R258). -/
def illegalWord (s : State) : TrapInfo :=
  { code := .illegalInstruction, info0 := s.cur.bits.extractLsb' 0 64, info1 := s.cur.bits.extractLsb' 64 64 }

/-- FORMAT_COMBINATION of a matrix instruction (R258): formats, AF, TID or tile index, cause. -/
def formatInfo (fa fb af idx cause : Nat) : TrapInfo :=
  { code := .formatCombination, info0 := BitVec.ofNat 64 (fa + 2 ^ 8 * fb + 2 ^ 16 * af + 2 ^ 24 * idx),
    info1 := BitVec.ofNat 64 cause }

/-- Commands that a core's matrix engine holds (R242). -/
def matQueue : Nat := 8
def State.matFull (s : State) (e : Env) : Bool :=
  let k := s.core e.w.core
  decide (matQueue ≤ k.matq.length + k.mvbs.length)

/-- An accepted command of the workgroup uses a slot of a_n: a retag of the tile waits for it (R243). -/
def State.slotsUsed (s : State) (e : Env) (f : AccFmt) (n : Nat) : Bool :=
  (s.core e.w.core).matq.any fun c => c.gid == e.w.gid && rangesMeet c.acc (accSlots c.fmt) n (accSlots f)

/-- The entry of a tile of the workgroup and its tile TID's descriptor. -/
def Env.tile (e : Env) (t : Nat) : Tile := (tget e.g.tiles t).getD { off := 0, tid := 0, st := .empty }
def Env.tileDesc (e : Env) (t : Nat) : Desc := e.l.tid (e.tile t).tid

/-- AF, RO and CO (R245). -/
def afCode (o : EOp) : Nat := (o.fn.extractLsb' 5 2).toNat
def roOf (o : EOp) : Nat := ((EOp.auxBits o).extractLsb' 0 2).toNat
def coOf (o : EOp) : Nat := ((EOp.auxBits o).extractLsb' 2 2).toNat
def accOfOp (o : EOp) : Nat := (EOp.fr o).acc.toNat
def tileAOf (o : EOp) : Nat := (EOp.fr o).tileA.toNat
def tileBOf (o : EOp) : Nat := (EOp.fr o).tileB.toNat
def tidOf (o : EOp) : Nat := (EOp.fr o).tid.toNat

/-- The engine accepts a command (R242). -/
def acceptMat (e : Env) (c : MatCmd) (s : State) : State :=
  let k := s.core e.w.core
  let c := { c with id := k.nextCmd, warp := s.cur.warp, gid := e.w.gid, exec := e.w.exec, wid := e.l.wid e.g e.w.f1 0,
                    slot := e.w.slot, pc := e.w.pc, len := s.cur.len }
  s.setCore e.w.core { k with matq := k.matq ++ [c], nextCmd := k.nextCmd + 1 }

/-! ## MMAT (R246) -/

def isTileDim (n : Nat) : Bool := n == 16 || n == 32 || n == 64

/-- The checks of MMAT after the tiles are READY, in the order of R246 and R258. -/
def mmatChecks (s : State) (e : Env) (o : EOp) : Gate :=
  let a := tileAOf o
  let b := tileBOf o
  let da := e.tileDesc a
  let db := e.tileDesc b
  let af := afCode o
  let f := AccFmt.ofAf af
  let fi (idx cause : Nat) : TrapInfo := formatInfo da.fmt db.fmt af idx cause
  let m := tileRows da
  let n := tileRows db
  ((((trapIf da.unset (fi (e.tile a).tid 2)).then (trapIf db.unset (fi (e.tile b).tid 2))).then
    (trapIf (!isTileDim m || !isTileDim n || decide (16 * roOf o + m > 64) || decide (16 * coOf o + n > 64) ||
      accBad e.l f (accOfOp o)) (illegalWord s))).then
    (match tripleK da.fmt db.fmt af with
     | none => .trap (fi a 0)
     | some k => trapIf (tileCols da != k || tileCols db != k) (fi a 3))).then
    (trapIf (!e.g.tagged f (accOfOp o)) (fi a 1))

/-- MMAT: accepted, counted where R154 sums it, and chosen for a check where the count says so (R256). -/
def execMmat (o : EOp) (s : State) : Out :=
  .next (issueAfter (fun e => (waitIf (s.matFull e)).then (tileGate e.g [tileAOf o, tileBOf o])) (o.raw 0xC0) (fun e s =>
    runGate (mmatChecks s e o) (fun s =>
      let da := e.tileDesc (tileAOf o)
      let counted := !mfFused da.fmt
      let n := sget 0 e.l.chkCount e.w.core + 1
      let checked := counted && e.l.check.l != 0 && n % 2 ^ e.l.check.l == 0
      let s := if counted then s.setLaunch e.g.lid { e.l with chkCount := sset 0 e.l.chkCount e.w.core n } else s
      retire e (acceptMat e
        { id := 0, warp := 0, gid := 0, kind := .mmat, fmt := AccFmt.ofAf (afCode o), acc := accOfOp o, ro := roOf o,
          co := coOf o, za := o.fn.getLsbD 4, tileA := some (tileAOf o), tileB := some (tileBOf o),
          offA := (e.tile (tileAOf o)).off, offB := (e.tile (tileBOf o)).off, descA := da,
          descB := e.tileDesc (tileBOf o), count := n, check := if checked then e.l.check else {} } s)) s) s)

/-! ## MMAR (R247) -/

/-- k of MMAR for a format. -/
def mmarK (c : Nat) : Option Nat :=
  match c with
  | 1 => some 8 | 2 => some 16 | 3 => some 16 | 4 => some 32 | 5 => some 32 | 13 => some 32 | 14 => some 32
  | 15 => some 64 | 16 => some 64 | _ => none

/-- The bits of `n` registers of a lane, the lowest register first. -/
def laneBits (w : Warp) (m n lane : Nat) : Nat :=
  (List.range n).foldl (fun a i => a + (w.vreg (m + i) lane).toNat * 2 ^ (32 * i)) 0

/-- Row or column `r` of a fragment of group `g`: its two halves lie in lanes r and r + 16. -/
def fragment (w : Warp) (m c k g r : Nat) : List Num :=
  let half (h : Nat) : List Num :=
    let x := laneBits w m 4 (32 * g + 16 * h + r)
    (List.range (k / 2)).map (mfElem c x)
  half 0 ++ half 1

/-- Element (r, j) of D in group `g`. -/
def mmarElem (w : Warp) (d : Desc) (k ma mb : Nat) (mc : Option Nat) (g r j : Nat) : Word :=
  let c0 : Nat := match mc with
    | some m => (w.vreg (m + j % 8) (32 * g + 16 * (j / 8) + r)).toNat
    | none => 0
  BitVec.ofNat 32 (mfDot fmtF32 (mfFused d.fmt) (2 * d.scale) c0 (fragment w ma d.fmt k g r) (fragment w mb d.fmt k g j))

/-- Some source register of group `g` is poisoned. -/
def mmarPoison (w : Warp) (ma mb : Nat) (mc : Option Nat) (g : Nat) : Bool :=
  (List.range 32).any fun t =>
    ((List.range 4).any fun i => w.vPoison (ma + i) (32 * g + t) || w.vPoison (mb + i) (32 * g + t)) ||
    (match mc with
     | some m => (List.range 8).any fun i => w.vPoison (m + i) (32 * g + t)
     | none => false)

def execMmar (o : EOp) (s : State) : Out :=
  .next (issueAfter (fun e => waitIf (s.matFull e)) (o.raw 0xC1) (fun e s =>
    let d := e.l.tid (tidOf o)
    let fi (cause : Nat) : TrapInfo := formatInfo d.fmt d.fmt 0 (tidOf o) cause
    let exec := e.w.exec
    let conv : TrapInfo :=
      { code := .illegalConvergence, info0 := exec.extractLsb' 0 64, info1 := exec.extractLsb' 64 64 }
    let g := ((trapIf (exec != allLanes e.W) conv).then (trapIf d.unset (fi 2))).then (trapIf (mmarK d.fmt).isNone (fi 0))
    runGate g (fun s =>
      let k := (mmarK d.fmt).getD 0
      let ma := vNumber o.a
      let mb := vNumber o.b
      let mc : Option Nat := match o.c with
        | .v m => some m.toNat
        | _ => none
      let dst := vNumber o.dst
      let vals := (List.range e.W).flatMap fun l =>
        let t := l % 32
        let p := mmarPoison e.w ma mb mc (l / 32)
        (List.range 8).map fun i =>
          ({ key := 128 * (dst + i) + l, val := mmarElem e.w d k ma mb mc (l / 32) (t % 16) (8 * (t / 16) + i),
             poison := p } : RegVal)
      retire e (s.setMe (s.me.produce { id := 0, vec := true, base := dst, count := 8, vals := vals }))) s) s)

/-! ## MVB (R249 to R251) -/

/-- MVB commands that a stack holds (R251). -/
def mvbQueue : Nat := 64
def State.mvbOn (s : State) (home : Nat) : Nat := (s.cores.flatMap fun k => k.2.mvbs.filter fun c => c.home == home).length

/-- The blocks of 64 KiB that some rows touch. -/
def rowBlocks (bytes : Nat) (rows : List DWord) : List Nat :=
  (rows.flatMap fun a =>
    let v := vaOf a
    (List.range ((v + bytes - 1) / 65536 - v / 65536 + 1)).map fun j => v / 65536 + j).eraseDups

/-- The translations of the pages of B, or what stops the command. -/
inductive Pages
  | ok (xs : List Xlat)
  | walks (vas : List Nat)
  | trap (t : TrapInfo)
  | fault (t : TrapInfo)
  | ecc (addr : Nat)
  deriving DecidableEq, Repr

def mvbPages (s : State) (e : Env) (home : Nat) (bytes : Nat) (rows : List DWord) : Pages :=
  let bad := rows.find? fun a => !canonical a || !canonical (a + BitVec.ofNat 64 (bytes - 1))
  let rs := (rowBlocks bytes rows).map fun b => (b * 65536 % 2 ^ 57, s.lookup e.w e.l.vi e.w.core 128 (b * 65536 % 2 ^ 57))
  let v := s.vi e.l.vi
  let missing := rs.filterMap fun r => if r.2.isNone then some r.1 else none
  let pageOf (r : Nat × Option WalkResult) : Nat :=
    match r.2 with
    | some (.ok x) => x.page * 2 ^ x.lg
    | _ => r.1
  let wrong := rs.filterMap fun r =>
    match r.2 with
    | some (.refused l) => some (r, 4 * l + 128)
    | some (.ok x) =>
      (match v.leafRoute x r.1 0 1 with
       | .cells ls => if decide (ls.headD 0 < 2 ^ 40) && ls.headD 0 / 2 ^ 36 == home then none else some (r, 256)
       | _ => some (r, 256))
    | _ => none
  let fault := rs.filterMap fun r =>
    match r.2 with
    | some (.invalid l) => some (r.1, 4 * l)
    | _ => none
  let broken := rs.filterMap fun r =>
    match r.2 with
    | some (.bad a) => some a
    | _ => none
  let hidden := rs.find? fun r => (rows.any fun a => s.tableHidden e.l.vi (vaOf a) bytes) && s.tableHidden e.l.vi r.1 65536
  match bad, missing, broken, hidden, wrong, fault with
  | some a, _, _, _, _, _ => .trap { code := .protection, info0 := a &&& ~~~0xFFFF#64, info1 := 2048 }
  | none, va :: vas, _, _, _, _ => .walks (va :: vas)
  | none, [], a :: _, _, _, _ => .ecc a
  | none, [], [], some r, _, _ => .trap { code := .protection, info0 := canonOf (pageOf r), info1 := 2048 }
  | none, [], [], none, (r, i) :: _, _ => .trap { code := .protection, info0 := canonOf (pageOf r), info1 := BitVec.ofNat 64 i }
  | none, [], [], none, [], (va, i) :: _ => .fault { code := .pageFault, info0 := canonOf va, info1 := BitVec.ofNat 64 i }
  | none, [], [], none, [], [] => .ok (rs.filterMap fun r => match r.2 with
    | some (.ok x) => some x
    | _ => none)

/-- MVB with a register (`rd`) or a tile destination. It waits for earlier copies of its warp that meet its rows; an earlier MVB of its
rows comes before it in the order of arrival anyway (R251), unless it is suspended. -/
def mvbInstr (rd : Bool) (o : EOp) (s : State) : State :=
  let tx := tileAOf o
  let ty := tileBOf o
  let dB (e : Env) : Desc := e.l.tid (tidOf o)
  let ts := if rd then [tx] else [tx, ty]
  let pre (e : Env) : Gate :=
    ((waitIf (s.matFull e || decide (mvbQueue ≤ s.mvbOn (dB e).home))).then (tileGate e.g ts)).then
      (waitIf (!rd && s.tileRead e.w.gid ty))
  issueAfter pre (o.raw 0xC2) (fun e s =>
    let d := dB e
    let dx := e.tileDesc tx
    let dy := e.tileDesc ty
    let fi (idx cause : Nat) : TrapInfo := formatInfo dx.fmt d.fmt 0 idx cause
    let row0 := sgkVal e .n32 o.a
    let wrong := d.rank != 2 || decide (d.home > 15) || (tripleK d.fmt dx.fmt 0).isNone || (!rd && dy.fmt != 1)
    let g := ((((trapIf d.unset (fi (tidOf o) 2)).then (trapIf dx.unset (fi (e.tile tx).tid 2))).then
      (trapIf (!rd && dy.unset) (fi (e.tile ty).tid 2))).then (trapIf wrong (fi (tidOf o) 0))).then
      (trapIf row0.p (poisonInfo o.a.code))
    runGate g (fun s =>
      let r0 := (lo32 row0.bits).toNat
      let n := if rd then e.W else tileRows dy * tileCols dy
      let bytes := mfRow d.fmt (d.ext 0)
      let rows := mvbRows d r0 n
      if rows.any fun a => (s.core e.w.core).copyClash s.cur.warp (vaOf a) bytes then s else
      match mvbPages s e d.home bytes rows with
      | .walks vas => startWalks e.l.vi e.w.core vas s
      | .trap t => takeTrap t s
      | .fault t => takePageFault t [] s
      | .ecc a => takeTrap { code := .eccUncorrectable, info0 := BitVec.ofNat 64 a } (s.eccSeen e.l.vi a)
      | .ok xs =>
        let k := s.core e.w.core
        let c : MvbCmd :=
          { id := k.nextCmd, warp := s.cur.warp, gid := e.w.gid, home := d.home, desc := d, row0 := r0, rd := rd,
            prod := s.me.nextProd, yTile := ty, yOff := (e.tile ty).off, yRows := if rd then 0 else n, xTile := tx,
            xOff := (e.tile tx).off, xDesc := dx, yDesc := dy, seq := s.nextMvb, exec := e.w.exec, pages := xs,
            slot := e.w.slot, pc := e.w.pc, len := s.cur.len }
        if s.copyqMeets e (c.spans n) || s.mvbsMeet e MvbCmd.suspended (c.spans n) then s else
        let s := { s.setCore e.w.core { k with mvbs := k.mvbs ++ [c], nextCmd := k.nextCmd + 1 } with nextMvb := s.nextMvb + 1 }
        if rd then
          retire e (s.setMe (s.me.produce { id := 0, vec := true, base := vNumber o.dst, count := 1, vals := [], engine := true }))
        else retire e (s.setGroup e.w.gid (s.myGroup.setTile ty .filling))) s) s

def execMvb (o : EOp) (s : State) : Out := .next (mvbInstr true o s)
def execMvbTile (o : EOp) (s : State) : Out := .next (mvbInstr false o s)

/-! ## Accumulator moves (R252, R253) -/

/-- ACCZ. -/
def execAccz (o : EOp) (s : State) : Out :=
  .next (issueAfter (fun e => waitIf (s.matFull e || s.slotsUsed e (AccFmt.ofAf (afCode o)) (accOfOp o))) (o.raw 0xC3) (fun e s =>
    let f := AccFmt.ofAf (afCode o)
    runGate (trapIf (accBad e.l f (accOfOp o)) (illegalWord s)) (fun s =>
      let s := s.setGroup e.w.gid (s.myGroup.retag f (accOfOp o))
      retire e (acceptMat e { id := 0, warp := 0, gid := 0, kind := .accz, fmt := f, acc := accOfOp o } s)) s) s)

/-- The tile is not 64 by 64 (R252). -/
def notSquare (d : Desc) : Bool := tileRows d != 64 || tileCols d != 64

/-- ACCLD. -/
def execAccld (o : EOp) (s : State) : Out :=
  .next (issueAfter (fun e => (waitIf (s.matFull e || s.slotsUsed e (AccFmt.ofAf (afCode o)) (accOfOp o))).then
      (tileGate e.g [tileAOf o])) (o.raw 0xC4) (fun e s =>
    let d := e.tileDesc (tileAOf o)
    let f := AccFmt.ofAf (afCode o)
    let fi (cause : Nat) : TrapInfo := formatInfo d.fmt 0 (afCode o) (e.tile (tileAOf o)).tid cause
    let g := (((trapIf d.unset (fi 2)).then (trapIf (accBad e.l f (accOfOp o)) (illegalWord s))).then
      (trapIf (notSquare d) (fi 4))).then (trapIf (d.fmt != accCode f) (fi 0))
    runGate g (fun s =>
      let s := s.setGroup e.w.gid (s.myGroup.retag f (accOfOp o))
      retire e (acceptMat e { id := 0, warp := 0, gid := 0, kind := .accld, fmt := f, acc := accOfOp o,
                              tileA := some (tileAOf o), offA := (e.tile (tileAOf o)).off, descA := d } s)) s) s)

/-- The destination formats of ACCST (R252). -/
def accstFormat (f : AccFmt) (c : Nat) : Bool :=
  match f with
  | .f64 => c == 0
  | _ => decide (1 ≤ c ∧ c ≤ 5) || (mfSe c).isSome

/-- ACCST. -/
def execAccst (o : EOp) (s : State) : Out :=
  .next (issueAfter (fun e => ((waitIf (s.matFull e)).then (tileGate e.g [tileAOf o])).then
      (waitIf (s.tileRead e.w.gid (tileAOf o)))) (o.raw 0xC5) (fun e s =>
    let t := tileAOf o
    let d := e.tileDesc t
    let f := AccFmt.ofAf (afCode o)
    let sat := o.fn.getLsbD 4
    let fi (cause : Nat) : TrapInfo := formatInfo d.fmt 0 (afCode o) (e.tile t).tid cause
    let g := ((((trapIf d.unset (fi 2)).then
      (trapIf (accBad e.l f (accOfOp o) || (sat && d.fmt != 4 && d.fmt != 5)) (illegalWord s))).then
      (trapIf (notSquare d) (fi 4))).then (trapIf (!accstFormat f d.fmt) (fi 0))).then
      (trapIf (!e.g.tagged f (accOfOp o)) (fi 1))
    runGate g (fun s =>
      let s := s.setGroup e.w.gid (s.myGroup.setTile t .filling)
      retire e (acceptMat e { id := 0, warp := 0, gid := 0, kind := .accst, fmt := f, acc := accOfOp o, sat := sat,
                              tileA := some t, offA := (e.tile t).off, descA := d } s)) s) s)

/-- ACCRD: with EXEC all zero it completes at once (R81). -/
def execAccrd (o : EOp) (s : State) : Out :=
  .next (issueAfter (fun e => waitIf (e.w.exec != 0 && s.matFull e)) (o.raw 0xC6) (fun e s =>
    let n := accOfOp o
    let g := (trapIf (decide (n ≥ e.l.slots)) (illegalWord s)).then
      (match e.g.tag n with
       | .head .f64 => .trap (formatInfo 0 0 0 n 0)
       | .head f => trapIf (!e.g.tagged f n) (formatInfo 0 0 0 n 1)
       | _ => .trap (formatInfo 0 0 0 n 1))
    runGate g (fun s =>
      if e.w.exec = 0 then retire e s
      else
        let f := match e.g.tag n with
          | .head f => f
          | _ => .f32
        let c : MatCmd := { id := 0, warp := 0, gid := 0, kind := .accrd, fmt := f, acc := n, ro := roOf o, co := coOf o,
                            prod := s.me.nextProd }
        let s := acceptMat e c s
        retire e (s.setMe (s.me.produce { id := 0, vec := true, base := vNumber o.dst, count := 8, vals := [], engine := true }))) s) s)

/-! ## TIDSET, TIDGET, CHKCFG (R254 to R256) -/

/-- A descriptor of a width of `n` bytes that reaches beyond dimension `k` or is missing one (R234). -/
def descExtBad (d : Desc) (k : Nat) : Bool := decide (k < d.rank) != (d.ext k != 0)
def descStrBad (d : Desc) (k : Nat) : Bool :=
  ((k == 0 || decide (d.rank ≤ k)) && d.stride k != 0) || (d.stride k).toNat % 16 != 0

/-- EXT0 breaks the packing rules of R234. -/
def descRowBad (d : Desc) : Bool := ((mfSe d.fmt).isSome && d.ext 0 % 16 != 0) || d.ext 0 * mfBits d.fmt % 8 != 0

/-- The first failing check of a descriptor (R254), with the byte offset of its field. -/
def descFault (d : Desc) : Option (TrapCode × Nat) :=
  if d.extractLsb' 69 7 != 0 || d.extractLsb' 88 8 != 0 then some (.reservedField, 0x08)
  else if d.extractLsb' 101 27 != 0 then some (.reservedField, 0x0C)
  else if d.extractLsb' 416 32 != 0 then some (.reservedField, 0x34)
  else if d.fmt ≥ 0x14 then some (.illegalInstruction, 0x08)
  else if d.rank < 1 ∨ d.rank > 9 then some (.illegalInstruction, 0x08)
  else
    match (List.range 9).find? (descExtBad d) with
    | some k => some (.illegalInstruction, 0x10 + 4 * k)
    | none =>
      if descRowBad d then some (.illegalInstruction, 0x10)
      else
        match (List.range 9).find? (descStrBad d) with
        | some k => some (.illegalInstruction, 0x38 + 8 * k)
        | none =>
          if 17 ≤ d.home ∧ d.home ≤ 30 then some (.illegalInstruction, 0x0C)
          else if !canonical d.base || d.base.toNat % 16 != 0 then some (.illegalInstruction, 0)
          else none

/-- The routes of the eight 16-byte pieces of a descriptor at a virtual address. -/
def descRoutes (s : State) (e : Env) (a : DWord) : List Route :=
  (List.range 8).map fun j => s.routeVa e.w e.l.vi e.w.core 128 (vaOf (a + BitVec.ofNat 64 (16 * j))) 0 16

/-- Where the pieces of a descriptor lie. -/
def descSpans (rs : List Route) : List (Nat × Nat) :=
  rs.flatMap fun r => match r with
    | .cells ls => ls.map fun x => (x, 1)
    | .peer rank x => [(2 ^ 60 + rank * 2 ^ 40 + x, 16)]
    | _ => []

/-- TIDSET (R254): its address checks; then it is held until TIDSET_COMPLETE reads and checks the descriptor. A descriptor in
a peer's memory is asked for first (R368). -/
def execTidset (o : EOp) (s : State) : Out :=
  .next (issue (o.raw 0xC7) (fun e s =>
    requireDirect e (fun s =>
      let v := match o.a with
        | .s n => e.w.sval n.toNat 2
        | _ => {}
      let a := v.bits
      let off := a.toNat % 2 ^ 32
      let prot (i : Nat) : TrapInfo := { code := .protection, info0 := a, info1 := BitVec.ofNat 64 i }
      if v.p then takeTrap (poisonInfo o.a.code) s
      else if a.toNat % 16 ≠ 0 then takeTrap { code := .misaligned, info0 := a } s
      else
        match spotOf a with
        | .scratch _ =>
          if off + 128 > e.l.scratchBytes then
            takeTrap { code := .scratchBounds, info0 := BitVec.ofNat 64 off, info1 := BitVec.ofNat 64 e.l.scratchBytes } s
          else holdFor (.tidset off true) .none s
        | .virt =>
          let rs := descRoutes s e a
          if (s.core e.w.core).copyClash s.cur.warp (vaOf a) 128 then s else
          match rs.filterMap Route.missing with
          | va :: vas => startWalks e.l.vi e.w.core (va :: vas) s
          | [] => if s.copyMeets e (descSpans rs) then s else
            match rs.filterMap Route.broken with
            | x :: _ => takeTrap { code := .eccUncorrectable, info0 := BitVec.ofNat 64 x } (s.eccSeen e.l.vi x)
            | [] =>
            match rs.filterMap Route.refusal with
            | i :: _ => takeTrap (prot i) s
            | [] =>
              match (e.w.answers.filterMap Answer.refused) with
              | b :: _ => takeTrap (prot (2 ^ b)) (s.setMe { s.me with answers := [], cont := .none })
              | [] =>
                match rs.filterMap Route.fault with
                | f :: _ => takePageFault { code := .pageFault, info0 := canonOf f.1, info1 := BitVec.ofNat 64 f.2 } [] s
                | [] =>
                  if e.w.cont ≠ .answered ∧ rs.any Route.isPeer then
                    askPeers .answered e .virtual 0 16 ((List.range 8).map fun j =>
                      { req := { lane := j, addr := a + BitVec.ofNat 64 (16 * j), b := 0, c := 0 },
                        route := rs.getD j (.cells []), virt := true }) s
                  else holdFor (.tidset a.toNat false) e.w.cont s
        | _ => takeTrap (prot 2048) s) s) s)

/-- TIDGET (R255). -/
def execTidget (o : EOp) (s : State) : Out :=
  .next (issue (o.raw 0xC8) (fun e s =>
    let d := e.l.tid (tidOf o)
    let q := ((EOp.auxBits o).extractLsb' 0 3).toNat
    let ws := (List.range 4).map fun i => d.extractLsb' (128 * q + 32 * i) 32
    retire e (s.setMe (s.me.putSList (sNumber o.dst) ws))) s)

/-- A power of two from 16 to 2^20 (R256). -/
def ringSize (n : Nat) : Bool := decide (16 ≤ n ∧ n ≤ 2 ^ 20) && n == 2 ^ Nat.log2 n

/-- CHKCFG (R256). -/
def execChkcfg (o : EOp) (s : State) : Out :=
  .next (issue (o.raw 0xC9) (fun e s =>
    requireDirect e (fun s =>
      let l := ((EOp.auxBits o).extractLsb' 0 5).toNat
      let a := match o.a with
        | .s n => e.w.sval n.toNat 2
        | _ => {}
      let b := sgkVal e .n32 o.b
      let n := (lo32 b.bits).toNat
      let g := (((trapIf (l != 0 && !decide (4 ≤ l ∧ l ≤ 16)) (illegalWord s)).then
        (trapIf (l != 0 && !ringSize n) (illegalWord s))).then
        ((trapIf a.p (poisonInfo o.a.code)).then (trapIf (l != 0 && b.p) (poisonInfo o.b.code)))).then
        (trapIf (a.bits.toNat % 64 != 0) { code := .misaligned, info0 := a.bits })
      runGate g (fun s =>
        let k := s.myLaunch
        retire e (s.setLaunch e.g.lid { k with check := { l := l, base := a.bits, size := if l = 0 then 16 else n },
                                               chkCount := [] })) s) s) s)

end Sys2Proof.Machine
end

