-- ==== Sys2Proof/Machine/TileInstr.lean ====
section
/-!
DEFINITION. The meanings of the copy, tile and phase barrier instructions (spec/12 R259 to R279). The events of
EngineEvents.lean perform the copies.
-/
namespace Sys2Proof.Machine

/-! ## Copies (R269 to R273) -/

/-- Commands that a core's copy engine holds (R273). -/
def copyQueue : Nat := 16

/-- The first ILLEGAL_INSTRUCTION of a descriptor in registers from `d` (R270, R279): INFO0 and INFO1. -/
def copyIllegal (d : Nat) (regs : List Word) (tensor tile : Desc) : Option (Nat × Nat) :=
  let val (k : Nat) : Nat := (regs.getD k 0).toNat
  match [14, 15].find? fun k => val k ≠ 0 with
  | some k => some (d + k, val k)
  | none =>
    match (List.range 5).find? fun j =>
        let l := levelOf (regs.getD (9 + j) 0)
        if l.dim = 0 then val (9 + j) ≠ 0 else (decide (l.dim ≥ tensor.rank) && !tensor.unset) || decide (l.dim > 8) with
    | some j => some (d + 9 + j, val (9 + j))
    | none =>
      let ls := levels regs
      let sum := ls.foldl (fun a l => a + l.n * l.q) 0
      let top := (List.range 5).foldl (fun a j => if (ls.getD j (levelOf 0)).dim ≠ 0 then j else a) 0
      let o0 := originOf regs 0
      if sum ≥ tileRows tile ∧ !tile.unset then some (d + 9 + top, sum)
      else if ((mfSe tensor.fmt).isSome && decide (o0 % 16 ≠ 0)) || decide (o0 * (mfBits tensor.fmt : Int) % 8 ≠ 0) then some (d, val 0)
      else none

/-- SCRATCH_BOUNDS of an object or tile that ends at `end_` (R279). -/
def endInfo (e : Env) (end_ : Nat) : TrapInfo :=
  { code := .scratchBounds, info0 := BitVec.ofNat 64 end_, info1 := BitVec.ofNat 64 e.l.scratchBytes }

/-- The phase barrier's offset, where the frame names one. -/
def pbOffset (o : EOp) : Nat := 8 * (EOp.fr o).pb.toNat

/-- CPIN and CPOUT: checked and accepted (R272). -/
def copyInstr (out : Bool) (maj : BitVec 8) (o : EOp) (s : State) : State :=
  let t := tileAOf o
  let pre (e : Env) : Gate :=
    ((waitIf (decide (copyQueue ≤ (s.core e.w.core).copyq.length))).then (tileGate e.g [t])).then
      (waitIf (s.tileRead e.w.gid t))
  issueAfter pre (o.raw maj) (fun e s =>
    let d := sNumber o.a
    let vals := (List.range 16).map fun i => e.w.sval (d + i) 1
    let regs := vals.map fun v => lo32 v.bits
    let tensor := e.l.tid (tidOf o)
    let tile := e.tileDesc t
    let poisoned := (List.range 16).find? fun i => (vals.getD i {}).p
    let unset := tensor.unset || tile.unset
    let fi : TrapInfo :=
      { code := .formatCombination, info0 := BitVec.ofNat 64 (tensor.fmt + 2 ^ 8 * tile.fmt + 2 ^ 24 * tidOf o),
        info1 := if unset then 2 else 0 }
    let pbv := (EOp.fr o).pbv
    let g := (((match copyIllegal d regs tensor tile with
        | some x => Gate.trap { code := .illegalInstruction, info0 := BitVec.ofNat 64 x.1, info1 := BitVec.ofNat 64 x.2 }
        | none => .go).then
      (trapIf (unset || tensor.fmt != tile.fmt) fi)).then
      (match poisoned with
       | some i => .trap (poisonInfo (BitVec.ofNat 10 (0x300 + d + i)))
       | none => .go)).then
      (trapIf (pbv && decide (pbOffset o + 8 > e.l.scratchBytes)) (endInfo e (pbOffset o + 8)))
    runGate g (fun s =>
      let k := s.core e.w.core
      let c : CopyCmd :=
        { id := k.nextCmd, warp := s.cur.warp, slot := e.w.slot, gid := e.w.gid, out := out, keep := o.fn.getLsbD 6, tile := t,
          off := (e.tile t).off, tensor := tensor, tdesc := tile, regs := regs,
          pb := if pbv then some (pbOffset o) else none, pc := e.w.pc, len := s.cur.len }
      let s := s.setCore e.w.core { k with copyq := k.copyq ++ [c], nextCmd := k.nextCmd + 1 }
      retire e (s.setGroup e.w.gid (s.myGroup.setTile t (if out then .draining else .filling)))) s) s

def execCpin (o : EOp) (s : State) : Out := .next (copyInstr false 0xD0 o s)
def execCpout (o : EOp) (s : State) : Out := .next (copyInstr true 0xD1 o s)

/-! ## Tiles (R265 to R268) -/

/-- The entry index in AUX[69:64]. -/
def entryOf (o : EOp) : Nat := ((EOp.auxBits o).extractLsb' 0 6).toNat

/-- The entry is FILLING or DRAINING. -/
def tileMoving (g : Group) (t : Nat) : Bool :=
  (tget g.tiles t).map Tile.st == some .filling || (tget g.tiles t).map Tile.st == some .draining

def execTldef (o : EOp) (s : State) : Out :=
  .next (issue (o.raw 0xD2) (fun e s =>
    let t := entryOf o
    let d := e.l.tid (tidOf o)
    let a := sgkVal e .n32 o.a
    let off := (lo32 a.bits).toNat
    let end_ := off + tileBytes d
    let fi : TrapInfo := { code := .formatCombination, info0 := BitVec.ofNat 64 (2 ^ 24 * tidOf o), info1 := 2 }
    let g := ((((((trapIf (!d.unset && !(d.rank == 1 || d.rank == 2)) (illegalWord s)).then (trapIf d.unset fi)).then
      (trapIf a.p (poisonInfo o.a.code))).then
      (trapIf (off % 16 != 0) { code := .misaligned, info0 := BitVec.ofNat 64 off })).then
      (trapIf (decide (end_ > e.l.scratchBytes)) (endInfo e end_))).then
      (waitIf (tileMoving e.g t || s.tileUsed e.w.gid t)))
    runGate g (withRelease e .group fun s =>
      let g := s.myGroup
      retire e (s.setGroup e.w.gid { g with tiles := tput g.tiles t { off := off, tid := tidOf o, st := .ready } })) s) s)

/-- TLWAIT: the tile is READY when it issues; it acquires at .group. -/
def execTlwait (o : EOp) (s : State) : Out :=
  .next (issueAfter (fun e => tileGate e.g [tileAOf o]) (o.raw 0xD3) (fun e s =>
    retire e (s.acquireAt e.w.core .group)) s)

def execTlfree (o : EOp) (s : State) : Out :=
  .next (issue (o.raw 0xD4) (fun e s =>
    let t := entryOf o
    runGate (waitIf (tileMoving e.g t || s.tileRead e.w.gid t)) (fun s =>
      let g := s.myGroup
      retire e (s.setGroup e.w.gid { g with tiles := tdel g.tiles t })) s) s)

/-- ST of TLSTATE (R268). -/
def tileCode : TileState → Nat
  | .empty => 1 | .filling => 2 | .ready => 3 | .draining => 4

def execTlstate (o : EOp) (s : State) : Out :=
  .next (issue (o.raw 0xD5) (fun e s =>
    let t := entryOf o
    let x := match tget e.g.tiles t with
      | some k => k.off / 16 * 2 ^ 15 + k.tid * 2 ^ 7 + (if s.tileRead e.w.gid t then 8 else 0) + tileCode k.st
      | none => 0
    retire e (writeScalar o.dst 1 { bits := BitVec.ofNat 64 x } s)) s)

/-! ## Phase barriers (R275 to R278) -/

/-- A phase barrier object. -/
structure PBar where
  epoch : Nat
  sc : Nat
  expw : Nat
  pendw : Nat
  res : Nat
  tok : Nat
  deriving DecidableEq, Repr

def PBar.ofNat (x : Nat) : PBar :=
  { epoch := field x 48 16, sc := field x 45 3, expw := field x 33 12, pendw := field x 21 12, res := field x 12 9,
    tok := field x 0 12 }
def PBar.toNat (b : PBar) : Nat :=
  b.epoch * 2 ^ 48 + b.sc * 2 ^ 45 + b.expw * 2 ^ 33 + b.pendw * 2 ^ 21 + b.res * 2 ^ 12 + b.tok

/-- The completion rule (R275). -/
def PBar.settled (b : PBar) : PBar :=
  if b.pendw = 0 ∧ b.tok = 0 then { b with epoch := (b.epoch + 1) % 65536, pendw := b.expw } else b

def State.pbar (s : State) (gid off : Nat) : PBar := PBar.ofNat (bitsOfBytes ((s.group gid).scratch.bytes off 8))
def State.putPbar (s : State) (gid off : Nat) (b : PBar) : State := s.engineScratch gid off (leBytes b.toNat 8)

/-- PBARR: a warp arrival that announces `v` engine completions; an arrival at PENDW = 0 is lost (R276). -/
def PBar.arrive (b : PBar) (v : Nat) : PBar := PBar.settled { b with pendw := b.pendw - 1, tok := (b.tok + v) % 4096 }
/-- PBEXP. -/
def PBar.expect (b : PBar) (v : Nat) : PBar := PBar.settled { b with tok := (b.tok + v) % 4096 }
/-- An engine arrival. -/
def PBar.engine (b : PBar) : PBar := PBar.settled { b with tok := (b.tok + 4095) % 4096 }

/-- The scope SC; a code that R275 does not list acts as .device (log entry 18). -/
def PBar.scope (b : PBar) : Scope := (Scope.ofCode (BitVec.ofNat 3 b.sc)).getD .device

def pbScopeOk : Scope → Bool
  | .group => true | .die => true | .device => true | .fabric => true | .system => true | _ => false

/-- Goes on unless a word of the object is uncorrectable (R416), or a reserved bit of it is set: R11 has the instruction refuse the
object, and the trap is the model's (DESIGN CHOICE, chapter 12 names none: log entry 79). -/
def pbWord (e : Env) (o : EOp) (k : State → State) (s : State) : State :=
  match s.eccOnce e 8 (.scratch (pbOffset o)) with
  | some t => takeTrap t.1 t.2
  | none => if (s.pbar e.w.gid (pbOffset o)).res = 0 then k s else takeTrap { illegalWord s with code := .reservedField } s

/-- The object lies beyond the allocation (R276). -/
def pbBounds (e : Env) (o : EOp) : Gate := trapIf (decide (pbOffset o + 8 > e.l.scratchBytes)) (endInfo e (pbOffset o + 8))

def execPbinit (o : EOp) (s : State) : Out :=
  .next (issue (o.raw 0xD6) (fun e s =>
    let v := valueOp e o
    let n := (lo32 v.bits).toNat
    let sc := EOp.scopeOf o
    let bad : TrapInfo := { code := .illegalInstruction, info0 := 0x3FF, info1 := BitVec.ofNat 64 n }
    let g := (((trapIf (!decide (1 ≤ n ∧ n ≤ 4095)) bad).then (trapIf (!pbScopeOk sc) (illegalWord s))).then
      (trapIf v.p (poisonInfo o.a.code))).then (pbBounds e o)
    runGate g (fun s =>
      let b : PBar := { epoch := 0, sc := sc.code.toNat, expw := n, pendw := n, res := 0, tok := 0 }
      retire e (s.putPbar e.w.gid (pbOffset o) b)) s) s)

def execPbarr (o : EOp) (s : State) : Out :=
  .next (issue (o.raw 0xD6) (fun e s =>
    let v := valueOp e o
    runGate ((trapIf v.p (poisonInfo o.a.code)).then (pbBounds e o)) (pbWord e o fun s =>
      let sc := PBar.scope (s.pbar e.w.gid (pbOffset o))
      withRelease e sc (fun s =>
        retire e (s.putPbar e.w.gid (pbOffset o) (PBar.arrive (s.pbar e.w.gid (pbOffset o)) (lo32 v.bits).toNat))) s) s) s)

def execPbexp (o : EOp) (s : State) : Out :=
  .next (issue (o.raw 0xD7) (fun e s =>
    let v := valueOp e o
    runGate ((trapIf v.p (poisonInfo o.a.code)).then (pbBounds e o)) (pbWord e o fun s =>
      retire e (s.putPbar e.w.gid (pbOffset o) (PBar.expect (s.pbar e.w.gid (pbOffset o)) (lo32 v.bits).toNat))) s) s)

/-- PBWAIT: returns when the epoch has passed. A wake stands until the warp goes on, whatever the object holds then (R283). -/
def execPbwait (o : EOp) (s : State) : Out :=
  .next (issue (o.raw 0xD7) (fun e s =>
    let v := valueOp e o
    runGate ((trapIf v.p (poisonInfo o.a.code)).then (pbBounds e o)) (pbWord e o fun s =>
      let b := s.pbar e.w.gid (pbOffset o)
      if e.w.woken ∨ epochPassed b.epoch (lo32 v.bits).toNat then retire e (s.acquireAt e.w.core (PBar.scope b))
      else waitFor (.pb (pbOffset o) ((lo32 v.bits).setWidth 16)) .none s) s) s)

end Sys2Proof.Machine
end

