-- ==== Sys2Proof/Machine/Coll.lean ====
section
/-!
DEFINITION. The collective engine (spec/19 R364 to R383): peer sets, chunks, the stages of an accepted call, its results and
its end.
-/
namespace Sys2Proof.Machine

/-! ## Members and operands (R365, R371, R372) -/

/-- The rank of member `i`. -/
def Call.rank (c : Call) (i : Nat) : Nat := c.first + i * c.stride

/-- Rows, columns and row bytes of the operand. -/
def Call.rows (c : Call) : Nat := tileRows c.desc
def Call.cols (c : Call) : Nat := tileCols c.desc
def Call.rb (c : Call) : Nat := tileRB c.desc

/-- The address of row `r` of a tensor. -/
def rowAddr (d : Desc) (r : Nat) : DWord := d.base + BitVec.ofNat 64 r * (if d.rank = 1 then 0 else d.stride 1)

/-- The address of word `j` of the counts tensor. -/
def Call.countAddr (c : Call) (j : Nat) : DWord := Desc.base c.cdesc + BitVec.ofNat 64 (4 * j)

/-- Rows of a block (R372). -/
def Call.block (c : Call) : Nat := c.rows / c.count

/-- Row `r` changes at this member, and row `r` lies in its result region (R373, R378). -/
def Call.changes (c : Call) (r : Nat) : Bool :=
  match c.kind with
  | 0 => true
  | 1 => r / c.block == c.me
  | 2 => r / c.block != c.me
  | _ => c.me != c.root
def Call.inRegion (c : Call) (r : Nat) : Bool := c.kind != 1 || r / c.block == c.me

/-- Chunks across, chunks in all, the rows of one and its byte range in a row (R378). -/
def Call.chunksAcross (c : Call) : Nat := (c.cols + 63) / 64
def Call.chunks (c : Call) : Nat := (c.rows + 63) / 64 * c.chunksAcross
def Call.chunkRows (c : Call) (k : Nat) : List Nat :=
  ((List.range 64).map fun i => 64 * (k / c.chunksAcross) + i).filter fun r => decide (r < c.rows)
def Call.chunkFrom (c : Call) (k : Nat) : Nat := mfRow (Desc.fmt c.desc) (64 * (k % c.chunksAcross))
def Call.chunkTo (c : Call) (k : Nat) : Nat := mfRow (Desc.fmt c.desc) (min (64 * (k % c.chunksAcross) + 64) c.cols)
def Call.chunkIn (c : Call) (k : Nat) : Bool := (c.chunkRows k).any c.inRegion
/-- Chunks that this member raises. -/
def Call.region (c : Call) : List Nat := (List.range c.chunks).filter c.chunkIn

/-! ## What the other members have sent (R376) -/

/-- The values that members exchange (R375). A2AV names no operand rows (log entry 21). -/
def Call.values (c : Call) : List Nat :=
  [c.kind, c.op, c.first, c.stride, c.count, c.root, c.sw, if c.kind = 4 then 0 else c.rows, c.rb]

/-- The matching call of a rank. -/
def Vi.peerCall (v : Vi) (src tag nth : Nat) : Option PeerCall :=
  v.peerCalls.find? fun p => p.src == src && p.tag == tag && p.nth == nth

/-- Changes the record of a peer's call, which is made where there is none. -/
def Vi.withPeerCall (v : Vi) (src tag nth : Nat) (f : PeerCall → PeerCall) : Vi :=
  let p := (v.peerCall src tag nth).getD { src := src, tag := tag, nth := nth }
  { v with peerCalls := (v.peerCalls.filter fun q => !(q.src == src && q.tag == tag && q.nth == nth)) ++ [f p] }

/-- A2AV: more rows than S has (R381). -/
def Call.exceeds (c : Call) : Bool := decide (c.counts.foldl (· + ·) 0 > Desc.ext c.desc 1)

/-- The values of a member: the exchanged ones, then for A2AV whether its send counts exceed its S, and the count for this
member. -/
def Vi.memberVals (v : Vi) (c : Call) (i : Nat) : Option (List Nat) :=
  if i = c.me then some (c.values ++ [if c.exceeds then 1 else 0, c.counts.getD c.me 0])
  else (v.peerCall (c.rank i) c.tag c.nth).bind PeerCall.vals

def Call.members (c : Call) : List Nat := List.range c.count
def Call.others (c : Call) : List Nat := c.members.filter (· != c.me)

/-- The lowest lost member (R369), and the lowest that has not matched (R379). -/
def Vi.lostMember (v : Vi) (c : Call) : Option Nat := c.others.find? fun i => v.lost.contains (c.rank i)
def Vi.unmatched (v : Vi) (c : Call) : Option Nat := c.others.find? fun i => (v.memberVals c i).isNone

/-- Every member's values are known. -/
def Vi.matched (v : Vi) (c : Call) : Bool := decide (1 ≤ c.stage) && (v.unmatched c).isNone

/-- The lowest member whose values differ from member 0's (R379). -/
def Vi.differs (v : Vi) (c : Call) : Option Nat :=
  let vs (i : Nat) : List Nat := ((v.memberVals c i).getD []).take 9
  c.members.find? fun i => vs i != vs 0

/-- Some member asks for switch reduction on an encrypted domain (R375). -/
def Vi.cryptConflict (v : Vi) (c : Call) : Bool :=
  v.domCtl.getLsbD 0 && c.members.any fun i => (((v.memberVals c i).getD []).getD 6 0) != 0

/-- The call performs its data: all matched, no conflict, no mismatch. -/
def Vi.agrees (v : Vi) (c : Call) : Bool := v.matched c && !v.cryptConflict c && (v.differs c).isNone

/-- A2AV: rows that member `i` sends to this one, the offset of its first, and the total (R381). -/
def Vi.received (v : Vi) (c : Call) (i : Nat) : Nat := ((v.memberVals c i).getD []).getD 10 0
def Vi.receivedBefore (v : Vi) (c : Call) (i : Nat) : Nat := ((List.range i).map (v.received c)).foldl (· + ·) 0
def Vi.receivedAll (v : Vi) (c : Call) : Nat := v.receivedBefore c c.count
def Vi.exceeded (v : Vi) (c : Call) : Bool := c.members.any fun i => (((v.memberVals c i).getD []).getD 9 0) != 0

/-- Operand byte `o` of member `i`, as far as this package knows it. -/
def Vi.memberByte (v : Vi) (c : Call) (i o : Nat) : Option Byte :=
  if i = c.me then c.staged[o]? else (v.peerCall (c.rank i) c.tag c.nth).bind fun p => tget p.data o

/-- Bytes `a` to `b - 1` of row `r` of member `i`. -/
def Vi.memberRow (v : Vi) (c : Call) (i r a b : Nat) : Option (List Byte) :=
  ((List.range (b - a)).map fun j => v.memberByte c i (r * c.rb + a + j)).mapM id

/-! ## Results (R156, R157, R373) -/

/-- Elements of `u` bytes of a list of bytes. -/
def elemsOf (u : Nat) : Nat → List Byte → List Nat
  | 0, _ => []
  | n + 1, bs => bitsOfBytes (bs.take u) :: elemsOf u n (bs.drop u)

/-- An element of a reduction: F32 results of BF16 trees are rounded back (R373). -/
def reduceElem (op : Nat) (xs : List Nat) : Nat :=
  if op = 1 then (fpConvert fmtF32 fmtBf16 .ne false false (tree (treeOp op) 0 (xs.map fun x => BitVec.ofNat 32 (x * 65536))).toNat).1
  else (tree (treeOp op) 0 (xs.map fun x => BitVec.ofNat 32 x)).toNat

/-- Bytes `a` to `b - 1` of row `r` of the result, once every member's part is here. -/
def Vi.resultRow (v : Vi) (c : Call) (r a b : Nat) : Option (List Byte) :=
  if c.kind ≤ 1 then
    (c.members.mapM fun i => v.memberRow c i r a b).map fun rows =>
      let u := if c.op = 1 then 2 else 4
      let es := rows.map (elemsOf u ((b - a) / u))
      (List.range ((b - a) / u)).flatMap fun j => leBytes (reduceElem c.op (es.map fun e => e.getD j 0)) u
  else v.memberRow c (if c.kind = 2 then r / c.block else c.root) r a b

/-- The rows that a chunk writes: row, and its bytes in the chunk's columns; none while some are missing. -/
def Vi.chunkBytes (v : Vi) (c : Call) (k : Nat) : Option (List (Nat × List Byte)) :=
  ((c.chunkRows k).filter c.changes).mapM fun r => (v.resultRow c r (c.chunkFrom k) (c.chunkTo k)).map fun bs => (r, bs)

/-! ## Accesses of the collective core -/

/-- An access: address, length, and 0 for a read, 1 for a write, 2 for an atomic. -/
structure CollAcc where
  a : DWord
  n : Nat
  acc : Nat
  deriving DecidableEq, Repr

/-- The die of the call's collective core. -/
def Call.die (c : Call) : Nat := c.core / 64

def State.collRoute (s : State) (c : Call) (x : CollAcc) : Route := s.programRange c.vi c.die x.acc x.a x.n

def Route.plain : Route → Bool
  | .cells _ => true
  | _ => false

/-- The physical address of an uncorrectable word, or of a line whose tag fails, that an access reads (R416). -/
def State.collBad (s : State) (c : Call) (x : CollAcc) (r : Route) : Option Nat :=
  if x.acc = 1 then none else if x.acc = 2 then s.wordBad r.locs else s.readBad c.die r.locs

/-- An access reaches memory, or as a counter a peer's (R378). -/
def CollAcc.lands (x : CollAcc) (r : Route) : Bool := r.plain || (x.acc == 2 && r.isPeer)

/-- Every access reaches memory and meets no uncorrectable word. -/
def State.reaches (s : State) (c : Call) (xs : List CollAcc) : Bool :=
  xs.all fun x => x.lands (s.collRoute c x) && (s.collBad c x (s.collRoute c x)).isNone

/-- The first access that faults (R381, R416): code, flags and address. A table that does not exist is no fault. -/
def State.collFaultOf (s : State) (c : Call) (xs : List CollAcc) : Option (TrapCode × Nat × DWord) :=
  (xs.filter fun x => !x.lands (s.collRoute c x) || (s.collBad c x (s.collRoute c x)).isSome).findSome? fun x =>
    match s.collRoute c x with
    | .cells ls => (s.collBad c x (.cells ls)).map fun a => (.eccUncorrectable, 0, BitVec.ofNat 64 a)
    | .ecc a => some (.eccUncorrectable, 0, BitVec.ofNat 64 a)
    | .walk _ => none
    | .faulted va _ => some (.pageFault, 4, canonOf va)
    | _ => some (.protection, 0, s.refusedAt c.vi c.die x.acc x.a x.n)

/-- Bytes as the collective core reads them, without poison (R228, R377). -/
def State.collRead (s : State) (c : Call) (x : CollAcc) : List Byte :=
  match s.collRoute c x with
  | .cells ls => ls.map (s.dieByte c.die)
  | _ => []

/-- The reads of some accesses go through the L2 of its die, with the traffic counted (R206). -/
def State.collFetch (s : State) (c : Call) (xs : List CollAcc) : State :=
  xs.foldl (fun s x =>
    if x.acc = 0 then (s.walked c.vi c.die x.a x.n).l2FetchAll c.vi c.die (s.collRoute c x).locs else s) s

/-- Bytes as it writes them: plain, no mark (R377). They are performed at once. -/
def State.collWrite (s : State) (c : Call) (a : DWord) (bs : List Byte) : State :=
  match s.collRoute c { a := a, n := bs.length, acc := 1 } with
  | .cells ls => (s.walked c.vi c.die a bs.length).engineWriteFrom c.vi c.die ls bs
  | _ => s

/-- Raises the counter of a chunk of call `id` by 1 at its point of coherence (R378), as a release at .fabric of what was written before
(R221, R377): here, or at the peer whose page holds it (R223, R368). -/
def State.collRaise (s : State) (id : Nat) (c : Call) (k : Nat) : State :=
  let s := (s.engineRelease c.die).walked c.vi c.die (c.counter k) 4
  match s.collRoute c { a := c.counter k, n := 4, acc := 2 } with
  | .cells ls =>
    let s := (ls.map sectorOf).eraseDups.foldl State.hostDrain s
    s.engineWriteFrom c.vi c.die ls (leBytes (bitsOfBytes (ls.map fun a => s.mem.byte a) + 1) 4)
  | .peer rank a =>
    let t := s.takeTag c.vi
    t.2.sendFlit c.vi { rank := rank, ctr := 0, kind := .atomic, addr := a, tag := t.1, nth := k, len := 4, data := leBytes 1 4,
                        call := some (id, k) }
  | _ => s

/-- Counters of a call that peers have not answered for. -/
def State.counting (s : State) (vi id : Nat) : Bool := (s.vi vi).flits.any fun f => (f.call.map Prod.fst) == some id

/-- Bytes of the staging area of a tile operand, from an offset: the copy engine and the collective core write them (R375). -/
def Call.stageAcc (c : Call) (o n : Nat) : CollAcc := { a := c.place + BitVec.ofNat 64 o, n := n, acc := 1 }

/-- The rows of a tensor as accesses. -/
def rowAccs (d : Desc) (acc : Nat) (rows : List Nat) : List CollAcc :=
  rows.map fun r => { a := rowAddr d r, n := tileRB d, acc := acc }

/-- The words of Q from `j`. -/
def Call.countAccs (c : Call) (acc j n : Nat) : List CollAcc :=
  (List.range n).map fun i => { a := c.countAddr (j + i), n := 4, acc := acc }

/-- The send counts that Q holds. -/
def State.sendCounts (s : State) (c : Call) : List Nat := (c.countAccs 0 0 c.count).map fun x => bitsOfBytes (s.collRead c x)

/-- What the first stage reads: the operand, or Q and then the rows to send. -/
def State.operandAccs (s : State) (c : Call) : List CollAcc :=
  if c.kind = 4 then
    let q := c.countAccs 0 0 c.count
    if s.reaches c q then
      let n := (s.sendCounts c).foldl (· + ·) 0
      q ++ rowAccs c.desc 0 (List.range (if n > Desc.ext c.desc 1 then 0 else n))
    else q
  else if c.tile.isSome then [c.stageAcc 0 (c.rows * c.rb)] else rowAccs c.desc 0 (List.range c.rows)

/-- The chunks that a BROADCAST root raises at acceptance (R378), and a counter as an access. -/
def Call.rootChunks (c : Call) : List Nat := if c.kind = 3 ∧ c.me = c.root ∧ c.cntb ≠ 0 then List.range c.chunks else []
def Call.counterAcc (c : Call) (k : Nat) : CollAcc := { a := c.counter k, n := 4, acc := 2 }

/-- All that the first stage accesses. -/
def State.startAccs (s : State) (c : Call) : List CollAcc := s.operandAccs c ++ c.rootChunks.map c.counterAcc

/-- The words of Q that its counts stage writes (R381). -/
def Vi.countWords (v : Vi) (c : Call) : List (Nat × Nat) :=
  (c.members.map fun i => (c.count + i, v.received c i)) ++
  (if v.exceeded c then []
   else (c.members.map fun i => (2 * c.count + i, v.receivedBefore c i)) ++ [(3 * c.count, v.receivedAll c)])

/-- What a chunk accesses: the rows it writes and its counter. -/
def Call.chunkAccs (c : Call) (k : Nat) : List CollAcc :=
  (if c.tile.isSome then ((c.chunkRows k).filter c.changes).map fun r => c.stageAcc (r * c.rb + c.chunkFrom k) (c.chunkTo k - c.chunkFrom k)
   else ((c.chunkRows k).filter c.changes).map fun r =>
     ({ a := rowAddr c.desc r + BitVec.ofNat 64 (c.chunkFrom k), n := c.chunkTo k - c.chunkFrom k, acc := 1 } : CollAcc)) ++
  (if c.cntb ≠ 0 then [c.counterAcc k] else [])

/-- The rows of V that A2AV writes: the row, its source member and the row among those it sent. -/
def Vi.landing (v : Vi) (c : Call) : List (Nat × Nat × Nat) :=
  (c.members.flatMap fun i => (List.range (v.received c i)).map fun k => (v.receivedBefore c i + k, i, k)).filter
    fun x => decide (x.1 < Desc.ext c.rdesc 1)

/-! ## Flits of a call (R366, R368) -/

/-- Sends the values to every other member. -/
def State.sendValues (s : State) (c : Call) : State :=
  c.others.foldl (fun s i =>
    let extra := if c.kind = 4 then [if c.exceeds then 1 else 0, c.counts.getD i 0] else []
    s.sendFlit c.vi { rank := c.rank i, ctr := 0, kind := .collControl, tag := c.tag, nth := c.nth,
                      data := (c.values ++ extra).flatMap fun x => leBytes x 8 }) s

/-- The offset among the rows to send of the first row for member `j`. -/
def Call.sendFrom (c : Call) (j : Nat) : Nat := (c.counts.take j).foldl (· + ·) 0

/-- The operand bytes that member `j` needs from this one, with the offset under which it knows them (log entry 22). -/
def Call.payloadFor (c : Call) (j : Nat) : Nat × List Byte :=
  let rows (r n : Nat) : List Byte := (c.staged.drop (r * c.rb)).take (n * c.rb)
  match c.kind with
  | 0 => (0, c.staged)
  | 1 => (j * c.block * c.rb, rows (j * c.block) c.block)
  | 2 => (c.me * c.block * c.rb, rows (c.me * c.block) c.block)
  | 3 => (0, if c.me = c.root then c.staged else [])
  | _ => (0, rows (c.sendFrom j) (c.counts.getD j 0))

/-- Sends operand bytes to every other member, 224 to a flit, counted in COLLB. -/
def State.sendPayload (s : State) (c : Call) : State :=
  c.others.foldl (fun s j =>
    let p := c.payloadFor j
    (pieces 224 p.2.length p.1 p.2).foldl (fun s x =>
      (s.count c.vi c.die 4 x.2.length).sendFlit c.vi
        { rank := c.rank j, ctr := 0, kind := .collData, addr := x.1, tag := c.tag, nth := c.nth, data := x.2 }) s) s

/-! ## The stages of a call -/

def State.callOf (s : State) (id : Nat) : Option Call := tget s.calls id
def State.putCall (s : State) (id : Nat) (c : Call) : State := { s with calls := tput s.calls id c }

/-- The pool offset of an uncorrectable word of a tile operand (R416). -/
def State.tileBad (s : State) (c : Call) : Option Nat :=
  if c.tile.isSome then (s.group c.gid).badAt c.off (c.rows * c.rb) else none

/-- Stage 0 to 1: the operand is read, a tile into the staging area (R375), the values are sent, and a BROADCAST root raises its
counters (R377, R378). -/
def State.callStart (s : State) (id : Nat) (c : Call) : State :=
  if s.reaches c (s.startAccs c) ∧ (s.tileBad c).isNone then
    let s := s.collFetch c (s.startAccs c)
    let s := if c.tile.isSome then s.collWrite c c.place c.staged else s
    let counts := if c.kind = 4 then s.sendCounts c else []
    let c := { c with counts := counts }
    let rows := if c.kind = 4 then (if c.exceeds then 0 else counts.foldl (· + ·) 0) else c.rows
    let staged := if c.tile.isSome then c.staged else (rowAccs c.desc 0 (List.range rows)).flatMap (s.collRead c)
    let raised := if c.kind = 3 ∧ c.me = c.root then List.range c.chunks else []
    let c := { c with staged := staged, raised := raised, stage := 1 }
    let s := s.putCall id c
    let s := if c.cntb ≠ 0 then raised.foldl (fun s k => s.collRaise id c k) s else s
    s.sendValues c
  else s

/-- What the operand holds now, for the rows that the call has read; what it read where they are not reached any more. -/
def State.operandNow (s : State) (c : Call) : List Byte :=
  let rows := rowAccs c.desc 0 (List.range (c.staged.length / c.rb))
  if c.tile.isNone ∧ s.reaches c rows then rows.flatMap (s.collRead c) else c.staged

/-- A program store into the operand since the call read it may still be sent, whole or in part (R377): of each byte that differs the
call has the old or the new value, a free choice (log entry 46, DESIGN CHOICE). -/
def State.restage (s : State) (id : Nat) (c : Call) : State :=
  let now := s.operandNow c
  let pick (e : (Byte × Byte) × Nat) : Byte :=
    if e.1.1 = e.1.2 then e.1.1 else if (Config.unstated (s.free + e.2)).getLsbD 0 then e.1.2 else e.1.1
  if now = c.staged then s
  else { s with free := s.free + now.length }.putCall id { c with staged := (c.staged.zip now).zipIdx.map pick }

/-- Stage 1 to 2: A2AV writes its receive counts, offsets and total, and tells the members (R381). -/
def State.callCounts (s : State) (id : Nat) (c : Call) : State :=
  let v := s.vi c.vi
  let ws := v.countWords c
  if c.kind ≠ 4 then s.putCall id { c with stage := 2 }
  else if s.reaches c (ws.flatMap fun x => c.countAccs 1 x.1 1) then
    let s := ws.foldl (fun s x => s.collWrite c (c.countAddr x.1) (leBytes x.2 4)) s
    let s := s.putCall id { c with stage := 2 }
    c.others.foldl (fun s i =>
      s.sendFlit c.vi { rank := c.rank i, ctr := 0, kind := .collControl, tag := c.tag, nth := c.nth }) s
  else s

/-- Every other member has finished its counts stage. -/
def Vi.allCounted (v : Vi) (c : Call) : Bool :=
  c.others.all fun i => ((v.peerCall (c.rank i) c.tag c.nth).map PeerCall.counted) == some true

/-- Moves a call on by one stage where it can. -/
def State.callStep (s : State) (id : Nat) : State :=
  match s.callOf id with
  | none => s
  | some c =>
    let v := s.vi c.vi
    if c.suspended then s
    else if c.stage = 0 then s.callStart id c
    else if c.stage = 1 then (if v.agrees c then s.callCounts id c else s)
    else if c.stage = 2 then
      if c.kind = 4 ∧ (v.exceeded c ∨ !v.allCounted c) then s
      else
        let s := s.restage id c
        let c := (s.callOf id).getD c
        (s.putCall id { c with stage := 3 }).sendPayload c
    else s

def State.callAdvance (s : State) (id : Nat) : State := ((s.callStep id).callStep id).callStep id

/-! ## The end of a call (R375, R379) -/

/-- Writes the status word and arrives, as a release at .fabric (R221, R231, R275): PENDW falls by one, TOK is unchanged. The call
and what its members sent are forgotten. -/
def State.endCall (s : State) (id : Nat) (code detail : Nat) : State :=
  match s.callOf id with
  | none => s
  | some c =>
    let v := s.vi c.vi
    let s := { s with calls := tdel s.calls id }
    let s := s.setVi c.vi { v with peerCalls := v.peerCalls.filter fun p =>
      !(p.tag == c.tag && p.nth == c.nth && c.members.any fun i => c.rank i == p.src) }
    let s := (s.engineRelease c.die).engineScratch c.gid (c.pb + 8) (leBytes (code + 256 * min detail (2 ^ 24 - 1)) 4)
    match tget s.groups c.gid with
    | some _ =>
      let b := s.pbar c.gid c.pb
      s.putPbar c.gid c.pb (PBar.settled { b with pendw := b.pendw - 1 })
    | none => s

/-- Ends with PEER_LOST every call of an interface that names a lost member (R369). -/
def State.endLostCalls (s : State) (vi : Nat) : State :=
  (s.calls.filter fun e => e.2.vi == vi).foldl (fun s e =>
    match (s.vi vi).lostMember e.2 with
    | some i => s.endCall e.1 6 i
    | none => s) s

/-- Writes the rows of a chunk: the tensor's, or those of the tile by way of the staging area (R375). -/
def State.landChunk (s : State) (c : Call) (k : Nat) : State :=
  (((s.vi c.vi).chunkBytes c k).getD []).foldl (fun s x =>
    if c.tile.isSome then
      (s.collWrite c (c.place + BitVec.ofNat 64 (x.1 * c.rb + c.chunkFrom k)) x.2).engineScratch c.gid
        (c.off + x.1 * c.rb + c.chunkFrom k) x.2
    else s.collWrite c (rowAddr c.desc x.1 + BitVec.ofNat 64 (c.chunkFrom k)) x.2) s

/-- The chunks of the result region that have not landed. -/
def Call.left (c : Call) : List Nat := c.region.filter fun k => !c.raised.contains k

/-- Writes the chunks that have not landed. -/
def State.writeResult (s : State) (c : Call) : State := c.left.foldl (fun s k => s.landChunk c k) s

/-- Writes the rows that A2AV lands. -/
def State.writeLanding (s : State) (c : Call) : State :=
  let v := s.vi c.vi
  (v.landing c).foldl (fun s x =>
    let from_ := if x.2.1 = c.me then c.sendFrom c.me + x.2.2 else x.2.2
    match v.memberRow c x.2.1 from_ 0 c.rb with
    | some bs => s.collWrite c (rowAddr c.rdesc x.1) bs
    | none => s) s

end Sys2Proof.Machine
end

