-- ==== Sys2Proof/Machine/CollInstr.lean ====
section
/-!
DEFINITION. The meanings of COLL, COLLQ, STAKE and STAKEQ (spec/19 R370 to R383, spec/21 R399, R400).
-/
namespace Sys2Proof.Machine

/-- T, RTID and CTID of the AUX field (R370). -/
def collTile (o : EOp) : Bool := (EOp.auxBits o).getLsbD 16
def rtidOf (o : EOp) : Nat := ((EOp.auxBits o).extractLsb' 0 8).toNat
def ctidOf (o : EOp) : Nat := ((EOp.auxBits o).extractLsb' 8 8).toNat
/-- OP. -/
def collOp (o : EOp) : Nat := (o.fn.extractLsb' 0 4).toNat

/-- The fields of a descriptor (R371). -/
structure CollDesc where
  first : Nat
  stride : Nat
  count : Nat
  tag : Nat
  root : Nat
  sw : Nat
  cntb : DWord
  deriving DecidableEq, Repr

def collDesc (r : List Word) : CollDesc :=
  let x (k : Nat) : Nat := (r.getD k 0).toNat
  { first := field (x 0) 0 12, stride := field (x 1) 0 12, count := field (x 2) 0 13, tag := field (x 3) 16 16,
    root := field (x 3) 4 12, sw := field (x 3) 3 1, cntb := pair (r.getD 4 0) (r.getD 5 0) }

/-- The register that breaks R371, or s_d for a peer set that breaks R365 (R383); none where all hold. Where several fields break,
which one INFO1 names is unstated: DESIGN CHOICE, the first of this list (log entry 70). -/
def collDescBad (v : Vi) (kind : Nat) (t : Bool) (r : List Word) : Option Nat :=
  let x (k : Nat) : Nat := (r.getD k 0).toNat
  let d := collDesc r
  let top := d.first + (d.count - 1) * d.stride
  let member := (List.range d.count).any fun i => d.first + i * d.stride == v.domRank.toNat
  let bad : List (Nat × Bool) :=
    [(0, field (x 0) 12 20 != 0), (1, field (x 1) 12 20 != 0), (2, field (x 2) 13 19 != 0), (3, field (x 3) 0 3 != 0),
     (6, x 6 != 0), (7, x 7 != 0), (2, decide (d.count < 1 ∨ 4096 < d.count)), (1, decide (1 < d.count ∧ d.stride < 1)),
     (3, kind != 3 && d.root != 0), (3, kind == 3 && decide (d.count ≤ d.root)), (3, decide (1 < kind) && d.sw != 0),
     (4, (t || kind == 4) && d.cntb != 0), (0, decide (v.domSize.toNat ≤ top)), (0, !member)]
  (bad.find? Prod.snd).map Prod.fst

/-- The shape of an operand (R372). -/
def collShapeBad (kind count : Nat) (d : Desc) : Bool :=
  !(d.rank == 1 || d.rank == 2) || ((kind == 1 || kind == 2) && tileRows d % count != 0)

/-- The format of an operand (R372), and the shapes of A2AV's tensors: the TID that breaks them. -/
def collFormatBad (kind op : Nat) (tid : Nat) (d : Desc) : Option (Nat × Desc) :=
  if kind ≤ 1 ∧ d.fmt ≠ (if op = 1 then 3 else 1) then some (tid, d) else none
def a2avFormatBad (count : Nat) (l : Launch) (ts tv tq : Nat) : Option (Nat × Desc) :=
  let s := l.tid ts
  let v := l.tid tv
  let q := l.tid tq
  if s.rank ≠ 2 then some (ts, s)
  else if v.rank ≠ 2 ∨ v.fmt ≠ s.fmt ∨ v.ext 0 ≠ s.ext 0 then some (tv, v)
  else if q.rank ≠ 1 ∨ q.fmt ≠ 1 ∨ q.ext 0 < 3 * count + 1 then some (tq, q)
  else none

/-- FORMAT_COMBINATION of COLL (R383). -/
def collFormat (idx : Nat) (d : Desc) (cause : Nat) : TrapInfo :=
  { code := .formatCombination, info0 := BitVec.ofNat 64 (d.fmt + 2 ^ 24 * idx), info1 := BitVec.ofNat 64 cause }

/-- The descriptor registers. -/
def collRegs (e : Env) (o : EOp) : List Val := (List.range 8).map fun i => e.w.sval (sNumber o.a + i) 1

/-- The operand's number for a record, and its entry. -/
def collOperand (e : Env) (o : EOp) : Nat × Desc :=
  if collTile o then (tileAOf o, e.tileDesc (tileAOf o)) else (tidOf o, e.l.tid (tidOf o))

/-- The TIDs that a call names. -/
def collTids (kind : Nat) (e : Env) (o : EOp) : List (Nat × Desc) :=
  collOperand e o :: (if kind = 4 then [(rtidOf o, e.l.tid (rtidOf o)), (ctidOf o, e.l.tid (ctidOf o))] else [])

/-- The checks at issue, in the order of R383 after EMPTY_REGISTER. -/
def collChecks (kind : Nat) (s : State) (e : Env) (o : EOp) : Gate :=
  let v := s.vi e.l.vi
  let vals := collRegs e o
  let r := vals.map fun x => lo32 x.bits
  let t := collTile o
  let d := sNumber o.a
  let cd := collDesc r
  let x := collOperand e o
  let ill (i : Nat) : Gate := .trap (wordInfo s i)
  let pb := pbOffset o
  let g1 : Gate := if !e.l.coll then ill 1 else if e.l.kind = .task then ill 2 else .go
  let g2 : Gate := trapIf (t && (tget e.g.tiles (tileAOf o)).isNone) { code := .tileUndefined, info0 := BitVec.ofNat 64 (tileAOf o) }
  let g3 : Gate := match e.g.meet with
    | some m => trapIf (m.pc != e.w.pc || m.desc != r)
        { code := .illegalConvergence, info0 := m.pc, info1 := BitVec.ofNat 64 m.slot }
    | none => .go
  let g4 : Gate := match (List.range 8).find? fun i => (vals.getD i {}).p with
    | some i => .trap (poisonInfo (BitVec.ofNat 10 (0x300 + d + i)))
    | none => .go
  let g5 : Gate := match (collTids kind e o).find? fun y => y.2.unset with
    | some y => .trap (collFormat y.1 y.2 2)
    | none => .go
  let g6 : Gate := match collDescBad v kind t r with
    | some k => ill (3 + 256 * (d + k))
    | none => .go
  let g7 : Gate := if kind ≠ 4 ∧ collShapeBad kind cd.count x.2 then ill 5 else .go
  let g8 : Gate := match (if kind = 4 then a2avFormatBad cd.count e.l (tidOf o) (rtidOf o) (ctidOf o)
      else collFormatBad kind (collOp o) x.1 x.2) with
    | some y => .trap (collFormat y.1 y.2 0)
    | none => .go
  let g9 : Gate := trapIf (decide (pb + 12 > e.l.scratchBytes)) (endInfo e (pb + 12))
  let g10 : Gate := trapIf (cd.cntb.toNat % 4 != 0) { code := .misaligned, info0 := cd.cntb }
  let sc := (s.pbar e.w.gid pb).sc
  let g11 : Gate := if sc = 6 ∨ sc = 7 then .go else ill 4
  ((((((((((g1.then g2).then g3).then g4).then g5).then g6).then g7).then g8).then g9).then g10).then g11)

/-- COLL: the warp joins the meeting of its workgroup and is held until COLL_ACCEPT (R374, R375). -/
def collInstr (kind : Nat) (o : EOp) (s : State) : State :=
  let pre (e : Env) : Gate :=
    waitIf (collTile o && (match tget e.g.tiles (tileAOf o) with
      | some t => t.st != .ready
      | none => false))
  if s.me.cont = .met then issue (o.raw 0xF0) retire s
  else
    issueAfter pre (o.raw 0xF0) (fun e s =>
      runGate (collChecks kind s e o) (fun s =>
        let g := s.myGroup
        let m : Meeting := g.meet.getD
          { pc := e.w.pc, desc := (collRegs e o).map fun x => lo32 x.bits, slot := e.w.slot, issued := [], op := o, kind := kind }
        holdFor .coll .none (s.setGroup e.w.gid { g with meet := some { m with issued := addAll m.issued [s.cur.warp] } })) s) s

def execCollAllreduce (o : EOp) (s : State) : Out := .next (collInstr 0 o s)
def execCollReducescatter (o : EOp) (s : State) : Out := .next (collInstr 1 o s)
def execCollAllgather (o : EOp) (s : State) : Out := .next (collInstr 2 o s)
def execCollBroadcast (o : EOp) (s : State) : Out := .next (collInstr 3 o s)
def execCollA2av (o : EOp) (s : State) : Out := .next (collInstr 4 o s)

/-- Accepted calls of a workgroup that have not completed. -/
def State.callsOf (s : State) (gid : Nat) : Nat := (s.calls.filter fun c => c.2.gid == gid).length

/-- COLLQ (R380). -/
def execCollq (o : EOp) (s : State) : Out :=
  .next (issue (o.raw 0xF1) (fun e s =>
    let v := s.vi e.l.vi
    let flags : Word := 0#29 ++ bit1 e.l.coll ++ bit1 (v.domCtl.getLsbD 1) ++ bit1 (v.domCtl.getLsbD 0)
    let ws := [v.domRank &&& 0xFFF, v.domSize &&& 0x1FFF, flags, BitVec.ofNat 32 (s.callsOf e.w.gid)]
    retire e (s.setMe (s.me.putSList (sNumber o.dst) ws))) s)

/-! ## Stakes -/

/-- STAKE (R400): a grant of the launch's dispenser, an acquire at .system (R397). -/
def execStake (o : EOp) (s : State) : Out :=
  .next (issue (o.raw 0xF2) (fun e s =>
    let v := valueOp e o
    if e.l.kind ≠ .persistent then takeTrap (wordInfo s 1) s
    else if v.p then takeTrap (poisonInfo o.a.code) s
    else
      let l := s.myLaunch
      let k := min (lo32 v.bits).toNat (l.stakes - l.nextStake)
      produceScalars e (sNumber o.dst) [BitVec.ofNat 32 l.nextStake, BitVec.ofNat 32 k]
        ((s.acquireAt e.w.core .system).setLaunch e.g.lid { l with nextStake := l.nextStake + k })) s)

/-- STAKEQ (R400). The manual states no NEXT and N outside a PERSISTENT launch: free values (log entry 23). -/
def execStakeq (o : EOp) (s : State) : Out :=
  .next (issue (o.raw 0xF3) (fun e s =>
    let l := s.myLaunch
    if e.l.kind = .persistent then
      retire e (s.setMe (s.me.putSList (sNumber o.dst) [BitVec.ofNat 32 l.nextStake, BitVec.ofNat 32 l.stakes]))
    else
      let ws := [(Config.unstated s.free).setWidth 32, (Config.unstated (s.free + 1)).setWidth 32]
      let s := { s with free := s.free + 2 }
      retire e (s.setMe (s.me.putSList (sNumber o.dst) ws))) s)

end Sys2Proof.Machine
end

