-- ==== Sys2Proof/Machine/Control.lean ====
section
/-!
DEFINITION. The meanings of the control instructions (spec/05 R125 to R139): the execution mask, branches, code changes,
stopping and ending, TRAP and BKPT; and of a word that the decoder rejects (spec/03 R69).
-/
namespace Sys2Proof.Machine

/-! ## The execution mask (R81, R82, R125) -/

/-- A 32-bit constant or immediate repeated in each word of a mask. -/
def repeatWord (x : Word) (W : Nat) : Lanes :=
  BitVec.ofNat 128 ((List.range (W / 32)).foldl (fun a i => a + x.toNat * 2 ^ (32 * i)) 0)

/-- The mask that an operand of a mask instruction holds, its poison, and the value for a capture, which takes what a slot of 64
bits holds of a mask group (R56, R106, log entry 40). -/
def maskOperand (e : Env) (o : COp) (gone : Bool) (x : Src) : Lanes × Bool × (Nat → Val) :=
  if gone then (repeatWord (lo32 (immVal .b32 o.ext)) e.W, false, fun _ => { bits := immVal .b32 o.ext })
  else
    match x with
    | .s n => (e.w.mask n.toNat e.mg, e.w.maskPoison n.toNat e.mg, fun _ => { bits := (e.w.mask n.toNat e.mg).setWidth 64 })
    | .k c => (repeatWord (lo32 (constVal .b32 c.toNat)) e.W, false, fun _ => { bits := constVal .b32 c.toNat })
    | _ => (0, false, fun _ => {})

/-- Sets EXEC and saves the old mask where the instruction names a destination. Nothing is written where a source is
poisoned (R101). -/
def maskInstr (maj : BitVec 8) (o : COp) (f : Lanes → Lanes → Lanes → Lanes) (s : State) : State :=
  issue (o.raw maj 0) (fun e s =>
    let a := maskOperand e o (hasImm o.ext) o.a
    let b := maskOperand e o false o.b
    if a.2.1 then takeTrap (poisonInfo (if hasImm o.ext then 0 else o.a.code)) s
    else if b.2.1 then takeTrap (poisonInfo o.b.code) s
    else
      let w := { s.me with exec := f e.w.exec a.1 b.1 }
      let w := match o.dst with
        | .s n => Warp.putMask w n.toNat e.w.exec (fun _ => false) e.mg
        | _ => w
      let d (l : Nat) : Val := { bits := if e.w.exec.getLsbD l then 1 else 0 }
      retireHold e (holdOf o.hold a.2.2 b.2.2 d) (s.setMe w)) s

def execSetx (o : COp) (s : State) : Out := .next (maskInstr 0x19 o (fun _ a _ => a) s)
def execGetx (o : COp) (s : State) : Out := .next (maskInstr 0x1A o (fun x _ _ => x) s)
def execXand (o : COp) (s : State) : Out := .next (maskInstr 0x1B o (fun x a _ => x &&& a) s)
def execXandn (o : COp) (s : State) : Out := .next (maskInstr 0x1C o (fun x a _ => x &&& ~~~a) s)
def execXrestore (o : COp) (s : State) : Out := .next (maskInstr 0x1D o (fun _ a _ => a) s)
def execXrestoreMasked (o : COp) (s : State) : Out := .next (maskInstr 0x1D o (fun _ a b => a &&& ~~~b) s)

/-! ## Branches (R126 to R130) -/

/-- The target of a branch: its own address plus the signed offset (R126). -/
def branchTarget (e : Env) (o : COp) : DWord := e.w.pc + (lo32 (immVal .b32 o.ext)).signExtend 64

/-- What a branch captures of its immediate. -/
def immHold (o : COp) (d : Val) : Option (Nat × (Nat → Val)) :=
  holdOf o.hold (fun _ => { bits := immVal .b32 o.ext }) (fun _ => {}) (fun _ => d)

/-- A branch on a condition of the warp. -/
def branchInstr (maj : BitVec 8) (o : COp) (taken : Env → Bool) (s : State) : State :=
  issue (o.raw maj 0) (fun e s =>
    if taken e then jump e (branchTarget e o) false (immHold o {}) (fun s => s) s else retireHold e (immHold o {}) s) s

/-- BRC: a poisoned SCC traps (R127). -/
def branchScc (ty : BitVec 5) (o : COp) (want : Bool) (s : State) : State :=
  issue (o.raw 0x1F ty) (fun e s =>
    if e.w.sccP then takeTrap (poisonInfo 0x3FF) s
    else if e.w.scc = want then jump e (branchTarget e o) false (immHold o {}) (fun s => s) s
    else retireHold e (immHold o {}) s) s

def execBra (o : COp) (s : State) : Out := .next (branchInstr 0x1E o (fun _ => true) s)
def execBrcT (o : COp) (s : State) : Out := .next (branchScc 0 o true s)
def execBrcF (o : COp) (s : State) : Out := .next (branchScc 1 o false s)
def execBrxz (o : COp) (s : State) : Out := .next (branchInstr 0x20 o (fun e => e.active.isEmpty) s)
def execBrxnz (o : COp) (s : State) : Out := .next (branchInstr 0x21 o (fun e => !e.active.isEmpty) s)

/-- LOOP (R128). -/
def execLoop (o : COp) (s : State) : Out :=
  .next (issue (o.raw 0x25 0) (fun e s =>
    let d := scalarVal e .n32 o.dst
    if d.p then takeTrap (poisonInfo o.dst.code) s
    else
      let x : Val := { bits := (lo32 d.bits - 1).setWidth 64 }
      let h := immHold o x
      if lo32 x.bits ≠ 0 then jump e (branchTarget e o) false h (writeScalar o.dst 1 x) s
      else retireHold e h (writeScalar o.dst 1 x s)) s)

/-- CALL (R129): the return address is that of the next instruction; it is pushed on the return prediction (R130). -/
def execCall (o : COp) (s : State) : Out :=
  .next (issue (o.raw 0x22 0) (fun e s =>
    let x : Val := { bits := e.w.pc + BitVec.ofNat 64 s.cur.adv }
    let f (s : State) : State :=
      let s := writeScalar o.dst 2 x s
      s.setMe { s.me with retPred := (x.bits :: s.me.retPred).take 4 }
    jump e (branchTarget e o) false (immHold o x) f s) s)

/-- RET (R129, R130). -/
def execRet (o : COp) (s : State) : Out :=
  .next (issue (o.raw 0x23 0) (fun e s =>
    let a := scalarVal e .n64 o.a
    if a.p then takeTrap (poisonInfo o.a.code) s
    else
      let f (s : State) : State := s.setMe { s.me with retPred := s.me.retPred.drop 1 }
      jump e a.bits (e.w.retPred.head? == some a.bits) (holdOf o.hold (fun _ => a) (fun _ => {}) (fun _ => {})) f s) s)

/-- The forms of JMPI (R129): `b` gives the 32-bit index. -/
def jumpInstr (o : COp) (b : Env → Val) (s : State) : State :=
  issue (o.raw 0x24 0) (fun e s =>
    let a := scalarVal e .n64 o.a
    let i := b e
    if a.p then takeTrap (poisonInfo o.a.code) s
    else if i.p then takeTrap (poisonInfo o.b.code) s
    else
      jump e (a.bits + (lo32 i.bits).setWidth 64) false (holdOf o.hold (fun _ => a) (fun _ => i) (fun _ => {})) (fun s => s) s) s

def execJmpi (o : COp) (s : State) : Out := .next (jumpInstr o (fun _ => {}) s)
def execJmpiIndex (o : COp) (s : State) : Out := .next (jumpInstr o (fun e => scalarVal e .n32 o.b) s)
def execJmpiImm (o : COp) (s : State) : Out := .next (jumpInstr o (fun _ => { bits := immVal .b32 o.ext }) s)

/-! ## Changing code (R131, R133) -/

/-- The scope of ICINV: AUX[2:0]; .device in the 64-bit form. -/
def icinvScope (o : COp) : Scope := (Scope.ofCode (o.ext.aux.extractLsb' 0 3)).getD .device

/-- ICINV (R131): the warp's stores are written back, and the warp is held until they are visible to fetch and
ICINV_COMPLETE has invalidated. A speculative task stalls first (R324). -/
def execIcinv (o : COp) (s : State) : Out :=
  .next (issue (o.raw 0x26 0) (fun e s =>
    let sc := icinvScope o
    if e.w.cont = .released then retire e s
    else if s.copyingOut s.cur.warp then s
    else
      let go (s : State) : State :=
        let s := s.writeBackAll e.w.core
        let ids := if sc = .device then (s.die e.w.die).wbuf.map WEntry.id else []
        holdFor (.icinv sc ids) .none s
      requireDirect e go s) s)

/-- ICSYNC (R133): fetched instructions and the loop buffer are discarded. -/
def execIcsync (o : COp) (s : State) : Out :=
  .next (issue (o.raw 0x27 0) (fun e s =>
    let s := retire e s
    s.setMe { s.me with fetched := none, loopBuf := [] }) s)

/-! ## Stopping, sleeping and ending (R134 to R137) -/

/-- SLEEP (R134). -/
def execSleep (o : COp) (s : State) : Out :=
  .next (issue (o.raw 0x28 0) (fun e s =>
    let a := scalarOp e .n32 o (hasImm o.ext) o.a
    let n := min (lo32 a.bits).toNat (2 ^ 24)
    let s := retireHold e (holdOf o.hold (fun _ => a) (fun _ => {}) (fun _ => {})) s
    if n = 0 then s else s.setMe { s.me with status := .asleep (s.clock + n) }) s)

/-- The forms of NOP (R135). -/
def nopInstr (o : COp) (s : State) : State := issue (o.raw 0x29 0) retire s
def execNop (o : COp) (s : State) : Out := .next (nopInstr o s)
def execNopW96 (o : COp) (s : State) : Out := .next (nopInstr o s)
def execNopW128 (o : COp) (s : State) : Out := .next (nopInstr o s)

/-- EXIT (R136): a release at .device, then the warp ends; in a task, TDONE (R336). -/
def execExit (o : COp) (s : State) : Out :=
  .next (issue (o.raw 0x2A 0) (fun e s =>
    if e.l.kind = .task then (if s.mayEnd s.cur.warp then endTask s.cur.warp false false (retire e s) else s)
    else withRelease e .device (fun s => (retire e s).exitWarp s.cur.warp) s) s)

/-- INFO1 of a HALT record (R137). -/
def haltInfo (slot : Nat) (other : Bool) : DWord := BitVec.ofNat 64 (2 ^ 63 + (if other then 2 ^ 62 else 0) + 256 * slot)

/-- Another warp's HALT stops a warp where it stands (R137). A warp parked for replay stops when its replay ends. -/
def stopWarp (slot : Nat) (id : Nat) (s : State) : State :=
  let w := s.warp id
  match w.status with
  | .exited => s
  | .halted _ => s
  | .deferred => s
  | .replay => s.setWarp id { w with stopping := some (haltInfo slot true) }
  | _ => haltOther id (haltInfo slot true) s

/-- HALT (R137): every warp of the workgroup stops; the records fall due in slot order. -/
def execHalt (o : COp) (s : State) : Out :=
  .next (issue (o.raw 0x2B 0) (fun e s =>
    let t : TrapInfo := { code := .softwareTrap, info1 := haltInfo e.w.slot false }
    if s.speculative then takeTrap t s
    else
      let ids := (s.slots.filter fun x => e.g.warps.contains x.2).map Prod.snd
      let me := s.cur.warp
      ids.foldl (fun s id => if id = me then takeTrap t s else stopWarp e.w.slot id s) s) s)

/-! ## TRAP, BKPT and rejected words (R69, R138, R139) -/

/-- The 16-bit code of TRAP and the tag of BKPT: AUX[79:64], 0 in the 64-bit form. -/
def auxCode (o : EOp) : DWord :=
  match o.frame with
  | some f => (f.aux.extractLsb' 0 16).setWidth 64
  | none => 0

/-- SOFTWARE_TRAP of TRAP (R138). -/
def trapInfo (e : Env) (o : EOp) : TrapInfo :=
  let x : DWord :=
    match o.a with
    | .s n => let a := e.w.sval n.toNat 1; (BitVec.ofNat 64 (if a.p then 2 ^ 32 else 0)) ||| (lo32 a.bits).setWidth 64
    | _ => 0
  { code := .softwareTrap, info0 := auxCode o, info1 := x }

/-- TRAP under a condition on SCC. -/
def trapScc (o : EOp) (want : Bool) (s : State) : State :=
  issue (o.raw 0xFA) (fun e s =>
    if e.w.sccP then takeTrap (poisonInfo 0x3FF) s
    else if e.w.scc = want then takeTrap (trapInfo e o) s
    else retire e s) s

def execTrap (o : EOp) (s : State) : Out := .next (issue (o.raw 0xFA) (fun e s => takeTrap (trapInfo e o) s) s)
def execTrapT (o : EOp) (s : State) : Out := .next (trapScc o true s)
def execTrapF (o : EOp) (s : State) : Out := .next (trapScc o false s)

/-- BKPT (R139). -/
def execBkpt (o : EOp) (s : State) : Out :=
  .next (issue (o.raw 0xFB) (fun _ s => takeTrap { code := .breakpoint, info0 := auxCode o } s) s)

/-- A word that is no instruction raises the trap of its format (R69, R70). -/
def execUndefinedEncoding (bits : BitVec 128) (s : State) : Out :=
  .next (issue (Raw.ofBits bits) (fun _ s => formatTrap .illegalInstruction bits s) s)

end Sys2Proof.Machine
end

