-- ==== Sys2Proof/Machine/Issue.lean ====
section
/-!
DEFINITION. Fetching the instruction at a warp's PC (spec/03 R51 to R54, R76, R77, spec/05 R130, R132) and the selection of
the warp that issues (spec/04 R78, R79, R108 to R110).
-/
namespace Sys2Proof.Machine

/-! ## Fetch -/

/-- What fetch gives a warp. -/
inductive Fetch
  | word (w : Warp) (c : Cur)        -- the instruction, with the warp past the fill words before it
  | miss (w : Warp)                  -- the block is not in the instruction cache; the warp is past fill words
  | fault (w : Warp) (c : Cur) (t : TrapInfo)
  deriving DecidableEq, Repr

/-- The bits of a block from a byte offset. -/
def blockBits (b : BitVec 256) (off : Nat) : BitVec 128 := (b >>> (8 * off)).setWidth 128

/-- The warp with the block at its PC fetched; the loop buffer holds the latest four blocks (R130). -/
def Warp.withBlock (w : Warp) (b : BitVec 256) : Warp :=
  let n := blockOf w.pc
  { w with fetched := some { addr := n * 32, bits := b },
           loopBuf := if w.loopBuf.head? = some n then w.loopBuf else (n :: w.loopBuf.filter (· != n)).take 4 }

/-- INFO0 and INFO1 of FETCH_BOUNDARY are unstated: free values. -/
def boundaryInfo (s : State) : TrapInfo :=
  { code := .fetchBoundary, info0 := Config.unstated s.free, info1 := Config.unstated (s.free + 1) }

/-- Fetches for a warp of code generation 4: fill words are skipped, at most `n` of them (R52, R53). -/
def fetchWord (s : State) (k : Core) (id : Nat) : Nat → Warp → Fetch
  | 0, w => .miss w
  | n + 1, w =>
    match fetchBlock k w with
    | none => .miss w
    | some b =>
      let w := w.withBlock b
      let off := w.pc.toNat % 32
      let bits := blockBits b off
      let len := lenBytes (bits.extractLsb' 0 2)
      if len = 4 then
        if bits.extractLsb' 0 32 = 3 then fetchWord s k id n { w with pc := w.pc + 4 }
        else
          .fault w { warp := id, len := 4, bits := (bits.extractLsb' 0 32).setWidth 128, adv := 4 }
            { code := .reservedField, info0 := (bits.extractLsb' 0 32).setWidth 64 }
      else if off + len > 32 then .fault w { warp := id, len := len, bits := maskLen len bits, adv := len } (boundaryInfo s)
      else .word w { warp := id, len := len, bits := maskLen len bits, adv := len }

/-- Fetches for a warp of code generation 3: the CY3 word at the PC, translated (R72, R76). -/
def fetchCy3 (k : Core) (id : Nat) (w : Warp) : Fetch :=
  match fetchBlock k w with
  | none => .miss w
  | some b =>
    let w := w.withBlock b
    let ws := cy3Translate ((b >>> (8 * (w.pc.toNat % 32))).setWidth 64)
    let x := if w.half then ws.getD 1 0 else ws.getD 0 0
    let more := decide (ws.length = 2) && !w.half
    .word w { warp := id, len := lenBytes (x.extractLsb' 0 2), bits := x, adv := if more then 0 else 8, half := more }

/-- The instruction that a warp issues next: the one that it has issued and that is held or waits, or a fetched one. -/
def State.fetchFor (s : State) (id : Nat) : Fetch :=
  let w := s.warp id
  match w.word with
  | some c => .word w { c with warp := id }
  | none =>
    let k := s.core w.core
    if (s.launchOfWarp w).gen = 3 then fetchCy3 k id w else fetchWord s k id k.fillWords w

/-! ## Selection (R108, R109) -/

/-- The warp is in the middle of its instruction: it has issued it and nothing holds it any more, or the second word of a
two-word CY3 translation is next (R72, R284). -/
def Warp.midway (w : Warp) : Bool :=
  (w.word.isSome || w.half) &&
    (match w.status with
     | .ready => true | .penalty _ => true | _ => false)

/-- The warp may issue, apart from its instruction (R108): it is resident, not waiting, halted, parked for replay or asleep,
and its workgroup is not stopped for a park, which lets an instruction under way end (R284). -/
def State.issuable (s : State) (w : Warp) : Bool :=
  let g := s.group w.gid
  let awake := match w.status with
    | .ready => true
    | .penalty t => decide (t ≤ s.clock)
    | .asleep t => decide (t ≤ s.clock)
    | .waiting _ => w.woken
    | _ => false
  g.state == .resident && !g.suspended && awake && !w.plumb.recognised && (!g.parking || (w.woken && g.wasWaiting) || w.midway)

/-- Passes that an instruction issues in (R79). -/
def passes (W : Nat) (r : Raw) : Nat :=
  let m := r.maj.toNat
  let vDst := decide (r.dst.toNat < 768)
  if (0x40 ≤ m ∧ m ≤ 0x9F) ∨ (0xA0 ≤ m ∧ m ≤ 0xB4 ∧ m ≠ 0xB3) ∨ (m = 0x17 ∧ vDst) ∨ m = 0xC1 ∨ m = 0xED then W / 32 else 1

/-- What the issue of a warp would do: the state before it issues and the outcome; none where it does not issue. -/
def State.tryIssue (ex : Instr → State → Out) (s : State) (id : Nat) : Option (State × Out) :=
  let w := s.warp id
  if !s.issuable w then none
  else
    let g := s.group w.gid
    let s := if g.parking && w.woken && g.wasWaiting then s.abandonPark w.gid else s
    match s.fetchFor id with
    | .miss _ => none
    | .fault w c t =>
      let s := { (s.setWarp id w) with cur := c }
      let s' := if t.code = .fetchBoundary then { s with free := s.free + 2 } else s
      some (s, .next (takeTrap t s'))
    | .word w c =>
      let s := { (s.setWarp id w) with cur := c }
      let out := ex (issueOf c.bits) s
      match out with
      | .next t => if tget t.warps id = tget s.warps id then none else some (s, out)
      | _ => some (s, out)

/-- The class of a role in the order of R109. -/
def roleClass : Role → Nat
  | .epilogue => 0 | .copy => 1 | .matrix => 2 | .general => 3

/-- Warps of a sub-core, in slot order (R78). -/
def State.subCore (s : State) (core sub : Nat) : List (Nat × Nat) :=
  s.slots.filterMap fun e => if e.1 / 32 = core ∧ e.1 % 4 = sub then some (e.1 % 32, e.2) else none

/-- The eligible warps of a sub-core with what their issue does. -/
def State.eligible (ex : Instr → State → Out) (s : State) (core sub : Nat) : List (Nat × Nat × State × Out) :=
  (s.subCore core sub).filterMap fun e => (s.tryIssue ex e.2).map fun r => (e.1, e.2, r)

/-- The first of a list that is least by a measure. -/
def leastBy {α : Type} (f : α → Nat) : List α → Option α
  | [] => none
  | x :: xs =>
    match leastBy f xs with
    | none => some x
    | some y => if f x ≤ f y then some x else some y

/-- The selected warp (R109). Before any warp of a class has issued its search starts at slot 0 (log entry 87). -/
def State.select (s : State) (core sub : Nat) (es : List (Nat × Nat × State × Out)) : Option (Nat × Nat × State × Out) :=
  let old := es.filter fun e => decide (32 ≤ (s.warp e.2.1).elig)
  match leastBy (fun e => ((s.warp e.2.1).eligSince).getD s.clock) old with
  | some e => some e
  | none =>
    let cls (e : Nat × Nat × State × Out) : Nat := roleClass (s.warp e.2.1).role
    match leastBy cls es with
    | none => none
    | some top =>
      let start := sget 0 (s.core core).rr (4 * sub + cls top)
      leastBy (fun e => (e.1 + 32 - start % 32) % 32) (es.filter fun e => cls e == cls top)

/-- Counts of eligible slots after an issue of `n` passes by warp `id`, whose own restarts (R109). -/
def State.countSlots (s : State) (ids : List (Nat × Nat)) (el : List Nat) (id n : Nat) : State :=
  ids.foldl (fun s e =>
    match tget s.warps e.2 with
    | none => s
    | some w =>
      if e.2 = id then s.setWarp e.2 { w with elig := 0, overdue := false, eligSince := some s.clock }
      else if el.contains e.2 then s.setWarp e.2 { w with elig := w.elig + n }
      else s) s

/-- The clock at which a penalty or sleep of the past ended; the present one for any other status. -/
def Status.since (x : Status) (clock : Nat) : Nat :=
  match x with
  | .penalty t => min t clock
  | .asleep t => min t clock
  | _ => clock

/-- What a turn leaves of a warp's count and of the clock since which it is eligible (R109): both restart where it is not
eligible. `early`: it was eligible before the turn's act, as soon as its penalty or sleep had ended. -/
def Warp.observed (w : Warp) (eligible early : Bool) (before : Status) (clock : Nat) : Warp :=
  if !eligible then { w with elig := 0, overdue := false, eligSince := none }
  else { w with eligSince := some (w.eligSince.getD (if early then before.since clock else clock)) }

/-- Looks at every warp after a turn; `s0` is the state in which the turn acted (R108, R109). -/
def State.observe (s : State) (ex : Instr → State → Out) (s0 : State) : State :=
  { s with warps := tmap (fun id w =>
      w.observed (s.tryIssue ex id).isSome (s0.tryIssue ex id).isSome (s0.warp id).status s.clock) s.warps }

/-- The same of what a turn answers. -/
def observeOut (ex : Instr → State → Out) (s0 : State) (out : Out) : Out :=
  match out with
  | .next s => .next (s.observe ex s0)
  | out => out

/-- A warp of a higher slot of the core has issued in this cycle already: in one cycle the lower slot comes first (R113, R242). -/
def Core.passedSlot (k : Core) (clock slot : Nat) : Bool := k.issueClock == clock && decide (slot < k.issueSlot)

/-- One issue slot of a sub-core: the selected warp issues; where none is eligible nothing happens. -/
def issueSlot (ex : Instr → State → Out) (core sub : Nat) (s : State) : Out :=
  let es := s.eligible ex core sub
  match s.select core sub es with
  | none => .next s
  | some e =>
    let c := s.core core
    if c.passedSlot s.clock e.1 then .next s
    else
    match e.2.2.2 with
    | .next t =>
      let cl := roleClass (s.warp e.2.1).role
      let n := passes (s.launchOfWarp (s.warp e.2.1)).w (Raw.ofBits e.2.2.1.cur.bits)
      let t := t.countSlots (s.subCore core sub) (es.map fun x => x.2.1) e.2.1 n
      let k := t.core core
      .next (t.setCore core { k with rr := sset 0 c.rr (4 * sub + cl) ((e.1 + 1) % 32), issueClock := s.clock, issueSlot := e.1 })
    | out => out

/-- Where no turn is given: the first sub-core with an eligible warp issues (log entry 2). -/
def firstSub (ex : Instr → State → Out) (s : State) : List (Nat × Nat) → Option (Nat × Nat)
  | [] => none
  | e :: es => if (s.tryIssue ex e.2).isSome then some (e.1 / 32, e.1 % 4) else firstSub ex s es

/-- An event of the part: it has no encoding. -/
def isEvent (i : Instr) : Bool :=
  match i with
  | .undefinedEncoding _ => false
  | i => i.raw?.isNone

/-- A turn of the tape: clocks pass, then an issue slot or an event. -/
def runTurn (ex : Instr → State → Out) (t : Turn) (s : State) : Out :=
  let s := { s with clock := s.clock + t.dt }
  observeOut ex s (match t.act with
    | .issue core sub => issueSlot ex core sub s
    | .event i args => if isEvent i then ex i { s with ev := args } else .next s)

/-- A step without a turn: one clock passes and the first eligible warp issues. -/
def runIdle (ex : Instr → State → Out) (s : State) : Out :=
  let s := { s with clock := s.clock + 1 }
  observeOut ex s (match firstSub ex s s.slots with
    | some (core, sub) => issueSlot ex core sub s
    | none => .next s)

/-! ## Placing one instruction for the next step (log entry 2) -/

/-- The launch in which a placed word runs: FULL, generation 4, one workgroup of one GENERAL warp of 32 lanes. -/
def placedLaunch : Launch :=
  { kind := .full, w := 32, widths := [5, 0, 0, 0, 0, 0], exts := [32, 1, 1, 1, 1, 1],
    partw := BitVec.ofNat 32 (2 + 4 * 2 ^ 7 + 4 * 2 ^ 14), codeBase := 0x10000, codeSize := 32, save := 0x20000, cores := [0],
    nextWg := 1, total := 1, pslots := 1 }

/-- The state with a word of `nbits` bits as the next instruction: a warp in slot 0 of core 0 has the block with the word
at its start fetched, and the next turn gives its sub-core the issue slot. -/
def State.placeWord (s : State) (nbits w : Nat) : State :=
  let id := s.nextWarp
  let gid := s.nextGroup
  let lid := s.nextLaunch
  let block : Block := { addr := 0x10000, bits := BitVec.ofNat 256 (w % 2 ^ nbits) }
  let warp : Warp := { gid := gid, place := some (0, 0), pc := 0x10000, exec := 0xFFFFFFFF, fetched := some block }
  let group : Group := { lid := lid, f := [0, 0, 0, 0], core := 0, warps := [id], first := false }
  { s with
    tape := [{ dt := 1, act := .issue 0 0 }],
    warps := tput s.warps id warp,
    groups := tput s.groups gid group,
    launches := tput s.launches lid placedLaunch,
    slots := tput (s.slots.filter fun e => !(decide (e.1 < 32) && e.1 % 4 == 0)) 0 id,
    ready := BitVec.allOnes 57,
    nextWarp := id + 1, nextGroup := gid + 1, nextLaunch := lid + 1 }

end Sys2Proof.Machine
end

