-- ==== Sys2Proof/Machine/CoreEvents.lean ====
section
/-!
DEFINITION. The events of a core: fetch, selection, writebacks, timers, ICINV, trap records and warp slots (spec/03 R77,
spec/04 R105, R109, R113, spec/05 R130 to R136). An event whose condition does not hold changes nothing.
-/
namespace Sys2Proof.Machine

/-- Does `f` with the warp in the slot that the event names. -/
def State.atSlot (s : State) (f : Nat → Warp → State) : State :=
  match tget s.slots (32 * s.ev.core + s.ev.slot) with
  | some id => match tget s.warps id with
    | some w => f id w
    | none => s
  | none => s

/-! ## ICACHE_FILL -/

/-- Where a block of code lies for a core (R200, R202). -/
def State.fetchRoute (s : State) (vi c : Nat) (pc : DWord) : Route :=
  let va := vaOf pc / 32 * 32
  if s.tableHidden vi va 32 then .refused (3 + 2048) else
  match (s.lookup {} vi c 128 va).getD (s.walk vi (c / 64) va) with
  | .ok x => if x.leaf.getLsbD 5 then s.gated ((s.vi vi).leafRoute x va 0 32) va else .refused (3 + 4096)
  | .refused l => .refused (3 + 4 * l + 128)
  | .invalid l => .faulted va (3 + 4 * l)
  | .hole => .walk va
  | .pending => .walk va
  | .bad a => .ecc a

/-- The walk of a fetch that no cache serves: what it reads is counted (R206), and its translation enters the caches (R200). -/
def State.fetchCached (s : State) (vi c va : Nat) : State :=
  match s.lookup {} vi c 128 va with
  | some _ => s
  | none =>
    let t := s.walkTraffic vi (c / 64) va
    match s.walk vi (c / 64) va with
    | .ok x => t.cacheXlat c x
    | _ => t

def State.fillBlock (s : State) (c blk : Nat) (bytes : List Byte) : State :=
  let k := s.core c
  s.setCore c { k with icache := tput k.icache blk (BitVec.ofNat 256 (bitsOfBytes bytes)) }

/-- Takes a trap of a fetch: the length of the instruction is unstated (R113), a free value. -/
def fetchTrap (id : Nat) (fault : Bool) (t : TrapInfo) (s : State) : State :=
  let len := 4 * (1 + (Config.unstated s.free).toNat % 4)
  let s := { s with cur := { warp := id, len := len }, free := s.free + 1 }
  let s := if fault then takePageFault t [] s else takeTrap t s
  s.setMe { s.me with word := none }

/-- ICACHE_FILL: the block at a warp's PC enters its core's cache, or its fetch traps. A block in a peer's memory is given by
the event. -/
def execIcacheFill (s : State) : Out :=
  .next (s.atSlot fun id w =>
    let vi := (s.launchOfWarp w).vi
    match if s.issuable w then s.fetchFor id else .word w {} with
    | .word _ _ => s
    | .fault _ _ _ => s
    | .miss w =>
    let s := s.setWarp id w
    if !canonical w.pc then
      fetchTrap id false { code := .protection, info0 := w.pc, info1 := BitVec.ofNat 64 (3 + 2048) } s
    else
      let t := s.fetchCached vi w.core (vaOf w.pc)
      let ecc (a : Nat) (t : State) : State :=
        fetchTrap id false { code := .eccUncorrectable, info0 := BitVec.ofNat 64 a } (t.readBadSeen vi w.die a)
      match s.fetchRoute vi w.core w.pc with
      | .cells ls =>
        (match s.readBad w.die ls with
         | some a => ecc a t
         | none => (t.l2FetchAll vi w.die ls).fillBlock w.core (blockOf w.pc) (ls.map (s.dieByte w.die)))
      | .peer _ _ => t.fillBlock w.core (blockOf w.pc) (s.ev.data.take 32)
      | .refused i =>
        fetchTrap id false { code := .protection, info0 := w.pc, info1 := BitVec.ofNat 64 (if i = 1024 then 3 + 1024 else i) } t
      | .faulted _ i => fetchTrap id true { code := .pageFault, info0 := w.pc, info1 := BitVec.ofNat 64 i } t
      | .ecc a => ecc a t
      | _ => s)

/-! ## Selection, timers and writebacks -/

/-- FAIRNESS_COUNT_EXPIRE (R109): the count has reached 32; the selection reads the count. -/
def execFairnessCountExpire (s : State) : Out :=
  .next (s.atSlot fun id w => if 32 ≤ w.elig then s.setWarp id { w with overdue := true } else s)

/-- A producer writes its registers, which become full (R97, R99). -/
def Warp.writeback (w : Warp) (p : Producer) : Warp :=
  let w := p.vals.foldl (fun w v => w.putReg p.vec v) w
  { Warp.markRegs w p.vec p.base false p.count with flight := w.flight.filter fun q => q.id != p.id }

/-- BRANCH_PENALTY_END (R130). -/
def execBranchPenaltyEnd (s : State) : Out :=
  .next (s.atSlot fun id w =>
    match w.status with
    | .penalty t => if t ≤ s.clock then s.setWarp id { w with status := .ready } else s
    | _ => s)

/-- SLEEP_EXPIRE (R134). -/
def execSleepExpire (s : State) : Out :=
  .next (s.atSlot fun id w =>
    match w.status with
    | .asleep t => if t ≤ s.clock then s.setWarp id { w with status := .ready } else s
    | _ => s)

/-! ## ICINV_COMPLETE (R131) -/

/-- The core lies in the scope of an ICINV of a warp on core `c`, and belongs to the interface. -/
def icinvCovers (v : Vi) (c : Nat) (sc : Scope) (x : Nat) : Bool :=
  v.cores.getLsbD x &&
    (match sc with
     | .core => x == c
     | .die => x / 64 == c / 64
     | _ => true)

def execIcinvComplete (s : State) : Out :=
  .next (s.atSlot fun id w =>
    match w.status with
    | .held (.icinv sc ids) =>
      if s.onTheWay w.die ids then s
      else
        let v := s.vi (s.launchOfWarp w).vi
        let covers := icinvCovers v w.core sc
        let s := { s with
          cores := tmap (fun c k => if covers c then { k with icache := [] } else k) s.cores,
          warps := tmap (fun _ x => if x.place.isSome && covers x.core then { x with loopBuf := [] } else x) s.warps }
        s.setWarp id { s.warp id with status := .ready, cont := .released }
    | _ => s)

/-! ## TRAP_RECORD_WRITE (R113, R414) -/

/-- The 64 bytes of a trap record. -/
def TrapRec.bytes (r : TrapRec) : List Byte :=
  leBytes (r.code + 2 ^ 8 * r.flags + 2 ^ 16 * r.len) 4 ++ leBytes (r.core + 2 ^ 16 * r.slot) 4 ++ leBytes r.pc.toNat 8 ++
  leBytes r.wid.toNat 8 ++ leBytes r.lanes.toNat 16 ++ leBytes r.info0.toNat 8 ++ leBytes r.info1.toNat 8 ++ leBytes r.clock 8

/-- The ring is set up and has room for one record. -/
def Vi.ringOpen (v : Vi) : Bool :=
  decide (v.trBase ≠ 0) && decide (v.trSize ≠ 0) && decide ((v.trHead - v.trTail).toNat < v.trSize.toNat)

/-- TRAP_RECORD_WRITE: the first held record is written, after the cycle in which it was raised: what a lower slot of its core raises in
that cycle still goes before it. -/
def execTrapRecordWrite (s : State) : Out :=
  .next (
    let v := s.vi s.ev.vi
    match v.trHeld with
    | [] => s
    | r :: rest =>
      if v.trBlocked || !v.ringOpen || decide (s.clock ≤ r.clock) then s
      else
        let a := v.trBase + BitVec.ofNat 64 (64 * (v.trHead.toNat % v.trSize.toNat))
        match s.routeRange s.ev.vi (r.core / 64) 1 a 64 with
        | .cells ls =>
          let s := (s.walked s.ev.vi (r.core / 64) a 64).engineWriteFrom s.ev.vi (r.core / 64) ls r.bytes
          s.setVi s.ev.vi { s.vi s.ev.vi with trHeld := rest, trHead := v.trHead + 1 }
        | .walk _ => s
        | _ => s.setVi s.ev.vi { v with trBlocked := true, trFlag := setBit v.trFlag 0 true })

/-! ## WARP_SLOT_RELEASE (R136) -/

def execWarpSlotRelease (s : State) : Out :=
  .next (s.atSlot fun id w =>
    if w.status = .exited ∧ w.flight.isEmpty then
      let s := s.setWarp id { w with place := none }
      { s with slots := tdel s.slots (32 * s.ev.core + s.ev.slot) }
    else s)

end Sys2Proof.Machine
end

