-- ==== Sys2Proof/Machine/MemEvents.lean ====
section
/-!
DEFINITION. The events of the memory system (spec/09 R193 to R201).
-/
namespace Sys2Proof.Machine

/-- L1_EVICTION (R193, R194): sector `addr` leaves the L1 of a core. -/
def execL1Eviction (s : State) : Out := .next (s.evict s.ev.core s.ev.addr)

/-- BOUNDARY_WRITE_DRAIN (R195): an entry reaches its home. Writes of one sector drain in order (R223), the host writes that every
die sees before a die's own. -/
def execBoundaryWriteDrain (s : State) : Out :=
  .next (
    match (s.die s.ev.die).wbuf.find? fun e => e.id == s.ev.id with
    | some e =>
      if (s.die s.ev.die).wbuf.any fun x => decide (x.id < e.id) && x.sector == e.sector then s else s.drain s.ev.die e
    | none =>
      match s.hostq.find? fun e => e.id == s.ev.id with
      | some e =>
        if ((s.hostq.takeWhile fun x => x.id != e.id).any fun x => x.sector == e.sector) then s
        else { s with hostq := s.hostq.filter fun x => x.id != e.id }.arrive (e.id % 4) e
      | none => s)

/-- RELEASE_COMPLETE (R196, R221, R232): what the release waits for has drained, and the warp's copies are performed. -/
def execReleaseComplete (s : State) : Out :=
  .next (s.atSlot fun id w =>
    match w.status with
    | .held (.release ids) =>
      if s.onTheWay w.die ids || (w.cont == .none && s.copying id) then s
      else s.setWarp id { w with status := .ready }
    | _ => s)

/-- The walks a warp waits for, without one that has ended. -/
def Status.walked (x : Status) (id : Nat) : Status :=
  match x with
  | .held (.walks ids) =>
    match ids.filter (· != id) with
    | [] => .ready
    | rest => .held (.walks rest)
  | st => st

/-- PAGE_WALK_COMPLETE (R198 to R202): the walk reads the tables; its outcome stands for the instruction that waits. A table
outside global memory is the fault of R199. -/
def execPageWalkComplete (s : State) : Out :=
  let d := s.ev.die
  match (s.die d).walks.find? fun k => k.id == s.ev.id with
  | none => .next s
  | some k =>
    match s.walk k.vi d k.va with
    | .hole => .fault .noSuchAddress
    | .pending => .next s
    | r =>
      let x := s.die d
      let s := s.setDie d { x with walks := x.walks.filter fun y => y.id != k.id }
      match tget s.warps k.warp with
      | none => .next s
      | some w =>
        let s := match r with
          | .ok x => s.cacheXlat w.core x
          | _ => s
        .next ((s.walkTraffic k.vi d k.va).setWarp k.warp
          { w with walkRes := w.walkRes ++ [(k.va / 65536, k.acc, r)], status := w.status.walked k.id, before := w.before.walked k.id })

/-- A translation lies in the range of an invalidation (R201, R413). -/
def Vi.sweeps (v : Vi) (vi : Nat) (x : Xlat) : Bool :=
  let lo := vaOf v.invStart
  let hi := lo + v.invCount.toNat * 65536
  x.vi == vi && (v.invCount == 0 || (decide (x.page * 2 ^ x.lg < hi) && decide (lo < (x.page + 1) * 2 ^ x.lg)))

/-- The translation that a walk result holds is swept. -/
def WalkResult.swept (v : Vi) (vi : Nat) (r : WalkResult) : Bool :=
  match r with
  | .ok x => v.sweeps vi x
  | _ => true

/-- The warp's peers have not performed an access that uses a stale translation (R201). -/
def Warp.staleAccess (v : Vi) (vi : Nat) (w : Warp) : Bool :=
  (w.status == .held .peer || w.before == .held .peer || w.cont == .answered || w.cont == .probing) && w.walkRes.any fun r =>
    match r.2.2 with
    | .ok x => v.sweeps vi x
    | _ => false

/-- Peers that a copy has asked under a stale translation have not all answered (R201). -/
def State.staleCopy (s : State) (stale : Xlat → Bool) : Bool :=
  s.cores.any fun k => k.2.copyq.any fun c =>
    c.pages.any stale && s.vis.any fun v => v.2.flits.any fun f => f.copy == some (k.1, c.id)

/-- INVALIDATION_COMPLETE (R201): every structure is swept, and no MVB, copy or peer access that captured a stale translation is
under way. -/
def execInvalidationComplete (s : State) : Out :=
  .next (
    let vi := s.ev.vi
    let v := s.vi vi
    let stale (x : Xlat) : Bool := v.sweeps vi x
    let busy := (s.cores.any fun k => k.2.mvbs.any fun c => c.pages.any stale) || s.staleCopy stale ||
      s.warps.any fun e => e.2.staleAccess v vi
    if !v.invGo || busy then s
    else
      let keep (xs : List Xlat) : List Xlat := xs.filter fun x => !stale x
      let s := { s with
        cores := tmap (fun _ k => { k with tlb := keep k.tlb }) s.cores,
        dies := tmap (fun _ d => { d with tlb := keep d.tlb }) s.dies,
        warps := tmap (fun _ w =>
          if (s.launchOfWarp w).vi = vi then
            { w with lastPage := w.lastPage.filter fun e => !stale e.2, walkRes := w.walkRes.filter fun r => !r.2.2.swept v vi }
          else w) s.warps }
      s.setVi vi { s.vi vi with invGo := false })

end Sys2Proof.Machine
end

