-- ==== Sys2Proof/Machine/Vector.lean ====
section
/-!
DEFINITION. The meanings of the vector instructions of spec/07 R164 to R175: arithmetic, logic, compares, select,
conversions, blocks of the shared-exponent family, roots and approximated functions.
-/
namespace Sys2Proof.Machine

/-- Source `i` of `n` in a lane; a source that the instruction does not have is zero and unpoisoned. -/
def laneSource (e : Env) (o : COp) (n i : Nat) (t : Ty) (x : Src) (l : Nat) : Val :=
  if n < i then {} else laneOp e t o (hasImm o.ext && n == i) x l

/-- The common effect of R163: `n` sources of types `ta`, `tb`, `tc`, `regs` destination registers; `rd`: the old
destination is a source too. -/
def vectorBody (o : COp) (n : Nat) (ta tb tc : Ty) (rd : Bool) (regs : Nat)
    (f : DWord → DWord → DWord → DWord → Res) (e : Env) (s : State) : State :=
  let a := laneSource e o n 1 ta o.a
  let b := laneSource e o n 2 tb o.b
  let c := laneSource e o n 3 tc o.c
  let d (l : Nat) : Val := if rd then e.w.vval (dstReg e.w o.dst l) regs l else {}
  let res (l : Nat) : Res := f (a l).bits (b l).bits (c l).bits (d l).bits
  let p (l : Nat) : Bool := (a l).p || (b l).p || (c l).p || (d l).p
  let val (l : Nat) : Val := { bits := (res l).bits, p := p l }
  let w := writeLanes e o.dst regs val s.me e.active
  let fl := flagsOf ((e.active.filter fun l => !p l).map fun l => (res l).fl)
  retireHold e (holdOf o.hold a b val) (s.setMe (w.orFstat fl))

/-- A vector instruction of that mould. -/
def vectorInstr (maj : BitVec 8) (t : Ty) (o : COp) (n : Nat) (ta tb tc : Ty) (rd : Bool) (regs : Nat)
    (f : DWord → DWord → DWord → DWord → Res) (s : State) : State :=
  issue (o.raw maj t.code) (vectorBody o n ta tb tc rd regs f) s

def vectorUn (maj : BitVec 8) (t : Ty) (o : COp) (f : Ty → Mod → DWord → Res) (s : State) : State :=
  vectorInstr maj t o 1 t t t false t.regs (fun a _ _ _ => f t (modOf o.ext) a) s
def vectorBin (maj : BitVec 8) (t : Ty) (o : COp) (f : Ty → Mod → DWord → DWord → Res) (s : State) : State :=
  vectorInstr maj t o 2 t t t false t.regs (fun a b _ _ => f t (modOf o.ext) a b) s
def vectorTern (maj : BitVec 8) (t : Ty) (o : COp) (f : Ty → Mod → DWord → DWord → DWord → Res) (s : State) : State :=
  vectorInstr maj t o 3 t t t false t.regs (fun a b c _ => f t (modOf o.ext) a b c) s
def vectorShiftOp (maj : BitVec 8) (t : Ty) (o : COp) (f : Ty → DWord → DWord → Res) (s : State) : State :=
  vectorInstr maj t o 2 t .n32 t false t.regs (fun a b _ _ => f t a b) s

/-- The 32-bit accumulator type of a short dot product (R166). -/
def dotAcc (t : Ty) : Ty := if t.isFloat then .f32 else if t.isI then .i32 else .n32

def execVmov (t : Ty) (o : COp) (s : State) : Out := .next (vectorUn 0x40 t o (fun _ _ a => { bits := a }) s)
def execVadd (t : Ty) (o : COp) (s : State) : Out := .next (vectorBin 0x41 t o opAdd s)
def execVsub (t : Ty) (o : COp) (s : State) : Out := .next (vectorBin 0x42 t o opSub s)
def execVmul (t : Ty) (o : COp) (s : State) : Out := .next (vectorBin 0x43 t o opMul s)
def execVmulh (t : Ty) (o : COp) (s : State) : Out := .next (vectorBin 0x44 t o (fun t _ => opMulh t) s)
def execVmulw (t : Ty) (o : COp) (s : State) : Out := .next (vectorInstr 0x45 t o 2 t t t false 2 (fun a b _ _ => opMulw t a b) s)
def execVfma (t : Ty) (o : COp) (s : State) : Out := .next (vectorTern 0x46 t o opFma s)
def execVmin (t : Ty) (o : COp) (s : State) : Out := .next (vectorBin 0x47 t o opMin s)
def execVmax (t : Ty) (o : COp) (s : State) : Out := .next (vectorBin 0x48 t o opMax s)
def execVclamp (t : Ty) (o : COp) (s : State) : Out := .next (vectorTern 0x49 t o opClamp s)
def execVabs (t : Ty) (o : COp) (s : State) : Out := .next (vectorUn 0x4A t o opAbs s)
def execVneg (t : Ty) (o : COp) (s : State) : Out := .next (vectorUn 0x4B t o opNeg s)
def execVcsgn (t : Ty) (o : COp) (s : State) : Out := .next (vectorBin 0x4C t o (fun t _ => opCsgn t) s)
def execVaddc (t : Ty) (o : COp) (s : State) : Out := .next (vectorInstr 0x4D t o 3 t t t false 2 (fun a b c _ => opAddc a b c) s)
def execVsubb (t : Ty) (o : COp) (s : State) : Out := .next (vectorInstr 0x4E t o 3 t t t false 2 (fun a b c _ => opSubb a b c) s)
/-- The sources of a short dot product are packed 32-bit registers (R59, R166). -/
def execVdot2 (t : Ty) (o : COp) (s : State) : Out := .next (vectorInstr 0x4F t o 3 .b32 .b32 (dotAcc t) false 1 (fun a b c _ => opDot t 2 (modOf o.ext) a b c) s)
def execVdot4 (t : Ty) (o : COp) (s : State) : Out := .next (vectorInstr 0x50 t o 3 .b32 .b32 (dotAcc t) false 1 (fun a b c _ => opDot t 4 (modOf o.ext) a b c) s)
def execVand (t : Ty) (o : COp) (s : State) : Out := .next (vectorBin 0x51 t o (fun _ _ => opAnd) s)
def execVor (t : Ty) (o : COp) (s : State) : Out := .next (vectorBin 0x52 t o (fun _ _ => opOr) s)
def execVxor (t : Ty) (o : COp) (s : State) : Out := .next (vectorBin 0x53 t o (fun _ _ => opXor) s)
def execVnot (t : Ty) (o : COp) (s : State) : Out := .next (vectorUn 0x54 t o (fun t _ => opNot t) s)
def execVshl (t : Ty) (o : COp) (s : State) : Out := .next (vectorShiftOp 0x55 t o opShl s)
def execVshr (t : Ty) (o : COp) (s : State) : Out := .next (vectorShiftOp 0x56 t o opShr s)
def execVsra (t : Ty) (o : COp) (s : State) : Out := .next (vectorShiftOp 0x57 t o opSra s)
def execVpopc (t : Ty) (o : COp) (s : State) : Out := .next (vectorInstr 0x58 t o 1 t t t false 1 (fun a _ _ _ => opPopc t a) s)
def execVclz (t : Ty) (o : COp) (s : State) : Out := .next (vectorInstr 0x59 t o 1 t t t false 1 (fun a _ _ _ => opClz t a) s)
def execVbrev (t : Ty) (o : COp) (s : State) : Out := .next (vectorUn 0x5A t o (fun t _ => opBrev t) s)
def execVbfe (t : Ty) (o : COp) (s : State) : Out := .next (vectorInstr 0x5B t o 3 t .n32 .n32 false t.regs (fun a b c _ => opBfe t a b c) s)
def execVbfi (t : Ty) (o : COp) (s : State) : Out := .next (vectorInstr 0x5C t o 3 t .n32 .n32 true t.regs (fun a b c d => opBfi t a b c d) s)
def execVpermb (t : Ty) (o : COp) (s : State) : Out := .next (vectorTern 0x5D t o (fun _ _ => opPermb) s)

/-! ## Results that are masks (R82, R100, R169, R170) -/

/-- Writes a mask group: bit `l` where lane `l` is active and `q l`; a register is poisoned where `p` holds in one of its
active lanes. Then completes with the captures. -/
def maskResult (e : Env) (o : COp) (a b : Nat → Val) (q p : Nat → Bool) (s : State) : State :=
  match o.dst with
  | .s n =>
    let m := lanesOf (e.active.filter q)
    let pr (i : Nat) : Bool := e.active.any fun l => l / 32 == i && p l
    let w := s.me.putMask n.toNat m pr e.mg
    retireHold e (holdOf o.hold a b (maskLane w n.toNat)) (s.setMe w)
  | _ => s

/-- A vector compare (R169). DEDUCED: a lane raises flags where its own sources are not poisoned, whatever poisons its mask register (R100,
R153; log entry 117). -/
def vectorCompare (maj : BitVec 8) (t : Ty) (o : COp) (k : Cmp) (s : State) : State :=
  issue (o.raw maj t.code) (fun e s =>
    let a := laneSource e o 2 1 t o.a
    let b := laneSource e o 2 2 t o.b
    let r (l : Nat) : Bool × Flags := opCmp t (modOf o.ext) k (a l).bits (b l).bits
    let p (l : Nat) : Bool := (a l).p || (b l).p
    let fl := flagsOf ((e.active.filter fun l => !p l).map fun l => (r l).2)
    maskResult e o a b (fun l => (r l).1) p (s.setMe (s.me.orFstat fl))) s

def execVcmpeq (t : Ty) (o : COp) (s : State) : Out := .next (vectorCompare 0x5E t o .eq s)
def execVcmpne (t : Ty) (o : COp) (s : State) : Out := .next (vectorCompare 0x5F t o .ne s)
def execVcmplt (t : Ty) (o : COp) (s : State) : Out := .next (vectorCompare 0x60 t o .lt s)
def execVcmple (t : Ty) (o : COp) (s : State) : Out := .next (vectorCompare 0x61 t o .le s)
def execVcmpu (t : Ty) (o : COp) (s : State) : Out := .next (vectorCompare 0x62 t o .u s)

/-- The register of a mask group operand. -/
def maskReg (x : Src) : Nat :=
  match x with
  | .s n => n.toNat
  | _ => 0

/-- VSEL (R170): an immediate replaces OPB. -/
def execVsel (t : Ty) (o : COp) (s : State) : Out :=
  .next (issue (o.raw 0x63 t.code) (fun e s =>
    let a := laneOp e t o false o.a
    let b := laneOp e t o (hasImm o.ext) o.b
    let val (l : Nat) : Val :=
      let m := maskLane e.w (maskReg o.c) l
      let x := if m.bits = 1 then a l else b l
      { x with p := x.p || m.p }
    retireHold e (holdOf o.hold a b val) (s.setMe (writeLanes e o.dst t.regs val s.me e.active))) s)

/-! ## Conversions, rounding, roots, approximations (R171 to R175) -/

def execVcvt (t : Ty) (o : COp) (s : State) : Out := .next (vectorInstr 0x64 t o 1 (modOf o.ext).ty2 t t false t.regs (fun a _ _ _ => opCvt t (modOf o.ext).ty2 (modOf o.ext) a) s)
def execVfract (t : Ty) (o : COp) (s : State) : Out := .next (vectorUn 0x67 t o opFract s)
def execVldexp (t : Ty) (o : COp) (s : State) : Out := .next (vectorInstr 0x68 t o 2 t .i32 t false t.regs (fun a b _ _ => opLdexp t (modOf o.ext) a b) s)
def execVsqrt (t : Ty) (o : COp) (s : State) : Out := .next (vectorUn 0x69 t o opSqrt s)
def execVrcp (t : Ty) (o : COp) (s : State) : Out := .next (vectorUn 0x6A t o (opApprox .rcp) s)
def execVrsq (t : Ty) (o : COp) (s : State) : Out := .next (vectorUn 0x6B t o (opApprox .rsq) s)
def execVexp2 (t : Ty) (o : COp) (s : State) : Out := .next (vectorUn 0x6C t o (opApprox .exp2) s)
def execVlog2 (t : Ty) (o : COp) (s : State) : Out := .next (vectorUn 0x6D t o (opApprox .log2) s)
def execVsin (t : Ty) (o : COp) (s : State) : Out := .next (vectorUn 0x6E t o (opApprox .sin) s)
def execVcos (t : Ty) (o : COp) (s : State) : Out := .next (vectorUn 0x6F t o (opApprox .cos) s)
def execVrint (t : Ty) (o : COp) (s : State) : Out := .next (vectorUn 0x77 t o opRint s)

/-! ## Shared-exponent blocks in registers (R173) -/

/-- Active lanes of a group of 16. -/
def groupActive (e : Env) (k : Nat) : List Nat := e.active.filter fun l => l / 16 == k

/-- ILLEGAL_CONVERGENCE of VSEPACK and VSEUNPK (R173, R183). -/
def blockTrap (e : Env) : Option TrapInfo :=
  let part := e.active.filter fun l => (groupActive e (l / 16)).length < 16
  if part.isEmpty then none
  else some { code := .illegalConvergence, lanes := lanesOf part, info0 := e.w.exec.extractLsb' 0 64,
              info1 := e.w.exec.extractLsb' 64 64 }

/-- VSEPACK (R173). -/
def execVsepack (t : Ty) (o : COp) (s : State) : Out :=
  .next (issue (o.raw 0x65 t.code) (fun e s =>
    match blockTrap e with
    | some k => takeTrap k s
    | none =>
      let u := (modOf o.ext).ty2
      let a := laneSource e o 1 1 u o.a
      let num (l : Nat) : Num := (tyFmt u).unpack ((a l).bits.toNat % 2 ^ tyBits u)
      let lanes16 (k : Nat) : List Nat := (List.range 16).map fun i => 16 * k + i
      let blk (k : Nat) : Nat × Flags := seConvert t ((lanes16 k).map num)
      let pois (k : Nat) : Bool := (lanes16 k).any fun l => (a l).p
      let val (l : Nat) : Val :=
        { bits := BitVec.ofNat 64 (if l % 16 < 5 then field (blk (l / 16)).1 (32 * (l % 16)) 32 else 0), p := pois (l / 16) }
      let ks := (List.range (e.W / 16)).filter fun k => !(groupActive e k).isEmpty && !pois k
      let w := (writeLanes e o.dst 1 val s.me e.active).orFstat (flagsOf (ks.map fun k => (blk k).2))
      retireHold e (holdOf o.hold a (fun _ => {}) val) (s.setMe w)) s)

/-- VSEUNPK (R173): elements of the block in lanes 16g to 16g + 4 of OPA. -/
def execVseunpk (t : Ty) (o : COp) (s : State) : Out :=
  .next (issue (o.raw 0x66 t.code) (fun e s =>
    match blockTrap e with
    | some k => takeTrap k s
    | none =>
      let u := (modOf o.ext).ty2
      let a := laneSource e o 1 1 .b32 o.a
      let n := (seBytes u + 3) / 4
      let block (k : Nat) : Nat := (List.range 5).foldl (fun x i => x + (a (16 * k + i)).bits.toNat * 2 ^ (32 * i)) 0
      let res (l : Nat) : Nat × Flags :=
        (tyFmt t).round (modOf o.ext).rnd false (seElem u (block (l / 16)) (l % 16))
      let pois (k : Nat) : Bool := (List.range n).any fun i => (a (16 * k + i)).p
      let val (l : Nat) : Val := { bits := place t (res l).1, p := pois (l / 16) }
      let fl := flagsOf ((e.active.filter fun l => !pois (l / 16)).map fun l => (res l).2)
      let w := (writeLanes e o.dst 1 val s.me e.active).orFstat fl
      retireHold e (holdOf o.hold a (fun _ => {}) val) (s.setMe w)) s)

end Sys2Proof.Machine
end

