-- ==== Sys2Proof/Machine/Lanes.lean ====
section
/-!
DEFINITION. The meanings of the lane instructions, votes, broadcasts, index registers and poison tests (spec/07 R176 to
R182).
-/
namespace Sys2Proof.Machine

/-- Forms of VSHFL (R177). -/
inductive Shfl | idx | xor | up | dn
  deriving DecidableEq, Repr

/-- The source lane of VSHFL in lane `l` of a segment of `sg` lanes (R177). -/
def shflLane (k : Shfl) (sg l b : Nat) : Nat :=
  let base := l - l % sg
  match k with
  | .idx => base + b % sg
  | .xor => base + Nat.xor (l % sg) (b % sg)
  | .up => if b ≤ l - base then l - b else l
  | .dn => if b < base + sg - l then l + b else l

/-- Lanes of a segment: SEG in AUX[4:2], 0 for the whole warp (R177). -/
def shflSegment (e : Env) (o : COp) : Nat :=
  let sg := (o.ext.aux.extractLsb' 2 3).toNat
  if sg = 0 then e.W else 2 ^ sg

/-- VSHFL (R177). The source lane is read whatever its EXEC bit (R176). DESIGN CHOICE: HOLD captures OPA of the lane itself, not of its
source lane (log entry 119); VBCAST the same. -/
def shuffle (k : Shfl) (t : Ty) (o : COp) (s : State) : State :=
  issue (o.raw 0x70 t.code) (fun e s =>
    let a := laneSource e o 2 1 t o.a
    let b := laneSource e o 2 2 .n32 o.b
    let src (l : Nat) : Nat := shflLane k (shflSegment e o) l (countOf (b l).bits)
    let val (l : Nat) : Val := { a (src l) with p := (a (src l)).p || (b l).p }
    retireHold e (holdOf o.hold a b val) (s.setMe (writeLanes e o.dst t.regs val s.me e.active))) s

def execVshflIdx (t : Ty) (o : COp) (s : State) : Out := .next (shuffle .idx t o s)
def execVshflXor (t : Ty) (o : COp) (s : State) : Out := .next (shuffle .xor t o s)
def execVshflUp (t : Ty) (o : COp) (s : State) : Out := .next (shuffle .up t o s)
def execVshflDn (t : Ty) (o : COp) (s : State) : Out := .next (shuffle .dn t o s)

/-- The predicate of VVOTE in a lane: the value is not zero, read as B32 (R178). -/
def votes (a : Nat → Val) (l : Nat) : Bool := decide (lo32 (a l).bits ≠ 0)

/-- VVOTE.ANY and VVOTE.ALL write SCC and, where DST names one, an s register (R178). -/
def vote (ty : BitVec 5) (f : List Bool → Bool) (o : COp) (s : State) : State :=
  issue (o.raw 0x71 ty) (fun e s =>
    let a := laneSource e o 1 1 .b32 o.a
    let r := f (e.active.map (votes a))
    let p := e.active.any fun l => (a l).p
    let x : Val := { bits := if r then 1 else 0, p := p }
    retireHold e (holdOf o.hold a (fun _ => {}) (fun _ => x))
      (writeScalar o.dst 1 x (s.setMe (s.me.setScc r p)))) s

def execVvoteAny (o : COp) (s : State) : Out := .next (vote 0 (fun bs => bs.any id) o s)
def execVvoteAll (o : COp) (s : State) : Out := .next (vote 1 (fun bs => bs.all id) o s)

/-- VVOTE.BALLOT (R178). -/
def execVvoteBallot (o : COp) (s : State) : Out :=
  .next (issue (o.raw 0x71 2) (fun e s =>
    let a := laneSource e o 1 1 .b32 o.a
    maskResult e o a (fun _ => {}) (votes a) (fun l => (a l).p) s) s)

/-- VLANE (R179): a number for each lane, never poisoned. -/
def laneNumber (ty : BitVec 5) (f : Env → Nat → Nat) (o : COp) (s : State) : State :=
  issue (o.raw 0x72 ty) (fun e s =>
    let val (l : Nat) : Val := { bits := BitVec.ofNat 64 (f e l) }
    retireHold e (holdOf o.hold (fun _ => {}) (fun _ => {}) val) (s.setMe (writeLanes e o.dst 1 val s.me e.active))) s

def execVlaneId (o : COp) (s : State) : Out := .next (laneNumber 0 (fun _ l => l) o s)
def execVlanePfx (o : COp) (s : State) : Out :=
  .next (laneNumber 1 (fun e l => (e.active.filter fun k => decide (k < l)).length) o s)

/-- VBCAST (R180): into every active lane, or into an s register whatever EXEC holds. A poisoned OPB traps. -/
def execVbcast (t : Ty) (o : COp) (s : State) : Out :=
  .next (issue (o.raw 0x73 t.code) (fun e s =>
    let a := laneSource e o 2 1 t o.a
    let b := scalarOp e .n32 o (hasImm o.ext) o.b
    if b.p then takeTrap (poisonInfo o.b.code) s
    else
      let x := a (countOf b.bits % e.W)
      let h := holdOf o.hold a (fun _ => b) (fun _ => x)
      match o.dst with
      | .s n => retireHold e h (s.setMe (s.me.putSVal n.toNat t.regs x))
      | _ => retireHold e h (s.setMe (writeLanes e o.dst t.regs (fun _ => x) s.me e.active))) s)

/-! ## Index registers (R181) -/

/-- The index register named by AUX[2:0]. -/
def xNumber (o : COp) : Nat := (o.ext.aux.extractLsb' 0 3).toNat

/-- Writes index register `i` of the given lanes. -/
def writeIndex (i : Nat) (f : Nat → XReg) (w : Warp) : List Nat → Warp
  | [] => w
  | l :: ls => writeIndex i f { w with x := sset {} w.x (128 * i + l) (f l) } ls

/-- Lanes in which a source is poisoned; all ones for a scalar operand (R183). -/
def poisonLanes (x : Src) (gone : Bool) (a : Nat → Val) (ls : List Nat) : Lanes :=
  match x with
  | .s _ => BitVec.allOnes 128
  | .g _ => BitVec.allOnes 128
  | _ => if gone then BitVec.allOnes 128 else lanesOf (ls.filter fun l => (a l).p)

/-- The POISON_USE of the first of several sources that is poisoned in an active lane. -/
def sourcePoison (e : Env) : List (Src × Bool × (Nat → Val)) → Option TrapInfo
  | [] => none
  | (x, gone, a) :: rest =>
    if e.active.any fun l => (a l).p then
      some (poisonInfo (if gone then 0 else x.code) (poisonLanes x gone a e.active))
    else sourcePoison e rest

/-- VXSET (R181, R183): INDEX_BOUNDS comes before POISON_USE. DESIGN CHOICE: INFO1 holds the rejected value of the lowest lane that has one,
of OPA before OPB before OPC (log entry 116). -/
def execVxset (o : COp) (s : State) : Out :=
  .next (issue (o.raw 0x74 0) (fun e s =>
    let a := laneSource e o 3 1 .n32 o.a
    let b := laneSource e o 3 2 .n32 o.b
    let c := laneSource e o 3 3 .n32 o.c
    let i := xNumber o
    let big (x : Nat → Val) (l : Nat) : Bool := decide (countOf (x l).bits > 511)
    let bad := e.active.filter fun l => big a l || big b l || big c l
    match bad with
    | l :: _ =>
      let v := if big a l then a l else if big b l then b l else c l
      takeTrap { code := .indexBounds, lanes := lanesOf bad, info0 := BitVec.ofNat 64 (i + 256),
                 info1 := BitVec.ofNat 64 (countOf v.bits) } s
    | [] =>
      match sourcePoison e [(o.a, false, a), (o.b, false, b), (o.c, hasImm o.ext, c)] with
      | some t => takeTrap t s
      | none =>
        let f (l : Nat) : XReg :=
          { index := BitVec.ofNat 9 (countOf (a l).bits), base := BitVec.ofNat 9 (countOf (b l).bits),
            limit := BitVec.ofNat 9 (countOf (c l).bits) }
        retireHold e (holdOf o.hold a b (fun _ => {})) (s.setMe (writeIndex i f s.me e.active))) s)

/-- VXADD (R181). -/
def execVxadd (o : COp) (s : State) : Out :=
  .next (issue (o.raw 0x75 0) (fun e s =>
    let a := laneSource e o 1 1 .i32 o.a
    let i := xNumber o
    match sourcePoison e [(o.a, hasImm o.ext, a)] with
    | some t => takeTrap t s
    | none =>
      let f (l : Nat) : XReg :=
        let x := sget {} e.w.x (128 * i + l)
        { x with index := x.index + (lo32 (a l).bits).setWidth 9 }
      retireHold e (holdOf o.hold a (fun _ => {}) (fun _ => {})) (s.setMe (writeIndex i f s.me e.active))) s)

/-- VPTEST (R182): the poison bits as a mask, never poisoned. -/
def execVptest (o : COp) (s : State) : Out :=
  .next (issue (o.raw 0x76 0) (fun e s =>
    let a := laneSource e o 1 1 .b32 o.a
    maskResult e o a (fun _ => {}) (fun l => (a l).p) (fun _ => false) s) s)

end Sys2Proof.Machine
end

