-- ==== Sys2Proof/Machine/Survey.lean ====
section
/-!
DEFINITION. The meanings of the survey instructions (spec/17 R345 to R359).
-/
namespace Sys2Proof.Machine

/-- ILLEGAL_INSTRUCTION with a cause in INFO1 (R359). -/
def surveyIllegal (s : State) (i : Nat) : TrapInfo := wordInfo s i

/-- The survey instructions do not run in a TASK launch (R349). -/
def notTask (e : Env) (k : State → State) (s : State) : State :=
  if e.l.kind = .task then takeTrap (surveyIllegal s 1) s else k s

/-- GROUP of the AUX field. -/
def surveyGroup (o : EOp) : Nat := ((EOp.auxBits o).extractLsb' 0 4).toNat

/-! ## SVGRP (R346, R347, R350) -/

/-- The 16 bytes of an entry of the group table (R347). -/
def svBytes : Option SvGroup → List Byte
  | none => leBytes 0 16
  | some x => leBytes x.lo 4 ++ leBytes x.hi 4 ++ leBytes (2 ^ 31 + 16 * x.die + x.fld) 4 ++ leBytes 0 4

/-- An entry of the table as a launch holds it. -/
def Launch.svSet (l : Launch) (n : Nat) (x : Option SvGroup) : Launch :=
  { l with survey := match x with
      | some y => tput l.survey n y
      | none => tdel l.survey n }

/-- An entry changes: at the survey network, and in the table in memory where its page is reached from a die (R347, log entry 98). -/
def State.svPut (s : State) (lid die n : Nat) (x : Option SvGroup) : State :=
  let l := s.launchOf lid
  let s := s.setLaunch lid (l.svSet n x)
  let a := l.save + BitVec.ofNat 64 (16 * n)
  match s.routeRange l.vi die 1 a 16 with
  | .cells ls => (s.walked l.vi die a 16).engineWriteFrom l.vi die ls (svBytes x)
  | _ => s

/-- The value checks of SVGRP. -/
def svgrpBad (l : Launch) (n die fld lo hi : Nat) : Bool :=
  decide (die > 4) || l.width (2 + fld) == 0 || decide (lo ≥ hi) || decide (hi > l.ext (2 + fld)) ||
  decide (hi - lo > (if die = 4 then 256 else 64)) ||
  (decide (die < 4) && !((l.cores ++ l.collCores).any fun c => c / 64 == die)) ||
  (decide (die < 4) && l.survey.any fun e =>
    e.1 != n && decide (e.2.die < 4) && e.2.die != die && (e.2.fld != fld || (decide (e.2.lo < hi) && decide (lo < e.2.hi))))

def execSvgrp (o : EOp) (s : State) : Out :=
  .next (issue (o.raw 0xEC) (fun e s =>
    notTask e (fun s =>
      let a := sgkVal e .n32 o.a
      let b := sgkVal e .n32 o.b
      let lo := (lo32 a.bits).toNat
      let hi := (lo32 b.bits).toNat
      let die := (o.fn.extractLsb' 4 3).toNat
      let fld := (o.fn.extractLsb' 2 2).toNat
      let n := surveyGroup o
      let g := ((trapIf a.p (poisonInfo o.a.code)).then (trapIf b.p (poisonInfo o.b.code))).then
        (trapIf (svgrpBad e.l n die fld lo hi) (surveyIllegal s 2))
      runGate g (fun s =>
        retire e (s.svPut e.g.lid e.w.die n (some { lo := lo, hi := hi, die := die, fld := fld }))) s) s) s)

def execSvgrpClr (o : EOp) (s : State) : Out :=
  .next (issue (o.raw 0xEC) (fun e s =>
    notTask e (fun s => retire e (s.svPut e.g.lid e.w.die (surveyGroup o) none)) s) s)

/-! ## Members (R345, R353) -/

/-- The linear index of the workgroup with some field values, F2 fastest (R286). -/
def Launch.linearOf (l : Launch) (f : List Nat) : Nat :=
  (List.range 4).foldr (fun k a => a * l.ext (2 + k) + f.getD k 0) 0

/-- The field values of a linear index. -/
def Launch.fieldsOf (l : Launch) (n : Nat) : List Nat :=
  (List.range 4).map fun k => n / ((List.range k).foldl (fun a j => a * l.ext (2 + j)) 1) % l.ext (2 + k)

/-- The linear indices of the members of a group for a workgroup, in member-index order. -/
def surveyMembers (l : Launch) (g : Group) (x : SvGroup) : List Nat :=
  (List.range (x.hi - x.lo)).map fun i => l.linearOf (g.f.set x.fld (x.lo + i))

/-- Where a member stands. -/
inductive Member
  | unstarted
  | retired
  | here (gid : Nat) (g : Group)
  deriving DecidableEq, Repr

def State.member (s : State) (lid linear : Nat) : Member :=
  match s.groups.find? fun e => e.2.lid == lid && e.2.linear == linear with
  | some e => if e.2.first && e.2.state == .restoring then .unstarted else .here e.1 e.2
  | none =>
    let l := s.launchOf lid
    if l.nextWg ≤ linear ∨ l.skipped.contains linear then .unstarted else .retired

/-- A member in SAVING or RESTORING: it is read after the transit (R305, R353). -/
def Member.moving : Member → Bool
  | .here _ g => g.state == .saving || g.state == .restoring
  | _ => false

/-! ## SVLD (R348, R351 to R357) -/

/-- OP and the bytes of a leaf. -/
def svOp (o : EOp) : Nat := (o.fn.extractLsb' 3 4).toNat
def svSize (op : Nat) : Nat := if op = 1 then 2 else 4

/-- The address operand of a lane. -/
def svAddr (e : Env) (o : EOp) (l : Nat) : Val :=
  match o.a with
  | .v n => e.w.vval n.toNat 2 l
  | .s n => e.w.sval n.toNat 2
  | _ => {}

/-- A leaf as a 32-bit operand: BF16 leaves are widened (R157). -/
def svLeaf (op x : Nat) : Word := if op = 1 then BitVec.ofNat 32 (x * 65536) else BitVec.ofNat 32 x

/-- The die on which a leaf of a member is placed, and its bytes (R353, R355). A save area that cannot be reached serves its
bytes from the record, on the reading die. -/
def State.svRead (s : State) (me : Nat) (m : Member) (off n : Nat) : Nat × Nat :=
  match m with
  | .here _ g =>
    let l := s.launchOf g.lid
    if g.state = .parked then
      match s.saveRoute l g me 0 (l.scratchPart + off) n with
      | .cells ls => (if isHost (ls.headD 0) then me else homeDie (ls.headD 0), bitsOfBytes (ls.map fun a => s.mem.byte a))
      | _ => (me, bitsOfBytes (g.scratch.bytes off n))
    else (g.core / 64, bitsOfBytes (g.scratch.bytes off n))
  | _ => (me, 0)

/-- A node of the tree as it travels: its value, the die on which all its leaves lie (none for several), where it stands,
and the boundaries that values have crossed. -/
structure SvNode where
  val : Word
  uni : Option Nat
  at_ : Nat
  cross : List (Nat × Nat) := []
  deriving DecidableEq, Repr

/-- Evaluates a node (R355): where all leaves lie on one die there, else on the issuing warp's die. -/
def svNode (op me : Nat) (l r : SvNode) : SvNode :=
  let v := treeOp op l.val r.val
  if l.uni = r.uni ∧ l.uni.isSome then { val := v, uni := l.uni, at_ := l.at_, cross := l.cross ++ r.cross }
  else { val := v, uni := none, at_ := me, cross := l.cross ++ r.cross ++ [(l.at_, me), (r.at_, me)] }

/-- Counts survey bytes over one boundary, on both dies (R356). -/
def State.svCross (s : State) (vi a b n : Nat) : State :=
  if a = b then s else (s.count vi a 3 n).count vi b 3 n

/-- Counts survey bytes along the path between two dies (R15, R356). -/
def State.svTravel (s : State) (vi a b n : Nat) : State :=
  if a + b = 3 then
    let m := if a = 0 ∨ a = 3 then 1 else 0
    (s.svCross vi a m n).svCross vi m b n
  else s.svCross vi a b n

/-- The tree of one lane. -/
def svLane (s : State) (me op : Nat) (ms : List Member) (off : Nat) : SvNode :=
  let leaves := ms.map fun m =>
    let r := s.svRead me m off (svSize op)
    ({ val := svLeaf op r.2, uni := some r.1, at_ := r.1 } : SvNode)
  tree (svNode op me) { val := 0, uni := none, at_ := me } leaves

/-- SURVEY_FAULT (R359). -/
def surveyFault (off g idx cnt cause : Nat) (lanes : Lanes) : TrapInfo :=
  { code := .surveyFault, lanes := lanes, info0 := BitVec.ofNat 64 (off % 2 ^ 32 + g * 2 ^ 32),
    info1 := BitVec.ofNat 64 (idx + cnt * 2 ^ 32 + cause * 2 ^ 48) }

/-- An uncorrectable word that a survey meets (R416, R417): its place, whether it lies in a save area and not in the scratchpad of a
core, and the index of the member. -/
structure SvBad where
  place : DWord
  saved : Bool
  member : Nat
  deriving DecidableEq, Repr

/-- The uncorrectable word of a member's leaf. -/
def State.svLeafBad (s : State) (me : Nat) (m : Member) (i off n : Nat) : Option SvBad :=
  match m with
  | .here _ g =>
    if g.state = .parked then
      let l := s.launchOf g.lid
      let a : Option Nat := match s.saveRoute l g me 0 (l.scratchPart + off) n with
        | .cells ls => s.wordBad ls
        | .ecc a => some a
        | _ => none
      a.map fun a => { place := BitVec.ofNat 64 a, saved := true, member := i }
    else (g.badAt off n).map fun o => { place := sramPlace g.core o, saved := false, member := i }
  | _ => none

/-- The first leaf that an uncorrectable word holds, by member and then by lane. -/
def svBad (s : State) (me op : Nat) (ms : List Member) (offs : List (Nat × Nat)) : Option SvBad :=
  ((List.range ms.length).flatMap fun i => offs.map fun x => (i, x.2)).findSome? fun y =>
    s.svLeafBad me (ms.getD y.1 .unstarted) y.1 y.2 (svSize op)

/-- The lanes whose leaves of a member hold the word, for a resident member; all ones otherwise (R416, log entry 39). -/
def svBadLanes (s : State) (me op : Nat) (ms : List Member) (offs : List (Nat × Nat)) (x : SvBad) : Lanes :=
  if x.saved then BitVec.allOnes 128
  else lanesOf ((offs.filter fun o => s.svLeafBad me (ms.getD x.member .unstarted) x.member o.2 (svSize op) == some x).map Prod.fst)

/-- The record of an SVLD that is suspended (R416, R417), with what it notes. -/
def State.svRecord (s : State) (vi id me : Nat) (h : SvHeld) (ms : List Member) (x : SvBad) : State :=
  let t : TrapInfo :=
    { code := .eccUncorrectable, lanes := svBadLanes s me h.op ms h.offs x, info0 := x.place, info1 := BitVec.ofNat 64 x.member }
  let r := { s.trapRec id t h.len (if x.saved then 8 else 0) with pc := h.pc }
  (if x.saved then s.eccSeen vi x.place.toNat else s.sramSeen vi x.place).trapDue vi r

/-- Reads the lanes' trees for a warp on a die: the values for its register, with the traffic counted (R355, R356). -/
def svReadAll (vi me W dst op : Nat) (ms : List Member) (offs : List (Nat × Nat)) (s : State) : State × List RegVal :=
  let nodes := offs.map fun x => (x.1, svLane s me op ms x.2)
  let vals := nodes.map fun x => ({ key := 128 * dst + x.1, val := x.2.val, poison := false } : RegVal)
  let cross := nodes.flatMap fun x => x.2.cross ++ [(x.2.at_, me)]
  let dies := (offs.flatMap fun x => ms.map fun m => (s.svRead me m x.2 (svSize op)).1).eraseDups
  let saved : List Group := ms.filterMap fun m => match m with
    | .here _ g => if g.state = .parked then some g else none
    | _ => none
  let s := saved.foldl (fun s g => offs.foldl (fun s x =>
    let l := s.launchOf g.lid
    s.walked vi me (l.saveAddr g.pool + BitVec.ofNat 64 (l.scratchPart + x.2)) (svSize op)) s) s
  let s := cross.foldl (fun s c => s.svTravel vi c.1 c.2 4) s
  let s := dies.foldl (fun s d => s.svTravel vi me d (8 * (W / 32))) s
  (s.count vi me 0x31 (saved.length * offs.length), vals)

/-- Performs an accepted SVLD, and the warp goes on. One that names a member in transit reads all its members after it (R305, R353); one
that meets an uncorrectable word is suspended (R417). `idx`: the linear indices of the members. -/
def svPerform (e : Env) (dst op : Nat) (idx : List Nat) (ms : List Member) (offs : List (Nat × Nat)) (s : State) : State :=
  let me := e.w.die
  let s := s.count e.l.vi me 0x30 1
  let p : Producer := { id := 0, vec := true, base := dst, count := 1, vals := [], survey := true }
  let h : SvHeld := { op := op, members := idx, offs := offs, pc := e.w.pc, len := s.cur.len }
  if ms.any Member.moving then retire e (s.setMe (s.me.produce { p with held := some { h with suspended := false } }))
  else
    match svBad s me op ms offs with
    | some x =>
      let s := s.svRecord e.l.vi s.cur.warp me h ms x
      retire e (s.setMe (s.me.produce { p with held := some h }))
    | none =>
      let r := svReadAll e.l.vi me e.W dst op ms offs s
      retire e (r.1.setMe (r.1.me.produce { p with vals := r.2 }))

/-- An SVLD that met an uncorrectable word. -/
def Producer.suspended (p : Producer) : Bool := (p.held.map SvHeld.suspended).getD false

/-- Replaces a producer of a warp. -/
def State.putProducer (s : State) (id : Nat) (p : Producer) : State :=
  let w := s.warp id
  s.setWarp id { w with flight := w.flight.map fun q => if q.id = p.id then p else q }

/-- An accepted SVLD of warp `id` that has not read its members reads them, once none is in transit. A member that has gone since is
unstated: free values (log entry 39). -/
def State.readSurvey (s : State) (id : Nat) (p : Producer) (h : SvHeld) : State :=
  let w := s.warp id
  let l := s.launchOfWarp w
  let ms := h.members.map (s.member (s.group w.gid).lid)
  let gone := ms.any fun m => match m with
    | .here _ _ => false
    | _ => true
  if gone then
    let vals := (List.range h.offs.length).map fun i =>
      ({ key := 128 * p.base + (h.offs.getD i (0, 0)).1, val := (Config.unstated (s.free + i)).setWidth 32, poison := false } : RegVal)
    { s with free := s.free + h.offs.length }.putProducer id { p with vals := vals, held := none }
  else if ms.any Member.moving then s.putProducer id { p with held := some { h with suspended := false } }
  else
    match svBad s w.die h.op ms h.offs with
    | some x => (s.svRecord l.vi id w.die h ms x).putProducer id { p with held := some { h with suspended := true } }
    | none =>
      let r := svReadAll l.vi w.die l.w p.base h.op ms h.offs s
      r.1.putProducer id { p with vals := r.2, held := none }

/-- The checks of SVLD over its active lanes (R352), then its acceptance. -/
def svldBody (o : EOp) (e : Env) (s : State) : State :=
  let op := svOp o
  let size := svSize op
  let act := e.active
  let addr (l : Nat) : DWord := (svAddr e o l).bits
  let off (l : Nat) : Nat := (addr l).toNat % 2 ^ 32 + (EOp.auxBits o).toNat
  let grp (l : Nat) : Nat := (addr l).toNat / 2 ^ 32 % 16
  let pois := act.filter fun l => (svAddr e o l).p
  let prot := act.filter fun l => !((addr l).extractLsb' 60 4 == 0xA && (addr l).extractLsb' 36 24 == 0)
  let mis := act.filter fun l => off l % size != 0
  match act with
  | [] => retire e s
  | l0 :: _ =>
    let g := grp l0
    let other := act.filter fun l => grp l != g
    let lanes (ls : List Nat) : Lanes := lanesOf ls
    match pois, prot, mis, other with
    | _ :: _, _, _, _ => takeTrap (poisonInfo o.a.code (poisonLanes o.a false (svAddr e o) act)) s
    | [], l :: _, _, _ => takeTrap { code := .protection, lanes := lanes prot, info0 := addr l, info1 := 2048 } s
    | [], [], l :: _, _ => takeTrap { code := .misaligned, lanes := lanes mis, info0 := addr l + BitVec.ofNat 64 (EOp.auxBits o).toNat } s
    | [], [], [], l :: _ => takeTrap (surveyFault (off l) (grp l) 0 0 4 (lanes other)) s
    | [], [], [], [] =>
      match tget e.l.survey g with
      | none => takeTrap (surveyFault (off l0) g 0 0 2 (BitVec.allOnes 128)) s
      | some x =>
        let idx := surveyMembers e.l e.g x
        let ms := idx.map (s.member e.g.lid)
        let far := act.filter fun l => decide (off l + size > e.l.scratchBytes)
        let waits := idx.filter fun i => s.member e.g.lid i == .unstarted
        let gone := (List.range ms.length).filter fun i => ms.getD i .unstarted == .retired
        match far, waits, gone with
        | l :: _, _, _ => takeTrap (surveyFault (off l) g 0 ms.length 1 (lanes far)) s
        | [], _ :: _, _ => waitFor (.survey waits) .none s
        | [], [], i :: _ => takeTrap (surveyFault (off l0) g i gone.length 3 (BitVec.allOnes 128)) s
        | [], [], [] => svPerform e (vNumber o.dst) op idx ms (act.map fun l => (l, off l)) s

/-- SVLD: one outstanding for each warp (R357). -/
def execSvld (o : EOp) (s : State) : Out :=
  .next (issueAfter (fun e => waitIf (e.w.flight.any Producer.survey)) (o.raw 0xED) (fun e s => notTask e (svldBody o e) s) s)

/-- SVINFO (R354). -/
def execSvinfo (o : EOp) (s : State) : Out :=
  .next (issue (o.raw 0xEE) (fun e s =>
    notTask e (fun s =>
      let none4 : List Word := [0, 0, 0, BitVec.allOnes 32]
      let ws : List Word := match tget e.l.survey (surveyGroup o) with
        | none => none4
        | some x =>
          let v := e.g.f.getD x.fld 0
          [BitVec.ofNat 32 x.lo, BitVec.ofNat 32 x.hi, BitVec.ofNat 32 (2 ^ 31 + 16 * x.die + x.fld),
           if x.lo ≤ v ∧ v < x.hi then BitVec.ofNat 32 (v - x.lo) else BitVec.allOnes 32]
      retire e (s.setMe (s.me.putSList (sNumber o.dst) ws))) s) s)

end Sys2Proof.Machine
end

