-- ==== Sys2Proof/Machine/EngineEvents.lean ====
section
/-!
DEFINITION. The events of the matrix engine (spec/11 R242 to R257), the copy engine (spec/12 R272 to R274) and of long-latency
results (spec/04 R105).
-/
namespace Sys2Proof.Machine

/-! ## Order in the matrix engine (R242) -/

/-- The slots that a command touches, and whether it writes them. -/
def MatCmd.slots (c : MatCmd) : List Nat := (List.range (accSlots c.fmt)).map (c.acc + ·)
def MatCmd.writes (c : MatCmd) : Bool := c.kind == .mmat || c.kind == .accz || c.kind == .accld

/-- A command follows an earlier one of its workgroup where they share a slot and one of them writes. -/
def MatCmd.follows (c d : MatCmd) : Bool :=
  d.gid == c.gid && decide (d.id < c.id) && (d.writes || c.writes) && c.slots.any fun n => d.slots.contains n

/-- The command of a core that the event names, once nothing it follows is left. -/
def State.matReady (s : State) (p : MatCmd → Bool) : Option MatCmd :=
  let k := s.core s.ev.core
  (k.matq.find? fun c => c.id == s.ev.id && !c.suspended && p c).filter fun c => !(k.matq.any fun d => c.follows d)

def State.dropMat (s : State) (id : Nat) : State :=
  let k := s.core s.ev.core
  s.setCore s.ev.core { k with matq := k.matq.filter fun c => c.id != id }

/-- The pool offset of an uncorrectable word that a command reads: in its tiles, or in its accumulator tile (R416). -/
def MatCmd.badWord (c : MatCmd) (g : Group) : Option Nat :=
  let tile (off : Nat) (d : Desc) : Option Nat := g.badAt off (tileBytes d)
  let acc := g.badAt (2 ^ 32 + 8192 * c.acc) (8192 * accSlots c.fmt)
  if g.badWords.isEmpty then none
  else
    match c.kind with
    | .mmat => (tile c.offA c.descA).orElse fun _ => (tile c.offB c.descB).orElse fun _ => if c.za then none else acc
    | .accld => tile c.offA c.descA
    | .accst => acc
    | .accrd => acc
    | .accz => none

/-- An engine command of a warp met an uncorrectable word (R416): the record of R113 for its instruction. -/
def State.engineEcc (s : State) (vi warp core slot : Nat) (pc : DWord) (len : Nat) (place : DWord) : State :=
  s.trapDue vi { s.trapRec warp { code := .eccUncorrectable, info0 := place } len 0 with pc := pc, core := core, slot := slot }

/-- A command ends: nothing happens where its workgroup is gone. One that meets an uncorrectable word is suspended (R274, R416). -/
def State.endMat (s : State) (c : MatCmd) (f : Group → State → State) : State :=
  match tget s.groups c.gid with
  | none => s.dropMat c.id
  | some g =>
    match c.badWord g with
    | none => f g (s.dropMat c.id)
    | some o =>
      let k := s.core s.ev.core
      let s := s.setCore s.ev.core { k with matq := k.matq.map fun d => if d.id = c.id then { d with suspended := true } else d }
      let vi := (s.launchOf g.lid).vi
      (s.sramSeen vi (sramPlace s.ev.core o)).engineEcc vi c.warp s.ev.core c.slot c.pc c.len (sramPlace s.ev.core o)

/-! ## MMAT_COMPLETE (R246) -/

/-- The elements of the rows of a captured tile. -/
def Group.rowsOf (g : Group) (lim off : Nat) (d : Desc) : List (List Num) :=
  (List.range (tileRows d)).map (g.tileElems lim off d)

/-- The region of an MMAT: row, column, starting bits, result bits. -/
def mmatRegion (g : Group) (lim : Nat) (c : MatCmd) : List (Nat × Nat × Nat × List Num × List Num) :=
  let as := g.rowsOf lim c.offA c.descA
  let bs := g.rowsOf lim c.offB c.descB
  (List.range as.length).flatMap fun i => (List.range bs.length).map fun j =>
    let c0 := if c.za then 0 else g.accGet c.fmt c.acc (16 * c.ro + i) (16 * c.co + j)
    (16 * c.ro + i, 16 * c.co + j, c0, as.getD i [], bs.getD j [])

def MatCmd.scale (c : MatCmd) : Int := Desc.scale c.descA + Desc.scale c.descB

/-- The result of one element. -/
def MatCmd.element (c : MatCmd) (x : Nat × Nat × Nat × List Num × List Num) : Nat :=
  mfDot (accFmt c.fmt) (mfFused (Desc.fmt c.descA)) c.scale x.2.2.1 x.2.2.2.1 x.2.2.2.2

/-! ## Check tiles (R256) -/

/-- Exact quotient of two finite magnitudes, good for rounding to F32. -/
def numDiv (a b : Num) : Num :=
  match a, b with
  | .fin _ m e, .fin _ n f =>
    if n = 0 then .nan false
    else
      let q := m * 2 ^ 100 / n
      .fin false (2 * q + (if m * 2 ^ 100 % n = 0 then 0 else 1)) (e - f - 101)
  | _, _ => .nan false

/-- The absolute and the relative deviation of an element; none where R256 does not state it: a difference of infinities of one
sign, and a quotient by an infinity. -/
def deviations (res ref : Nat) : Option Nat × Option Nat :=
  let a := fmtF32.unpack res
  let b := fmtF32.unpack ref
  if a.isNan && b.isNan then (some 0, some 0)
  else if a.isNan || b.isNan then (some 0x7F800000, some 0x7F800000)
  else
    match b with
    | .fin _ m e =>
      let d := (fpSub fmtF32 .ne false res ref).1 % 2 ^ 31
      let den : Num := if numAbsLt (.fin false m e) (.fin false 1 (-126)) then .fin false 1 (-126) else .fin false m e
      match fmtF32.unpack d with
      | .fin n k x => (some d, some (fmtF32.round .ne false (numDiv (.fin n k x) den)).1)
      | _ => (some d, some 0x7F800000)
    | _ => (if res = ref then none else some 0x7F800000, none)

/-- The largest deviation; none where one is unstated. -/
def largestDev : List (Option Nat) → Option Nat
  | [] => some 0
  | none :: _ => none
  | some x :: rest => (largestDev rest).map (max x)

/-- An accumulator element as F32 bits. -/
def accF32 (f : AccFmt) (x : Nat) : Nat := (fpConvert (accFmt f) fmtF32 .ne false false x).1

/-- Files the check of an MMAT (R256). Where a deviation is unstated it is a free value (log entry 27). -/
def State.fileCheck (s : State) (c : MatCmd) (vi : Nat) (xs : List (Nat × Nat × Nat × List Num × List Num)) : State :=
  let devs := xs.map fun x =>
    deviations (accF32 c.fmt (c.element x))
      (mfDot fmtF32 true c.scale (accF32 c.fmt x.2.2.1) x.2.2.2.1 x.2.2.2.2)
  let free (n : Nat) : Word := (Config.unstated (s.free + n)).setWidth 32
  let a := ((largestDev (devs.map Prod.fst)).map (BitVec.ofNat 32)).getD (free 0)
  let r := ((largestDev (devs.map Prod.snd)).map (BitVec.ofNat 32)).getD (free 1)
  { s with
    free := s.free + 2,
    checks := s.checks ++ [{ id := s.nextCheck, core := s.ev.core, vi := vi, cfg := c.check, acc := c.acc, seq := c.count,
                             wid := c.wid, abs := a, rel := r }],
    nextCheck := s.nextCheck + 1 }

/-- MMAT_COMPLETE (R246). -/
def execMmatComplete (s : State) : Out :=
  .next (
    match s.matReady fun c => c.kind == .mmat with
    | none => s
    | some c =>
      s.endMat c fun g s =>
        let l := s.launchOf g.lid
        let xs := mmatRegion g l.scratchBytes c
        let s := if c.check.l = 0 then s else s.fileCheck c l.vi xs
        s.setGroup c.gid (xs.foldl (fun g x => g.accPut c.fmt c.acc x.1 x.2.1 (c.element x)) g))

/-- The address of a record of a check ring (R257). -/
def CheckCfg.slotAddr (c : CheckCfg) (head : Nat) : DWord := c.base + BitVec.ofNat 64 (64 + 32 * (head % c.size))

/-- CHECK_COMPLETE (R257): the record is written, then HEAD rises; a fault drops it and sets the check-fault flag. It waits for a stack
that is not ready (R411). An uncorrectable word at HEAD is noted, and the check is dropped as by a fault (R416, log entry 124). -/
def execCheckComplete (s : State) : Out :=
  .next (
    match s.checks.find? fun c => c.id == s.ev.id with
    | none => s
    | some c =>
      let kept := s
      let s := { s with checks := s.checks.filter fun d => d.id != c.id }
      let vi := c.vi
      let die := c.core / 64
      let bad (s : State) : State := s.setVi vi { s.vi vi with trFlag := setBit (s.vi vi).trFlag 1 true }
      match s.routeRange vi die 1 c.cfg.base 8 with
      | .walk _ => kept
      | .ecc a => bad (s.eccSeen vi a)
      | .cells hs =>
        let head := bitsOfBytes (hs.map (s.dieByte die))
        let a := c.cfg.slotAddr head
        match s.readBad die hs, s.routeRange vi die 1 a 32 with
        | some x, _ => bad (s.readBadSeen vi die x)
        | none, .walk _ => kept
        | none, .ecc x => bad (s.eccSeen vi x)
        | none, .cells ls =>
          let s := ((s.walked vi die c.cfg.base 8).l2FetchAll vi die hs).walked vi die a 32
          let rec' := leBytes s.clock 8 ++ leBytes (c.core + 2 ^ 16 * c.acc) 4 ++ leBytes c.seq 4 ++ leBytes c.wid.toNat 8 ++
            leBytes c.abs.toNat 4 ++ leBytes c.rel.toNat 4
          (s.engineWriteFrom vi die ls rec').engineWriteFrom vi die hs (leBytes (head + 1) 8)
        | none, _ => bad s
      | _ => bad s)

/-! ## Accumulator moves (R252, R253) -/

/-- ACCUMULATOR_MOVE_COMPLETE: ACCZ or ACCLD. -/
def execAccumulatorMoveComplete (s : State) : Out :=
  .next (
    match s.matReady fun c => c.kind == .accz || c.kind == .accld with
    | none => s
    | some c =>
      s.endMat c fun g s =>
        let lo := 8192 * c.acc
        let hi := lo + 8192 * accSlots c.fmt
        let g := { g with acc := g.acc.filter fun e => !(decide (lo ≤ e.1) && decide (e.1 < hi)),
                          badWords := g.badWords.filter fun e => !(decide (2 ^ 32 + lo ≤ 4 * e.1) && decide (4 * e.1 < 2 ^ 32 + hi)) }
        if c.kind = .accz then s.setGroup c.gid g
        else
          let rows := g.rowsOf (s.launchOf g.lid).scratchBytes c.offA c.descA
          let f := accFmt c.fmt
          s.setGroup c.gid ((List.range rows.length).foldl (fun g i =>
            (List.range (rows.getD i []).length).foldl (fun g j =>
              g.accPut c.fmt c.acc i j (f.round .ne false (numScale (Desc.scale c.descA) ((rows.getD i []).getD j .zero))).1) g) g))

/-- The bytes that ACCST writes: row `i` of a_n in the tile's format. -/
def Group.storeRow (g : Group) (c : MatCmd) (i : Nat) : List Byte :=
  let d : Desc := c.descA
  let vs := (List.range 64).map fun j => numScale (-d.scale) ((accFmt c.fmt).unpack (g.accGet c.fmt c.acc i j))
  leBytes (mfPack d.fmt c.sat vs) (tileRB d)

/-- ACCST_COMPLETE: the tile is written and READY. -/
def execAccstComplete (s : State) : Out :=
  .next (
    match s.matReady fun c => c.kind == .accst with
    | none => s
    | some c =>
      s.endMat c fun g s =>
        let s := s.engineScratch c.gid c.offA ((List.range 64).flatMap (g.storeRow c))
        s.setGroup c.gid ((s.group c.gid).setTile (c.tileA.getD 0) .ready))

/-- ACCRD's values (R253), in the lanes that were active. -/
def Group.readBlock (g : Group) (c : MatCmd) (W dst : Nat) : List RegVal :=
  ((List.range W).filter fun l => c.exec.getLsbD l).flatMap fun l =>
    let t := l % 32
    (List.range 8).map fun e =>
      { key := 128 * (dst + e) + l, poison := false,
        val := BitVec.ofNat 32 (accF32 c.fmt (g.accGet c.fmt c.acc (16 * c.ro + t % 16)
          (16 * ((c.co + l / 32) % 4) + 8 * (t / 16) + e))) }

/-- A producer of a warp receives its values and finishes. -/
def State.deliver (s : State) (id prod : Nat) (f : Producer → List RegVal) : State :=
  match tget s.warps id with
  | some w =>
    match w.flight.find? fun p => p.id == prod with
    | some p => s.setWarp id (w.writeback { p with vals := f p })
    | none => s
  | none => s

/-- Producer `n` of a warp writes its registers, where it has its values. -/
def State.finishProducer (s : State) (id n : Nat) : State :=
  let w := s.warp id
  match w.flight.find? fun p => p.id == n && p.held.isNone with
  | some p => s.setWarp id (w.writeback p)
  | none => s

/-- LONG_LATENCY_WRITEBACK (R105): producer `id` of a warp finishes. An ACCRD reads its block in acceptance order (R242); an SVLD that
waits for a member in transit reads its members (R305). -/
def execLongLatencyWriteback (s : State) : Out :=
  .next (s.atSlot fun id w =>
    match w.flight.find? fun p => p.id == s.ev.id && !p.suspended with
    | none => s
    | some p =>
      match p.held with
      | some h => (s.readSurvey id p h).finishProducer id p.id
      | none =>
      if !p.engine then s.setWarp id (w.writeback p)
      else
        let k := s.core s.ev.core
        match k.matq.find? fun c => c.kind == .accrd && c.warp == id && c.prod == p.id && !c.suspended with
        | some c =>
          if k.matq.any fun d => c.follows d then s
          else s.endMat c fun g s => s.deliver id p.id fun p => g.readBlock c (s.launchOf g.lid).w p.base
        | none => s)

/-! ## MVB_COMPLETE (R249, R250) -/

/-- The locations of row `r` of B. -/
def MvbCmd.rowLocs (c : MvbCmd) (r : Nat) : List Nat :=
  let d : Desc := c.desc
  let a := d.base + BitVec.ofNat 64 r * d.stride 1
  (List.range (mfRow d.fmt (d.ext 0))).map fun i => c.loc (vaOf (a + BitVec.ofNat 64 i))

/-- The elements of row `r` of B, read at the point of coherence under the core's and its die's own earlier stores: plain loads of
the issuing warp (R218, R250). -/
def State.mvbRow (s : State) (core : Nat) (c : MvbCmd) (r : Nat) : List Num :=
  let d : Desc := c.desc
  (List.range (d.ext 0)).map (mfElem d.fmt (bitsOfBytes ((c.rowLocs r).map (s.ncByte core))))

/-- Every location of B that the command reads. -/
def MvbCmd.locs (c : MvbCmd) (n : Nat) : List Nat :=
  ((List.range n).filter fun i => decide (c.row0 + i < Desc.ext c.desc 1)).flatMap fun i => c.rowLocs (c.row0 + i)

/-- An uncorrectable word that an MVB meets (R416): in B, else in the row of the x tile. -/
def State.mvbBad (s : State) (g : Group) (c : MvbCmd) (n : Nat) : Option (Sum Nat Nat) :=
  match if s.bad.isEmpty then none else s.wordBad (c.locs n) with
  | some a => some (.inl a)
  | none => (g.badAt c.xOff (tileRB c.xDesc)).map .inr

/-- The elements of x: those of the tile's first row, beyond which they are unstated (log entry 28): free values. -/
def mvbX (g : Group) (lim free : Nat) (c : MvbCmd) : List Num :=
  let d : Desc := c.xDesc
  let n := Desc.ext c.desc 0
  let have_ := tileRB d
  let need := mfRow d.fmt (if (mfSe d.fmt).isSome then (n + 15) / 16 * 16 else n)
  let bytes := (List.range need).map fun i =>
    if i < have_ then (g.tileBytes lim (c.xOff + i) 1).headD 0 else (Config.unstated (free + i)).setWidth 8
  (List.range n).map (mfElem d.fmt (bitsOfBytes bytes))

/-- y of row `r`. -/
def State.mvbY (s : State) (core : Nat) (c : MvbCmd) (xs : List Num) (r : Nat) : Word :=
  let d : Desc := c.desc
  if r ≥ d.ext 1 then 0
  else BitVec.ofNat 32 (mfDot fmtF32 (mfFused d.fmt) (d.scale + Desc.scale c.xDesc) 0 (s.mvbRow core c r) xs)

/-- y as the y tile stores it (R235): times 2^(−SD), rounded to F32. -/
def yStored (d : Desc) (y : Word) : Nat :=
  if d.scale = 0 then y.toNat else (fmtF32.round .ne false (numScale (-d.scale) (fmtF32.unpack y.toNat))).1

/-- The MVB that the event names: not suspended, its stack ready, and none that arrived there earlier left (R251, R411). -/
def State.mvbReady (s : State) : Option MvbCmd :=
  ((s.core s.ev.core).mvbs.find? fun c => c.id == s.ev.id && !c.suspended && s.partReady (2 ^ 36 * c.home)).filter fun c =>
    !(s.cores.any fun k => k.2.mvbs.any fun d => d.home == c.home && decide (d.seq < c.seq) && !d.suspended)

/-- An MVB that meets an uncorrectable word is suspended with a record (R274, R416). -/
def State.suspendMvb (s : State) (vi : Nat) (c : MvbCmd) (x : Sum Nat Nat) : State :=
  let core := s.ev.core
  let k := s.core core
  let s := s.setCore core { k with mvbs := k.mvbs.map fun d => if d.id = c.id then { d with suspended := true } else d }
  match x with
  | .inl a => (s.eccSeen vi a).engineEcc vi c.warp core c.slot c.pc c.len (BitVec.ofNat 64 a)
  | .inr o => (s.sramSeen vi (sramPlace core o)).engineEcc vi c.warp core c.slot c.pc c.len (sramPlace core o)

/-- MVB_COMPLETE: y goes to the registers or the y tile. x and y cross to the stack's die and back, and B moves on its stack alone (R206,
R250). The clean bytes of B in the core's L1 leave it, since a later load of the warp may not return an older value (R218). -/
def execMvbComplete (s : State) : Out :=
  .next (
    let core := s.ev.core
    match s.mvbReady with
    | none => s
    | some c =>
      let k := s.core core
      let gone := s.setCore core { k with mvbs := k.mvbs.filter fun d => d.id != c.id }
      match tget s.groups c.gid with
      | none => gone
      | some g =>
        let l := s.launchOf g.lid
        let n := if c.rd then l.w else c.yRows
        match s.mvbBad g c n with
        | some x => s.suspendMvb l.vi c x
        | none =>
        let xs := mvbX g l.scratchBytes s.free c
        let ys := (List.range n).map fun i => s.mvbY core c xs (c.row0 + i)
        let s := gone.l1Forget core (c.locs n)
        let s := { s with free := s.free + mfRow (Desc.fmt c.xDesc) (Desc.ext c.desc 0 + 15) }
        let s := (s.travel l.vi (core / 64) (c.home / 4) (mfRow (Desc.fmt c.xDesc) (Desc.ext c.desc 0))).travel l.vi (c.home / 4)
          (core / 64) (4 * n)
        let s := s.count l.vi (c.home / 4) 0 (c.rowLen * (mvbRows c.desc c.row0 n).length)
        if c.rd then
          s.deliver c.warp c.prod fun p =>
            ((List.range l.w).filter fun i => c.exec.getLsbD i).map fun i =>
              { key := 128 * p.base + i, val := ys.getD i 0, poison := false }
        else
          let s := s.engineScratch c.gid c.yOff (ys.flatMap fun y => leBytes (yStored c.yDesc y) 4)
          s.setGroup c.gid ((s.group c.gid).setTile c.yTile .ready))

/-! ## TIDSET_COMPLETE (R254) -/

/-- The 128 bytes of a descriptor at a virtual address, as plain loads of the warp. -/
def tidsetBytes (e : Env) (rs : List Route) (s : State) : State × List Byte :=
  let locs := rs.flatMap fun r => match r with
    | .cells ls => ls
    | _ => []
  let x := s.l1Read e.w.core s.cur.warp locs
  (x.1, (List.range 8).flatMap fun j =>
    match rs.getD j (.cells []) with
    | .cells ls => ls.map fun a => ((((locs.zip x.2).find? fun y => y.1 == a).map fun y => y.2.1)).getD 0
    | .peer _ _ => ((e.answer j).map Answer.data).getD []
    | _ => [])

/-- The TID that a word names. -/
def wordTid (bits : BitVec 128) : Nat := (bits.extractLsb' 98 8).toNat

/-- Checks a descriptor that was read and replaces the entry, or traps. -/
def tidsetWith (e : Env) (bytes : List Byte) (s : State) : State :=
  let d : Desc := BitVec.ofNat 1024 (bitsOfBytes bytes)
  match descFault d with
  | some (c, o) =>
    let t : TrapInfo := { code := c, info0 := s.cur.bits.extractLsb' 0 64, info1 := BitVec.ofNat 64 o }
    takeTrap t (s.setMe { s.me with answers := [], cont := .none })
  | none =>
    let l := s.myLaunch
    retire e (s.setLaunch e.g.lid { l with tids := sset 0 l.tids (wordTid s.cur.bits) d })

def execTidsetComplete (s : State) : Out :=
  .next (s.atSlot fun id w =>
    match w.status, w.word with
    | .held (.tidset a scratch), some cur =>
      let s := (s.setWarp id { w with status := .ready })
      let s := { s with cur := { cur with warp := id } }
      let e := s.env
      let rs := descRoutes s e (BitVec.ofNat 64 a)
      let far (r : Route) : Option (TrapInfo × State) :=
        (r.broken.map fun a => (a, s.eccSeen e.l.vi a)).orElse (fun _ => s.coreBad e.l.vi e.w.core r.locs) |>.map fun x =>
          ({ code := .eccUncorrectable, info0 := BitVec.ofNat 64 x.1 }, x.2)
      let ecc := if scratch then s.eccOnce e 128 (.scratch a) else rs.findSome? far
      match ecc with
      | some t => takeTrap t.1 (t.2.setMe { s.me with answers := [], cont := .none })
      | none =>
      if scratch then tidsetWith e (e.g.scratch.bytes a 128) s
      else
        if rs.all fun r => r.plain || r.isPeer then
          let r := tidsetBytes e rs s
          tidsetWith e r.2 r.1
        else s
    | _, _ => s)

/-! ## COPY_COMPLETE and COPY_FAULT (R272 to R274) -/

/-- What suspends a copy at a row. -/
structure CopyStop where
  code : TrapCode
  flags : Nat
  info0 : DWord
  level : Nat
  deriving DecidableEq, Repr

/-- What a copy does not pass: a fault, or a row at peers that have not been asked for it. -/
inductive RowStop
  | fault (x : CopyStop)
  | ask
  deriving DecidableEq, Repr

/-- The task that a copy's warp runs or has finished, while it buffers. -/
def State.bufferOf (s : State) (lid warp : Nat) : Option Nat :=
  ((s.tasksOf lid).find? fun e => e.2.warp == warp && e.2.st != .queued && e.2.st != .direct).map Prod.fst
def State.directOf (s : State) (lid warp : Nat) : Option Nat :=
  ((s.tasksOf lid).find? fun e => e.2.warp == warp && e.2.st == .direct).map Prod.fst

/-- The bytes of a row that lie in global or host memory: offset in the row and location of each. -/
def State.rowPlaces (s : State) (vi die acc : Nat) (m : RowMove) : List (Nat × Nat) :=
  (rangePieces m.addr m.len).flatMap fun p =>
    let ls := (s.routeEngine vi die acc p.2 (m.addr + BitVec.ofNat 64 p.1)).locs
    ((List.range ls.length).map (p.1 + ·)).zip ls

/-- The bytes that peers gave for a row: offset and value. -/
def peerBytes (as : List Answer) : List (Nat × Byte) :=
  as.flatMap fun a => ((List.range a.data.length).map (a.lane + ·)).zip a.data

/-- The bytes of a row from those that lie here and those that peers gave. -/
def rowBytes (n : Nat) (here far : List (Nat × Byte)) : List Byte :=
  if here.length = n then here.map Prod.snd
  else (List.range n).map fun i => (((here ++ far).find? fun e => e.1 == i).map Prod.snd).getD 0

/-- Moves one row; `ps`: its bytes in global and host memory, `as`: what peers answered. -/
def moveRow (core : Nat) (c : CopyCmd) (lid lim : Nat) (m : RowMove) (ps : List (Nat × Nat)) (as : List Answer) (s : State) : State :=
  let rb := tileRB c.tdesc
  let at_ := c.off + m.row * rb
  let ls := ps.map Prod.snd
  if c.out then
    let row := (s.group c.gid).tileBytes lim (at_ + m.at_) m.len
    let bytes := if ps.length = m.len then row else ps.map fun p => row.getD p.1 0
    match s.bufferOf lid c.warp with
    | some tid => s.taskWrite lid tid ls bytes
    | none =>
      let s := s.writeThrough core ls bytes
      match s.directOf lid c.warp with
      | some tid => s.taskWroteDirect lid tid ls
      | none => s
  else
    let r : State × List Byte := match s.bufferOf lid c.warp with
      | some tid =>
        let r := s.taskRead false lid tid core c.warp ls
        (r.1, r.2.1)
      | none =>
        let r := s.l1Read core c.warp ls
        (r.1.l1Tag core false ls, r.2.map Prod.fst)
    let row := rowBytes m.len ((ps.map Prod.fst).zip r.2) (peerBytes as)
    r.1.engineScratch c.gid at_ (leBytes 0 m.at_ ++ row ++ leBytes 0 (rb - m.at_ - m.len))

/-- An uncorrectable word that a row meets (R416): in memory or a tag on the way, or in the tile. -/
def State.rowBad (s : State) (core vi : Nat) (c : CopyCmd) (m : RowMove) (ps : List (Nat × Nat)) : Option (State × DWord) :=
  if c.out then
    ((s.group c.gid).badAt (c.off + m.row * tileRB c.tdesc + m.at_) m.len).map fun o =>
      (s.sramSeen vi (sramPlace core o), sramPlace core o)
  else (s.coreBad vi core (ps.map Prod.snd)).map fun x => (x.2, BitVec.ofNat 64 x.1)

/-- Performs up to `n` rows from iteration `i`: the state, the iteration reached and what stopped it. `none` and an iteration
short of the end: a page table does not exist. `as`: what peers answered for the first of the rows. -/
def copyRows (core : Nat) (c : CopyCmd) (vi lid lim : Nat) : Nat → Nat → Option (List Answer) → State → State × Nat × Option RowStop
  | 0, i, _, s => (s, i, none)
  | n + 1, i, as, s =>
    let m := c.move i
    if m.len = 0 then
      let s := if c.out then s else s.engineScratch c.gid (c.off + m.row * tileRB c.tdesc) (leBytes 0 (tileRB c.tdesc))
      copyRows core c vi lid lim n (i + 1) none s
    else
      let acc := if c.out then 1 else 0
      let ps := s.rowPlaces vi (core / 64) acc m
      let go (as : List Answer) : State × Nat × Option RowStop :=
        match s.rowBad core vi c m ps with
        | some x => (x.1, i, some (.fault { code := .eccUncorrectable, flags := 0, info0 := x.2, level := 0 }))
        | none => copyRows core c vi lid lim n (i + 1) none (moveRow core c lid lim m ps as (s.walked vi (core / 64) m.addr m.len))
      match s.programRange vi (core / 64) acc m.addr m.len with
      | .cells _ => go []
      | .ecc a => (s.eccSeen vi a, i, some (.fault { code := .eccUncorrectable, flags := 0, info0 := BitVec.ofNat 64 a, level := 0 }))
      | .faulted va x => (s, i, some (.fault { code := .pageFault, flags := 4, info0 := canonOf va, level := field x 2 3 }))
      | .walk _ => (s, i, none)
      | .refused x =>
        (s, i, some (.fault { code := .protection, flags := 0, info0 := s.refusedAt vi (core / 64) acc m.addr m.len, level := field x 2 3 }))
      | .peer _ _ =>
        (match as with
         | none => (s, i, some .ask)
         | some as =>
           match as.find? fun a => a.refused.isSome with
           | some a => (s, i, some (.fault { code := .protection, flags := 0, info0 := m.addr + BitVec.ofNat 64 a.lane, level := 0 }))
           | none => go as)
      | _ => (s, i, none)

/-- Asks peers for the bytes of row `i`, in flits of at most 128 bytes (R272, R366, R368). -/
def State.askCopy (s : State) (core vi lim : Nat) (c : CopyCmd) (i : Nat) : State :=
  let m := c.move i
  let row := (s.group c.gid).tileBytes lim (c.off + m.row * tileRB c.tdesc + m.at_) m.len
  (rangePieces m.addr m.len).foldl (fun s p =>
    match s.routeEngine vi (core / 64) (if c.out then 1 else 0) p.2 (m.addr + BitVec.ofNat 64 p.1) with
    | .peer rank a =>
      (List.range ((p.2 + 127) / 128)).foldl (fun s j =>
        let n := min 128 (p.2 - 128 * j)
        let t := s.takeTag vi
        t.2.sendFlit vi { rank := rank, ctr := 0, kind := if c.out then .write else .readRequest, addr := a + 128 * j, tag := t.1,
                          nth := p.1 + 128 * j, len := n, data := if c.out then (row.drop (p.1 + 128 * j)).take n else [],
                          copy := some (core, c.id) }) s
    | _ => s) s

/-- Two copies move some of the same memory bytes, by address or by place. -/
def State.copiesMeet (s : State) (core : Nat) (c d : CopyCmd) : Bool :=
  let vi := (s.launchOf (s.group c.gid).lid).vi
  (c.left.any fun m => d.meets (vaOf m.addr) m.len) ||
  (s.copySpans vi (core / 64) c).any fun x => (s.copySpans vi (core / 64) d).any fun y => rangesMeet x.1 x.2 y.1 y.2

/-- An earlier MVB of a copy's warp reads some of its memory bytes (R218, R250). -/
def State.copyAwaits (s : State) (core : Nat) (c : CopyCmd) : Bool :=
  let ms := (s.core core).mvbs.filter fun d => d.warp == c.warp && decide (d.id < c.id)
  !ms.isEmpty &&
    (let xs := s.copySpans (s.launchOf (s.group c.gid).lid).vi (core / 64) c
     ms.any fun d => spansMeet xs (s.mvbSpans d))

/-- The command that the event names, where it may move: not suspended, no peer still asked, and no earlier copy or MVB of its warp
that meets its bytes is unfinished (R218, R273). -/
def State.copyReady (s : State) : Option CopyCmd :=
  let k := s.core s.ev.core
  (k.copyq.find? fun c => c.id == s.ev.id && !c.suspended).filter fun c =>
    !(s.vis.any fun v => v.2.flits.any fun f => f.copy == some (s.ev.core, c.id)) &&
    !(k.copyq.any fun d => d.warp == c.warp && decide (d.id < c.id) && s.copiesMeet s.ev.core c d) &&
    !(s.copyAwaits s.ev.core c)

/-- Runs a copy as far as it goes. -/
def State.runCopy (s : State) (c : CopyCmd) : State × Nat × Option RowStop :=
  let g := s.group c.gid
  let l := s.launchOf g.lid
  copyRows s.ev.core c l.vi g.lid l.scratchBytes (iterations c.regs - c.done) c.done (if c.asked then some c.peer else none) s

def State.putCopy (s : State) (core : Nat) (c : CopyCmd) : State :=
  let k := s.core core
  s.setCore core { k with copyq := k.copyq.map fun d => if d.id = c.id then c else d }
def State.dropCopy (s : State) (core id : Nat) : State :=
  let k := s.core core
  s.setCore core { k with copyq := k.copyq.filter fun d => d.id != id }

/-- COPY_COMPLETE: the last row, the tile's state, one engine arrival (R272, R276). A row at peers is asked for first. In a cycle in which
a warp of the core has issued no engine arrival follows any more: engine arrivals come first in a cycle (R276). -/
def execCopyComplete (s : State) : Out :=
  .next (
    match s.copyReady with
    | none => s
    | some c =>
      match tget s.groups c.gid with
      | none => s.dropCopy s.ev.core c.id
      | some _ =>
        let r := s.runCopy c
        if r.2.2.isNone && r.2.1 == iterations c.regs then
          if c.pb.isSome && (s.core s.ev.core).issueClock == s.clock then s else
          let s := r.1.dropCopy s.ev.core c.id
          let st : TileState := if c.out && !c.keep then .empty else .ready
          let s := s.setGroup c.gid ((s.group c.gid).setTile c.tile st)
          match c.pb with
          | some off => s.putPbar c.gid off (PBar.engine (s.pbar c.gid off))
          | none => s
        else if r.2.2 = some .ask then
          let l := s.launchOf (s.group c.gid).lid
          let m := c.move r.2.1
          let d := s.ev.core / 64
          ((r.1.walked l.vi d m.addr m.len).putCopy s.ev.core
            { c with done := r.2.1, asked := true, peer := [], pages := r.1.pagesOf l.vi d m.addr m.len }).askCopy s.ev.core l.vi
              l.scratchBytes c r.2.1
        else s)

/-- INFO1 of a copy's record (R274). -/
def copyInfo (c : CopyCmd) (i level : Nat) : DWord :=
  let v := c.vector i
  BitVec.ofNat 64 ((List.range 5).foldl (fun a j => a + v.getD j 0 * 2 ^ (12 * j)) 0 + (if c.out then 2 ^ 60 else 0) + level * 2 ^ 61)

/-- COPY_FAULT: the rows before the fault are complete; the copy is suspended with a record (R274, R416). -/
def execCopyFault (s : State) : Out :=
  .next (
    match s.copyReady with
    | none => s
    | some c =>
      if (tget s.groups c.gid).isNone then s
      else
        let r := s.runCopy c
        match r.2.2 with
        | none => s
        | some .ask => s
        | some (.fault x) =>
          let i := r.2.1
          let t : TrapInfo := { code := x.code, info0 := x.info0, info1 := copyInfo c i x.level }
          let s := r.1.putCopy s.ev.core { c with done := i, suspended := true, asked := false, peer := [] }
          let rec' := { s.trapRec c.warp t c.len x.flags with pc := c.pc, slot := c.slot, core := s.ev.core }
          s.trapDue (s.launchOf (s.group c.gid).lid).vi rec')

end Sys2Proof.Machine
end

