-- ==== Sys2Proof/Machine/RotEvents.lean ====
section
/-!
DEFINITION. The events of the rotation engine (spec/13 R280 to R305, spec/04 R78, R87, R88, spec/05 R136, spec/21 R398, R399,
R404, spec/22 R417). An event whose condition does not hold changes nothing.
-/
namespace Sys2Proof.Machine

/-! ## What a core holds -/

/-- The workgroup holds granules of its core. -/
def GState.onCore : GState → Bool
  | .resident => true | .saving => true | .restoring => true | _ => false

def State.groupsOn (s : State) (c : Nat) : List (Nat × Group) := s.groups.filter fun e => e.2.core == c && e.2.state.onCore

/-- Granules that the workgroups of a core use (R89). -/
def State.granulesOn (s : State) (c : Nat) : Nat :=
  ((s.groupsOn c).map fun e => (s.launchOf e.2.lid).granules).foldl (· + ·) 0

/-- The slots in use on a core with their lanes, one workgroup counted as gone. -/
def State.slotUse (s : State) (c : Nat) (gone : Option Nat) : List (Nat × Nat) :=
  s.slots.filterMap fun e =>
    let w := s.warp e.2
    if e.1 / 32 = c ∧ some w.gid ≠ gone then some (e.1 % 32, (s.launchOfWarp w).w) else none

/-- Resident lanes of a sub-core (R78). -/
def lanesOn (used : List (Nat × Nat)) (k : Nat) : Nat :=
  ((used.filter fun u => u.1 % 4 == k).map Prod.snd).foldl (· + ·) 0

/-- Slots for `n` warps of width `W` (R78): each takes the lowest free slot on the sub-core of fewest resident lanes. -/
def placeSlots (W : Nat) : Nat → List (Nat × Nat) → Option (List Nat)
  | 0, _ => some []
  | n + 1, used =>
    match leastBy (lanesOn used) [0, 1, 2, 3] with
    | none => none
    | some k =>
      match ((List.range 8).map fun i => k + 4 * i).find? fun j => !(used.any fun u => u.1 == j) with
      | some j => if lanesOn used k + W ≤ 256 then (placeSlots W n ((j, W) :: used)).map (j :: ·) else none
      | none => none

/-- The core serves as a collective core (R21). -/
def State.isCollCore (s : State) (c : Nat) : Bool := s.launches.any fun e => e.2.collCores.contains c

/-- The slots that `n` warps of a launch would take on a core, where its workgroup fits there once another is gone. -/
def State.fit (s : State) (l : Launch) (c n : Nat) (gone : Option Nat) : Option (List Nat) :=
  let back := match gone with
    | some gid => (s.launchOf (s.group gid).lid).granules
    | none => 0
  if s.isCollCore c || decide (s.granulesOn c + l.granules > 96 + back) ||
      decide ((s.groupsOn c).length ≥ (if gone.isSome then 17 else 16)) then none
  else placeSlots l.w n (s.slotUse c gone)

/-- The moves of the 1 µs that ends now (R96: 2,400 clocks). -/
def Die.recentMoves (x : Die) (clock : Nat) : List (Nat × Nat) := x.rampMoves.filter fun m => decide (clock < m.1 + 2400)

/-- The ramp of a die lets `n` granules move (R404): with the moves of the last 1 µs they do not exceed it. A larger move goes
alone, at the beginning of a window. -/
def State.rampOk (s : State) (vi d n : Nat) : Bool :=
  let r := (sget 64 (s.vi vi).ramp d).toNat
  let x := s.die d
  let u := ((x.recentMoves s.clock).map Prod.snd).foldl (· + ·) 0
  r == 0 || decide (u + n ≤ r) || (decide (r < n) && u == 0 && x.rampUsed == 0 && x.rampStart == s.clock)
def State.rampAdd (s : State) (d n : Nat) : State :=
  let x := s.die d
  s.setDie d { x with rampUsed := x.rampUsed + n, rampMoves := x.recentMoves s.clock ++ [(s.clock, n)] }

/-- The lowest number that is not in a list; `n` bounds the search. -/
def lowestFree (used : List Nat) : Nat → Nat → Nat
  | 0, i => i
  | n + 1, i => if used.contains i then lowestFree used n (i + 1) else i

/-- Pool slots in use (R190, R393): one for each started, unretired workgroup. -/
def State.poolUsed (s : State) (lid : Nat) : List Nat := (s.groups.filter fun e => e.2.lid == lid).map fun e => e.2.pool
def State.poolSlot (s : State) (lid : Nat) : Nat := lowestFree (s.poolUsed lid) (s.poolUsed lid).length 0

/-! ## WORKGROUP_RETIRE (R136, R291) -/

/-- No command of the workgroup is unfinished in the matrix, copy and collective engines, and no MVB. -/
def State.engineIdle (s : State) (gid : Nat) : Bool :=
  !(s.cores.any fun k => (k.2.matq.any fun c => c.gid == gid) || (k.2.copyq.any fun c => c.gid == gid) ||
      (k.2.mvbs.any fun c => c.gid == gid)) &&
  !(s.calls.any fun c => c.2.gid == gid)

/-- RETIRED rises by one; an arrival in the current phase is taken back (R291). -/
def State.retireAt (s : State) (lid : Nat) (g : Group) (k n : Nat) : State :=
  let l := s.launchOf lid
  let m := l.monument g k n
  let m := { m with retired := m.retired + 1, arrived := if g.arrived.contains (16 * k + n) then m.arrived - 1 else m.arrived }
  (s.monPut lid g k n m).checkEntry lid g k n

/-- An accepted SVLD that has not read all its members names the workgroup (R136, R353). -/
def State.surveyed (s : State) (g : Group) : Bool :=
  s.warps.any fun e => (s.group e.2.gid).lid == g.lid && e.2.flight.any fun p => match p.held with
    | some h => h.members.contains g.linear
    | none => false

def execWorkgroupRetire (s : State) : Out :=
  .next (
    let gid := s.ev.wg
    match tget s.groups gid with
    | none => s
    | some g =>
      let l := s.launchOf g.lid
      let d := g.core / 64
      let gone := g.warps.all fun id => (s.warp id).status == .exited && (s.warp id).place.isNone
      if g.state = .resident ∧ gone ∧ s.engineIdle gid ∧ !s.surveyed g ∧ s.rampOk l.vi d l.granules then
        let s := s.setGroup gid { g with state := .retired }
        let s := (l.barriers.filter fun b => decide (3 ≤ b.1)).foldl (fun s b => s.retireAt g.lid g b.1 b.2) s
        let l := s.launchOf g.lid
        let s := (s.discardGroup gid).rampAdd d l.granules
        if l.killed && !(s.groups.any fun e => e.2.lid == g.lid) then { s with launches := tdel s.launches g.lid }
        else s.setLaunch g.lid { l with retired := l.retired + 1 }
      else s)

/-! ## WORKGROUP_PLACE (R285, R286) -/

/-- An absent workgroup: parked, or unstarted with its linear index. -/
inductive Absent
  | parked (gid : Nat)
  | unstarted (linear : Nat)
  deriving DecidableEq, Repr

/-- Some waiting warp's condition is true (R283). -/
def Warp.awaked (w : Warp) : Bool :=
  match w.status with
  | .waiting _ => w.woken
  | _ => false
def State.wakes (s : State) (g : Group) : Bool := g.warps.any fun id => (s.warp id).awaked

/-- Every warp that has not exited waits, and none is woken (R87). -/
def Warp.still (w : Warp) : Bool :=
  match w.status with
  | .waiting _ => !w.woken
  | _ => false
def State.groupWaits (s : State) (g : Group) : Bool :=
  let live := s.liveWarps g
  !live.isEmpty && live.all fun id => (s.warp id).still

/-- Order of lists of numbers, the first first. -/
def listLe : List Nat → List Nat → Bool
  | [], _ => true
  | _, [] => false
  | a :: as, b :: bs => decide (a < b) || (decide (a = b) && listLe as bs)

/-- The first of a list that is least by a list of numbers. -/
def leastKey {α : Type} (f : α → List Nat) : List α → Option α
  | [] => none
  | x :: xs =>
    match leastKey f xs with
    | none => some x
    | some y => if listLe (f x) (f y) then some x else some y

/-- A list in the order of a key; `n` is its length. -/
def sortKey {α : Type} [DecidableEq α] (f : α → List Nat) : Nat → List α → List α
  | 0, _ => []
  | n + 1, xs =>
    match leastKey f xs with
    | none => []
    | some x => x :: sortKey f n (xs.erase x)

/-- The die to which a die-bound survey group binds a workgroup (R346). -/
def Launch.boundDie (l : Launch) (linear : Nat) : Option Nat :=
  let f := l.fieldsOf linear
  (l.survey.find? fun e => decide (e.2.die < 4) && decide (e.2.lo ≤ f.getD e.2.fld 0) && decide (f.getD e.2.fld 0 < e.2.hi)).map
    fun e => e.2.die

/-- The claim of an absent workgroup on a victim's core. -/
def Absent.claim (x : Absent) (victim core : Nat) : Claim :=
  match x with
  | .parked gid => { victim := victim, core := core, parked := true, n := gid }
  | .unstarted n => { victim := victim, core := core, parked := false, n := n }
def Claim.absent (c : Claim) : Absent := if c.parked then .parked c.n else .unstarted c.n

/-- A launch with no claim of a workgroup that is placed. -/
def Launch.unclaimed (l : Launch) (x : Absent) : Launch :=
  { l with claim := l.claim.filter fun c => c.absent != x }

/-- The first of each die of a list of unstarted workgroups: room for a later one is room for the first of its die. -/
def Launch.firsts (l : Launch) (xs : List Nat) : List Nat :=
  sortKey (fun n => [n]) 5 ([none, some 0, some 1, some 2, some 3].filterMap fun d => xs.find? fun n => l.boundDie n == d)

/-- The unstarted workgroups that may be the next to start, in increasing linear index (R286). -/
def Launch.starts (l : Launch) : List Nat :=
  let rest (n : Nat) : List Nat := (List.range (min n (l.total - l.nextWg))).map (l.nextWg + ·)
  if l.kind = .persistent then l.skipped ++ rest l.total
  else if l.survey.any fun e => decide (e.2.die < 4) then l.firsts (l.skipped ++ rest l.total)
  else (l.skipped ++ rest 1).take 1

/-- An absent workgroup has been passed over for 16 placements (R286). -/
def State.passedOver (s : State) (l : Launch) (x : Absent) : Bool :=
  match x with
  | .parked gid => decide (16 ≤ (s.group gid).passed)
  | .unstarted n => decide (16 ≤ l.passed + sget 0 l.jumped n)

/-- The order of parked workgroups of one class (R286). -/
def Group.parkKey (g : Group) : List Nat := [g.parkClock, g.linear]

/-- The runnable absent workgroups in the order of placement, with their classes (R286). No park of a launch is older than its
start. -/
def State.runnable (s : State) (lid : Nat) : List (Nat × Absent) :=
  let l := s.launchOf lid
  let parked := s.groups.filter fun e => e.2.lid == lid && e.2.state == .parked && !e.2.suspended
  let c1 := parked.filter fun e => s.wakes e.2
  let c2 := parked.filter fun e => !s.wakes e.2 && !e.2.wasWaiting
  let free := l.pslots - (s.poolUsed lid).length
  let starts := if free = 0 then [] else l.starts.map Absent.unstarted
  let order (xs : List (Nat × Group)) : List Absent :=
    (sortKey (fun (e : Nat × Group) => e.2.parkKey) xs.length xs).map fun e => Absent.parked e.1
  let b := starts ++ order c2
  let cls (k : Nat) (xs : List Absent) : List (Nat × Absent) := xs.map fun x => (k, x)
  cls 2 (b.filter fun x => s.passedOver l x) ++ cls 1 (order c1) ++ cls 2 (b.filter fun x => !s.passedOver l x)

/-- Counts a placement of class `k` for the workgroups that it has passed over (R286): every one of class 2 where it is of class 1,
and those that come before it in class 2. -/
def State.passOver (s : State) (lid k : Nat) (x : Absent) : State :=
  let l := s.launchOf lid
  let l := match x with
    | .parked _ => { l with passed := l.passed + 1 }
    | .unstarted n =>
      { l with jumped := (l.skipped.filter fun m => decide (m < n)).foldl (fun t m => sset 0 t m (sget 0 t m + 1)) l.jumped }
  let before (g : Group) : Bool := match x with
    | .parked gid => k == 1 || listLe g.parkKey (s.group gid).parkKey
    | .unstarted _ => false
  let s := s.setLaunch lid l
  { s with groups := tmap (fun _ g =>
      if g.lid == lid && g.state == .parked && !s.wakes g && !g.wasWaiting && before g then { g with passed := g.passed + 1 }
      else g) s.groups }

/-- The linear index of an absent workgroup. -/
def State.absentLinear (s : State) (x : Absent) : Nat :=
  match x with
  | .parked gid => (s.group gid).linear
  | .unstarted n => n

/-- A core on which a parked workgroup may be restored as far as the monument share goes (R304). -/
def shareOk (vi : Nat) (g : Group) (c : Nat) : Bool := decide (g.mcs ≤ Config.monumentShare vi (c / 64))

/-- The cores on which an absent workgroup may be placed, apart from room: of the launch's partition, still the interface's,
and of the bound die (R286, R304, R346). -/
def State.coresFor (s : State) (l : Launch) (x : Absent) : List Nat :=
  let own : List Nat := match x with
    | .parked gid => l.cores.filter fun c => shareOk l.vi (s.group gid) c
    | .unstarted n => if l.kind = .persistent then (l.cores.drop n).take 1 else l.cores
  own.filter fun c => (s.vi l.vi).cores.getLsbD c && ((l.boundDie (s.absentLinear x)).all fun d => c / 64 == d)

/-- The core of R286 with the slots. -/
def State.chooseCore (s : State) (l : Launch) (x : Absent) : Option (Nat × List Nat) :=
  let fits := (s.coresFor l x).filterMap fun c => (s.fit l c l.warps none).map fun sl => (c, sl)
  let far (c : Nat) : Nat := match x with
    | .parked gid => if c = (s.group gid).core then 0 else if c / 64 = (s.group gid).core / 64 then 1 else 2
    | .unstarted _ => 0
  leastKey (fun (e : Nat × List Nat) => [far e.1, (s.groupsOn e.1).length, e.1]) fits

/-- The clock at which a waiting workgroup began to wait. -/
def State.waitStart (s : State) (g : Group) : Nat := (s.liveWarps g).foldl (fun a id => max a (s.warp id).waitClock) 0

/-- A workgroup that no rotation point comes to for now (R284, R305). -/
def State.pinned (s : State) (g : Group) : Bool :=
  (g.warps.any fun id => match (s.warp id).status with
    | .halted _ => true
    | .replay => true
    | _ => false) ||
  (g.warps.any fun id => (s.core g.core).copyq.any fun c => c.warp == id && c.suspended) ||
  (g.warps.any fun id => (s.warp id).flight.any Producer.suspended)

/-- The victim of R285. A workgroup whose warps meet at a COLL has none of them at a boundary until the last arrives (R374). -/
def State.victim (s : State) (lid : Nat) (l : Launch) (x : Absent) : Option Nat :=
  let cs := s.coresFor l x
  let vs := s.groups.filter fun e =>
    e.2.lid == lid && e.2.state == GState.resident && !e.2.parking && e.2.meet.isNone && cs.contains e.2.core && !s.pinned e.2 &&
      (s.groupWaits e.2 || e.2.expired) && (s.fit l e.2.core l.warps (some e.1)).isSome
  let key (e : Nat × Group) : List Nat :=
    if s.groupWaits e.2 then [0, s.waitStart e.2, e.2.core, e.2.linear] else [1, e.2.resSince, e.2.core, e.2.linear]
  (leastKey key vs).map fun (e : Nat × Group) => e.1

/-- Warps of a workgroup that starts (R88, R91): numbers from `id`, at the first instruction. -/
def freshWarps (l : Launch) (gid core : Nat) (slots : List Nat) (id : Nat) : List (Nat × Warp) :=
  (List.range slots.length).map fun f1 =>
    (id + f1, { gid := gid, f1 := f1, role := ((l.roleRec f1).map RoleRec.role).getD .general,
                place := some (core, slots.getD f1 0), pc := l.codeBase, exec := allLanes l.w })

/-- Puts warps into slots of a core. -/
def State.seat (s : State) (core : Nat) (xs : List (Nat × Nat)) : State :=
  xs.foldl (fun s e =>
    { s.setWarp e.1 { s.warp e.1 with place := some (core, e.2) } with slots := tput s.slots (32 * core + e.2) e.1 }) s

/-- A workgroup of a launch begins its first start on a core. -/
def State.startGroup (s : State) (lid : Nat) (l : Launch) (linear core : Nat) (slots : List Nat) : State :=
  let gid := s.nextGroup
  let id := s.nextWarp
  let ws : List (Nat × Warp) := freshWarps l gid core slots id
  let g : Group :=
    { lid := lid, linear := linear, f := l.fieldsOf linear, state := .restoring, core := core, warps := ws.map Prod.fst,
      pool := s.poolSlot lid, resSince := s.clock }
  let s := { s with
    warps := ws.foldl (fun t (e : Nat × Warp) => tput t e.1 e.2) s.warps,
    slots := ws.foldl (fun t (e : Nat × Warp) => tput t (32 * core + e.2.slot) e.1) s.slots,
    nextGroup := gid + 1, nextWarp := id + ws.length }
  s.setGroup gid g

/-- Places an absent workgroup. Warp f takes the f-th slot; a warp that has exited leaves its own free (R304). -/
def State.place (s : State) (lid : Nat) (l : Launch) (x : Absent) (core : Nat) (slots : List Nat) : State :=
  let l := l.unclaimed x
  match x with
  | .parked gid =>
    let g := s.group gid
    let ws := (g.warps.zip slots).filter fun e => (s.warp e.1).status != .exited
    ((s.seat core ws).setGroup gid { g with state := .restoring, core := core }).setLaunch lid l
  | .unstarted n =>
    let l := if l.skipped.contains n then { l with skipped := l.skipped.filter (· != n) }
      else { l with skipped := l.skipped ++ (List.range (n - l.nextWg)).map (l.nextWg + ·), nextWg := n + 1 }
    (s.startGroup lid l n core slots).setLaunch lid l

/-- A record about the context of a workgroup (R304, R398, R417): warp 0's PC, all lanes, INFO1 the linear index. The length of
an instruction is unstated, and so is the place of an absent warp: free values. -/
def State.contextTrap (s : State) (gid : Nat) (code flags : Nat) (info0 : DWord) : State :=
  let g := s.group gid
  let l := s.launchOf g.lid
  let id := g.warps.headD 0
  let w := s.warp id
  let free (i n : Nat) : Nat := (Config.unstated (s.free + i)).toNat % n
  let r : TrapRec :=
    { code := code, len := free 0 256, flags := flags + (if l.gen = 3 then 1 else 0),
      slot := if w.place.isSome then w.slot else free 1 32, core := if w.place.isSome then w.core else free 2 256,
      pc := w.pc, wid := l.wid g w.f1 0, lanes := BitVec.allOnes 128, info0 := info0, info1 := BitVec.ofNat 64 g.linear,
      clock := s.clock }
  { s with free := s.free + 3 }.trapDue l.vi r

/-- What keeps a parked workgroup from ever being restored (R304): the mask of INFO0. -/
def State.neverRestorable (s : State) (l : Launch) (gid : Nat) : Nat :=
  let v := s.vi l.vi
  let share := (List.range 256).any fun c => v.cores.getLsbD c && shareOk l.vi (s.group gid) c
  (if share then 0 else 8) + (if s.ctl.running.saves.contains 1 then 0 else 16)

/-- Places a workgroup of class `k` in its slots of a core, where the ramp permits (R282, R404). -/
def State.placeAt (s : State) (lid : Nat) (l : Launch) (k : Nat) (x : Absent) (c : Nat) (slots : List Nat) : State :=
  if s.rampOk l.vi (c / 64) l.granules then ((s.place lid l x c slots).passOver lid k x).rampAdd (c / 64) l.granules else s

/-- Goes through the runnable workgroups in order: the first that fits is placed, or makes a victim where no room is being
made already (log entry 25). -/
def placeNext (lid : Nat) (busy : Bool) : List (Nat × Absent) → State → State
  | [], s => s
  | (k, x) :: rest, s =>
    let l := s.launchOf lid
    let never := match x with
      | .parked gid => s.neverRestorable l gid
      | .unstarted _ => 0
    match x, never with
    | .parked gid, m + 1 => (s.contextTrap gid 0x14 0 (BitVec.ofNat 64 (m + 1))).queueError l.vi l.q 0x03 0 true
    | x, _ =>
      match s.chooseCore l x with
      | some (c, slots) => s.placeAt lid l k x c slots
      | none =>
        match if busy ∨ l.kind ≠ .full then none else s.victim lid l x with
        | some gid =>
          let g := s.group gid
          (s.setLaunch lid { l with claim := some (x.claim gid g.core) }).setGroup gid
            { g with parking := true, wasWaiting := s.groupWaits g }
        | none => placeNext lid busy rest s

/-- A claim whose victim has left its core, with the workgroup's class and slots, where it is still absent and fits there. -/
def State.claimDue (s : State) (lid : Nat) (l : Launch) : Option (Nat × Absent × Nat × List Nat) :=
  match l.claim with
  | none => none
  | some c =>
    let gone := match tget s.groups c.victim with
      | some g => !g.state.onCore
      | none => true
    match (s.runnable lid).find? fun e => e.2 == c.absent with
    | some e =>
      if gone && (s.coresFor l e.2).contains c.core then (s.fit l c.core l.warps none).map fun sl => (e.1, e.2, c.core, sl)
      else none
    | none => none

def execWorkgroupPlace (s : State) : Out :=
  .next (
    let lid := s.ev.launch
    match tget s.launches lid with
    | none => s
    | some l =>
      if l.kind = .task ∨ l.frozen ∨ l.killed then s
      else
        match s.claimDue lid l with
        | some (k, x, c, slots) => s.placeAt lid l k x c slots
        | none =>
          let busy := s.groups.any fun e => e.2.lid == lid && (e.2.parking || e.2.state == .saving)
          placeNext lid busy (s.runnable lid) s)

/-! ## PARK_START (R284) -/

/-- A warp stands at an instruction boundary with nothing in flight. -/
def Warp.parkable (w : Warp) : Bool :=
  w.flight.isEmpty && !w.midway &&
    (match w.status with
     | .ready => true | .penalty _ => true | .asleep _ => true | .waiting _ => true | .exited => true | _ => false)

/-- The rotation point. -/
def State.atPoint (s : State) (gid : Nat) (g : Group) : Bool :=
  (g.warps.all fun id => (s.warp id).parkable) && s.engineIdle gid && g.meet.isNone && !s.pinned g

/-- The workgroup for which a victim is parked still needs its room: it holds the launch's claim on the victim, is runnable, and no core
has room for it (R285, R287). -/
def State.stillNeeded (s : State) (gid : Nat) (g : Group) : Bool :=
  let l := s.launchOf g.lid
  match l.claim with
  | some c => c.victim == gid && ((s.runnable g.lid).any fun e => e.2 == c.absent) && (s.chooseCore l c.absent).isNone
  | none => false

/-- PARK_START: the park is abandoned where the victim has woken or takes part in a COLL, or where its room is not needed any more;
else, at the rotation point, the workgroup is saved. -/
def execParkStart (s : State) : Out :=
  .next (
    let gid := s.ev.wg
    match tget s.groups gid with
    | none => s
    | some g =>
      let abandoned := (g.wasWaiting && s.wakes g) || g.meet.isSome || !s.stillNeeded gid g
      if g.state = .resident ∧ g.parking ∧ abandoned then s.abandonPark gid
      else if g.state = .resident ∧ g.parking ∧ !(s.liveWarps g).isEmpty ∧ s.atPoint gid g then
        let s := (s.liveWarps g).foldl (fun s id => s.releaseDevice id g.core) s
        let g := s.group gid
        s.setGroup gid { g with state := .saving, parking := false, wasWaiting := s.groupWaits g }
      else s)

/-! ## SAVE_COMPLETE (R282, R303, R398) -/

/-- The barriers of levels 3 and above on which warps of a workgroup wait. -/
def State.parkedOn (s : State) (g : Group) : List (Nat × Nat) :=
  (g.warps.filterMap fun id => match (s.warp id).status with
    | .waiting (.barrier k n _) => if 3 ≤ k ∧ !(s.warp id).woken then some (k, n) else none
    | _ => none).eraseDups

/-- PARKW of an entry (R290), saturating. -/
def State.parkCount (s : State) (lid : Nat) (g : Group) (up : Bool) (b : Nat × Nat) : State :=
  let m := (s.launchOf lid).monument g b.1 b.2
  let p := if up then min 65535 (m.parkw + 1) else m.parkw - 1
  s.monPut lid g b.1 b.2 { m with parkw := p }

/-- What the first entry meets that a save or restore cannot reach, with its address (R398). -/
def State.monStop (s : State) (l : Launch) (g : Group) (acc : Nat) : Option (Route × DWord) :=
  (s.parkedOn g).findSome? fun b =>
    let i := l.entryIndex g b.1 b.2
    match s.monRoute l i acc with
    | .cells _ => none
    | r => some (r, l.monAddr i)

/-- What stops the reading of `n` bytes from an address, in pieces of one 64 KiB block each, with the address. -/
def State.rangeStop (s : State) (vi die : Nat) (a : DWord) (n : Nat) : Option (Route × DWord) :=
  (rangePieces a n).findSome? fun p =>
    let x := a + BitVec.ofNat 64 p.1
    match s.routeEngine vi die 0 p.2 x with
    | .cells _ => none
    | r => some (r, x)

/-- What stops the rotation engine at the survey group table, where the launch has a group, or at the workgroup's slot of the private
pool (R398, log entry 129). -/
def State.poolStop (s : State) (l : Launch) (g : Group) (die : Nat) : Option (Route × DWord) :=
  let slot := l.warps * l.w * l.privP
  (if l.survey.isEmpty then none else s.rangeStop l.vi die l.save 256).orElse fun _ =>
    if slot = 0 then none else s.rangeStop l.vi die (l.priv + BitVec.ofNat 64 (g.pool * slot)) slot

/-- What a save or restore meets: in the save area, at an entry of the monument table on whose barrier a warp waits, in the survey group
table or in the private pool. -/
def State.contextStop (s : State) (l : Launch) (g : Group) (acc : Nat) : Option (Route × DWord) :=
  ((s.saveStop l g (g.core / 64) acc).orElse fun _ => s.monStop l g 1).orElse fun _ => s.poolStop l g (g.core / 64)

/-! ### Uncorrectable words of the SRAM pool (R417) -/

/-- A warp as it is saved: a register whose word is uncorrectable has its poison bit set. -/
def Warp.savedBad (w : Warp) : Warp :=
  w.badRegs.foldl (fun w e =>
    if 40000 ≤ e.1 then { w with sP := setBit w.sP (e.1 - 40000) true }
    else { w with vP := sset 0 w.vP (e.1 / 128) (setBit (sget 0 w.vP (e.1 / 128)) (e.1 % 128) true) }) { w with badRegs := [] }

/-- A workgroup as it is saved: an uncorrectable word of its scratchpad or its accumulator slots is zero. -/
def Group.savedBad (g : Group) : Group :=
  g.badWords.foldl (fun g e =>
    if e.1 < 2 ^ 30 then { g with scratch := g.scratch.writeBytes (4 * e.1) [0, 0, 0, 0] }
    else { g with acc := (List.range 4).foldl (fun t i => sset 0 t (4 * (e.1 - 2 ^ 30) + i) 0) g.acc }) { g with badWords := [] }

/-- What a save finds in the SRAM pool: ECCSTAT and one record, for the first word that is uncorrectable. -/
def State.saveSram (s : State) (gid : Nat) : State :=
  let g := s.group gid
  match (g.warps.flatMap fun id => (s.warp id).badRegs.map Prod.snd) ++ g.badWords.map Prod.snd with
  | [] => s
  | o :: _ =>
    let p := sramPlace g.core o
    let s := (s.sramSeen (s.launchOf g.lid).vi p).contextTrap gid 0x13 8 p
    let s := g.warps.foldl (fun s id => s.setWarp id (s.warp id).savedBad) s
    s.setGroup gid g.savedBad

/-- A save or restore meets a translation fault (R398), or an uncorrectable word in a page table (R416, log entry 124). -/
def State.contextFault (s : State) (gid : Nat) (r : Route) (a : DWord) : State :=
  let s' := s.setGroup gid { s.group gid with suspended := true }
  match r with
  | .walk _ => s
  | .ecc x => (s'.eccSeen (s.launchOf (s.group gid).lid).vi x).contextTrap gid 0x13 8 (BitVec.ofNat 64 x)
  | .faulted va _ => s'.contextTrap gid 0x0D 4 (canonOf va)
  | _ => s'.contextTrap gid 0x0E 4 a

/-- Frees the slots of a workgroup's warps. -/
def State.unseat (s : State) (g : Group) : State :=
  { s with slots := s.slots.filter fun e => !g.warps.contains e.2,
           warps := tmap (fun id w => if g.warps.contains id then { w with place := none } else w) s.warps }

def execSaveComplete (s : State) : Out :=
  .next (
    let gid := s.ev.wg
    match tget s.groups gid with
    | none => s
    | some g =>
      let l := s.launchOf g.lid
      let d := g.core / 64
      if g.state = .saving ∧ !g.suspended ∧ s.rampOk l.vi d l.granules then
        match s.contextStop l g 1 with
        | some (r, a) => s.contextFault gid r a
        | none =>
          let s := (s.saveSram gid).applyNotices gid
          let g := s.group gid
          let mcs := Config.monumentShare l.vi d
          let parts := saveParts l g (s.wakes g) mcs s.clock s.free
          let s := parts.foldl (fun s p => s.savePart l g d p.1 p.2) { s with free := s.free + 4096 * l.savePerRule }
          let s := (s.parkedOn g).foldl (fun s b => s.parkCount g.lid g true b) s
          let s := (s.unseat g).setGroup gid { s.group gid with state := .parked, parkClock := s.clock, passed := 0, mcs := mcs }
          (s.count l.vi d 0x10 1).rampAdd d l.granules
      else s)

/-! ## RESTORE_COMPLETE (R282, R291, R305, R417) -/

/-- Survey waits of a launch whose members have all started wake (R283). -/
def State.wakeSurveys (s : State) (lid : Nat) : State :=
  { s with warps := tmap (fun _ w =>
      match w.status with
      | .waiting (.survey ms) =>
        if (s.group w.gid).lid == lid && (ms.all fun i => s.member lid i != .unstarted) then { w with woken := true } else w
      | _ => w) s.warps }

/-- A warp as a restore leaves it: last pages, loop buffer and return predictions are not saved (R303); a sleep or a branch
penalty is over (R134). -/
def Warp.restored (w : Warp) : Warp :=
  { w with lastPage := [], fetched := none, loopBuf := [], retPred := [], walkRes := [], elig := 0, overdue := false,
           plumb := match w.status with
             | .waiting (.plumb _) => w.plumb
             | _ => {},
           status := match w.status with
             | .penalty _ => .ready
             | .asleep _ => .ready
             | x => x }

/-- The accumulator slots and the scratchpad as the save area holds them (R430). -/
def State.loadContext (s : State) (gid : Nat) : State :=
  let g := s.group gid
  let l := s.launchOf g.lid
  let d := g.core / 64
  let acc := s.loadPart l g d l.accPart (8192 * l.slots)
  let scr := s.loadPart l g d l.scratchPart l.scratchBytes
  let cells (z : Byte) (bs : List Byte) : List (Nat × Byte) :=
    ((List.range bs.length).zip bs).filter fun e => e.2 != z
  s.setGroup gid { g with acc := cells 0 acc, scratch := cells memDefault scr }

/-- A restored or started workgroup becomes resident (R282, R230). The L1 of its core keeps no clean private byte that the warp
may have written since on another core (log entry 97). -/
def State.becomeResident (s : State) (gid : Nat) : State :=
  let g := s.group gid
  let s := (s.setGroup gid { g with state := .resident, first := false, expired := false, resSince := s.clock }).applyNotices gid
  let s := g.warps.foldl (fun s id => s.setWarp id (s.warp id).restored) s
  (s.acquireAt g.core (if g.first then .system else .device)).forgetL1 g.core false

/-- Places a workgroup back among the parked ones (R417). -/
def State.restoreFails (s : State) (gid a : Nat) : State :=
  let g := s.group gid
  let l := s.launchOf g.lid
  let s := (s.eccSeen l.vi a).contextTrap gid 0x13 8 (BitVec.ofNat 64 a)
  let s := (s.unseat g).setGroup gid { g with state := .parked, suspended := true }
  s.queueError l.vi l.q 0x03 1 true

def execRestoreComplete (s : State) : Out :=
  .next (
    let gid := s.ev.wg
    match tget s.groups gid with
    | none => s
    | some g =>
      let l := s.launchOf g.lid
      if g.state = .restoring ∧ !g.suspended then
        if g.first then (s.becomeResident gid).wakeSurveys g.lid
        else
          match s.contextStop l g 0 with
          | some (r, a) => s.contextFault gid r a
          | none =>
            match s.saveBad l g (g.core / 64) with
            | some a => s.restoreFails gid a
            | none =>
              let s := (s.loadTraffic l g (g.core / 64)).applyNotices gid
              let s := (s.parkedOn g).foldl (fun s b => s.parkCount g.lid g false b) s
              ((s.loadContext gid).becomeResident gid).count l.vi (g.core / 64) 0x11 1
      else s)

/-! ## QUANTUM_EXPIRE (R287) and PLUMB_RECOGNISE (R296, R297) -/

def execQuantumExpire (s : State) : Out :=
  .next (
    match tget s.groups s.ev.wg with
    | none => s
    | some g =>
      let l := s.launchOf g.lid
      if l.kind = .full ∧ g.state = .resident ∧ !g.expired ∧ g.resSince + l.quantum ≤ s.clock then
        (s.setGroup s.ev.wg { g with expired := true }).count l.vi (g.core / 64) 0x13 1
      else s)

/-- The warp is about to issue its next instruction. -/
def Status.moving : Status → Bool
  | .ready => true | .penalty _ => true | _ => false

/-- PLUMB_RECOGNISE: the warp waits at T (R297). A write to a watched sector since the iteration under way loaded it wakes it at once
(R283, R309). -/
def execPlumbRecognise (s : State) : Out :=
  .next (s.atSlot fun id w =>
    if w.plumb.recognised && w.status.moving then
      let s := s.setWarp id { w with status := .waiting (.plumb w.plumb.sectors), plumb := w.plumb.rested, woken := w.plumb.hit,
                                     waitClock := s.clock, elig := 0, overdue := false }
      s.count (s.launchOfWarp w).vi w.die 0x12 1
    else s)

end Sys2Proof.Machine
end

