-- ==== Sys2Proof/Machine/CollEvents.lean ====
section
/-!
DEFINITION. The events of the collective engine (spec/19 R374 to R382). An event whose condition does not hold changes nothing.
-/
namespace Sys2Proof.Machine

/-! ## COLL_ACCEPT (R374 to R377) -/

/-- Calls that a workgroup and a package hold (R375). -/
def groupCalls : Nat := 16
def packageCalls : Nat := 256

/-- The meeting is closed: every warp has issued or has exited. -/
def State.meetClosed (s : State) (g : Group) (m : Meeting) : Bool :=
  g.warps.all fun id => m.issued.contains id || (s.warp id).status == .exited

/-- This package's member index (R365). -/
def memberIndex (d : CollDesc) (rank : Nat) : Nat :=
  ((List.range d.count).find? fun i => d.first + i * d.stride == rank).getD 0

/-- The call that a meeting makes, with the entries as they stand at acceptance. The staging area of a tile lies where the
workgroup's save area holds the tile (log entry 88). -/
def State.meetCall (s : State) (gid : Nat) (g : Group) (m : Meeting) : Call :=
  let l := s.launchOf g.lid
  let id := m.issued.headD 0
  let e : Env := { w := s.warp id, g := g, l := l }
  let d := collDesc m.desc
  let desc : Desc := (collOperand e m.op).2
  let off := (e.tile (tileAOf m.op)).off
  let v := s.vi l.vi
  { lid := g.lid, gid := gid, warp := id, slot := m.slot, vi := l.vi,
    core := (l.collCores.find? fun c => c / 64 == g.core / 64).getD g.core,
    tag := d.tag, nth := sget 0 v.tagNext d.tag, kind := m.kind, op := collOp m.op, first := d.first, stride := d.stride,
    count := d.count, root := d.root, sw := d.sw, cntb := d.cntb,
    tile := if collTile m.op then some (tileAOf m.op) else none, off := off, desc := desc, rdesc := l.tid (rtidOf m.op),
    cdesc := l.tid (ctidOf m.op), pb := pbOffset m.op, pc := m.pc, len := ((s.warp id).word.map Cur.len).getD 16,
    me := memberIndex d v.domRank.toNat, start := s.clock,
    place := l.saveAddr g.pool + BitVec.ofNat 64 (l.scratchPart + off),
    staged := if collTile m.op then g.tileBytes l.scratchBytes off (tileRows desc * tileRB desc) else [] }

/-- A warp of the meeting goes on; one that another warp's HALT stopped goes on at its resume (R137). -/
def Warp.metCall (w : Warp) : Warp :=
  match w.status with
  | .held .coll => { w with status := .ready, cont := .met }
  | _ => { w with cont := if w.before = .held .coll then .met else w.cont,
                  before := if w.before = .held .coll then .ready else w.before }

/-- Accepts a call: the warps' releases, for which their copies have been performed (R232), the matching number, the first stages; at once lost where a member is lost (R369). -/
def State.acceptCall (s : State) (gid : Nat) (g : Group) (m : Meeting) : State :=
  let s := (s.liveWarps g).foldl (fun s id => s.releaseDevice id g.core) s
  let c := s.meetCall gid g m
  let id := s.nextCall
  let s := { (s.setGroup gid { s.group gid with meet := none }) with nextCall := id + 1 }
  let v := s.vi c.vi
  let s := (s.setVi c.vi { v with tagNext := sset 0 v.tagNext c.tag (c.nth + 1) }).putCall id c
  let s := m.issued.foldl (fun s k => s.setWarp k (s.warp k).metCall) s
  match (s.vi c.vi).lostMember c with
  | some i => s.endCall id 6 i
  | none => s.callAdvance id

def execCollAccept (s : State) : Out :=
  .next (
    match tget s.groups s.ev.wg with
    | none => s
    | some g =>
      match g.meet with
      | none => s
      | some m =>
        let l := s.launchOf g.lid
        if s.meetClosed g m && !((s.liveWarps g).any s.copying) && decide (s.callsOf s.ev.wg < groupCalls) && decide (s.calls.length < packageCalls) && !l.killed then
          s.acceptCall s.ev.wg g m
        else s)

/-! ## CHUNK_COUNTER_RAISE (R378) -/

/-- The bytes of a chunk are here and its accesses reach memory. -/
def State.chunkReady (s : State) (c : Call) (k : Nat) : Bool :=
  ((s.vi c.vi).chunkBytes c k).isSome && s.reaches c (c.chunkAccs k)

/-- A chunk lands; where the call has counters, its counter rises. A tile is copied back at completion only (R375). -/
def execChunkCounterRaise (s : State) : Out :=
  .next (
    match s.callOf s.ev.call with
    | none => s
    | some c =>
      let k := s.ev.chunk
      if c.stage = 3 ∧ !c.suspended ∧ c.kind ≠ 4 ∧ c.tile.isNone ∧ c.left.contains k ∧ s.chunkReady c k then
        let s := (s.landChunk c k).putCall s.ev.call { c with raised := c.raised ++ [k] }
        if c.cntb ≠ 0 then s.collRaise s.ev.call c k else s
      else s)

/-! ## COLL_COMPLETE (R375, R379, R381) -/

/-- The rows that A2AV lands are here and reach memory. -/
def State.landingReady (s : State) (c : Call) : Bool :=
  let v := s.vi c.vi
  let rows := v.landing c
  (rows.all fun x =>
    let from_ := if x.2.1 = c.me then c.sendFrom c.me + x.2.2 else x.2.2
    (v.memberRow c x.2.1 from_ 0 c.rb).isSome) &&
  s.reaches c (rowAccs c.rdesc 1 (rows.map Prod.fst))

/-- The end of a call whose members agree. -/
def State.finishCall (s : State) (id : Nat) (c : Call) : State :=
  let v := s.vi c.vi
  if c.kind = 4 then
    if c.stage < 2 then s
    else if v.exceeded c then s.endCall id 5 0
    else if c.stage = 3 ∧ s.landingReady c then
      let total := v.receivedAll c
      let s := s.writeLanding c
      if total > Desc.ext c.rdesc 1 then s.endCall id 4 total else s.endCall id 1 0
    else s
  else if c.stage = 3 ∧ (c.cntb = 0 ∨ c.left.isEmpty) ∧ (c.left.all fun k => s.chunkReady c k) then
    (s.writeResult c).endCall id 1 0
  else s

def execCollComplete (s : State) : Out :=
  .next (
    let id := s.ev.call
    match s.callOf id with
    | none => s
    | some c =>
      let v := s.vi c.vi
      match v.lostMember c with
      | some i => s.endCall id 6 i
      | none =>
        if c.suspended || s.counting c.vi id || !v.matched c then s
        else if v.cryptConflict c then s.endCall id 2 0
        else
          match v.differs c with
          | some i => s.endCall id 3 i
          | none => s.finishCall id c)

/-! ## COLL_FAULT (R381, R416) -/

/-- What a call accesses next, with INFO1 of a record: the chunk, or all ones. -/
def State.nextAccs (s : State) (c : Call) : List (DWord × CollAcc) :=
  let v := s.vi c.vi
  let whole (xs : List CollAcc) : List (DWord × CollAcc) := xs.map fun x => (BitVec.allOnes 64, x)
  match c.stage with
  | 0 => whole (s.operandAccs c) ++ c.rootChunks.map fun k => (BitVec.ofNat 64 k, c.counterAcc k)
  | 1 => if c.kind = 4 ∧ v.agrees c then whole ((v.countWords c).flatMap fun x => c.countAccs 1 x.1 1) else []
  | 3 =>
    if c.kind = 4 then whole (rowAccs c.rdesc 1 ((v.landing c).map Prod.fst))
    else (c.left.filter fun k => (v.chunkBytes c k).isSome).flatMap fun k => (c.chunkAccs k).map fun x => (BitVec.ofNat 64 k, x)
  | _ => []

def execCollFault (s : State) : Out :=
  .next (
    match s.callOf s.ev.call with
    | none => s
    | some c =>
      if c.suspended then s
      else
        let sram := if c.stage = 0 then (s.tileBad c).map fun o => sramPlace (s.group c.gid).core o else none
        let first : Option (DWord × TrapCode × Nat × DWord) := match sram with
          | some p => some (BitVec.allOnes 64, TrapCode.eccUncorrectable, 0, p)
          | none => (s.nextAccs c).findSome? fun x => (s.collFaultOf c [x.2]).map fun f => (x.1, f)
        match first with
        | none => s
        | some (info1, code, flags, a) =>
          let t : TrapInfo := { code := code, info0 := a, info1 := info1 }
          let s := if code = .eccUncorrectable then (if sram.isSome then s.sramSeen c.vi a else s.readBadSeen c.vi c.die a.toNat) else s
          s.suspendCall s.ev.call c t flags)

/-! ## MATCH_TIMEOUT (R379) -/

/-- Clocks in `n` microseconds (R96: 2.4 GHz). -/
def microseconds (n : Nat) : Nat := 2400 * n

def execMatchTimeout (s : State) : Out :=
  .next (
    match s.callOf s.ev.call with
    | none => s
    | some c =>
      let v := s.vi c.vi
      match v.unmatched c with
      | some i => if c.start + microseconds v.domTmo.toNat < s.clock then s.endCall s.ev.call 6 i else s
      | none => s)

end Sys2Proof.Machine
end

