-- ==== Sys2Proof/Machine/TaskEvents.lean ====
section
/-!
DEFINITION. The events of the task engine (spec/15 R311 to R331).
-/
namespace Sys2Proof.Machine

/-- Tasks that run on a core at once (R311). -/
def Launch.taskRoom (l : Launch) : Nat := min 16 (96 / max 1 l.regs)

/-- The queued tasks of a launch. -/
def State.dispatchable (s : State) (lid : Nat) : List (Nat × Task) := (s.tasksOf lid).filter fun e => e.2.st == .queued

/-- The queued task that a core takes: the least in its die's queue, else in any (R313, R315). -/
def State.queuedFor (s : State) (lid c : Nat) : Option (Nat × Task) :=
  let ts := s.dispatchable lid
  match leastTask (ts.filter fun e => e.2.die == c / 64) with
  | some e => some e
  | none => leastTask ts

/-- Where a split would cut a running range task (R318): one that has a warp. -/
def Task.mid (t : Task) : Word := BitVec.ofNat 32 (t.hi.toNat - (t.hi.toNat - t.cur.toNat) / 2)
def Task.splittable (t : Task) : Bool := t.st.hasWarp && t.range && !t.pin && decide (t.cur.toNat + 2 ≤ t.hi.toNat)

/-- The split-off part of a task: not a child of its origin. -/
def Task.upper (t : Task) : Task :=
  { ts := t.ts, seq := t.seq, lo := t.mid, hi := t.hi, cur := t.mid, range := true, narg := t.narg, entry := t.entry, args := t.args,
    die := t.die }

/-- What a core that asks for work gets: a queued task, or a running task to split. -/
inductive Work
  | queued (tid : Nat)
  | split (tid : Nat)
  deriving DecidableEq, Repr

/-- The least candidate of a core (R318). -/
def State.workFor (s : State) (lid c : Nat) : Option Work :=
  let cands : List (Work × Task) :=
    (match s.queuedFor lid c with
     | some e => [(Work.queued e.1, e.2)]
     | none => []) ++
    ((s.tasksOf lid).filter fun e => e.2.splittable).map fun e => (Work.split e.1, e.2.upper)
  let best := cands.foldr (fun x (b : Option (Work × Task)) =>
    match b with
    | none => some x
    | some y => if y.2.before x.2 then some y else some x) none
  best.map Prod.fst

/-- The task of a candidate enters the table as running; a split leaves the lower part to its origin. -/
def State.takeWork (s : State) (lid c warp : Nat) (x : Work) : State × Task :=
  match x with
  | .queued tid =>
    match tget s.tasks tid with
    | some (_, t) =>
      let t := { t with st := .running, core := c, warp := warp }
      (s.setTask tid lid t, t)
    | none => (s, {})
  | .split tid =>
    match tget s.tasks tid with
    | some (_, t) =>
      let u := { t.upper with st := .running, core := c, warp := warp }
      ((s.setTask tid lid { t with hi := t.mid, split := true }).addTask lid u, u)
    | none => (s, {})

/-- A task's 64-byte record as the host driver reads it (R314). -/
def Task.record (t : Task) : List Byte :=
  let n (on : Bool) (x : Word) : List Byte := leBytes (if on then x.toNat else 0) 4
  leBytes t.ts.toNat 8 ++ n true t.seq ++ n t.range t.lo ++ n t.range t.hi ++
  leBytes ((if t.range then 2 ^ 31 else 0) + t.narg * 2 ^ 28 + t.entry) 4 ++
  ((List.range 4).flatMap fun i => n (decide (i < t.narg)) (t.args.getD i 0)) ++ leBytes 0 24

/-- The place of a core among the reserved ones. -/
def coreIndex (cs : List Nat) (c : Nat) : Nat := (cs.takeWhile (· != c)).length

/-- Starts the warp of a task (R88, R311, R333): its workgroup is resident at once; the start is an acquire at .system (R397).
The pool slot belongs to the core and the warp slot (R319). -/
def State.dispatch (s : State) (lid : Nat) (l : Launch) (c slot : Nat) (x : Work) : State :=
  let id := s.nextWarp
  let gid := s.nextGroup
  let r := s.takeWork lid c id x
  let w : Warp :=
    { gid := gid, place := some (c, slot), pc := l.codeBase + BitVec.ofNat 64 (4 * r.2.entry), exec := allLanes l.w }
  let g : Group :=
    { lid := lid, f := [0, 0, 0, 0], core := c, warps := [id], pool := coreIndex l.cores c * l.taskRoom + slot,
      resSince := s.clock, first := false }
  let s := { r.1 with
    warps := tput r.1.warps id w, groups := tput r.1.groups gid g, slots := tput r.1.slots (32 * c + slot) id,
    nextWarp := id + 1, nextGroup := gid + 1 }
  (s.acquireAt c .system).rampAdd (c / 64) l.granules

/-- The core has room for a further running task (R311). -/
def State.roomForTask (s : State) (lid : Nat) (l : Launch) (c : Nat) : Bool :=
  decide (((s.tasksOf lid).filter fun e => e.2.core == c && e.2.st.hasWarp).length < l.taskRoom)

def execTaskDispatch (s : State) : Out :=
  .next (
    let c := s.ev.core
    match s.launches.find? fun e => e.2.kind == .task && e.2.cores.contains c && !e.2.frozen && !e.2.killed with
    | none => s
    | some (lid, l) =>
      match s.workFor lid c, s.fit l c 1 none with
      | some x, some (slot :: _) =>
        if s.roomForTask lid l c && decide (slot < l.taskRoom) && s.rampOk l.vi (c / 64) l.granules then
          s.dispatch lid l c slot x
        else s
      | _, _ => s)

/-- TASK_COMMIT (R327). -/
def execTaskCommit (s : State) : Out :=
  .next (
    let lid := s.ev.launch
    match s.frontier lid with
    | some (tid, t) =>
      if t.st = .finished ∧ !s.copying t.warp ∧ !(s.launchOf lid).killed then s.commitTask tid else s
    | none => s)

end Sys2Proof.Machine
end

