-- ==== Sys2Proof/Machine/FrontEnd.lean ====
section
/-!
DEFINITION. The front end (spec/21 R389 to R404): its accesses, the state of a queue, the start and end of a packet, core sets
and pre-emption requests.
-/
namespace Sys2Proof.Machine

/-! ## Accesses of the front end (R398) -/

/-- What a front-end access meets. A peer's memory is a fault: R368 gives peer accesses to lanes only (log entry 29). So is an
uncorrectable word (log entry 124, DESIGN CHOICE). -/
inductive FrontAcc
  | cells (ls : List Nat)
  | wait                        -- a table or part that is not there yet
  | fault
  deriving DecidableEq, Repr

/-- The uncorrectable word that a front-end access meets (R416): in a page table, or in what it reads. -/
def State.frontBad (s : State) (vi acc : Nat) (a : DWord) (n : Nat) : Option Nat :=
  match s.routeRange vi (s.vi vi).frontDie acc a n with
  | .cells ls => if acc = 1 then none else s.readBad (s.vi vi).frontDie ls
  | .ecc x => some x
  | _ => none

def State.frontAcc (s : State) (vi acc : Nat) (a : DWord) (n : Nat) : FrontAcc :=
  match s.routeRange vi (s.vi vi).frontDie acc a n with
  | .cells ls => if (s.frontBad vi acc a n).isSome then .fault else .cells ls
  | .walk _ => .wait
  | _ => .fault

/-- The table entries that the front end reads for an access are counted (R15, R206). -/
def State.frontWalk (s : State) (vi : Nat) (a : DWord) (n : Nat) : State := s.walked vi (s.vi vi).frontDie a n

/-- An uncorrectable word that an access meets is noted. -/
def State.frontSeen (s : State) (vi acc : Nat) (a : DWord) (n : Nat) : State :=
  match s.frontBad vi acc a n with
  | some x => s.readBadSeen vi (s.vi vi).frontDie x
  | none => s

/-- Bytes at the point of coherence. -/
def State.homeBytes (s : State) (ls : List Nat) : List Byte := ls.map s.mem.byte

/-- The front end reads bytes through the L2 of its die, and writes from there, with the traffic counted (R15, R206). -/
def State.frontFetch (s : State) (vi : Nat) (ls : List Nat) : State := s.l2FetchAll vi (s.vi vi).frontDie ls
def State.frontWrite (s : State) (vi : Nat) (ls : List Nat) (bs : List Byte) : State :=
  s.engineWriteFrom vi (s.vi vi).frontDie ls bs

/-- `n` bytes from offset `o` as a number. -/
def leAt (bs : List Byte) (o n : Nat) : Nat := bitsOfBytes ((bs.drop o).take n)

/-- The release at .system of the front end (R397): the writes that wait on its die, and the host writes that every die sees, have
drained. -/
def State.frontRelease (s : State) (vi : Nat) : State := (s.drainAll (s.vi vi).frontDie fun _ => true).hostDrainAll

/-! ## Queues (R389) -/

/-- Packets start (R406, R409). -/
def State.packetsStart (s : State) (vi : Nat) : Bool :=
  !s.ctl.activating && ((s.vi vi).tdisp == .unlocked || (s.vi vi).tdisp == .run)

def Queue.pending (x : Queue) : Nat := (x.qwptr - x.qrptr).toNat
def Queue.slots (x : Queue) : Nat := 2 ^ x.qsize.toNat
def Queue.slotAddr (x : Queue) : DWord := x.qbase + BitVec.ofNat 64 (128 * (x.qrptr.toNat % x.slots))

/-- The core set of a queue (R401). -/
def Vi.coreSet (v : Vi) (x : Queue) : BitVec 256 := sget 0 v.csets (x.qset.toNat % 16) &&& v.cores

/-- Cores of a mask, in increasing order. -/
def coresOf (m : BitVec 256) : List Nat := (List.range 256).filter fun c => m.getLsbD c

/-- Every die of a core set is ready (R411). -/
def State.setReady (s : State) (m : BitVec 256) : Bool :=
  (List.range 4).all fun d => s.ready.getLsbD (1 + d) || !((coresOf m).any fun c => c / 64 == d)

/-- The next packet of a queue may be taken up, apart from cores. -/
def State.startable (s : State) (vi q : Nat) : Bool :=
  let x := s.queue vi q
  x.error.isNone && x.packet.isNone && x.en && decide (0 < x.pending) && s.packetsStart vi

/-- TYPE of the next packet; none where its slot cannot be read. -/
def State.nextType (s : State) (vi q : Nat) : Option Nat :=
  match s.frontAcc vi 0 (s.queue vi q).slotAddr 128 with
  | .cells ls => some (leAt (s.homeBytes ls) 0 1)
  | _ => none

/-- The queue is ready with a launch, which needs the cores of its set. -/
def State.readyLaunch (s : State) (vi q : Nat) : Bool :=
  let x := s.queue vi q
  s.startable vi q && decide (x.pending ≤ x.slots) && (s.nextType vi q == some 1 || s.nextType vi q == some 2)

/-- The quantum of a queue has run out and another ready queue of equal or higher priority wants some of its cores: it keeps
them no longer (R401). -/
def State.yields (s : State) (vi q : Nat) : Bool :=
  let x := s.queue vi q
  x.quantExp && (List.range 16).any fun r =>
    let y := s.queue vi r
    r != q && decide (x.qprio.toNat ≤ y.qprio.toNat) && (x.keep &&& (s.vi vi).coreSet y) != 0 && s.readyLaunch vi r

/-- The queue holds its core set and every die of it is ready. -/
def State.holdsCores (s : State) (vi q : Nat) : Bool :=
  let m := (s.vi vi).coreSet (s.queue vi q)
  m != 0 && (s.queue vi q).keep == m && s.setReady m && !s.yields vi q

/-- A launch of the queue cannot start for want of its cores (R389). -/
def State.coresHeld (s : State) (vi q : Nat) : Bool :=
  let m := (s.vi vi).coreSet (s.queue vi q)
  m == 0 || !s.setReady m || (List.range 16).any fun r => r != q && ((s.queue vi r).keep &&& m) != 0

/-- QSTAT.STATE (R389): 0 IDLE, 1 ACTIVE, 2 HELD, 3 ERROR. -/
def State.queueState (s : State) (vi q : Nat) : Nat :=
  let x := s.queue vi q
  if x.error.isSome then 3
  else if x.packet.isSome then 1
  else if x.pending = 0 then 0
  else if !x.en || !s.packetsStart vi || (s.readyLaunch vi q && s.coresHeld vi q) then 2
  else 1

/-! ## Pre-emption requests (R403) -/

/-- A ready queue of higher priority wants cores that queue `r` holds for its launch. -/
def State.wanted (s : State) (vi r : Nat) : Bool :=
  let x := s.queue vi r
  (List.range 16).any fun q =>
    let y := s.queue vi q
    q != r && decide (x.qprio.toNat < y.qprio.toNat) && (x.keep &&& (s.vi vi).coreSet y) != 0 && s.readyLaunch vi q

/-- A launch packet is in progress. -/
def Queue.launching (x : Queue) : Bool :=
  match x.packet with
  | some (.launch _) => true
  | _ => false

/-- The number of a packet's type. -/
def packetType : Packet → Nat
  | .launch b => if b then 2 else 1
  | .wait _ _ => 3
  | .copyh _ _ _ => 7

/-- A packet in progress ends with PACKET_FAULT (R391). -/
def State.packetFault (s : State) (vi q : Nat) : State :=
  s.queueError vi q 0x06 (((s.queue vi q).packet.map packetType).getD 0) false

/-- Writes the notice word of a request, 8 bytes as the words of R392; where its stack is not ready the write waits (R411). -/
def State.writeNotice (s : State) (vi q : Nat) : State :=
  let x := s.queue vi q
  match s.frontAcc vi 1 x.qnote 8 with
  | .cells ls =>
    (((s.setQueue vi q { x with notice := false }).frontWalk vi x.qnote 8).frontRelease vi).frontWrite vi ls (leBytes 1 8)
  | .wait => s.setQueue vi q { x with notice := true }
  | .fault => ((s.setQueue vi q { x with notice := false }).frontSeen vi 1 x.qnote 8).packetFault vi q

/-- Raises the request of R403. -/
def State.requestPreempt (s : State) (vi q : Nat) : State :=
  let x := s.queue vi q
  let s := s.setQueue vi q { x with preempt := some s.clock }
  if x.qnote = 0 then s else s.writeNotice vi q

/-- Raises every request that is due, and writes the notice words that wait. Each event that can make a queue or a stack ready
ends with this. -/
def State.settleQueues (s : State) (vi : Nat) : State :=
  (List.range 16).foldl (fun s r =>
    let x := s.queue vi r
    if x.launching && x.preempt.isNone && x.error.isNone && s.wanted vi r then s.requestPreempt vi r
    else if x.launching && x.notice then s.writeNotice vi r
    else s) s

/-! ## Start and end of a packet (R391, R392) -/

/-- Reserved bits of byte `o` of a packet (R392, R393, R396). -/
def reservedBits (ty o : Nat) : Nat :=
  let used (a b : Nat) : Bool := decide (a ≤ o ∧ o < b)
  if o = 0 then 0
  else if o = 2 then (if ty = 1 ∨ ty = 2 ∨ ty = 4 then 0xFE else 0xFF)
  else if o < 4 then 0xFF
  else
    let free := match ty with
      | 1 => used 4 0x44 || used 0x48 0x68
      | 2 => used 4 0x38 || used 0x48 0x68
      | 3 => used 8 24
      | 4 => used 8 24
      | 5 => used 16 24
      | 6 => used 8 16
      | 7 => used 8 32
      | _ => false
    if ty = 2 ∧ o = 0x38 then 0xF8 else if ty = 2 ∧ o = 0x39 then 0xE0 else if free then 0 else 0xFF

/-- Where the reserved fields of a packet begin (R392, R393, R396): the header, and each run of reserved bytes. -/
def reservedFields (ty : Nat) : List Nat :=
  match ty with
  | 1 => [0, 0x44, 0x68]
  | 2 => [0, 0x38, 0x3C, 0x44, 0x68]
  | 3 => [0, 4, 24]
  | 4 => [0, 4, 24]
  | 5 => [0, 4, 24]
  | 6 => [0, 4, 16]
  | 7 => [0, 4, 32]
  | _ => [0, 4]

/-- The field of a reserved bit in byte `o`. -/
def reservedField (ty o : Nat) : Nat := ((reservedFields ty).filter fun f => decide (f ≤ o)).getLastD 0

/-- DETAIL of BAD_PACKET (R391): the offset of the first field with a nonzero reserved bit; or a misaligned ADDR. -/
def badPacket (ty : Nat) (bs : List Byte) : Option Nat :=
  match (List.range 128).find? fun o => leAt bs o 1 &&& reservedBits ty o != 0 with
  | some o => some (reservedField ty o)
  | none => if (ty = 3 ∨ ty = 4 ∨ ty = 6) ∧ leAt bs 8 8 % 8 ≠ 0 then some 8 else none

/-- Starts the next packet of a queue where it is of type `ty`: `k` gets its 128 bytes. The type of an unreadable slot is a free
value. -/
def startPacket (ty : Nat) (k : List Byte → State → State) (s : State) : State :=
  let vi := s.ev.vi
  let q := s.ev.q
  let x := s.queue vi q
  if !s.startable vi q then s
  else if x.pending > x.slots then s.queueError vi q 0x05 0xFFFF false
  else
    match s.frontAcc vi 0 x.slotAddr 128 with
    | .wait => s
    | .fault =>
      ({ s with free := s.free + 1 }.frontSeen vi 0 x.slotAddr 128).queueError vi q 0x06
        ((Config.unstated s.free).toNat % 65536) false
    | .cells ls =>
      let bs := s.homeBytes ls
      let t := leAt bs 0 1
      if t = 0 ∨ 8 < t then s.queueError vi q 0x05 0 false
      else if t ≠ ty ∨ (ty ≤ 2 ∧ !s.holdsCores vi q) then s
      else
        match badPacket ty bs with
        | some o => s.queueError vi q 0x05 o false
        | none => k bs ((s.frontWalk vi x.slotAddr 128).frontFetch vi ls)

/-- The packet of a queue completes: the next may start (R392). -/
def State.completePacket (s : State) (vi q : Nat) : State :=
  let x := s.queue vi q
  (s.setQueue vi q { x with packet := none, lid := none, preempt := none, notice := false, qrptr := x.qrptr + 1 }).settleQueues vi

/-- A packet becomes the one in progress. -/
def State.holdPacket (s : State) (vi q : Nat) (p : Packet) : State := s.setQueue vi q { s.queue vi q with packet := some p }

/-- Does something at an address of a packet that is starting or in progress; a fault ends it (R398). -/
def packetAccess (acc : Nat) (a : DWord) (n ty : Nat) (k : List Nat → State → State) (s : State) : State :=
  match s.frontAcc s.ev.vi acc a n with
  | .cells ls => k ls (s.frontWalk s.ev.vi a n)
  | .wait => s
  | .fault => (s.frontSeen s.ev.vi acc a n).queueError s.ev.vi s.ev.q 0x06 ty false

end Sys2Proof.Machine
end

