-- ==== Sys2Proof/Machine/Launching.lean ====
section
/-!
DEFINITION. Starting a launch (spec/21 R393 to R396, R399, spec/01 R21, spec/11 R248): the packet, the header image, the reasons
for which a launch is refused, and the launch that starts.
-/
namespace Sys2Proof.Machine

/-! ## The packet and the header image -/

/-- The fields of a LAUNCH packet (R393); for LAUNCHB, `hdr` and `ext` come from the bucket (R396). -/
structure LaunchPkt where
  sig : Bool
  pslots : Nat
  hdr : DWord
  tbases : DWord
  save : DWord
  saveSize : Nat
  priv : DWord
  ext : List Nat
  args : List Nat
  csig : DWord
  cval : DWord
  deriving DecidableEq, Repr

def LaunchPkt.of (bs : List Byte) : LaunchPkt :=
  let d (o : Nat) : DWord := BitVec.ofNat 64 (leAt bs o 8)
  let ws (o n : Nat) : List Nat := (List.range n).map fun i => leAt bs (o + 4 * i) 4
  { sig := leAt bs 2 1 % 2 = 1, pslots := leAt bs 4 4, hdr := d 8, tbases := d 0x10, save := d 0x18, saveSize := leAt bs 0x20 8,
    priv := d 0x28, ext := ws 0x30 5, args := ws 0x48 4, csig := d 0x58, cval := d 0x60 }

/-- The fields of a header image (R394). -/
structure Hdr where
  coll : Bool
  wc : Nat
  kind : Nat
  gen : Nat
  widths : List Nat
  sup : List Bool
  partw : Nat
  ext : List Nat
  quantum : Nat
  cores : Nat
  monu : List Nat
  privb : Nat
  savePer : Nat
  codeOff : Nat
  codeSize : Nat
  const : DWord
  constSize : Nat
  ntid : Nat
  roles : List Nat
  survey : List (List Nat)
  reserved : Bool                -- some reserved bit is set
  deriving DecidableEq, Repr

/-- The reserved bits of the words of an image (R394); those of PARTW have a reason of their own (R89). -/
def hdrReserved : List (Nat × Nat) :=
  [(0x00, 0xFFFFFE00), (0x04, 0xC0000000), (0x08, 0xFFFFFFC1), (0x28, 0xFFFFFE00), (0x2C, 0xE0E0E0E0), (0x4C, 0xFFFE00F0)]

def Hdr.of (h : List Byte) : Hdr :=
  let w (o : Nat) : Nat := leAt h o 4
  let nrole := w 0x4C % 16
  let roles := (List.range nrole).map fun r => w (0x50 + 4 * r)
  let past := (List.range 12).any fun r => decide (nrole ≤ r) && w (0x50 + 4 * r) != 0
  let survey := (List.range 16).map fun g => (List.range 4).map fun i => w (0x80 + 16 * g + 4 * i)
  let badSurvey := survey.any fun e => e.getD 2 0 &&& 0x7FFFFF8C != 0 || e.getD 3 0 != 0
  { coll := field (w 0) 8 1 = 1, wc := field (w 0) 6 2, kind := field (w 0) 4 2, gen := field (w 0) 0 4,
    widths := (List.range 5).map fun i => field (w 4) (6 * i) 6,
    sup := (List.range 5).map fun i => field (w 8) (i + 1) 1 = 1,
    partw := w 0x0C, ext := (List.range 5).map fun i => w (0x10 + 4 * i), quantum := w 0x24, cores := field (w 0x28) 0 9,
    monu := (List.range 4).map fun i => field (w 0x2C) (8 * i) 5, privb := w 0x30, savePer := w 0x34, codeOff := w 0x38,
    codeSize := w 0x3C, const := BitVec.ofNat 64 (leAt h 0x40 8), constSize := w 0x48, ntid := field (w 0x4C) 8 9,
    roles := roles, survey := survey,
    reserved := hdrReserved.any (fun e => w e.1 &&& e.2 != 0) || past || badSurvey || (roles.any fun r => field r 24 6 != 0) }

/-- Reason 1 (R395): the image or a field of the packet breaks R392 to R394. -/
def headerBad (p : LaunchPkt) (h : Hdr) : Bool :=
  let each (f : Nat → Bool) : Bool := (List.range 5).any f
  h.reserved || !(h.gen == 3 || h.gen == 4) || h.kind == 3 || h.wc == 3 || h.codeOff % 32 != 0 || h.codeSize % 32 != 0 ||
  !(decide (1 ≤ p.pslots ∧ p.pslots ≤ 2 ^ 20)) || p.hdr.toNat % 256 != 0 || p.save.toNat % 4096 != 0 || p.priv.toNat % 16 != 0 ||
  p.csig.toNat % 8 != 0 || (!p.sig && p.csig != 0) || (h.kind != 2 && p.args.any fun x => x != 0) ||
  each (fun k => !(h.sup.getD k false) && (p.ext.getD k 0 != 0 || h.ext.getD k 0 / 2 ^ h.widths.getD k 0 != 0)) ||
  (if h.kind = 0 then !(decide (4096 ≤ h.quantum ∧ h.quantum ≤ 2 ^ 24)) else h.quantum != 0) || (h.kind != 2 && h.cores != 0) ||
  h.privb % 16 != 0 || decide (h.privb > 65536) || decide (h.roles.length > 12) || decide (h.ntid > 256)

/-! ## Tensor records (R394) -/

/-- A record: TID, whether its base is supplied, its descriptor, and whether a reserved bit is set. -/
structure TensorRec where
  tid : Nat
  open_ : Bool
  desc : Desc
  reserved : Bool
  deriving DecidableEq, Repr

def TensorRec.of (bs : List Byte) : TensorRec :=
  { tid := leAt bs 0 1, open_ := leAt bs 1 1 % 2 = 1, desc := BitVec.ofNat 1024 (leAt bs 8 128),
    reserved := leAt bs 1 7 / 2 != 0 }

/-- A descriptor with another base. -/
def Desc.withBase (d : Desc) (b : DWord) : Desc := (d.extractLsb' 64 960 ++ b : BitVec 1024)

/-- The TIDs whose base is supplied, in increasing order. -/
def openTids (rs : List TensorRec) : List Nat := (List.range 256).filter fun t => rs.any fun r => r.tid == t && r.open_

/-- The records with the supplied bases in place. -/
def withBases (rs : List TensorRec) (bases : List DWord) : List TensorRec :=
  let ts := openTids rs
  rs.map fun r =>
    if r.open_ then { r with desc := Desc.withBase r.desc (bases.getD (ts.takeWhile (· != r.tid)).length 0) } else r

/-- TIDs 248 to 255 of a generation-3 launch (R248). -/
def cy3Tids : List (Nat × Desc) :=
  (List.range 8).map fun i =>
    (248 + i, BitVec.ofNat 1024 (16 * 2 ^ 128 + 2 ^ 76 + [2, 3, 1, 4, 5, 13, 14, 15].getD i 0 * 2 ^ 64))

/-! ## Cores (R21) -/

/-- The collective core of each die of a partition. -/
def collectiveCores (cs : List Nat) : List Nat :=
  (List.range 4).filterMap fun d => (cs.filter fun c => c / 64 == d).getLast?

/-- The cores that a TASK launch reserves: dies in turn, the lowest core of each. -/
def taskCores (cs : List Nat) (n : Nat) : List Nat :=
  let turn (c : Nat) : Nat := (cs.filter fun x => x / 64 == c / 64 && decide (x < c)).length
  (sortKey (fun c => [turn c, c / 64]) cs.length cs).take n

/-! ## The launch (R393, R394, R399) -/

def roleOf (r : Nat) : RoleRec :=
  { role := match field r 30 2 with
      | 0 => .general | 1 => .copy | 2 => .matrix | _ => .epilogue,
    first := field r 0 8, count := field r 8 8, vregs := field r 16 8 + 1 }

def kindOf (k : Nat) : Kind := if k = 0 then .full else if k = 1 then .persistent else .task

/-- The extents of F1 to F5 that a packet and an image give. -/
def launchExts (p : LaunchPkt) (h : Hdr) : List Nat :=
  (List.range 5).map fun k => (if h.sup.getD k false then p.ext.getD k 0 else h.ext.getD k 0) + 1

/-- The launch that would start for queue `q` of an interface on a partition. Each defined entry of the image is a group bound to
the package (R347). A TASK launch reserves all the cores that are left where CORES exceeds them (log entry 99). -/
def launchOfPacket (vi q clock : Nat) (cs : List Nat) (p : LaunchPkt) (h : Hdr) (rs : List TensorRec) (const : List Byte) : Launch :=
  let W := 32 * 2 ^ h.wc
  let es := launchExts p h
  let colls := if h.coll then collectiveCores cs else []
  let left := cs.filter fun c => !colls.contains c
  let places := if h.kind = 2 then taskCores left h.cores else left
  let wgs := (es.drop 1).foldl (· * ·) 1
  let w0 := 5 + h.wc
  let tids := (rs.map fun r => (r.tid, r.desc)) ++ (if h.gen = 3 then cy3Tids else [])
  { vi := vi, q := q, kind := kindOf h.kind, gen := h.gen, w := W,
    widths := if h.kind = 1 then [w0, h.widths.getD 0 0, 8, 0, 0, 0] else w0 :: h.widths,
    exts := if h.kind = 1 then [W, es.getD 0 1, left.length, 1, 1, 1] else W :: es,
    partw := BitVec.ofNat 32 h.partw, quantum := h.quantum, monuC := h.monu, privP := h.privb, savePer := h.savePer, hdr := p.hdr,
    codeBase := p.hdr + BitVec.ofNat 64 h.codeOff, codeSize := h.codeSize,
    const := Memory.writeBytes [] 0 const, constSize := h.constSize, roles := h.roles.map roleOf, coll := h.coll,
    pslots := p.pslots, save := p.save, saveSize := p.saveSize, priv := p.priv, sig := p.sig, csig := p.csig, cval := p.cval,
    args := p.args.map (BitVec.ofNat 32), cores := places, collCores := colls,
    tids := tids.foldl (fun t e => sset 0 t e.1 e.2) [],
    survey := (List.range 16).foldl (fun t g =>
      let e := h.survey.getD g []
      let x := e.getD 2 0
      if x / 2 ^ 31 % 2 = 1 then tput t g { lo := e.getD 0 0, hi := e.getD 1 0, die := 4, fld := field x 0 2 } else t) [],
    stakes := if h.kind = 1 then wgs else 0, start := clock,
    total := if h.kind = 0 then wgs else if h.kind = 1 then left.length else 0 }

/-! ## The reasons of R395 -/

/-- The roles do not cover the warps exactly once, or the budgets do not fit (R91). -/
def rolesBad (l : Launch) : Bool :=
  let e1 := l.warps
  if l.roles.isEmpty then decide (l.regs * 16384 / (e1 * l.w * 4) = 0)
  else
    let n := (l.roles.map RoleRec.count).foldl (· + ·) 0
    let once (f : Nat) : Bool := (l.roles.filter fun r => decide (r.first ≤ f ∧ f < r.first + r.count)).length == 1
    n != e1 || !((List.range e1).all once) ||
      decide ((l.roles.map fun r => r.count * r.vregs * l.w * 4).foldl (· + ·) 0 > l.regs * 16384)

/-- A group of the header's survey table is refused (R347): a field of width zero, an end above the extent, more than 256 members. -/
def surveyBad (l : Launch) : Bool :=
  l.survey.any fun e =>
    let k := 2 + e.2.fld
    l.width k == 0 || decide (e.2.hi > l.ext k) || decide (e.2.hi - e.2.lo > 256)

/-- The first reason to refuse a launch after reason 1 (R395); `cs` is the core set, `bases` the supplied bases. -/
def refusal (cs : List Nat) (p : LaunchPkt) (h : Hdr) (rs : List TensorRec) (bases : List DWord) (l : Launch) : Option Nat :=
  let sum := (if h.kind = 1 then [5 + h.wc, h.widths.getD 0 0, 8] else (5 + h.wc) :: h.widths).foldl (· + ·) 0
  let pop := cs.length
  let checks : List (Nat × Bool) :=
    [(2, (h.widths.any fun w => decide (w > 32)) || decide (sum > 64)),
     (3, ((List.range 5).any fun k => h.sup.getD k false && p.ext.getD k 0 / 2 ^ h.widths.getD k 0 != 0) ||
         (bases.any fun b => !canonical b) || decide (l.stakes ≥ 2 ^ 32)),
     (4, l.regs == 0 || decide (l.granules > 96) || h.partw / 2 ^ 21 != 0),
     (5, rolesBad l),
     (6, (placeSlots l.w l.warps []).isNone),
     (7, h.kind == 2 && (l.warps != 1 || (h.widths.any fun w => w != 0) || l.scratch != 0 || l.acc != 0 || !h.roles.isEmpty ||
         h.gen == 3 || !(decide (1 ≤ h.cores ∧ h.cores ≤ pop)))),
     (8, (h.monu.any fun c => decide (c > 16)) || decide (l.monEntries > 4096) || [3, 4, 5, 6].any fun k => decide (l.monuCount k ≠ 0 ∧ 2 ^ 48 ≤ l.membersAt k)),
     (9, surveyBad l),
     (10, rs.any fun r => (descFault r.desc).isSome),
     (11, decide (l.saveSize < 4096 + 32 * l.monEntries + l.pslots * l.savePer * 4096) ||
         (h.kind == 1 && decide (l.pslots < l.total)) || (h.kind == 2 && decide (l.pslots < h.cores * l.taskRoom))),
     (12, l.cores.isEmpty)]
  (checks.find? Prod.snd).map Prod.fst

/-- The front end's reads for a launch of type `ty`, one after the other; `k` gets what was read. -/
def readAll (ty : Nat) : List (DWord × Nat) → (List (List Byte) → State → State) → State → State
  | [], k, s => k [] s
  | (a, n) :: rest, k, s =>
    if n = 0 then readAll ty rest (fun bs s => k ([] :: bs) s) s
    else packetAccess 0 a n ty (fun ls s => readAll ty rest (fun bs s => k (s.homeBytes ls :: bs) (s.frontFetch s.ev.vi ls)) s) s

/-- The root task of a TASK launch (R312), on the die of its first core (log entry 31). -/
def rootTask (l : Launch) : Task := { narg := 4, args := l.args, die := l.cores.headD 0 / 64 }

/-- The workgroup fields of the group with number `i` at level k, the fields below k at zero. -/
def Launch.groupFields (l : Launch) (k i : Nat) : List Nat :=
  (List.range 4).map fun j =>
    if 2 + j < k then 0
    else i / (((List.range 6).filter fun m => decide (k ≤ m ∧ m < 2 + j)).foldl (fun a m => a * l.ext m) 1) % l.ext (2 + j)

/-- The entries of the monument table as they start (R289, R290): zeroed, with EXPECT filled in. -/
def State.monFill (s : State) (lid : Nat) : State :=
  let l := s.launchOf lid
  [3, 4, 5, 6].foldl (fun s k =>
    (List.range (l.monuCount k)).foldl (fun s n =>
      (List.range (l.groupsAt k)).foldl (fun s i =>
        let g : Group := { lid := lid, f := l.groupFields k i }
        s.monPut lid g k n (l.monument g k n)) s) s) s

/-- Starts a launch, or refuses it (R395). The front end writes the survey group table before a workgroup starts (R347). -/
def startLaunch (b : Bool) (p : LaunchPkt) (s : State) : State :=
  let vi := s.ev.vi
  let q := s.ev.q
  let ty := if b then 2 else 1
  let refuse (n : Nat) (s : State) : State := s.queueError vi q 0x01 n false
  let cs := coresOf ((s.vi vi).coreSet (s.queue vi q))
  readAll ty [(p.hdr, 0x180)] (fun hs s =>
    let h := Hdr.of (hs.headD [])
    if headerBad p h then refuse 1 s
    else
      readAll ty [(p.hdr + 0x180, 136 * h.ntid)] (fun ts s =>
        let bs := ts.headD []
        let recs := (List.range h.ntid).map fun i => TensorRec.of ((bs.drop (136 * i)).take 136)
        if recs.any TensorRec.reserved then refuse 1 s
        else
          readAll ty [(p.tbases, 8 * (openTids recs).length)] (fun us s =>
            let bases := (List.range (openTids recs).length).map fun i => BitVec.ofNat 64 (leAt (us.headD []) (8 * i) 8)
            let recs := withBases recs bases
            match refusal cs p h recs bases (launchOfPacket vi q s.clock cs p h recs []) with
            | some n => refuse n s
            | none =>
              readAll ty [(h.const, h.constSize)] (fun ks s =>
                let l := launchOfPacket vi q s.clock cs p h recs (ks.headD [])
                packetAccess 1 l.save 256 ty (fun ls s =>
                  let lid := s.nextLaunch
                  let s := { (s.setLaunch lid l) with nextLaunch := lid + 1 }
                  let s := s.frontWrite vi ls ((List.range 16).flatMap fun g => svBytes (tget l.survey g))
                  let s := s.monFill lid
                  let s := s.setQueue vi q { s.queue vi q with packet := some (.launch b), lid := some lid }
                  let s := if h.kind = 2 then s.addTask lid (rootTask l) else s
                  s.settleQueues vi) s) s) s) s) s

/-! ## LAUNCH and LAUNCHB -/

def execLaunch (s : State) : Out := .next (startPacket 1 (fun bs s => startLaunch false (LaunchPkt.of bs) s) s)

/-- A bucket (R396): its bounds, image and extents, and whether its reserved word is set. -/
structure Bucket where
  lo : List Nat
  hi : List Nat
  hdr : DWord
  ext : List Nat
  reserved : Bool
  deriving DecidableEq, Repr

def Bucket.of (bs : List Byte) : Bucket :=
  let ws (o n : Nat) : List Nat := (List.range n).map fun i => leAt bs (o + 4 * i) 4
  { lo := ws 0 4, hi := ws 0x10 4, hdr := BitVec.ofNat 64 (leAt bs 0x20 8), ext := ws 0x28 5, reserved := leAt bs 0x3C 4 != 0 }

/-- The shapes lie within the bounds of a bucket. -/
def Bucket.holds (b : Bucket) (n : Nat) (shapes : List Nat) : Bool :=
  (List.range n).all fun i => decide (b.lo.getD i 0 ≤ shapes.getD i 0 ∧ shapes.getD i 0 ≤ b.hi.getD i 0)

/-- LAUNCHB (R396): reads the shapes once, takes the first bucket that holds them. -/
def execLaunchb (s : State) : Out :=
  .next (startPacket 2 (fun bs s =>
    let btab : DWord := BitVec.ofNat 64 (leAt bs 8 8)
    let shapes : DWord := BitVec.ofNat 64 (leAt bs 0x30 8)
    let nsh := field (leAt bs 0x38 4) 0 3
    let nb := field (leAt bs 0x38 4) 8 5
    let refuse (n : Nat) (s : State) : State := s.queueError s.ev.vi s.ev.q 0x01 n false
    if btab.toNat % 64 ≠ 0 ∨ shapes.toNat % 16 ≠ 0 ∨ !(decide (1 ≤ nsh ∧ nsh ≤ 4 ∧ 1 ≤ nb ∧ nb ≤ 16)) then refuse 1 s
    else
      readAll 2 [(shapes, 16), (btab, 64 * nb)] (fun xs s =>
        let sh := (List.range 4).map fun i => leAt (xs.getD 0 []) (4 * i) 4
        let table := (List.range nb).map fun i => Bucket.of (((xs.getD 1 []).drop (64 * i)).take 64)
        match table.find? fun b => b.holds nsh sh with
        | none => refuse 13 s
        | some b => if b.reserved then refuse 1 s
          else startLaunch true { LaunchPkt.of bs with hdr := b.hdr, ext := b.ext } s) s) s)

/-! ## LAUNCH_COMPLETE (R397) -/

/-- Everything that the launch wrote reaches its home: a release at .system. -/
def State.launchRelease (s : State) (l : Launch) : State :=
  let s := (l.cores ++ l.collCores).foldl (fun s c => s.writeBackAll c) s
  ((List.range 4).foldl (fun s d => s.drainAll d fun _ => true) s).hostDrainAll

/-- The last workgroup has retired, or the last task has committed. -/
def State.launchDone (s : State) (lid : Nat) (l : Launch) : Bool :=
  !l.frozen && !l.killed && !(s.groups.any fun e => e.2.lid == lid) &&
  (if l.kind = .task then (s.tasksOf lid).isEmpty else l.retired == l.total)

def execLaunchComplete (s : State) : Out :=
  .next (
    let lid := s.ev.launch
    match tget s.launches lid with
    | none => s
    | some l =>
      if s.launchDone lid l then
        let gone (s : State) : State := { s with launches := tdel s.launches lid }
        if l.sig then
          match s.frontAcc l.vi 2 l.csig 8 with
          | .cells ls =>
            let s := s.launchRelease l
            let x := leAt (s.homeBytes ls) 0 8 + l.cval.toNat
            (gone ((s.frontWalk l.vi l.csig 8).frontWrite l.vi ls (leBytes x 8))).completePacket l.vi l.q
          | .wait => s
          | .fault =>
            let s := (gone (s.launchRelease l)).frontSeen l.vi 2 l.csig 8
            (s.setQueue l.vi l.q { s.queue l.vi l.q with lid := none }).packetFault l.vi l.q
        else (gone (s.launchRelease l)).completePacket l.vi l.q
      else s)

end Sys2Proof.Machine
end

