-- ==== Sys2Proof/Machine/QueueEvents.lean ====
section
/-!
DEFINITION. The events of the small packets, the queue registers and the core sets (spec/21 R389 to R392, R397, R401 to R404).
-/
namespace Sys2Proof.Machine

/-! ## Packets (R392) -/

/-- ADDR or SRC, and VAL, TAG or DST. -/
def pktAddr (bs : List Byte) : DWord := BitVec.ofNat 64 (leAt bs 8 8)
def pktVal (bs : List Byte) : DWord := BitVec.ofNat 64 (leAt bs 16 8)

def execWait (s : State) : Out :=
  .next (startPacket 3 (fun bs s =>
    packetAccess 0 (pktAddr bs) 8 3 (fun _ s => s.holdPacket s.ev.vi s.ev.q (.wait (pktAddr bs) (pktVal bs))) s) s)

/-- WAIT_SATISFIED: the word is at least VAL. -/
def execWaitSatisfied (s : State) : Out :=
  .next (
    match (s.queue s.ev.vi s.ev.q).packet with
    | some (.wait a v) =>
      packetAccess 0 a 8 3 (fun ls t =>
        if v.toNat ≤ leAt (t.homeBytes ls) 0 8 then (t.frontFetch s.ev.vi ls).completePacket s.ev.vi s.ev.q else s) s
    | _ => s)

/-- SIGNAL: header bit 16 selects an add. -/
def execSignal (s : State) : Out :=
  .next (startPacket 4 (fun bs s =>
    let add := leAt bs 2 1 % 2 = 1
    packetAccess (if add then 2 else 1) (pktAddr bs) 8 4 (fun ls s =>
      let s := s.frontRelease s.ev.vi
      let x := (if add then leAt (s.homeBytes ls) 0 8 else 0) + (pktVal bs).toNat
      (s.frontWrite s.ev.vi ls (leBytes x 8)).completePacket s.ev.vi s.ev.q) s) s)

def execMarker (s : State) : Out :=
  .next (startPacket 5 (fun bs s =>
    (s.setQueue s.ev.vi s.ev.q { s.queue s.ev.vi s.ev.q with qmark := pktVal bs }).completePacket s.ev.vi s.ev.q) s)

def execTimestamp (s : State) : Out :=
  .next (startPacket 6 (fun bs s =>
    packetAccess 1 (pktAddr bs) 8 6 (fun ls s =>
      ((s.frontRelease s.ev.vi).frontWrite s.ev.vi ls (leBytes s.clock 8)).completePacket s.ev.vi s.ev.q) s) s)

def execNopPacket (s : State) : Out :=
  .next (startPacket 8 (fun _ s => s.completePacket s.ev.vi s.ev.q) s)

def execCopyh (s : State) : Out :=
  .next (startPacket 7 (fun bs s =>
    (s.frontRelease s.ev.vi).holdPacket s.ev.vi s.ev.q (.copyh (pktAddr bs) (pktVal bs) (leAt bs 24 8))) s)

/-- One byte of a COPYH that has met a fault: whether it has moved is open (R392: no defined order). -/
def State.copyByte (s : State) (vi : Nat) (src dst : DWord) (i : Nat) : State :=
  match s.frontAcc vi 0 (src + BitVec.ofNat 64 i) 1, s.frontAcc vi 1 (dst + BitVec.ofNat 64 i) 1 with
  | .cells a, .cells b =>
    if (Config.unstated (s.free + i)).getLsbD 0 then
      (((s.frontWalk vi (src + BitVec.ofNat 64 i) 1).frontWalk vi (dst + BitVec.ofNat 64 i) 1).frontFetch vi a).frontWrite vi b
        (s.homeBytes a)
    else s
  | _, _ => s

/-- The bytes that a COPYH writes. Where the source byte lies in the destination, the order of the moves is open: a free value. -/
def copyhBytes (free : Nat) (as bs : List Nat) (data : List Byte) : List Byte :=
  (List.range data.length).map fun i =>
    if bs.contains (as.getD i 0) && as != bs then (Config.unstated (free + i)).setWidth 8 else data.getD i 0

def execCopyhComplete (s : State) : Out :=
  .next (
    let vi := s.ev.vi
    let q := s.ev.q
    match (s.queue vi q).packet with
    | some (.copyh src dst n) =>
      if n = 0 then s.completePacket vi q
      else
        match s.frontAcc vi 0 src n, s.frontAcc vi 1 dst n with
        | .cells as, .cells bs =>
          let data := copyhBytes s.free as bs (s.homeBytes as)
          (((({ s with free := s.free + n }.frontWalk vi src n).frontWalk vi dst n).frontFetch vi as).frontWrite vi bs
            data).completePacket vi q
        | .wait, _ => s
        | _, .wait => s
        | _, _ =>
          let s := ((List.range n).foldl (fun s i => s.copyByte vi src dst i) s).frontSeen vi 0 src n |>.frontSeen vi 1 dst n
          { s with free := s.free + n }.packetFault vi q
    | _ => s)

/-! ## Queue registers (R389, R390) -/

/-- QWPTR_WRITE: the doorbell. -/
def execQwptrWrite (s : State) : Out :=
  .next (
    let x := s.queue s.ev.vi s.ev.q
    (s.setQueue s.ev.vi s.ev.q { x with qwptr := s.ev.val.setWidth 32 }).settleQueues s.ev.vi)

/-- QUEUE_ENABLE and QUEUE_DISABLE: writes of QCTL with EN 1 and 0, RST 0. -/
def execQueueEnable (s : State) : Out :=
  .next (
    let x := s.queue s.ev.vi s.ev.q
    (s.setQueue s.ev.vi s.ev.q { x with en := true }).settleQueues s.ev.vi)
def execQueueDisable (s : State) : Out :=
  .next (
    let x := s.queue s.ev.vi s.ev.q
    s.setQueue s.ev.vi s.ev.q { x with en := false })

/-- QUEUE_RESET: QCTL with RST 1 and EN as the event says; RST is performed for a queue that is IDLE or in ERROR. A launch that
its own error left standing ends (R391). -/
def execQueueReset (s : State) : Out :=
  .next (
    let vi := s.ev.vi
    let q := s.ev.q
    let st := s.queueState vi q
    let s := s.setQueue vi q { s.queue vi q with en := s.ev.flag }
    if st = 0 ∨ st = 3 then
      let s := match (s.queue vi q).lid with
        | some lid => s.killLaunch lid
        | none => s
      let x := s.queue vi q
      s.setQueue vi q { x with qrptr := x.qwptr, error := none, lid := none, packet := none, preempt := none, notice := false }
    else s.settleQueues vi)

/-! ## Core sets (R401, R402) -/

/-- A queue keeps its cores across its packets while it has packets to run (R401, log entry 37). -/
def Queue.keeps (x : Queue) : Bool := x.en && x.error.isNone && decide (0 < x.pending)

/-- The queue that the cores go to: the ready one of highest priority whose set is free or held by queues that must give it up,
ties to the one served longest ago. -/
def State.mayTake (s : State) (vi q : Nat) : Bool :=
  let y := s.queue vi q
  let m := (s.vi vi).coreSet y
  m != 0 && (y.keep != m || s.yields vi q) && s.readyLaunch vi q &&
  (List.range 16).all fun r =>
    let x := s.queue vi r
    r == q || (x.keep &&& m) == 0 ||
      (!x.launching && (!x.keeps || (x.quantExp && decide (x.qprio.toNat ≤ y.qprio.toNat))))

def State.nextHolder (s : State) (vi : Nat) : Option Nat :=
  leastKey (fun q => [8 - (s.queue vi q).qprio.toNat, (s.queue vi q).served, q])
    ((List.range 16).filter fun q => s.mayTake vi q)

/-- The cores of a set drain: their L1s are written back and invalidated (R402). -/
def State.drainCores (s : State) (cs : List Nat) : State :=
  cs.foldl (fun s c => (s.writeBackAll c).forgetL1 c false) s

/-- CORE_SET_GRANT. The control processor writes the queue's queue-state record in the layout that its firmware names first (R405,
log entry 100). -/
def execCoreSetGrant (s : State) : Out :=
  .next (
    let vi := s.ev.vi
    match s.nextHolder vi with
    | none => s
    | some q =>
      let m := (s.vi vi).coreSet (s.queue vi q)
      let losers := (List.range 16).filter fun r => r != q && ((s.queue vi r).keep &&& m) != 0
      let stamp := (List.range 16).foldl (fun a r => max a (s.queue vi r).served) 0 + 1
      let s := losers.foldl (fun s r => s.setQueue vi r { s.queue vi r with keep := 0, quantExp := false }) s
      let s := if losers.isEmpty then s else s.drainCores (coresOf m)
      let x := s.queue vi q
      (s.setQueue vi q { x with keep := m, grantClock := s.clock, grantQuant := x.qquant.toNat, quantExp := false,
                                served := stamp, qlv := s.ctl.running.qlvs.head? }).settleQueues vi)

/-- QUEUE_QUANTUM_EXPIRE: QQUANT microseconds of 2400 clocks have passed since the grant. -/
def execQueueQuantumExpire (s : State) : Out :=
  .next (
    let x := s.queue s.ev.vi s.ev.q
    if x.keep ≠ 0 ∧ x.grantClock + 2400 * x.grantQuant ≤ s.clock then
      s.setQueue s.ev.vi s.ev.q { x with quantExp := true }
    else s)

/-! ## GRACE_EXPIRE (R403) and RAMP_WINDOW_EXPIRE (R404) -/

def execGraceExpire (s : State) : Out :=
  .next (
    let vi := s.ev.vi
    let q := s.ev.q
    let x := s.queue vi q
    match x.preempt with
    | some t =>
      if x.launching ∧ t + 2400 * (s.vi vi).grace.toNat ≤ s.clock then
        (s.queueError vi q 0x02 0 false).settleQueues vi
      else s
    | none => s)

def execRampWindowExpire (s : State) : Out :=
  .next (
    let x := s.die s.ev.die
    if x.rampStart + 2400 ≤ s.clock then s.setDie s.ev.die { x with rampUsed := 0, rampStart := s.clock } else s)

end Sys2Proof.Machine
end

