-- ==== Sys2Proof/Machine/ControlEvents.lean ====
section
/-!
DEFINITION. The control processor's events (spec/21 R405 to R412): interface states, the interface report, firmware hand-over,
SUMMARY, cold and warm start, readiness.
-/
namespace Sys2Proof.Machine

/-! ## Interface states (R406) -/

/-- Every queue of an interface is IDLE. -/
def State.allIdle (s : State) (vi : Nat) : Bool := (List.range 16).all fun q => s.queueState vi q == 0

/-- The interface enters ERROR: running launches are killed, every queue enters ERROR with INTERFACE_ERROR. -/
def State.interfaceError (s : State) (vi : Nat) : State :=
  (List.range 16).foldl (fun s q => s.queueError vi q 0x07 0 false) (s.setVi vi { s.vi vi with tdisp := .error })

/-- LOCK_INTERFACE_REQUEST: refused unless every queue is IDLE. -/
def execLockInterfaceRequest (s : State) : Out :=
  .next (
    let v := s.vi s.ev.vi
    if v.tdisp = .unlocked ∧ s.allIdle s.ev.vi then { s.setVi s.ev.vi { v with tdisp := .locked } with reply := [("accepted", 1)] }
    else { s with reply := [("accepted", 0)] })

def execStartInterfaceRequest (s : State) : Out :=
  .next (
    let v := s.vi s.ev.vi
    if v.tdisp = .locked then { (s.setVi s.ev.vi { v with tdisp := .run }).settleQueues s.ev.vi with reply := [("accepted", 1)] }
    else { s with reply := [("accepted", 0)] })

/-- Ends the launch of a queue at a request (R403): its record and step 1. -/
def State.endLaunchOf (s : State) (vi q : Nat) : State :=
  match (s.queue vi q).lid with
  | some lid => (s.killedRecord vi q (some s.clock)).killLaunch lid
  | none => s

/-- STOP_INTERFACE_REQUEST: launches are killed, cores cleared, keys erased, queues reset, counters zeroed (R415). -/
def execStopInterfaceRequest (s : State) : Out :=
  .next (
    let vi := s.ev.vi
    if (s.vi vi).tdisp = .unlocked then { s with reply := [("accepted", 0)] }
    else
      let s := (List.range 16).foldl (fun s q => s.endLaunchOf vi q) s
      let s := s.drainCores (coresOf (s.vi vi).cores)
      { s.setVi vi { s.vi vi with tdisp := .unlocked, keys := false, queues := [], counters := [] } with
        reply := [("accepted", 1)] })

/-! ## GET_DEVICE_INTERFACE_REPORT (R407, R409) -/

def tdispCode : Tdisp → Nat
  | .unlocked => 0 | .locked => 1 | .run => 2 | .error => 3

/-- Versions and measurements around a hand-over (R409). -/
def State.firmwareFields (s : State) : Reply :=
  [("FWVER", s.ctl.running.version), ("FWMEAS", s.ctl.running.meas), ("PENDING", (s.ctl.staged.map Firmware.meas).getD 0),
   ("PREVIOUS", s.ctl.previous)]

/-- The frozen registers' values. -/
def Vi.frozenFields (v : Vi) : Reply :=
  ((List.range 4).map fun d => ("TROOT", (sget 0 v.troot d).toNat)) ++
  [("DOMSIZE", v.domSize.toNat), ("DOMRANK", v.domRank.toNat), ("DOMCTL", v.domCtl.toNat), ("FWINBASE", v.fwinBase.toNat),
   ("FWINSIZE", v.fwinSize.toNat)]

def execGetDeviceInterfaceReport (s : State) : Out :=
  .next (
    let v := s.vi s.ev.vi
    { s with reply :=
      [("VI", s.ev.vi), ("STATE", tdispCode v.tdisp), ("STEPPING", 0xA0), ("CORES", v.cores.toNat), ("STACKS", v.hbm.toNat)] ++
      ((List.range 16).map fun k => ("SET", (sget 0 v.csets k).toNat)) ++ (v.apertures.map fun a => ("APERTURE", a.toNat)) ++
      s.firmwareFields ++ [("CFGMEAS", s.ctl.cfgMeas)] ++ v.frozenFields })

/-! ## Firmware (R409, R410) -/

/-- The image that an event names. -/
def imageOf (a : EvArgs) : Firmware :=
  { version := a.ver, secVer := a.secVer, meas := a.meas, sigOk := a.ok, qlvs := a.nums, saves := a.saves }

/-- FIRMWARE_STAGE: the image is held; its checks decide at the switch point (R410, log entry 38). PREVIOUS reads zero. -/
def execFirmwareStage (s : State) : Out :=
  .next { s with ctl := { s.ctl with staged := some (imageOf s.ev), previous := 0 } }

def execFirmwareActivate (s : State) : Out :=
  .next (if s.ctl.staged.isSome then { s with ctl := { s.ctl with activating := true } } else s)

/-- Packets may start again on every interface. -/
def State.resumeQueues (s : State) : State := (s.vis.map Prod.fst).foldl (fun s vi => s.settleQueues vi) s

/-- CANCEL: the queues resume with the image still staged. -/
def execCancel (s : State) : Out := .next { s with ctl := { s.ctl with activating := false } }.resumeQueues

/-- Every queue of every interface is at a packet boundary. -/
def State.atBoundary (s : State) : Bool := s.vis.all fun v => v.2.queues.all fun q => q.2.packet.isNone

/-- An interface with a parked workgroup. -/
def State.parkedVi (s : State) : Option Nat :=
  (s.groups.find? fun e => e.2.state == .parked).map fun e => (s.launchOf e.2.lid).vi

/-- The layout version of the queue-state record of queue `n % 16` of interface `n / 16` (R405). -/
def State.recordLayout (s : State) (n : Nat) : Nat := (s.queue (n / 16) (n % 16)).qlv.getD s.ctl.qlv

/-- Why a switch is refused (R410): reason and number. -/
def State.switchRefusal (s : State) (f : Firmware) : Option (Nat × Nat) :=
  match (List.range 1024).find? fun n => !f.qlvs.contains (s.recordLayout n) with
  | some n => some (1, n % 16)
  | none =>
    match if f.saves.contains 1 then none else s.parkedVi with
    | some vi => some (2, vi)
    | none => if !f.sigOk then some (3, 0) else if f.secVer < s.ctl.running.secVer then some (4, 0) else none

def execFirmwareSwitch (s : State) : Out :=
  .next (
    match s.ctl.staged with
    | none => s
    | some f =>
      if s.ctl.activating && s.atBoundary then
        match s.switchRefusal f with
        | some r => { s with ctl := { s.ctl with activating := false, status := r } }.resumeQueues
        | none =>
          { s with ctl := { s.ctl with running := f, staged := none, activating := false,
                                       previous := s.ctl.running.meas } }.resumeQueues
      else s)

/-! ## SUMMARY (R412) -/

/-- QSTAT (R389). -/
def State.qstat (s : State) (vi q : Nat) : Nat :=
  let e := ((s.queue vi q).error).getD (0, 0)
  s.queueState vi q + 2 ^ 8 * e.1 + 2 ^ 16 * (e.2 % 2 ^ 16)

/-- The queue's part: registers and the image of the running launch. -/
def State.queueSummary (s : State) (vi q : Nat) : Reply :=
  let x := s.queue vi q
  [("QSTAT", s.qstat vi q), ("QRPTR", x.qrptr.toNat), ("QWPTR", x.qwptr.toNat), ("QSET", x.qset.toNat),
   ("HDR", (x.lid.map fun l => (s.launchOf l).hdr.toNat).getD 0)]

/-- Warps of an interface that are resident and satisfy a test. -/
def State.warpsOf (s : State) (vi : Nat) (p : Warp → Bool) : List Warp :=
  (s.warps.filter fun e => e.2.place.isSome && (s.launchOfWarp e.2).vi == vi && p e.2).map Prod.snd

/-- The interface's part: state, queues, trap ring, warps parked for replay, suspended copies and calls. -/
def State.viSummary (s : State) (vi : Nat) : Reply :=
  let v := s.vi vi
  let copies := s.cores.flatMap fun k => k.2.copyq.filter fun c => c.suspended && (s.launchOf (s.group c.gid).lid).vi == vi
  let calls := s.calls.filter fun c => c.2.suspended && c.2.vi == vi
  ("VI", vi) :: ("STATE", tdispCode v.tdisp) :: ((List.range 16).flatMap (s.queueSummary vi)) ++
  [("TRHEAD", v.trHead.toNat), ("TRTAIL", v.trTail.toNat), ("OVERFLOW", (v.trFlag &&& 1).toNat),
   ("PARKED", (s.warpsOf vi fun w => w.status == .replay).length), ("COPIES", copies.length), ("CALLS", calls.length)]

/-- The halted warps: core, slot and code of each. -/
def State.haltedSummary (s : State) : Reply :=
  let hs := s.slots.filterMap fun e => match (s.warp e.2).status with
    | .halted c => some (e.1 / 32, e.1 % 32, c)
    | _ => none
  ("HALTED", hs.length) :: hs.flatMap fun h => [("CORE", h.1), ("SLOT", h.2.1), ("CODE", h.2.2)]

/-- SUMMARY: changes no state but the answer. -/
def execSummary (s : State) : Out :=
  .next { s with reply :=
    [("STEPPING", 0xA0), ("READY", s.ready.toNat)] ++ s.firmwareFields ++
    [("FWSTATUS", s.ctl.status.1), ("FWNUMBER", s.ctl.status.2), ("CONFIG", if s.ctl.cfgOk then 1 else 0)] ++
    ((List.range 64).flatMap s.viSummary) ++ s.haltedSummary }

/-! ## Start (R408, R411) -/

/-- The machine after reset that keeps the model's own fields. -/
def State.restarted (s : State) : State := { State.reset with tape := s.tape, ev := s.ev, free := s.free }

/-- COLD_START: every part is reset; the HBM's contents are those of `memDefault` (log entry 4); host memory is the host's. The
event gives the image, whether the configuration record verifies, and its measurement. An image that does not verify is no cold
start of the part: nothing is loaded (log entry 101). -/
def execColdStart (s : State) : Out :=
  .next (
    if (imageOf s.ev).sigOk then
      { s.restarted with
        mem := s.mem.filter fun e => decide (hostBase ≤ e.1),
        ctl := { running := imageOf s.ev, enrolled := true, cfgOk := s.ev.flag, cfgMeas := s.ev.len, qlv := s.ev.nums.headD 0 } }
    else s)

/-- WARM_START: contents, training and the unclonable function are kept; the image changes where the event says so. The dies
become ready again by PART_READY. A changed image that does not verify is not loaded: there is no start (log entry 101). -/
def execWarmStart (s : State) : Out :=
  .next (
    if s.ev.flag && !(imageOf s.ev).sigOk then s
    else
      { s.restarted with
        mem := s.mem, bad := s.bad, clock := s.clock, ready := s.ready &&& ~~~(0x1E : BitVec 57),
        ctl := { s.ctl with running := if s.ev.flag then imageOf s.ev else s.ctl.running, staged := none, activating := false,
                            previous := 0, status := (0, 0) } })

/-- PART_READY: a part's READY bit, or an interface, which is never ready on a bad configuration record (R408). What waited for
the part goes on. -/
def execPartReady (s : State) : Out :=
  .next (
    if s.ev.flag then s.setVi s.ev.vi { s.vi s.ev.vi with viReady := s.ctl.cfgOk }
    else if s.ev.id < 57 then { s with ready := s.ready ||| BitVec.ofNat 57 (2 ^ s.ev.id) }.resumeQueues
    else s)

end Sys2Proof.Machine
end

