-- ==== Sys2Proof/Machine/FabricEvents.lean ====
section
/-!
DEFINITION. The fabric's events (spec/19 R366 to R369): flits received from peers, repeats, lost peers. A flit is an operand
of its event: `src` and `ctr` its source rank and the low 32 bits of its counter, `ok` whether its CRC or GCM check passes,
`tag` and `nth` the access or call that it belongs to.
-/
namespace Sys2Proof.Machine

/-! ## The receiver's checks (R366, R367) -/

/-- A port of the fabric is ready (R411: bits 21 to 56). -/
def State.fabricReady (s : State) : Bool := s.ready.extractLsb' 21 36 != 0

/-- The counter whose low 32 bits a flit carries: the value nearest to the highest accepted one. -/
def nearestCtr (high low : Nat) : Nat :=
  let base := high / 2 ^ 32 * 2 ^ 32 + low
  if high + 2 ^ 31 < base ∧ 2 ^ 32 ≤ base then base - 2 ^ 32
  else if base + 2 ^ 31 < high then base + 2 ^ 32
  else base

/-- Counters of the replay window. -/
def replayWindow : Nat := 4096

/-- Where a flit passes the checks, the interface with its counter noted. -/
def Vi.accept (v : Vi) (src low : Nat) (ok : Bool) : Option Vi :=
  let top := sget 0 v.rxHigh src
  let seen := (tget v.rxSeen src).getD []
  let c := nearestCtr (top - 1) (low % 2 ^ 32)
  let top' := max top (c + 1)
  if ok && (!v.domCtl.getLsbD 0 || v.keys) && decide (top ≤ c + replayWindow) && !seen.contains c then
    some { v with rxHigh := sset 0 v.rxHigh src top',
                  rxSeen := tput v.rxSeen src ((c :: seen).filter fun x => decide (top' ≤ x + replayWindow)) }
  else none

/-- Receives a flit: a failed check drops and counts it, otherwise `k` acts. -/
def receiveFlit (k : State → State) (s : State) : State :=
  let vi := s.ev.vi
  if !s.fabricReady then s
  else
    match (s.vi vi).accept s.ev.src s.ev.ctr s.ev.ok with
    | some v => k (s.setVi vi v)
    | none => s.setVi vi { s.vi vi with dropped := (s.vi vi).dropped + 1 }

/-! ## Answers -/

/-- Sends an acknowledgement of the flit at hand. It is not held for repetition. -/
def State.sendAck (s : State) (refused : Bool) : State :=
  let vi := s.ev.vi
  let f : Flit := { rank := s.ev.src, ctr := 0, kind := .ack, tag := s.ev.tag, nth := s.ev.nth, refused := refused, sent := s.clock }
  let s := s.sendFlit vi f
  let v := s.vi vi
  s.setVi vi { v with flits := v.flits.filter fun g => g.kind != .ack, lastAck := some f }

/-- Sends a read response. -/
def State.sendData (s : State) (data : List Byte) (refused : Bool) : State :=
  s.sendFlit s.ev.vi { rank := s.ev.src, ctr := 0, kind := .readResponse, tag := s.ev.tag, nth := s.ev.nth, data := data, refused := refused }

/-! ## Accesses of peers (R368) -/

/-- The access lies in the fabric window. -/
def Vi.inWindow (v : Vi) (a n : Nat) : Bool :=
  decide (v.fwinBase.toNat ≤ a) && decide (a + n ≤ v.fwinBase.toNat + v.fwinSize.toNat) && decide (a + n ≤ 2 ^ 40)

/-- Locations of an access, each with its latest value at home: a peer access is performed there (R223). -/
def peerLocs (a n : Nat) : List Nat := (List.range n).map (a + ·)

/-- A stack that an access of a peer needs is not ready: the flit is not received yet (R411). -/
def State.peerWaits (s : State) (n : Nat) : Bool :=
  (s.vi s.ev.vi).inWindow s.ev.addr n && !((peerLocs s.ev.addr n).all s.partReady)

/-- What an access of a peer reads. Uncorrectable words are noted (R416), and their bytes are free values (log entry 124, DESIGN
CHOICE). -/
def State.peerRead (s : State) (ls : List Nat) : State × List Byte :=
  match s.wordBad ls with
  | none => (s, s.homeBytes ls)
  | some a =>
    ({ s.eccSeen s.ev.vi a with free := s.free + ls.length },
     ls.zipIdx.map fun e => if s.bad.contains (e.1 / 8) then (Config.unstated (s.free + e.2)).setWidth 8 else s.mem.byte e.1)

/-- READ_REQUEST: `len` bytes at the physical address `addr`. -/
def execReadRequest (s : State) : Out :=
  .next (
    if s.peerWaits s.ev.len then s
    else
      receiveFlit (fun s =>
        if (s.vi s.ev.vi).inWindow s.ev.addr s.ev.len then
          let ls := peerLocs s.ev.addr s.ev.len
          let r := s.peerRead ls
          (r.1.stackTraffic s.ev.vi ls).sendData r.2 false
        else s.sendData [] true) s)

/-- WRITE: the bytes `data` at `addr`. -/
def execWrite (s : State) : Out :=
  .next (
    let n := s.ev.data.length
    if s.peerWaits n then s
    else
      receiveFlit (fun s =>
        if (s.vi s.ev.vi).inWindow s.ev.addr n then
          let ls := peerLocs s.ev.addr n
          ((s.engineWrite ls s.ev.data).stackTraffic s.ev.vi ls).sendAck false
        else s.sendAck true) s)

/-- ATOMIC: the operation of major opcode `maj`, signed where `flag`, on `len` bytes at `addr` with operands `val` and `val2`. The
old value is the answer. -/
def execAtomic (s : State) : Out :=
  .next (
    let n := s.ev.len
    if s.peerWaits n then s
    else
      receiveFlit (fun s =>
        if (s.vi s.ev.vi).inWindow s.ev.addr n then
          let ls := peerLocs s.ev.addr n
          let r := s.peerRead ls
          let old := r.2
          let s := match atomicNew s.ev.maj s.ev.flag n (bitsOfBytes old) (s.ev.val.toNat % 2 ^ (8 * n)) (s.ev.val2.toNat % 2 ^ (8 * n)) with
            | some x => r.1.engineWrite ls (leBytes x n)
            | none => r.1
          (s.stackTraffic s.ev.vi ls).sendData old false
        else s.sendData [] true) s)

/-! ## Answers from peers -/

/-- The flit that an answer belongs to: by its request's tag and number. -/
def Vi.asked (v : Vi) (src tag nth : Nat) (p : FlitKind → Bool) : Option Flit :=
  v.flits.find? fun f => f.rank == src && f.tag == tag && f.nth == nth && p f.kind

/-- READ_RESPONSE: answers a read request or an atomic; `flag`: refused by the window (R368). It is acknowledged. -/
def execReadResponse (s : State) : Out :=
  .next (receiveFlit (fun s =>
    let vi := s.ev.vi
    let s := s.sendAck false
    match (s.vi vi).asked s.ev.src s.ev.tag s.ev.nth fun k => k == .readRequest || k == .atomic with
    | some f => s.answerFlit vi f s.ev.data (if s.ev.flag then some 9 else none)
    | none => s) s)

/-- ACKNOWLEDGEMENT of the flit whose counter is `val`; `flag`: a write refused by the window. -/
def execAcknowledgement (s : State) : Out :=
  .next (receiveFlit (fun s =>
    let vi := s.ev.vi
    match (s.vi vi).flits.find? fun f => f.rank == s.ev.src && f.ctr == s.ev.val.toNat &&
        f.kind != .readRequest && f.kind != .atomic with
    | some f => s.answerFlit vi f [] (if s.ev.flag then some 9 else none)
    | none => s) s)

/-! ## Collective flits (R376) -/

/-- The call of an interface to which a flit belongs. -/
def State.callFor (s : State) (vi tag nth : Nat) : Option Nat :=
  (s.calls.find? fun e => e.2.vi == vi && e.2.tag == tag && e.2.nth == nth && e.2.others.any fun i => e.2.rank i == s.ev.src).map Prod.fst

/-- Notes what a peer sent for its call, acknowledges it and moves the matching call on. -/
def State.noteCall (s : State) (f : PeerCall → PeerCall) : State :=
  let vi := s.ev.vi
  let s := (s.setVi vi ((s.vi vi).withPeerCall s.ev.src s.ev.tag s.ev.nth f)).sendAck false
  match s.callFor vi s.ev.tag s.ev.nth with
  | some id => (s.callAdvance id).endLostCalls vi
  | none => s.endLostCalls vi

/-- COLLECTIVE_DATA: operand bytes from offset `addr`, counted in COLLB of die `die` (R368). -/
def execCollectiveData (s : State) : Out :=
  .next (receiveFlit (fun s =>
    let put (p : PeerCall) : PeerCall :=
      { p with data := (List.range s.ev.data.length).foldl (fun m i => tput m (s.ev.addr + i) (s.ev.data.getD i 0)) p.data }
    (s.count s.ev.vi s.ev.die 4 s.ev.data.length).noteCall put) s)

/-- COLLECTIVE_CONTROL: the exchanged values `nums`, or with `flag` the end of the counts stage (R381). -/
def execCollectiveControl (s : State) : Out :=
  .next (receiveFlit (fun s =>
    s.noteCall fun p => if s.ev.flag then { p with counted := true } else { p with vals := some s.ev.nums }) s)

/-! ## Repeats and lost peers (R367, R369) -/

/-- FLIT_RESEND: an unacknowledged flit goes again under the next counter of the pair. -/
def execFlitResend (s : State) : Out :=
  .next (
    let vi := s.ev.vi
    let v := s.vi vi
    match v.flits.find? fun f => f.rank == s.ev.src && f.ctr == s.ev.ctr with
    | none => s
    | some f =>
      let ctr := sget 0 v.txCtr f.rank
      ((s.setVi vi { v with txCtr := sset 0 v.txCtr f.rank (ctr + 1),
                            flits := v.flits.map fun g => if g.rank = f.rank ∧ g.ctr = f.ctr then { g with ctr := ctr } else g
                            }).counted vi f.rank).endLostCalls vi)

/-- PEER_TIMEOUT: a flit toward rank `src` has stayed unacknowledged for longer than TIMEOUT. -/
def execPeerTimeout (s : State) : Out :=
  .next (
    let vi := s.ev.vi
    let v := s.vi vi
    if v.flits.any fun f => f.rank == s.ev.src && decide (f.sent + microseconds v.domTmo.toNat < s.clock) then
      (s.losePeer vi s.ev.src).endLostCalls vi
    else s)

end Sys2Proof.Machine
end

