-- ==== Sys2Proof/Machine/DebugEvents.lean ====
section
/-!
DEFINITION. The debug aperture (spec/22 R425, spec/04 R114, spec/09 R203, spec/12 R274, spec/19 R381, spec/21 R398, spec/22
R417): RESUME, KILL, REPLAY and writes of a window. An event names the window by its interface, core and slot.
-/
namespace Sys2Proof.Machine

/-- The window belongs to a core of the interface. -/
def State.windowOpen (s : State) : Bool := (s.vi s.ev.vi).cores.getLsbD s.ev.core

/-- Does `f` with the warp of the window. -/
def State.atWindow (s : State) (f : Nat → Warp → State) : State := if s.windowOpen then s.atSlot f else s

def Status.isHalted : Status → Bool
  | .halted _ => true
  | _ => false

/-- The warp is halted or parked for replay. -/
def Status.stopped : Status → Bool
  | .halted _ => true
  | .replay => true
  | _ => false

/-! ## Windows -/

/-- A word of a mask of `n` bits replaced. -/
def putWord {n : Nat} (m : BitVec n) (k : Nat) (x : Word) : BitVec n :=
  (m &&& ~~~(BitVec.ofNat n (0xFFFFFFFF * 2 ^ (32 * k)))) ||| BitVec.ofNat n (x.toNat * 2 ^ (32 * k))
def wordOf {n : Nat} (m : BitVec n) (k : Nat) : Word := m.extractLsb' (32 * k) 32

/-- Half `k` of a doubleword replaced. -/
def putHalf (d : DWord) (k : Nat) (x : Word) : DWord := putWord d k x

/-- An index register as a word. -/
def xWord (x : XReg) : Word := 0#5 ++ x.limit ++ x.base ++ x.index
def xOfWord (x : Word) : XReg := { index := x.extractLsb' 0 9, base := x.extractLsb' 9 9, limit := x.extractLsb' 18 9 }

/-- The count of a latch slot as a word: all ones where the slot holds none. -/
def latchWord (a : Option Nat) : Word := (a.map (BitVec.ofNat 32)).getD (BitVec.allOnes 32)
def latchOfWord (x : Word) : Option Nat := if x = BitVec.allOnes 32 then none else some x.toNat

/-- The word at an offset of a window, but for the private window. Lanes at or above `W` read as zero, and so do the bits that FSTAT
does not define (R153). -/
def windowRead (W : Nat) (w : Warp) (g : Group) (o : Nat) : Word :=
  let i := o / 4
  let lane (k : Nat) (x : Word) : Word := if k < W then x else 0
  if o < 0x20000 then lane (i % 128) (w.vreg (i / 128) (i % 128))
  else if o < 0x20200 then w.sreg (i % 128)
  else if o < 0x20240 then sget 0 g.g (i % 16)
  else if 0x21000 ≤ o ∧ o < 0x22000 then lane (i % 128) (xWord (sget {} w.x (i % 1024)))
  else if 0x22000 ≤ o ∧ o < 0x22C00 then
    let j := (o - 0x22000) / 8
    lane (j % 128) (wordOf (sget 0 w.latch j) (i % 2))
  else if 0x22C00 ≤ o ∧ o < 0x22C0C then latchWord (sget none w.latchAge (i % 4))
  else if 0x23000 ≤ o ∧ o < 0x23020 then ~~~(wordOf w.vE (i % 8))
  else if 0x23020 ≤ o ∧ o < 0x23030 then ~~~(wordOf w.sE (i % 4))
  else if 0x23040 ≤ o ∧ o < 0x23050 then wordOf w.sP (i % 4)
  else if o = 0x23050 then g.gP.setWidth 32
  else if 0x23060 ≤ o ∧ o < 0x23090 then wordOf (sget 0 w.latchP ((o - 0x23060) / 16) &&& allLanes W) (i % 4)
  else if 0x23090 ≤ o ∧ o < 0x23098 then wordOf w.pc (i % 2)
  else if 0x230A0 ≤ o ∧ o < 0x230B0 then wordOf w.exec (i % 4)
  else if o = 0x230B0 then 0#30 ++ bit1 w.sccP ++ bit1 w.scc
  else if o = 0x230B4 then w.fstat &&& 7
  else if 0x24000 ≤ o ∧ o < 0x25000 then wordOf (sget 0 w.vP ((o - 0x24000) / 16) &&& allLanes W) (i % 4)
  else if o = 0x25000 then BitVec.ofNat 32 w.prvLane
  else 0

/-- A new PC: an instruction that was issued already is forgotten, and so are where the warp stood and what of the loop at the old PC
R296 has noted. -/
def Warp.putPc (w : Warp) (pc : DWord) : Warp :=
  if pc = w.pc then w
  else { w with pc := pc, word := none, cont := .none, redo := [], walkRes := [], half := false, plumb := {},
                before := if w.before = .exited then w.before else .ready }

/-- The warp with a word of its window written. Bits that hold no state are not written. -/
def windowWrite (W : Nat) (o : Nat) (x : Word) (w : Warp) : Warp :=
  let i := o / 4
  if o < 0x20000 then (if i % 128 < W then { w with v := sset 0 w.v i x, badRegs := tdel w.badRegs i } else w)
  else if o < 0x20200 then { w with s := sset 0 w.s (i % 128) x, badRegs := tdel w.badRegs (40000 + i % 128) }
  else if 0x21000 ≤ o ∧ o < 0x22000 then (if i % 128 < W then { w with x := sset {} w.x (i % 1024) (xOfWord x) } else w)
  else if 0x22000 ≤ o ∧ o < 0x22C00 then
    let j := (o - 0x22000) / 8
    if j % 128 < W then { w with latch := sset 0 w.latch j (putHalf (sget 0 w.latch j) (i % 2) x) } else w
  else if 0x22C00 ≤ o ∧ o < 0x22C0C then { w with latchAge := sset none w.latchAge (i % 4) (latchOfWord x) }
  else if 0x23000 ≤ o ∧ o < 0x23020 then { w with vE := putWord w.vE (i % 8) (~~~x) }
  else if 0x23020 ≤ o ∧ o < 0x23030 then { w with sE := putWord w.sE (i % 4) (~~~x) }
  else if 0x23040 ≤ o ∧ o < 0x23050 then { w with sP := putWord w.sP (i % 4) x }
  else if 0x23060 ≤ o ∧ o < 0x23090 then
    let p := (o - 0x23060) / 16
    { w with latchP := sset 0 w.latchP p (putWord (sget 0 w.latchP p) (i % 4) x &&& allLanes W) }
  else if 0x23090 ≤ o ∧ o < 0x23098 then w.putPc (putHalf w.pc (i % 2) x)
  else if 0x230A0 ≤ o ∧ o < 0x230B0 then { w with exec := putWord w.exec (i % 4) x &&& allLanes W }
  else if o = 0x230B0 then { w with scc := x.getLsbD 0, sccP := x.getLsbD 1 }
  else if o = 0x230B4 then { w with fstat := x &&& 7 }
  else if 0x24000 ≤ o ∧ o < 0x25000 then
    let n := (o - 0x24000) / 16
    { w with vP := sset 0 w.vP n (putWord (sget 0 w.vP n) (i % 4) x &&& allLanes W) }
  else w

/-- The workgroup with a word of a window written. -/
def windowShared (o : Nat) (x : Word) (g : Group) : Group :=
  if 0x20200 ≤ o ∧ o < 0x20240 then { g with g := sset 0 g.g (o / 4 % 16) x }
  else if o = 0x23050 then { g with gP := x.setWidth 16 }
  else g

/-- A word with one byte replaced. -/
def putByte (x : Word) (k : Nat) (b : Byte) : Word :=
  (x &&& ~~~(BitVec.ofNat 32 (0xFF * 2 ^ (8 * k)))) ||| BitVec.ofNat 32 (b.toNat * 2 ^ (8 * k))

/-- The address of byte `off` of the private space of lane `prv` of a warp (R190); none where there is no such byte. -/
def State.windowVa (s : State) (id prv off : Nat) : Option DWord :=
  let w := s.warp id
  let g := s.group w.gid
  let e : Env := { w := w, g := g, l := s.launchOf g.lid }
  if e.W ≤ prv ∨ e.l.privP ≤ off then none
  else some (BitVec.ofNat 64 (((privPieces e prv off 1).map Prod.fst).headD 0))

/-- Where an access of the window to it goes; `acc`: 0 a read, 1 a write. -/
def State.windowRoute (s : State) (id prv off acc : Nat) : Option Route :=
  (s.windowVa id prv off).map fun a => s.routeEngine (s.launchOfWarp (s.warp id)).vi (s.warp id).die acc 1 a

/-- A byte of the private window is written as by the selected lane (R190); a translation fault leaves it unwritten. -/
def State.windowPrivate (s : State) (id prv off : Nat) (b : Byte) : State :=
  match s.windowRoute id prv off 1 with
  | some (.cells ls) =>
    (s.walked (s.launchOfWarp (s.warp id)).vi (s.warp id).die ((s.windowVa id prv off).getD 0) 1).l1Store (s.warp id).core none ls [b]
  | _ => s

/-- What the host reads at byte `off` of the private window: zero where there is no such byte or its translation faults; none while
its stack is not ready (R411, R425). -/
def State.windowPrivateByte (s : State) (id prv off : Nat) : Option Byte :=
  match s.windowRoute id prv off 0 with
  | some (.cells ls) => some (((s.l1Read (s.warp id).core id ls).2.headD (0, false)).1)
  | some (.walk _) => none
  | _ => some 0

/-- What the host reads at the word `o` of the window of a slot (R425): zero where the slot holds no warp; the private window at the
lane that PRVLANE selects. -/
def State.windowWord (s : State) (core slot o : Nat) : Option Word :=
  match tget s.slots (32 * core + slot) with
  | none => some 0
  | some id =>
    let w := s.warp id
    if o < 0x30000 then some (windowRead (s.launchOfWarp w).w w (s.group w.gid) o)
    else
      let bs := (List.range 4).map fun i => s.windowPrivateByte id w.prvLane (o - 0x30000 + i)
      if bs.all Option.isSome then some (BitVec.ofNat 32 (bitsOfBytes (bs.map fun b => b.getD 0))) else none

/-- Writes one byte of the window of a stopped warp; `prv`: the lane whose private space the window shows. -/
def State.windowByte (s : State) (id prv o : Nat) (b : Byte) : State :=
  if 0x30000 ≤ o then s.windowPrivate id prv (o - 0x30000) b
  else
    let w := s.warp id
    let g := s.group w.gid
    let W := (s.launchOf g.lid).w
    let a := o / 4 * 4
    let x := putByte (windowRead W w g a) (o % 4) b
    (s.setWarp id (windowWrite W a x w)).setGroup w.gid (windowShared a x g)

/-- The aperture writes that a warp's window holds take effect (R114). -/
def State.applyWindow (s : State) (id : Nat) : State :=
  let w := s.warp id
  w.win.foldl (fun s e => s.windowByte id e.1 e.2.1 e.2.2) (s.setWarp id { w with win := [] })

/-- One of them is for a stack that is not ready: the warp does not go on before it is (R411). -/
def State.windowWaits (s : State) (id : Nat) : Bool :=
  (s.warp id).win.any fun e => decide (0x30000 ≤ e.2.1) && match s.windowRoute id e.1 (e.2.1 - 0x30000) 1 with
    | some (.walk _) => true
    | _ => false

/-! ## KILL -/

/-- A workgroup has a suspended command (R274, R381, R416, R417). -/
def State.suspendedCommand (s : State) (gid : Nat) : Bool :=
  let k := s.core (s.group gid).core
  (k.copyq.any fun c => c.gid == gid && c.suspended) || (k.matq.any fun c => c.gid == gid && c.suspended) ||
  (k.mvbs.any fun c => c.gid == gid && c.suspended) ||
  (s.calls.any fun c => c.2.gid == gid && c.2.suspended) ||
  ((s.group gid).warps.any fun id => (s.warp id).flight.any Producer.suspended)

/-- The suspended commands of a killed warp, and of its workgroup's calls, are dropped (log entry 36). -/
def State.dropSuspended (s : State) (id gid core : Nat) : State :=
  let k := s.core core
  let s := s.setCore core { k with copyq := k.copyq.filter fun c => !(c.warp == id && c.suspended),
                                   matq := k.matq.filter fun c => !(c.warp == id && c.suspended),
                                   mvbs := k.mvbs.filter fun c => !(c.warp == id && c.suspended) }
  let s := { s with calls := s.calls.filter fun c => !(c.2.gid == gid && c.2.suspended) }
  s.setWarp id { s.warp id with flight := (s.warp id).flight.filter fun p => !p.suspended }

/-- KILL: the warp ends as by EXIT; a task warp ends its task as TDONE does (R114, R336), where a task of its core may end (R311,
log entry 95). -/
def execKill (s : State) : Out :=
  .next (s.atWindow fun id w =>
    if w.status != .exited && (w.status.stopped || s.suspendedCommand w.gid) &&
        ((s.launchOfWarp w).kind != .task || s.mayEnd id) then
      let s := s.dropSuspended id w.gid w.core
      let s := s.setWarp id { s.warp id with word := none, cont := .none, redo := [], walkRes := [], answers := [], stopping := none,
                                             before := .ready, plumb := {}, win := [] }
      if (s.launchOfWarp w).kind = .task then endTask id false false s
      else (s.releaseDevice id w.core).exitWarp id
    else s)

/-! ## REPLAY -/

/-- The record of a halted or parked warp still waits for the trap ring, and the warp with it (R113, R414). -/
def State.recordWaits (s : State) (w : Warp) : Bool :=
  let code := match w.status with
    | .halted c => c
    | _ => trapNumber .pageFault
  (s.vi (s.launchOfWarp w).vi).trHeld.any fun r => r.core == w.core && r.slot == w.slot && r.code == code

/-- The record of a suspended command of the window's slot still waits for the trap ring, and the command with it (R414): its address is
the command's. -/
def State.commandHeld (s : State) (vi : Nat) (pc : DWord) : Bool :=
  (s.vi vi).trHeld.any fun r => r.core == s.ev.core && r.slot == s.ev.slot && r.pc == pc

/-- A warp parked for replay goes on. One that HALT of another warp met while its fetch faulted has no instruction to finish:
it stops before its next (R137). -/
def replayParked (id : Nat) (s : State) : State :=
  let w := s.warp id
  match w.word, w.stopping with
  | none, some i => haltOther id i (s.setWarp id { w with status := .ready })
  | _, _ => s.setWarp id { w with status := .ready }

/-- The suspended engine commands whose record names the slot, and is written, go on (R274, R414, R416). -/
def State.replayEngines (s : State) : State :=
  let k := s.core s.ev.core
  let vi := s.viOfCore s.ev.core
  let goesOn (slot : Nat) (pc : DWord) : Bool := slot == s.ev.slot && !s.commandHeld vi pc
  s.setCore s.ev.core
    { k with copyq := k.copyq.map fun c => if goesOn c.slot c.pc then { c with suspended := false } else c,
             matq := k.matq.map fun c => if goesOn c.slot c.pc then { c with suspended := false } else c,
             mvbs := k.mvbs.map fun c => if goesOn c.slot c.pc then { c with suspended := false } else c }

/-- What awaits a replay in a slot that a warp holds: the warp, or its SVLD. -/
def State.replayWarp (s : State) (id : Nat) (w : Warp) : State :=
  let s := if w.status = .replay ∧ !s.recordWaits w ∧ !s.windowWaits id then replayParked id (s.applyWindow id) else s
  match w.flight.find? Producer.suspended with
  | some p => match p.held with
    | some h => if s.commandHeld (s.launchOfWarp w).vi h.pc then s else s.readSurvey id p h
    | none => s
  | none => s

/-- Suspended calls whose record names the slot, and is written. -/
def State.replayCalls (s : State) : State :=
  (s.calls.filter fun e => e.2.suspended && e.2.slot == s.ev.slot && (s.group e.2.gid).core == s.ev.core &&
      !s.commandHeld e.2.vi e.2.pc).foldl (fun s e =>
    (s.putCall e.1 { e.2 with suspended := false }).callAdvance e.1) s

/-- The record of a suspended save or restore still waits (R414). -/
def State.contextHeld (s : State) (g : Group) : Bool :=
  (s.vi (s.launchOf g.lid).vi).trHeld.any fun r =>
    decide (4 ≤ r.flags) && r.pc == (s.warp (g.warps.headD 0)).pc && r.info1 == BitVec.ofNat 64 g.linear

/-- A suspended save or restore, whose record is written, names the slot of warp 0; where warp 0 has given its slot up, any slot of
its workgroup. -/
def State.replayContext (s : State) : State :=
  let names (g : Group) : Bool :=
    match (s.warp (g.warps.headD 0)).place with
    | some p => p == (s.ev.core, s.ev.slot)
    | none => g.warps.any fun id => (s.warp id).place == some (s.ev.core, s.ev.slot)
  { s with groups := tmap (fun _ g =>
      if g.suspended && (g.state == .saving || g.state == .restoring) && names g && !s.contextHeld g then
        { g with suspended := false } else g) s.groups }

/-- The slot of the window holds a warp. -/
def State.windowHeld (s : State) : Bool := (tget s.slots (32 * s.ev.core + s.ev.slot)).isSome

/-- REPLAY: in the window of a slot that holds no warp it acts for a suspended save or restore only (R425). -/
def execReplay (s : State) : Out :=
  .next (
    if s.windowOpen then
      let s := s.atSlot fun id w => s.replayWarp id w
      let s := if s.windowHeld then s.replayEngines.replayCalls else s
      s.replayContext
    else s)

/-! ## RESUME -/

/-- RESUME: the aperture writes take effect and the warp goes on at the PC of its window, unless its record still waits (R113,
R114). -/
def execResume (s : State) : Out :=
  .next (s.atWindow fun id w =>
    if w.status.isHalted && !s.recordWaits w && !s.windowWaits id then resumeWarp id (s.applyWindow id) else s)

/-! ## DEBUG_WINDOW_WRITE -/

/-- PRVLANE after some bytes of it are written; a value with a reserved bit set is not written (R11, R413). -/
def putPrvLane (old off : Nat) (data : List Byte) : Nat :=
  let x := (List.range data.length).foldl (fun x i =>
    if 0x25000 ≤ off + i ∧ off + i < 0x25004 then putByte x (off + i - 0x25000) (data.getD i 0) else x) (BitVec.ofNat 32 old)
  if x.toNat < 128 then x.toNat else old

/-- DEBUG_WINDOW_WRITE: the bytes `data` from offset `addr` of a window, while its warp is halted or parked for replay. They take
effect at resume (R114); PRVLANE, which selects what the window shows, at once. -/
def execDebugWindowWrite (s : State) : Out :=
  .next (s.atWindow fun id w =>
    if w.status.stopped && decide (s.ev.addr + s.ev.data.length ≤ 0x40000) then
      let es := (List.range s.ev.data.length).map fun i => (w.prvLane, s.ev.addr + i, s.ev.data.getD i 0)
      s.setWarp id { w with win := w.win ++ es.filter fun e => !(decide (0x25000 ≤ e.2.1 ∧ e.2.1 < 0x25004)),
                            prvLane := putPrvLane w.prvLane s.ev.addr s.ev.data }
    else s)

end Sys2Proof.Machine
end

