-- ==== Sys2Proof/Machine/RegisterEvents.lean ====
section
/-!
DEFINITION. The register apertures (spec/22 R413 to R418, spec/00 R11, spec/19 R367, R369): writes of registers, soft errors,
boost permits, host writes.
-/
namespace Sys2Proof.Machine

/-! ## REGISTER_WRITE (R11, R389, R390, R413) -/

/-- A power of two from 16 to 2^20, or 0. -/
def ringSizeOk (n : Nat) : Bool := n == 0 || ringSize n

/-- A queue register whose write has no row of its own: the queue afterwards; none where the write is not performed. `st` is the
queue's state. -/
def Queue.written (x : Queue) (st off len : Nat) (v : DWord) : Option Queue :=
  let free := st != 1 && (st != 2 || !x.en)
  let n := v.toNat
  match off, len with
  | 0x00, 8 => if free && n % 4096 == 0 then some { x with qbase := v } else none
  | 0x08, 4 => if free && decide (4 ≤ n ∧ n ≤ 16) then some { x with qsize := lo32 v } else none
  | 0x14, 4 => if n < 8 then some { x with qprio := lo32 v } else none
  | 0x18, 4 => if 1 ≤ n ∧ n ≤ 1000000 then some { x with qquant := lo32 v } else none
  | 0x1C, 4 => if free && decide (n < 16) then some { x with qset := lo32 v } else none
  | 0x20, 8 => some { x with qnote := v }
  | _, _ => none

/-- A frozen register (R406, R413): what a write does while the interface is unlocked; none where it is not performed. -/
def Vi.frozenWrite (v : Vi) (off len : Nat) (x : DWord) : Option (Option Vi) :=
  let n := x.toNat
  if len = 8 ∧ 0x400 ≤ off ∧ off < 0x420 ∧ off % 8 = 0 then
    some (if n % 4096 = 0 then some { v with troot := sset 0 v.troot ((off - 0x400) / 8) x } else none)
  else if len = 8 ∧ 0x600 ≤ off ∧ off < 0x800 ∧ off % 8 = 0 then
    let k := (off - 0x600) / 32
    let j := off % 32 / 8
    let m : BitVec 256 := BitVec.ofNat 256 (n * 2 ^ (64 * j))
    let word : BitVec 256 := BitVec.ofNat 256 ((2 ^ 64 - 1) * 2 ^ (64 * j))
    some (if m &&& ~~~v.cores = 0 then some { v with csets := sset 0 v.csets k ((sget 0 v.csets k &&& ~~~word) ||| m) } else none)
  else
    match off, len with
    | 0x800, 4 => some (if 1 ≤ n ∧ n ≤ 4096 then some { v with domSize := lo32 x } else none)
    | 0x804, 4 => some (if n < v.domSize.toNat then some { v with domRank := lo32 x } else none)
    | 0x808, 4 => some (if n < 4 then some { v with domCtl := lo32 x } else none)
    | 0x810, 8 => some (if n % 65536 = 0 ∧ n < 2 ^ 40 then some { v with fwinBase := x } else none)
    | 0x818, 8 => some (if n % 65536 = 0 then some { v with fwinSize := x } else none)
    | _, _ => none

/-- Another register whose write has no row of its own. -/
def Vi.plainWrite (v : Vi) (off len : Nat) (x : DWord) : Option Vi :=
  let n := x.toNat
  if len = 4 ∧ 0x844 ≤ off ∧ off < 0x854 ∧ off % 4 = 0 then
    if n ≤ 4096 then some { v with ramp := sset 64 v.ramp ((off - 0x844) / 4) (lo32 x) } else none
  else
    match off, len with
    | 0x420, 8 => if n % 65536 = 0 ∧ !v.invGo then some { v with invStart := x } else none
    | 0x428, 4 => if v.invGo then none else some { v with invCount := lo32 x }
    | 0x440, 8 => if n % 16 = 0 then some { v with hintBase := x } else none
    | 0x448, 4 => if n ≤ 2 ^ 20 then some { v with hintCnt := lo32 x } else none
    | 0x80C, 4 => if 100 ≤ n ∧ n ≤ 1000000 then some { v with domTmo := lo32 x } else none
    | 0x840, 4 => if 100 ≤ n ∧ n ≤ 100000 then some { v with grace := lo32 x } else none
    | 0x868, 4 => if ringSizeOk n then some { v with trSize := lo32 x } else none
    | 0x880, 8 => if n % 64 = 0 then some { v with mkBase := x } else none
    | 0x888, 4 => if ringSizeOk n then some { v with mkSize := lo32 x } else none
    | 0x944, 4 => if n < 2 then some { v with boostCtl := lo32 x } else none
    | _, _ => none

/-- An interface with other cores: a core set keeps no core that is gone, and set 0 holds all of them unless the host driver has
written it otherwise (R401, R413). -/
def Vi.withCores (v : Vi) (m : BitVec 256) : Vi :=
  let own := v.csets.map fun e => (e.1, e.2 &&& m)
  { v with cores := m, csets := if sget 0 v.csets 0 = v.cores then sset 0 own 0 m else own.filter fun e => e.2 != 0 }

/-- What the host driver assigns to an interface besides the aperture (R406, log entry 33): 0 to 2 an aperture base, 3 to 6 a
word of the core mask, 7 the stack mask. Cores and stacks of another interface are not taken, and a core leaves an interface only
when it has drained (R402). -/
def State.assign (s : State) (vi k : Nat) (x : DWord) : Option Vi :=
  let v := s.vi vi
  let others := s.vis.filter fun e => e.1 != vi
  if k < 3 then some { v with apertures := v.apertures.set k x }
  else if k < 7 then
    let word : BitVec 256 := BitVec.ofNat 256 ((2 ^ 64 - 1) * 2 ^ (64 * (k - 3)))
    let m := (v.cores &&& ~~~word) ||| BitVec.ofNat 256 (x.toNat * 2 ^ (64 * (k - 3)))
    let gone := coresOf (v.cores &&& ~~~m)
    if (others.all fun e => e.2.cores &&& m == 0) && gone.all (fun c => (s.groupsOn c).isEmpty) then some (v.withCores m) else none
  else if k = 7 ∧ x.toNat < 2 ^ 16 then
    if others.all fun e => e.2.hbm &&& x.setWidth 16 == 0 then some { v with hbm := x.setWidth 16 } else none
  else none

/-- A write to something that LOCK freezes; a value that R11 refuses is not performed, and no action follows it. Cores that leave the interface have their L1s written back and invalidated (R402). -/
def State.writeFrozen (s : State) (vi : Nat) (v' : Option Vi) : State :=
  match v', (s.vi vi).tdisp with
  | none, _ => s
  | some v, .unlocked =>
    let gone := (s.vi vi).cores &&& ~~~v.cores
    (if gone = 0 then s else s.drainCores (coresOf gone)).setVi vi v
  | some _, .error => s
  | some _, _ => s.interfaceError vi

/-- REGISTER_WRITE of `len` bytes at offset `addr`; with operand `maj` = 1, an assignment. -/
def execRegisterWrite (s : State) : Out :=
  .next (
    let vi := s.ev.vi
    let v := s.vi vi
    let off := s.ev.addr
    let n := s.ev.len
    let x := if n = 4 then (lo32 s.ev.val).setWidth 64 else s.ev.val
    let s :=
      if s.ev.maj = 1 then s.writeFrozen vi (s.assign vi off x)
      else if off < 0x400 then
        match (s.queue vi (off / 64)).written (s.queueState vi (off / 64)) (off % 64) n x with
        | some y => s.setQueue vi (off / 64) y
        | none => s
      else
        match v.frozenWrite off n x with
        | some r => s.writeFrozen vi r
        | none => match v.plainWrite off n x with
          | some v => s.setVi vi v
          | none => s
    s.settleQueues vi)

/-! ## Registers with rows of their own -/

/-- INVALIDATE (R201): GO := 1, not performed while GO reads 1. -/
def execInvalidate (s : State) : Out := .next (s.setVi s.ev.vi { s.vi s.ev.vi with invGo := true })

/-- TRBASE_WRITE (R414). -/
def execTrbaseWrite (s : State) : Out :=
  .next (
    if s.ev.val.toNat % 64 = 0 then s.setVi s.ev.vi { s.vi s.ev.vi with trBase := s.ev.val, trBlocked := false } else s)

/-- TRTAIL_WRITE (R113). -/
def execTrtailWrite (s : State) : Out := .next (s.setVi s.ev.vi { s.vi s.ev.vi with trTail := lo32 s.ev.val })

/-- TRFLAG_CLEAR; a reserved bit leaves the write not performed (R11). -/
def execTrflagClear (s : State) : Out :=
  .next (
    let v := s.vi s.ev.vi
    if s.ev.val.toNat < 8 then s.setVi s.ev.vi { v with trFlag := v.trFlag &&& ~~~(lo32 s.ev.val) } else s)

/-- CNTCLR (R415). -/
def execCntclr (s : State) : Out :=
  .next (if s.ev.val = 1 then s.setVi s.ev.vi { s.vi s.ev.vi with counters := [] } else s)

/-- ECCSTAT_CLEAR (R416). -/
def execEccstatClear (s : State) : Out :=
  .next (
    let v := s.vi s.ev.vi
    if s.ev.val.toNat < 8 then s.setVi s.ev.vi { v with eccStat := v.eccStat &&& ~~~(lo32 s.ev.val) } else s)

/-- Every lost mark goes, flits for lost peers are dropped, flit counters start at 0 (R369). -/
def Vi.freshPeers (v : Vi) : Vi :=
  { v with lost := [], flits := v.flits.filter fun f => !v.lost.contains f.rank, txCtr := [], rxHigh := [], rxSeen := [] }

/-- DOMLOST_CLEAR: not performed on a domain with ENC = 1. -/
def execDomlostClear (s : State) : Out :=
  .next (
    let v := s.vi s.ev.vi
    if s.ev.val = 1 ∧ !v.domCtl.getLsbD 0 then s.setVi s.ev.vi v.freshPeers else s)

/-- DOMAIN_KEY_LOAD: only in RUN (R406). On a domain with ENC = 1 it clears the lost marks (R369) and sets the counters to 0 (R367);
with ENC = 0 both stay (log entry 121, DESIGN CHOICE). -/
def execDomainKeyLoad (s : State) : Out :=
  .next (
    let v := s.vi s.ev.vi
    if v.tdisp = .run then s.setVi s.ev.vi { (if v.domCtl.getLsbD 0 then v.freshPeers else v) with keys := true } else s)

/-! ## SCRUB_ERROR (R416) -/

/-- The interface that holds a stack. -/
def State.viOfStack (s : State) (m : Nat) : Nat := ((s.vis.find? fun e => e.2.hbm.getLsbD m).map Prod.fst).getD 0

/-- An HBM word is uncorrectable: ECCSTAT, and every later read meets it. -/
def State.hbmWord (s : State) (a : Nat) : State :=
  let w := a / 8
  let s := if s.bad.contains w then s else { s with bad := s.bad ++ [w] }
  s.eccSeen (s.viOfStack (a / 2 ^ 36)) (8 * w)

/-- An SRAM word of a core is uncorrectable: ECCSTAT. Which register, or which word of a workgroup, the pool offset holds is the
event's (log entry 102): kind 2 a register of the warp in a slot, kind 3 a word of a workgroup. -/
def State.sramWord (s : State) : State :=
  let t := s.sramSeen (s.viOfCore s.ev.core) (sramPlace s.ev.core s.ev.addr)
  match s.ev.maj with
  | 2 => t.atSlot fun id w => t.setWarp id { w with badRegs := tput w.badRegs s.ev.nth s.ev.addr }
  | 3 =>
    match tget t.groups s.ev.wg with
    | some g => if g.core = s.ev.core then t.setGroup s.ev.wg { g with badWords := tput g.badWords s.ev.nth s.ev.addr } else t
    | none => t
  | _ => t

/-- SCRUB_ERROR. Without the flag: kind 0 an HBM word at location `addr`, 1 an HBM error that ECC has corrected (R415), 2 a word of
the queue-state record of a queue (R406). With it: an SRAM word of a core, but for kind 1 an error that ECC has corrected, 4 a line of the
core's L1 whose tag fails its parity twice when it is next read, 5 a tag that a refetch has mended, and 6 a line of the L2 of the core's
die whose tag fails so (log entry 125). -/
def execScrubError (s : State) : Out :=
  .next (
    if s.ev.flag then
      let vi := s.viOfCore s.ev.core
      match s.ev.maj with
      | 1 => s.count vi (s.ev.core / 64) 0x40 1
      | 4 => let k := s.core s.ev.core; s.setCore s.ev.core { k with badTags := (k.badTags.filter (· != s.ev.nth)) ++ [s.ev.nth] }
      | 5 => s.count vi (s.ev.core / 64) 0x42 1
      | 6 =>
        let d := s.ev.core / 64
        let k := s.die d
        s.setDie d { k with badTags := (k.badTags.filter (· != s.ev.nth)) ++ [s.ev.nth] }
      | _ => s.sramWord
    else
      match s.ev.maj with
      | 2 => if (s.vi s.ev.vi).tdisp = .locked ∨ (s.vi s.ev.vi).tdisp = .run then s.interfaceError s.ev.vi else s
      | k =>
        if s.ev.addr < 2 ^ 40 then
          if k = 1 then s.count (s.viOfStack (s.ev.addr / 2 ^ 36)) (homeDie s.ev.addr) 0x41 1 else s.hbmWord s.ev.addr
        else s)

/-! ## Boost permits (R418) -/

/-- Boost is enabled in every interface that holds a core of the cluster, and some warp of it was eligible when the interval ended
(R108, R418): the machine's last look at the warps is its last cycle. -/
def State.boostAsked (s : State) (d k : Nat) : Bool :=
  let cores := (List.range 16).map fun i => 64 * d + 16 * k + i
  (s.vis.all fun v => !(cores.any fun c => v.2.cores.getLsbD c) || v.2.boostCtl.getLsbD 0) &&
  (s.slots.any fun e => cores.contains (e.1 / 32) && (s.warp e.2).eligSince.isSome)

/-- The clusters of a die above nominal. -/
def Die.boosted (x : Die) : List Nat := (List.range 4).filter fun k => sget .nominal x.clusters k != .nominal

/-- Grants go round the clusters, starting after the one last granted, while permits last. -/
def grantClusters (asked : Nat → Bool) (start permits : Nat) : List Nat :=
  (((List.range 4).map fun i => (start + 1 + i) % 4).filter asked).take permits

/-- BOOST_INTERVAL: a 10 µs boundary: permits are charged for the interval that ends, then requests are granted. Permits that run
out begin a step-down. -/
def execBoostInterval (s : State) : Out :=
  .next (
    let d := s.ev.die
    let x := s.die d
    if s.clock < x.boostAt + 24000 ∨ x.stepDown ≠ 0 then s
    else
      let up := x.boosted
      let p := x.permits - up.length
      let x := { x with permits := p, boostAt := s.clock, calm := if up.isEmpty then x.calm else s.clock }
      if p = 0 ∧ !up.isEmpty then s.setDie d { x with stepDown := 2, stepAt := s.clock }
      else
        let gs := grantClusters (s.boostAsked d) x.lastGrant p
        let cl := gs.foldl (fun m k => sset .nominal m k .high) ([] : Sparse Boost)
        s.setDie d { x with clusters := cl, lastGrant := (gs.getLast?).getD x.lastGrant })

/-- BOOST_REFILL: 100 µs in which no cluster has run above nominal refill one permit. -/
def execBoostRefill (s : State) : Out :=
  .next (
    let x := s.die s.ev.die
    if x.boosted.isEmpty ∧ x.calm + 240000 ≤ s.clock then
      s.setDie s.ev.die { x with permits := min 64 (x.permits + 1), calm := x.calm + 240000 }
    else s)

/-- BOOST_STEP_DOWN: 2 µs later every boosted cluster runs one step slower. -/
def execBoostStepDown (s : State) : Out :=
  .next (
    let d := s.ev.die
    let x := s.die d
    if x.stepDown = 0 ∨ s.clock < x.stepAt + 4800 then s
    else
      let dest : Boost := if x.stepDown = 2 then .mid else .nominal
      let cl := x.boosted.foldl (fun m k => sset .nominal m k dest) x.clusters
      s.setDie d { x with clusters := cl, stepDown := x.stepDown - 1, stepAt := s.clock, calm := s.clock })

/-- BOOSTd (R413): the permits of a die, and its clock in bits 9 to 8: that of its fastest cluster (log entry 103). -/
def Die.boostReg (x : Die) : Word :=
  let clock (k : Nat) : Nat := match sget .nominal x.clusters k with
    | .nominal => 0 | .mid => 1 | .high => 2
  BitVec.ofNat 32 (x.permits + 256 * (([0, 1, 2, 3].map clock).foldl max 0))

/-! ## HOST_WRITE (R298) -/

/-- A write of the host reaches the point of coherence of device or host memory, once every part that it needs is ready (R411). -/
def execHostWrite (s : State) : Out :=
  .next (
    let locs := (List.range s.ev.data.length).map (s.ev.addr + ·)
    if locs.all fun a => decide (a < 2 ^ 40 ∨ (hostBase ≤ a ∧ a < hostBase + 2 ^ 52)) && s.partReady a then s.engineWrite locs s.ev.data else s)

end Sys2Proof.Machine
end

