-- ==== Sys2Proof/Machine/Scalar.lean ====
section
/-!
DEFINITION. The meanings of the scalar instructions MAJ 0x00 to 0x18 (spec/05 R115 to R124): arithmetic, logic, compares,
select, and the special registers.
-/
namespace Sys2Proof.Machine

/-- The common mould of R115 to R118: `n` sources of types `ta`, `tb`, `tc`, `regs` destination registers. `f` gives the
result from the environment and the source values; its poison is that of every source. -/
def scalarInstr (maj : BitVec 8) (t : Ty) (o : COp) (n : Nat) (ta tb tc : Ty) (regs : Nat)
    (f : Env → DWord → DWord → DWord → Val) (s : State) : State :=
  issue (o.raw maj t.code) (fun e s =>
    let a := scalarOp e ta o (hasImm o.ext && n == 1) o.a
    let b := scalarOp e tb o (hasImm o.ext && n == 2) o.b
    let c := scalarOp e tc o (hasImm o.ext && n == 3) o.c
    let x := f e a.bits b.bits c.bits
    let x : Val := { x with p := x.p || a.p || b.p || c.p }
    retireHold e (holdOf o.hold (fun _ => a) (fun _ => b) (fun _ => x)) (writeScalar o.dst regs x s)) s

/-- One or two sources of the type, a result of the type. -/
def scalarUn (maj : BitVec 8) (t : Ty) (o : COp) (f : Ty → Mod → DWord → Res) (s : State) : State :=
  scalarInstr maj t o 1 t t t t.regs (fun _ a _ _ => { bits := (f t (modOf o.ext) a).bits }) s
def scalarBin (maj : BitVec 8) (t : Ty) (o : COp) (f : Ty → Mod → DWord → DWord → Res) (s : State) : State :=
  scalarInstr maj t o 2 t t t t.regs (fun _ a b _ => { bits := (f t (modOf o.ext) a b).bits }) s
/-- A shift: the count is N32 whatever the width (R116). -/
def scalarShiftOp (maj : BitVec 8) (t : Ty) (o : COp) (f : Ty → DWord → DWord → Res) (s : State) : State :=
  scalarInstr maj t o 2 t .n32 t t.regs (fun _ a b _ => { bits := (f t a b).bits }) s
/-- A count of bits: one register, N32. -/
def scalarCountOp (maj : BitVec 8) (t : Ty) (o : COp) (f : Ty → DWord → Res) (s : State) : State :=
  scalarInstr maj t o 1 t t t 1 (fun _ a _ _ => { bits := (f t a).bits }) s

def execSmov (t : Ty) (o : COp) (s : State) : Out := .next (scalarUn 0x00 t o (fun _ _ a => { bits := a }) s)
def execSadd (t : Ty) (o : COp) (s : State) : Out := .next (scalarBin 0x01 t o opAdd s)
def execSsub (t : Ty) (o : COp) (s : State) : Out := .next (scalarBin 0x02 t o opSub s)
def execSmul (t : Ty) (o : COp) (s : State) : Out := .next (scalarBin 0x03 t o opMul s)
def execSmulh (t : Ty) (o : COp) (s : State) : Out := .next (scalarBin 0x04 t o (fun t _ => opMulh t) s)
def execSmin (t : Ty) (o : COp) (s : State) : Out := .next (scalarBin 0x05 t o opMin s)
def execSmax (t : Ty) (o : COp) (s : State) : Out := .next (scalarBin 0x06 t o opMax s)
def execSand (t : Ty) (o : COp) (s : State) : Out := .next (scalarBin 0x07 t o (fun _ _ => opAnd) s)
def execSor (t : Ty) (o : COp) (s : State) : Out := .next (scalarBin 0x08 t o (fun _ _ => opOr) s)
def execSxor (t : Ty) (o : COp) (s : State) : Out := .next (scalarBin 0x09 t o (fun _ _ => opXor) s)
def execSnot (t : Ty) (o : COp) (s : State) : Out := .next (scalarUn 0x0A t o (fun t _ => opNot t) s)
def execSshl (t : Ty) (o : COp) (s : State) : Out := .next (scalarShiftOp 0x0B t o opShl s)
def execSshr (t : Ty) (o : COp) (s : State) : Out := .next (scalarShiftOp 0x0C t o opShr s)
def execSsra (t : Ty) (o : COp) (s : State) : Out := .next (scalarShiftOp 0x0D t o opSra s)
def execSpopc (t : Ty) (o : COp) (s : State) : Out := .next (scalarCountOp 0x0E t o opPopc s)
def execSclz (t : Ty) (o : COp) (s : State) : Out := .next (scalarCountOp 0x0F t o opClz s)
def execSbfe (t : Ty) (o : COp) (s : State) : Out :=
  .next (scalarInstr 0x10 t o 3 t .n32 .n32 t.regs (fun _ a b c => { bits := (opBfe t a b c).bits }) s)
/-- SBFI reads its destination as a fourth source (R120). -/
def execSbfi (t : Ty) (o : COp) (s : State) : Out :=
  .next (scalarInstr 0x11 t o 3 t .n32 .n32 t.regs (fun e a b c =>
    let d := scalarVal e t o.dst
    { bits := (opBfi t a b c d.bits).bits, p := d.p }) s)
/-- SSEL reads SCC with its poison (R117, R120). -/
def execSsel (t : Ty) (o : COp) (s : State) : Out :=
  .next (scalarInstr 0x16 t o 2 t t t t.regs (fun e a b _ => { bits := if e.w.scc then a else b, p := e.w.sccP }) s)

/-- A scalar compare (R122). -/
def scalarCompare (maj : BitVec 8) (t : Ty) (o : COp) (k : Cmp) (s : State) : State :=
  issue (o.raw maj t.code) (fun e s =>
    let a := scalarOp e t o false o.a
    let b := scalarOp e t o (hasImm o.ext) o.b
    retireHold e (holdOf o.hold (fun _ => a) (fun _ => b) (fun _ => {}))
      (s.setMe (s.me.setScc (opCmp t {} k a.bits b.bits).1 (a.p || b.p)))) s

def execScmpeq (t : Ty) (o : COp) (s : State) : Out := .next (scalarCompare 0x12 t o .eq s)
def execScmpne (t : Ty) (o : COp) (s : State) : Out := .next (scalarCompare 0x13 t o .ne s)
def execScmplt (t : Ty) (o : COp) (s : State) : Out := .next (scalarCompare 0x14 t o .lt s)
def execScmple (t : Ty) (o : COp) (s : State) : Out := .next (scalarCompare 0x15 t o .le s)

/-! ## Special registers (R96, R123, R124) -/

/-- The words of a triple in the layout of R316. -/
def tripleWords (ts : DWord) (seq lo : Word) : List Word := [lo32 ts, hi32 ts, seq, lo]

/-- TFRONT, TSELF, TRANGE (R316). -/
def taskWords (s : State) (n : Nat) : List Word :=
  if s.myLaunch.kind ≠ .task then [0, 0, 0, 0]
  else
    match n with
    | 0x18 =>
      match s.frontier s.myGroup.lid with
      | some (_, t) => tripleWords t.ts t.seq t.lo
      | none => [BitVec.allOnes 32, BitVec.allOnes 32, BitVec.allOnes 32, BitVec.allOnes 32]
    | 0x19 =>
      match s.myTask with
      | some (_, t) => tripleWords t.ts t.seq t.lo
      | none => [0, 0, 0, 0]
    | _ =>
      match s.myTask with
      | some (_, t) =>
        if t.range then [t.lo, t.hi, t.cur, 0#29 ++ bit1 t.split ++ bit1 t.pin ++ 1#1] else [0, 0, 0, 0]
      | none => [0, 0, 0, 0]

def roleNumber : Role → Nat
  | .general => 0 | .copy => 1 | .matrix => 2 | .epilogue => 3

/-- A special register of one or two scalar registers (R96). SVBASE is where the launch's allocation begins (log entry 83).
DESIGN CHOICE: of an extent of 2^32 or more EXTFk gives the low 32 bits (log entry 114). -/
def specialScalar (s : State) (e : Env) (n : Nat) : DWord :=
  match n with
  | 0x10 => BitVec.ofNat 64 s.clock
  | 0x11 => BitVec.ofNat 64 (roleNumber e.w.role)
  | 0x12 => BitVec.ofNat 64 (e.w.slot * 2 ^ 16 + e.w.core)
  | 0x13 => e.w.fstat.setWidth 64
  | 0x14 => e.l.partw.setWidth 64
  | 0x15 => BitVec.ofNat 64 e.W
  | 0x1B => e.l.save
  | n => BitVec.ofNat 64 (e.l.ext (n - 8))

/-- The per-lane value of WID or a WID field (R83). -/
def specialLane (e : Env) (n l : Nat) : Val :=
  if n = 0 then { bits := e.l.wid e.g e.w.f1 l } else { bits := BitVec.ofNat 64 (widField e.g e.w.f1 l (n - 1)) }

/-- The number of a special register in AUX[7:0]; 0, WID, without a modifier word (R123). -/
def specialNumber (o : COp) : Nat := (o.ext.aux.extractLsb' 0 8).toNat

/-- SGETR (R123). -/
def execSgetr (o : COp) (s : State) : Out :=
  .next (issue (o.raw 0x17 0) (fun e s =>
    let n := specialNumber o
    if n ≤ 6 then
      let regs := if n = 0 then 2 else 1
      let w := writeLanes e o.dst regs (specialLane e n) s.me e.active
      retireHold e (holdOf o.hold (fun _ => {}) (fun _ => {}) (specialLane e n)) (s.setMe w)
    else if 0x18 ≤ n ∧ n ≤ 0x1A then
      let ws := taskWords s n
      let x : Val := { bits := pair (ws.getD 0 0) (ws.getD 1 0) }
      let w := match o.dst with
        | .s m => s.me.putSList m.toNat ws
        | _ => s.me
      retireHold e (holdOf o.hold (fun _ => {}) (fun _ => {}) (fun _ => x)) (s.setMe w)
    else
      let regs := if n = 0x10 ∨ n = 0x1B then 2 else 1
      let d := specialScalar s e n
      let x : Val := { bits := if regs = 2 then d else (lo32 d).setWidth 64 }
      retireHold e (holdOf o.hold (fun _ => {}) (fun _ => {}) (fun _ => x)) (writeScalar o.dst regs x s)) s)

/-- SSETR (R124): FSTAT alone is writable. -/
def execSsetr (o : COp) (s : State) : Out :=
  .next (issue (o.raw 0x18 0) (fun e s =>
    let a := scalarOp e .n32 o (hasImm o.ext) o.a
    retireHold e (holdOf o.hold (fun _ => a) (fun _ => {}) (fun _ => {})) (s.setMe (s.me.setFstat (lo32 a.bits)))) s)

end Sys2Proof.Machine
end

