-- ==== Sys2Proof/Machine/System.lean ====
section
/-!
DEFINITION. The meanings of the system instructions (spec/22 R419 to R424).
-/
namespace Sys2Proof.Machine

/-- The counters of R415. -/
def counterDefined (n : Nat) : Bool := n ≤ 5 || (0x10 ≤ n && n ≤ 0x13) || (0x20 ≤ n && n ≤ 0x22) || n == 0x30 || n == 0x31 ||
  (0x40 ≤ n && n ≤ 0x42)

/-- A counter of a die as an interface reads it (R415, R420). -/
def Vi.counterOn (v : Vi) (die n : Nat) : DWord := if v.onDie die then sget 0 v.counters (0x80 * die + n) else 0

/-- CNTRD (R420). -/
def execCntrd (o : EOp) (s : State) : Out :=
  .next (issue (o.raw 0xF6) (fun e s =>
    let n := ((EOp.auxBits o).extractLsb' 0 8).toNat
    let d := ((EOp.auxBits o).extractLsb' 8 3).toNat
    runGate (trapIf (!counterDefined n || decide (4 < d)) (illegalWord s)) (fun s =>
      let x := (s.vi e.l.vi).counterOn (if d = 0 then e.w.die else d - 1) n
      retire e (writeScalar o.dst 2 { bits := x } s)) s) s)

/-- CLKRD without and with TAG (R421). -/
def execClkrd (o : EOp) (s : State) : Out :=
  .next (issue (o.raw 0xF7) (fun e s => retire e (writeScalar o.dst 2 { bits := BitVec.ofNat 64 s.clock } s)) s)
def execClkrdTag (o : EOp) (s : State) : Out :=
  .next (issue (o.raw 0xF7) (fun e s =>
    let c : DWord := BitVec.ofNat 64 s.clock
    retire e (s.setMe (s.me.putSList (sNumber o.dst) [lo32 c, hi32 c, lo32 e.w.pc, hi32 e.w.pc]))) s)

/-- The result of HINTQ where no record covers the address. -/
def noHint : List Word := [0, 0, 0x1F, 0]

/-- What the hint table gives for an address: a record as a number, none, a part that is not ready (R411), or an uncorrectable word
(R416), by its physical address. -/
inductive Hint
  | found (r : Nat)
  | none
  | wait
  | ecc (addr : Nat)
  deriving DecidableEq, Repr

/-- The address of a hint record (R204). -/
def Vi.hintAddr (v : Vi) (i : Nat) : DWord := v.hintBase + BitVec.ofNat 64 (16 * i)

/-- The first hint record from index `i` that covers an address (R204), and the indices of those read; none where none does or a read
faults. Records are read in table order, each whole (log entry 24). -/
def State.hintFrom (s : State) (v : Vi) (vi die : Nat) (a : Nat) : Nat → Nat → Hint × List Nat
  | 0, _ => (.none, [])
  | n + 1, i =>
    match s.routeRange vi die 0 (v.hintAddr i) 16 with
    | .cells ls =>
      (match s.readBad die ls with
       | some x => (.ecc x, [i])
       | none =>
         let r := bitsOfBytes (ls.map (s.dieByte die))
         let start := field r 0 64
         if start ≤ a ∧ a < start + field r 96 32 * 65536 then (.found r, [i])
         else
           let x := State.hintFrom s v vi die a n (i + 1)
           (x.1, i :: x.2))
    | .walk _ => (.wait, [])
    | .ecc x => (.ecc x, [i])
    | _ => (.none, [i])

/-- The bytes that move for the hint records of some indices are counted (R15, R206). -/
def State.hintTraffic (s : State) (v : Vi) (vi die : Nat) (is : List Nat) : State :=
  is.foldl (fun s i => (s.walked vi die (v.hintAddr i) 16).l2FetchAll vi die (s.routeRange vi die 0 (v.hintAddr i) 16).locs) s

/-- HINTQ (R422). The warp is not eligible while the table's stack is not ready. -/
def execHintq (o : EOp) (s : State) : Out :=
  .next (issue (o.raw 0xF8) (fun e s =>
    let a := sgkVal e .n64 o.a
    if a.p then takeTrap (poisonInfo o.a.code) s
    else
      let v := s.vi e.l.vi
      let x := if canonical a.bits then s.hintFrom v e.l.vi e.w.die a.bits.toNat v.hintCnt.toNat 0 else (.none, [])
      let put (ws : List Word) : State :=
        let s := s.hintTraffic v e.l.vi e.w.die x.2
        retire e (s.setMe (s.me.putSList (sNumber o.dst) ws))
      match x.1 with
      | .ecc a => takeTrap { code := .eccUncorrectable, info0 := BitVec.ofNat 64 a } (s.readBadSeen e.l.vi e.w.die a)
      | .found r => put ((List.range 4).map fun i => BitVec.ofNat 32 (r / 2 ^ (32 * i)))
      | .none => put noHint
      | .wait => s) s)

/-- The bytes of a mark record (R424). -/
def markRecord (s : State) (e : Env) (o : EOp) : List Byte :=
  let a : Val := if o.a = .v 0 then {} else sgkVal e .n32 o.a
  leBytes s.clock 8 ++ leBytes (e.w.core + 2 ^ 16 * e.w.slot) 4 ++ leBytes ((EOp.auxBits o).extractLsb' 0 16).toNat 4 ++
  leBytes e.w.pc.toNat 8 ++ leBytes ((lo32 a.bits).toNat + (if a.p then 2 ^ 32 else 0)) 8

/-- DBGMARK (R424). The record waits for a stack or link that is not ready (R411), and a fault drops it. -/
def execDbgmark (o : EOp) (s : State) : Out :=
  .next (issue (o.raw 0xF9) (fun e s =>
    let v := s.vi e.l.vi
    let n := v.mkSize.toNat
    if n = 0 then retire e s
    else
      let a := v.mkBase + BitVec.ofNat 64 (32 * (v.mkHead.toNat % n))
      match s.routeRange e.l.vi e.w.die 1 a 32 with
      | .cells ls =>
        let s := (s.walked e.l.vi e.w.die a 32).engineWriteFrom e.l.vi e.w.die ls (markRecord s e o)
        retire e (s.setVi e.l.vi { s.vi e.l.vi with mkHead := v.mkHead + 1 })
      | .walk _ => s
      | .ecc x => takeTrap { code := .eccUncorrectable, info0 := BitVec.ofNat 64 x } (s.eccSeen e.l.vi x)
      | _ => retire e (s.setVi e.l.vi { v with trFlag := setBit v.trFlag 2 true })) s)

end Sys2Proof.Machine
end

