-- ==== Sys2Proof/Machine/Dispatch.lean ====
section
/-!
DEFINITION. The dispatch of an instruction or event to its meaning.
-/
namespace Sys2Proof.Machine

def exec (i : Instr) (s : State) : Host.Outcome State Fault Refusal :=
  match i with
  | .smov t o => Sys2Proof.Machine.execSmov t o s
  | .sadd t o => Sys2Proof.Machine.execSadd t o s
  | .ssub t o => Sys2Proof.Machine.execSsub t o s
  | .smul t o => Sys2Proof.Machine.execSmul t o s
  | .smulh t o => Sys2Proof.Machine.execSmulh t o s
  | .smin t o => Sys2Proof.Machine.execSmin t o s
  | .smax t o => Sys2Proof.Machine.execSmax t o s
  | .sand t o => Sys2Proof.Machine.execSand t o s
  | .sor t o => Sys2Proof.Machine.execSor t o s
  | .sxor t o => Sys2Proof.Machine.execSxor t o s
  | .snot t o => Sys2Proof.Machine.execSnot t o s
  | .sshl t o => Sys2Proof.Machine.execSshl t o s
  | .sshr t o => Sys2Proof.Machine.execSshr t o s
  | .ssra t o => Sys2Proof.Machine.execSsra t o s
  | .spopc t o => Sys2Proof.Machine.execSpopc t o s
  | .sclz t o => Sys2Proof.Machine.execSclz t o s
  | .sbfe t o => Sys2Proof.Machine.execSbfe t o s
  | .sbfi t o => Sys2Proof.Machine.execSbfi t o s
  | .scmpeq t o => Sys2Proof.Machine.execScmpeq t o s
  | .scmpne t o => Sys2Proof.Machine.execScmpne t o s
  | .scmplt t o => Sys2Proof.Machine.execScmplt t o s
  | .scmple t o => Sys2Proof.Machine.execScmple t o s
  | .ssel t o => Sys2Proof.Machine.execSsel t o s
  | .sgetr o => Sys2Proof.Machine.execSgetr o s
  | .ssetr o => Sys2Proof.Machine.execSsetr o s
  | .setx o => Sys2Proof.Machine.execSetx o s
  | .getx o => Sys2Proof.Machine.execGetx o s
  | .xand o => Sys2Proof.Machine.execXand o s
  | .xandn o => Sys2Proof.Machine.execXandn o s
  | .xrestore o => Sys2Proof.Machine.execXrestore o s
  | .xrestoreMasked o => Sys2Proof.Machine.execXrestoreMasked o s
  | .bra o => Sys2Proof.Machine.execBra o s
  | .brcT o => Sys2Proof.Machine.execBrcT o s
  | .brcF o => Sys2Proof.Machine.execBrcF o s
  | .brxz o => Sys2Proof.Machine.execBrxz o s
  | .brxnz o => Sys2Proof.Machine.execBrxnz o s
  | .call o => Sys2Proof.Machine.execCall o s
  | .ret o => Sys2Proof.Machine.execRet o s
  | .jmpi o => Sys2Proof.Machine.execJmpi o s
  | .jmpiIndex o => Sys2Proof.Machine.execJmpiIndex o s
  | .jmpiImm o => Sys2Proof.Machine.execJmpiImm o s
  | .loop o => Sys2Proof.Machine.execLoop o s
  | .icinv o => Sys2Proof.Machine.execIcinv o s
  | .icsync o => Sys2Proof.Machine.execIcsync o s
  | .sleep o => Sys2Proof.Machine.execSleep o s
  | .nop o => Sys2Proof.Machine.execNop o s
  | .nopW96 o => Sys2Proof.Machine.execNopW96 o s
  | .nopW128 o => Sys2Proof.Machine.execNopW128 o s
  | .exit o => Sys2Proof.Machine.execExit o s
  | .halt o => Sys2Proof.Machine.execHalt o s
  | .trap o => Sys2Proof.Machine.execTrap o s
  | .trapT o => Sys2Proof.Machine.execTrapT o s
  | .trapF o => Sys2Proof.Machine.execTrapF o s
  | .bkpt o => Sys2Proof.Machine.execBkpt o s
  | .vmov t o => Sys2Proof.Machine.execVmov t o s
  | .vadd t o => Sys2Proof.Machine.execVadd t o s
  | .vsub t o => Sys2Proof.Machine.execVsub t o s
  | .vmul t o => Sys2Proof.Machine.execVmul t o s
  | .vmulh t o => Sys2Proof.Machine.execVmulh t o s
  | .vmulw t o => Sys2Proof.Machine.execVmulw t o s
  | .vfma t o => Sys2Proof.Machine.execVfma t o s
  | .vmin t o => Sys2Proof.Machine.execVmin t o s
  | .vmax t o => Sys2Proof.Machine.execVmax t o s
  | .vclamp t o => Sys2Proof.Machine.execVclamp t o s
  | .vabs t o => Sys2Proof.Machine.execVabs t o s
  | .vneg t o => Sys2Proof.Machine.execVneg t o s
  | .vcsgn t o => Sys2Proof.Machine.execVcsgn t o s
  | .vaddc t o => Sys2Proof.Machine.execVaddc t o s
  | .vsubb t o => Sys2Proof.Machine.execVsubb t o s
  | .vdot2 t o => Sys2Proof.Machine.execVdot2 t o s
  | .vdot4 t o => Sys2Proof.Machine.execVdot4 t o s
  | .vand t o => Sys2Proof.Machine.execVand t o s
  | .vor t o => Sys2Proof.Machine.execVor t o s
  | .vxor t o => Sys2Proof.Machine.execVxor t o s
  | .vnot t o => Sys2Proof.Machine.execVnot t o s
  | .vshl t o => Sys2Proof.Machine.execVshl t o s
  | .vshr t o => Sys2Proof.Machine.execVshr t o s
  | .vsra t o => Sys2Proof.Machine.execVsra t o s
  | .vpopc t o => Sys2Proof.Machine.execVpopc t o s
  | .vclz t o => Sys2Proof.Machine.execVclz t o s
  | .vbrev t o => Sys2Proof.Machine.execVbrev t o s
  | .vbfe t o => Sys2Proof.Machine.execVbfe t o s
  | .vbfi t o => Sys2Proof.Machine.execVbfi t o s
  | .vpermb t o => Sys2Proof.Machine.execVpermb t o s
  | .vcmpeq t o => Sys2Proof.Machine.execVcmpeq t o s
  | .vcmpne t o => Sys2Proof.Machine.execVcmpne t o s
  | .vcmplt t o => Sys2Proof.Machine.execVcmplt t o s
  | .vcmple t o => Sys2Proof.Machine.execVcmple t o s
  | .vcmpu t o => Sys2Proof.Machine.execVcmpu t o s
  | .vsel t o => Sys2Proof.Machine.execVsel t o s
  | .vcvt t o => Sys2Proof.Machine.execVcvt t o s
  | .vsepack t o => Sys2Proof.Machine.execVsepack t o s
  | .vseunpk t o => Sys2Proof.Machine.execVseunpk t o s
  | .vfract t o => Sys2Proof.Machine.execVfract t o s
  | .vldexp t o => Sys2Proof.Machine.execVldexp t o s
  | .vrint t o => Sys2Proof.Machine.execVrint t o s
  | .vsqrt t o => Sys2Proof.Machine.execVsqrt t o s
  | .vrcp t o => Sys2Proof.Machine.execVrcp t o s
  | .vrsq t o => Sys2Proof.Machine.execVrsq t o s
  | .vexp2 t o => Sys2Proof.Machine.execVexp2 t o s
  | .vlog2 t o => Sys2Proof.Machine.execVlog2 t o s
  | .vsin t o => Sys2Proof.Machine.execVsin t o s
  | .vcos t o => Sys2Proof.Machine.execVcos t o s
  | .vshflIdx t o => Sys2Proof.Machine.execVshflIdx t o s
  | .vshflXor t o => Sys2Proof.Machine.execVshflXor t o s
  | .vshflUp t o => Sys2Proof.Machine.execVshflUp t o s
  | .vshflDn t o => Sys2Proof.Machine.execVshflDn t o s
  | .vvoteAny o => Sys2Proof.Machine.execVvoteAny o s
  | .vvoteAll o => Sys2Proof.Machine.execVvoteAll o s
  | .vvoteBallot o => Sys2Proof.Machine.execVvoteBallot o s
  | .vlaneId o => Sys2Proof.Machine.execVlaneId o s
  | .vlanePfx o => Sys2Proof.Machine.execVlanePfx o s
  | .vbcast t o => Sys2Proof.Machine.execVbcast t o s
  | .vxset o => Sys2Proof.Machine.execVxset o s
  | .vxadd o => Sys2Proof.Machine.execVxadd o s
  | .vptest o => Sys2Proof.Machine.execVptest o s
  | .ld o => Sys2Proof.Machine.execLd o s
  | .st o => Sys2Proof.Machine.execSt o s
  | .ldg o => Sys2Proof.Machine.execLdg o s
  | .stg o => Sys2Proof.Machine.execStg o s
  | .lds o => Sys2Proof.Machine.execLds o s
  | .sts o => Sys2Proof.Machine.execSts o s
  | .ldl o => Sys2Proof.Machine.execLdl o s
  | .stl o => Sys2Proof.Machine.execStl o s
  | .ldc o => Sys2Proof.Machine.execLdc o s
  | .ldnc o => Sys2Proof.Machine.execLdnc o s
  | .aadd o => Sys2Proof.Machine.execAadd o s
  | .amin o => Sys2Proof.Machine.execAmin o s
  | .amax o => Sys2Proof.Machine.execAmax o s
  | .aand o => Sys2Proof.Machine.execAand o s
  | .aor o => Sys2Proof.Machine.execAor o s
  | .axor o => Sys2Proof.Machine.execAxor o s
  | .axch o => Sys2Proof.Machine.execAxch o s
  | .acas o => Sys2Proof.Machine.execAcas o s
  | .afadd o => Sys2Proof.Machine.execAfadd o s
  | .fenceAcq o => Sys2Proof.Machine.execFenceAcq o s
  | .fenceRel o => Sys2Proof.Machine.execFenceRel o s
  | .fenceAcqrel o => Sys2Proof.Machine.execFenceAcqrel o s
  | .prefetch o => Sys2Proof.Machine.execPrefetch o s
  | .mmat o => Sys2Proof.Machine.execMmat o s
  | .mmar o => Sys2Proof.Machine.execMmar o s
  | .mvb o => Sys2Proof.Machine.execMvb o s
  | .mvbTile o => Sys2Proof.Machine.execMvbTile o s
  | .accz o => Sys2Proof.Machine.execAccz o s
  | .accld o => Sys2Proof.Machine.execAccld o s
  | .accst o => Sys2Proof.Machine.execAccst o s
  | .accrd o => Sys2Proof.Machine.execAccrd o s
  | .tidset o => Sys2Proof.Machine.execTidset o s
  | .tidget o => Sys2Proof.Machine.execTidget o s
  | .chkcfg o => Sys2Proof.Machine.execChkcfg o s
  | .cpin o => Sys2Proof.Machine.execCpin o s
  | .cpout o => Sys2Proof.Machine.execCpout o s
  | .tldef o => Sys2Proof.Machine.execTldef o s
  | .tlwait o => Sys2Proof.Machine.execTlwait o s
  | .tlfree o => Sys2Proof.Machine.execTlfree o s
  | .tlstate o => Sys2Proof.Machine.execTlstate o s
  | .pbinit o => Sys2Proof.Machine.execPbinit o s
  | .pbarr o => Sys2Proof.Machine.execPbarr o s
  | .pbexp o => Sys2Proof.Machine.execPbexp o s
  | .pbwait o => Sys2Proof.Machine.execPbwait o s
  | .bar o => Sys2Proof.Machine.execBar o s
  | .bararr o => Sys2Proof.Machine.execBararr o s
  | .barwait o => Sys2Proof.Machine.execBarwait o s
  | .watch o => Sys2Proof.Machine.execWatch o s
  | .unwatch o => Sys2Proof.Machine.execUnwatch o s
  | .unwatchAll o => Sys2Proof.Machine.execUnwatchAll o s
  | .waitw o => Sys2Proof.Machine.execWaitw o s
  | .waitc o => Sys2Proof.Machine.execWaitc o s
  | .yield o => Sys2Proof.Machine.execYield o s
  | .tspawn o => Sys2Proof.Machine.execTspawn o s
  | .tspawnr o => Sys2Proof.Machine.execTspawnr o s
  | .trng o => Sys2Proof.Machine.execTrng o s
  | .tsplitq o => Sys2Proof.Machine.execTsplitq o s
  | .tsplitqPin o => Sys2Proof.Machine.execTsplitqPin o s
  | .tsplitqUnpin o => Sys2Proof.Machine.execTsplitqUnpin o s
  | .tdone o => Sys2Proof.Machine.execTdone o s
  | .tabort o => Sys2Proof.Machine.execTabort o s
  | .tfrontq o => Sys2Proof.Machine.execTfrontq o s
  | .tsync o => Sys2Proof.Machine.execTsync o s
  | .tisspec o => Sys2Proof.Machine.execTisspec o s
  | .tctx o => Sys2Proof.Machine.execTctx o s
  | .svgrp o => Sys2Proof.Machine.execSvgrp o s
  | .svgrpClr o => Sys2Proof.Machine.execSvgrpClr o s
  | .svld o => Sys2Proof.Machine.execSvld o s
  | .svinfo o => Sys2Proof.Machine.execSvinfo o s
  | .collAllreduce o => Sys2Proof.Machine.execCollAllreduce o s
  | .collReducescatter o => Sys2Proof.Machine.execCollReducescatter o s
  | .collAllgather o => Sys2Proof.Machine.execCollAllgather o s
  | .collBroadcast o => Sys2Proof.Machine.execCollBroadcast o s
  | .collA2av o => Sys2Proof.Machine.execCollA2av o s
  | .collq o => Sys2Proof.Machine.execCollq o s
  | .stake o => Sys2Proof.Machine.execStake o s
  | .stakeq o => Sys2Proof.Machine.execStakeq o s
  | .cntrd o => Sys2Proof.Machine.execCntrd o s
  | .clkrd o => Sys2Proof.Machine.execClkrd o s
  | .clkrdTag o => Sys2Proof.Machine.execClkrdTag o s
  | .hintq o => Sys2Proof.Machine.execHintq o s
  | .dbgmark o => Sys2Proof.Machine.execDbgmark o s
  | .undefinedEncoding bits => Sys2Proof.Machine.execUndefinedEncoding bits s
  | .icacheFill => Sys2Proof.Machine.execIcacheFill s
  | .fairnessCountExpire => Sys2Proof.Machine.execFairnessCountExpire s
  | .longLatencyWriteback => Sys2Proof.Machine.execLongLatencyWriteback s
  | .branchPenaltyEnd => Sys2Proof.Machine.execBranchPenaltyEnd s
  | .sleepExpire => Sys2Proof.Machine.execSleepExpire s
  | .icinvComplete => Sys2Proof.Machine.execIcinvComplete s
  | .trapRecordWrite => Sys2Proof.Machine.execTrapRecordWrite s
  | .warpSlotRelease => Sys2Proof.Machine.execWarpSlotRelease s
  | .workgroupRetire => Sys2Proof.Machine.execWorkgroupRetire s
  | .l1Eviction => Sys2Proof.Machine.execL1Eviction s
  | .boundaryWriteDrain => Sys2Proof.Machine.execBoundaryWriteDrain s
  | .releaseComplete => Sys2Proof.Machine.execReleaseComplete s
  | .pageWalkComplete => Sys2Proof.Machine.execPageWalkComplete s
  | .invalidationComplete => Sys2Proof.Machine.execInvalidationComplete s
  | .mmatComplete => Sys2Proof.Machine.execMmatComplete s
  | .accumulatorMoveComplete => Sys2Proof.Machine.execAccumulatorMoveComplete s
  | .accstComplete => Sys2Proof.Machine.execAccstComplete s
  | .mvbComplete => Sys2Proof.Machine.execMvbComplete s
  | .checkComplete => Sys2Proof.Machine.execCheckComplete s
  | .tidsetComplete => Sys2Proof.Machine.execTidsetComplete s
  | .copyComplete => Sys2Proof.Machine.execCopyComplete s
  | .copyFault => Sys2Proof.Machine.execCopyFault s
  | .workgroupPlace => Sys2Proof.Machine.execWorkgroupPlace s
  | .parkStart => Sys2Proof.Machine.execParkStart s
  | .saveComplete => Sys2Proof.Machine.execSaveComplete s
  | .restoreComplete => Sys2Proof.Machine.execRestoreComplete s
  | .quantumExpire => Sys2Proof.Machine.execQuantumExpire s
  | .plumbRecognise => Sys2Proof.Machine.execPlumbRecognise s
  | .taskDispatch => Sys2Proof.Machine.execTaskDispatch s
  | .taskCommit => Sys2Proof.Machine.execTaskCommit s
  | .launchComplete => Sys2Proof.Machine.execLaunchComplete s
  | .collAccept => Sys2Proof.Machine.execCollAccept s
  | .chunkCounterRaise => Sys2Proof.Machine.execChunkCounterRaise s
  | .collComplete => Sys2Proof.Machine.execCollComplete s
  | .collFault => Sys2Proof.Machine.execCollFault s
  | .readRequest => Sys2Proof.Machine.execReadRequest s
  | .readResponse => Sys2Proof.Machine.execReadResponse s
  | .write => Sys2Proof.Machine.execWrite s
  | .atomic => Sys2Proof.Machine.execAtomic s
  | .collectiveData => Sys2Proof.Machine.execCollectiveData s
  | .collectiveControl => Sys2Proof.Machine.execCollectiveControl s
  | .acknowledgement => Sys2Proof.Machine.execAcknowledgement s
  | .flitResend => Sys2Proof.Machine.execFlitResend s
  | .peerTimeout => Sys2Proof.Machine.execPeerTimeout s
  | .domainKeyLoad => Sys2Proof.Machine.execDomainKeyLoad s
  | .launch => Sys2Proof.Machine.execLaunch s
  | .launchb => Sys2Proof.Machine.execLaunchb s
  | .wait => Sys2Proof.Machine.execWait s
  | .waitSatisfied => Sys2Proof.Machine.execWaitSatisfied s
  | .signal => Sys2Proof.Machine.execSignal s
  | .marker => Sys2Proof.Machine.execMarker s
  | .timestamp => Sys2Proof.Machine.execTimestamp s
  | .copyh => Sys2Proof.Machine.execCopyh s
  | .copyhComplete => Sys2Proof.Machine.execCopyhComplete s
  | .nopPacket => Sys2Proof.Machine.execNopPacket s
  | .qwptrWrite => Sys2Proof.Machine.execQwptrWrite s
  | .queueEnable => Sys2Proof.Machine.execQueueEnable s
  | .queueDisable => Sys2Proof.Machine.execQueueDisable s
  | .queueReset => Sys2Proof.Machine.execQueueReset s
  | .coreSetGrant => Sys2Proof.Machine.execCoreSetGrant s
  | .queueQuantumExpire => Sys2Proof.Machine.execQueueQuantumExpire s
  | .graceExpire => Sys2Proof.Machine.execGraceExpire s
  | .rampWindowExpire => Sys2Proof.Machine.execRampWindowExpire s
  | .lockInterfaceRequest => Sys2Proof.Machine.execLockInterfaceRequest s
  | .startInterfaceRequest => Sys2Proof.Machine.execStartInterfaceRequest s
  | .stopInterfaceRequest => Sys2Proof.Machine.execStopInterfaceRequest s
  | .getDeviceInterfaceReport => Sys2Proof.Machine.execGetDeviceInterfaceReport s
  | .firmwareStage => Sys2Proof.Machine.execFirmwareStage s
  | .firmwareActivate => Sys2Proof.Machine.execFirmwareActivate s
  | .cancel => Sys2Proof.Machine.execCancel s
  | .firmwareSwitch => Sys2Proof.Machine.execFirmwareSwitch s
  | .summary => Sys2Proof.Machine.execSummary s
  | .coldStart => Sys2Proof.Machine.execColdStart s
  | .warmStart => Sys2Proof.Machine.execWarmStart s
  | .partReady => Sys2Proof.Machine.execPartReady s
  | .invalidate => Sys2Proof.Machine.execInvalidate s
  | .trbaseWrite => Sys2Proof.Machine.execTrbaseWrite s
  | .trtailWrite => Sys2Proof.Machine.execTrtailWrite s
  | .trflagClear => Sys2Proof.Machine.execTrflagClear s
  | .cntclr => Sys2Proof.Machine.execCntclr s
  | .eccstatClear => Sys2Proof.Machine.execEccstatClear s
  | .domlostClear => Sys2Proof.Machine.execDomlostClear s
  | .scrubError => Sys2Proof.Machine.execScrubError s
  | .boostInterval => Sys2Proof.Machine.execBoostInterval s
  | .boostRefill => Sys2Proof.Machine.execBoostRefill s
  | .boostStepDown => Sys2Proof.Machine.execBoostStepDown s
  | .resume => Sys2Proof.Machine.execResume s
  | .kill => Sys2Proof.Machine.execKill s
  | .replay => Sys2Proof.Machine.execReplay s
  | .debugWindowWrite => Sys2Proof.Machine.execDebugWindowWrite s
  | .registerWrite => Sys2Proof.Machine.execRegisterWrite s
  | .hostWrite => Sys2Proof.Machine.execHostWrite s
  | .matchTimeout => Sys2Proof.Machine.execMatchTimeout s

end Sys2Proof.Machine
end

