-- ==== Sys2Proof/Machine/Step.lean ====
section
/-!
DEFINITION. One step of the machine: the next turn of the tape, or, where the tape is empty, an idle turn.
-/
namespace Sys2Proof.Machine

def step (s : State) : Host.Outcome State Fault Refusal :=
  match s.tape with
  | t :: ts => runTurn exec t { s with tape := ts }
  | [] => runIdle exec s

/-- The state in which the next step fetches and runs the word of `nbits` bits. -/
def State.withFetchWord (s : State) (nbits w : Nat) : State := s.placeWord nbits w

end Sys2Proof.Machine
end

