-- ==== Sys2Proof/Safety.lean ====
section
/-!
DEFINITION. What counts as a safe step: the machine answers a next state, neither a fault nor a refusal.
-/
namespace Sys2Proof

/-- One step from `s` answers a next state. -/
def Safe (s : Machine.State) : Prop := ∃ t, Machine.step s = .next t

/-- The state after `k` steps, if every one of them answers a next state. -/
def after (s : Machine.State) : Nat → Option Machine.State
  | 0 => some s
  | k + 1 =>
    match Machine.step s with
    | .next t => after t k
    | _ => none

/-- A run of `k` steps stops nowhere. -/
def SafeRun (s : Machine.State) (k : Nat) : Prop := (after s k).isSome = true

end Sys2Proof
end

