-- ==== Sys2Proof/Certificates/Slice0/Obligations.lean ====
section
/-!
DEFINITION. The statements about the model. The first part gives the words they are written in; each statement is one
`def Obligations.<Name> : Prop`.
-/
namespace Sys2Proof.Stmt
open Sys2Proof.Machine

/-! ## The words of the statements -/

/-- Nothing keeps instruction `i` of the issuing warp from its effect: the warp exists and is not to stop for another warp's
HALT (R137), its launch has a width (R81), its word breaks no rule of the format (R70), and its operands are full, live
and within their bounds (R98, R107, R94). -/
structure Issues (i : Instr) (s : State) : Prop where
  warp : (tget s.warps s.cur.warp).isSome = true
  running : s.me.stopping = none
  width : s.env.W = 32 ∨ s.env.W = 64 ∨ s.env.W = 128
  clear : ∃ r f, i.raw? = some r ∧ formatCheck s.env.ctx r = none ∧ formOf s.env.W r = some f ∧
    operandGate s.env.ctx f r s.me = .go

/-- The issuing warp, left as `x`, has gone on to its next instruction. -/
def WentOn (s : State) (x : Warp) : Prop :=
  x.pc = s.me.pc + BitVec.ofNat 64 s.cur.adv ∧ x.half = s.cur.half ∧ x.status = .ready ∧ x.word = none

/-- Nothing but the record of the issuing warp differs: no memory, no cache, no other warp, no register outside it. -/
def OnlyMe (s u : State) : Prop :=
  u = { s with warps := u.warps } ∧ ∀ id, id ≠ s.cur.warp → tget u.warps id = tget s.warps id

/-- Nothing but the records of the issuing warp and of its workgroup differs. -/
def OnlyMyGroup (s u : State) : Prop :=
  u = { s with warps := u.warps, groups := u.groups } ∧
  (∀ id, id ≠ s.cur.warp → tget u.warps id = tget s.warps id) ∧ ∀ g, g ≠ s.me.gid → tget u.groups g = tget s.groups g

/-- Every byte of memory reads as before. -/
def SameMemory (s u : State) : Prop := ∀ a, u.mem.byte a = s.mem.byte a

/-- A warp without what completing an instruction changes whatever it does: the PC, the latches (see `Latched`), the
bookkeeping of the issue logic and the note of SRAM words that a write makes whole again (R416). Two warps with the same core
agree in every register and flag but those. -/
def core (w : Warp) : Warp :=
  { w with pc := 0, half := false, latch := [], latchP := [], latchAge := [], plumb := {}, cont := .none, walkRes := [],
           answers := [], redo := [], word := none, elig := 0, overdue := false, woken := false, status := .ready, badRegs := [] }

/-- Slot `p` of `x` holds a capture of `f` in the lanes that were active in `w`, zero in the others (R106), live from now (R107). -/
def Slot (w x : Warp) (W p : Nat) (f : Nat → Val) : Prop :=
  sget none x.latchAge p = some 0 ∧
  ∀ l, l < W → sget 0 x.latch (128 * p + l) = (if w.exec.getLsbD l then (f l).bits else 0) ∧
    (sget 0 x.latchP p).getLsbD l = (w.exec.getLsbD l && (f l).p)

/-- Slot `p` is as it was, one instruction older (R107). -/
def SlotKept (w x : Warp) (p : Nat) : Prop :=
  sget none x.latchAge p = (sget none w.latchAge p).map (· + 1) ∧ sget 0 x.latchP p = sget 0 w.latchP p ∧
  ∀ l, l < 128 → sget 0 x.latch (128 * p + l) = sget 0 w.latch (128 * p + l)

/-- The latches after an instruction with this HOLD field: a capture of OPA's values, OPB's values or the result's (R56, R106). -/
def Latched (h : Hold) (W : Nat) (a b d : Nat → Val) (w x : Warp) : Prop :=
  ∀ p : Fin 3,
    if h = .a p then Slot w x W p a else if h = .b p then Slot w x W p b
    else if h = .d p then Slot w x W p d else SlotKept w x p

/-- What a register, or with `regs` = 2 a pair, holds after `x` is written. -/
def held (regs : Nat) (x : Val) : Val := if regs = 2 then x else { x with bits := (lo32 x.bits).setWidth 64 }

/-- Scalar register `m` and its poison bit are as they were. -/
def SameS (w x : Warp) (m : Nat) : Prop := x.sreg m = w.sreg m ∧ x.sP.getLsbD m = w.sP.getLsbD m

/-- Vector register `m` of lane `l` and its poison bit are as they were. -/
def SameV (w x : Warp) (m l : Nat) : Prop := x.vreg m l = w.vreg m l ∧ x.vPoison m l = w.vPoison m l

/-- Instruction `i` completes, leaving the issuing warp as a warp for which `P` holds, and nothing else changes. -/
def Completes (i : Instr) (s : State) (P : Warp → Prop) : Prop :=
  ∃ u, exec i s = .next u ∧ OnlyMe s u ∧ SameMemory s u ∧ WentOn s u.me ∧ P u.me

/-- In `u` the scalar destination `d` of `regs` registers holds `x`, and nothing else of the warp or the workgroup differs but what
`core` leaves aside (R115). Where a warp of higher F1 has written a g register in the same cycle, its value stands (R95). A
field that names no destination, where an entry permits that, is `v 0`: nothing is written. -/
def WroteScalar (d : Src) (regs : Nat) (x : Val) (s u : State) : Prop :=
  match d with
  | .s n =>
    OnlyMe s u ∧ core { u.me with s := s.me.s, sP := s.me.sP } = core s.me ∧ u.me.sval n.toNat regs = held regs x ∧
    ∀ m, m ≠ n.toNat → (regs = 2 → m ≠ n.toNat + 1) → SameS s.me u.me m
  | .g n =>
    OnlyMyGroup s u ∧ core u.me = core s.me ∧
    let last := sget (0, 0) s.myGroup.gWrote n.toNat
    let stands : Prop := last.1 = s.clock + 1 ∧ s.me.f1 < last.2
    u.myGroup = { s.myGroup with g := u.myGroup.g, gP := u.myGroup.gP, gWrote := u.myGroup.gWrote } ∧
    (¬stands → u.myGroup.gval n.toNat = held 1 x ∧ sget (0, 0) u.myGroup.gWrote n.toNat = (s.clock + 1, s.me.f1)) ∧
    (stands → u.myGroup = s.myGroup) ∧
    ∀ m, m ≠ n.toNat → m < 16 → u.myGroup.gval m = s.myGroup.gval m ∧ sget (0, 0) u.myGroup.gWrote m = sget (0, 0) s.myGroup.gWrote m
  | .v _ => OnlyMe s u ∧ core u.me = core s.me
  | _ => False

/-- A scalar instruction of sources `a` and `b` completes and writes `x` to its destination of `regs` registers, an s register,
an s pair or a g register, and nothing else changes but the latches (R115 to R118). -/
def WritesScalar (i : Instr) (o : COp) (regs : Nat) (a b x : Val) (s : State) : Prop :=
  ∃ u, exec i s = .next u ∧ SameMemory s u ∧ WentOn s u.me ∧
    Latched o.hold s.env.W (fun _ => a) (fun _ => b) (fun _ => x) s.me u.me ∧ WroteScalar o.dst regs x s u

/-! ### Numbers -/

/-- The number that bits hold as an integer type: signed for I types, else unsigned (R63). -/
def number (t : Ty) (d : DWord) : Int :=
  if t.isI then (d.setWidth (tyBits t)).toInt else ((d.setWidth (tyBits t)).toNat : Int)

/-- A result of a type's width as a register holds it: sign copies above I16 and I8, zeros above every other (R160). -/
def placed (t : Ty) (b : BitVec (tyBits t)) : DWord :=
  if t = .i16 ∨ t = .i8 then (b.signExtend 32).setWidth 64 else b.setWidth 64

/-- The bits that hold a number as an integer type: modulo 2^w, or with SAT clamped to the type's range (R120, R161). -/
def bitsOf (t : Ty) (sat : Bool) (x : Int) : DWord :=
  let w := tyBits t
  let lo : Int := if t.isI then -2 ^ (w - 1) else 0
  let hi : Int := if t.isI then 2 ^ (w - 1) - 1 else 2 ^ w - 1
  placed t (BitVec.ofInt w (if sat then max lo (min hi x) else x))

/-- An operation on words of the type's width. -/
def onWords (t : Ty) (f : Word → Word → Word) (g : DWord → DWord → DWord) (a b : DWord) : DWord :=
  if t.is64 then g a b else (f (lo32 a) (lo32 b)).setWidth 64

/-- The values of OPA, OPB and OPC of a scalar instruction of `n` sources: an immediate stands in place of the last (R61, R116). -/
def srcA (s : State) (t : Ty) (o : COp) (n : Nat) : Val := scalarOp s.env t o (hasImm o.ext && n == 1) o.a
def srcB (s : State) (t : Ty) (o : COp) (n : Nat) : Val := scalarOp s.env t o (hasImm o.ext && n == 2) o.b
def srcC (s : State) (t : Ty) (o : COp) (n : Nat) : Val := scalarOp s.env t o (hasImm o.ext && n == 3) o.c

/-- A count, offset or width: 32 bits read as N32 (R116). -/
def count (v : Val) : Nat := (lo32 v.bits).toNat

end Sys2Proof.Stmt

open Sys2Proof Sys2Proof.Machine Sys2Proof.Stmt

/-! ## Scalar instructions -/

/-- R120, R117: SMOV, SADD, SSUB, SMUL, SMULH, SMIN and SMAX write the number that the table gives, modulo 2^w or, with SAT,
clamped, poisoned where a source is; they change nothing else. -/
def Obligations.ScalarArithmetic : Prop :=
  ∀ (t : Ty) (o : COp) (s : State),
    let a := srcA s t o 2
    let b := srcB s t o 2
    let x (f : Int → Int → Int) (sat : Bool) : Val :=
      { bits := bitsOf t sat (f (number t a.bits) (number t b.bits)), p := a.p || b.p }
    (Issues (.smov t o) s → WritesScalar (.smov t o) o t.regs (srcA s t o 1) (srcB s t o 1) (srcA s t o 1) s) ∧
    (Issues (.sadd t o) s → WritesScalar (.sadd t o) o t.regs a b (x (· + ·) (modOf o.ext).sat) s) ∧
    (Issues (.ssub t o) s → WritesScalar (.ssub t o) o t.regs a b (x (· - ·) (modOf o.ext).sat) s) ∧
    (Issues (.smul t o) s → WritesScalar (.smul t o) o t.regs a b (x (· * ·) (modOf o.ext).sat) s) ∧
    (Issues (.smulh t o) s → WritesScalar (.smulh t o) o t.regs a b (x (fun p q => p * q / 2 ^ tyBits t) false) s) ∧
    (Issues (.smin t o) s → WritesScalar (.smin t o) o t.regs a b (x min false) s) ∧
    (Issues (.smax t o) s → WritesScalar (.smax t o) o t.regs a b (x max false) s)

/-- R120, R121, R117: SAND, SOR, SXOR, SNOT, SSHL, SSHR, SSRA and SSEL write the word that the table gives, a shift by w or more
included; SPOPC, SCLZ, SBFE and SBFI the count or field that the rules give, bit by bit; poisoned where a source (for SSEL
also SCC, for SBFI also the destination) is. They change nothing else. -/
def Obligations.ScalarLogic : Prop :=
  ∀ (t : Ty) (o : COp) (s : State),
    let w := tyBits t
    let a := srcA s t o 2
    let b := srcB s t o 2
    let k := srcB s .n32 o 2
    let a1 := srcA s t o 1
    let b1 := srcB s t o 1
    let a3 := srcA s t o 3
    let off := srcB s .n32 o 3
    let wid := srcC s .n32 o 3
    let n := min (count wid) w
    let old := scalarVal s.env t o.dst
    let p := a3.p || off.p || wid.p
    let x (f : Word → Word → Word) (g : DWord → DWord → DWord) : Val := { bits := onWords t f g a.bits b.bits, p := a.p || b.p }
    let sh (f : Word → Nat → Word) (g : DWord → Nat → DWord) : Val :=
      { bits := onWords t (fun p _ => f p (count k)) (fun p _ => g p (count k)) a.bits 0, p := a.p || k.p }
    (Issues (.sand t o) s → WritesScalar (.sand t o) o t.regs a b (x (· &&& ·) (· &&& ·)) s) ∧
    (Issues (.sor t o) s → WritesScalar (.sor t o) o t.regs a b (x (· ||| ·) (· ||| ·)) s) ∧
    (Issues (.sxor t o) s → WritesScalar (.sxor t o) o t.regs a b (x (· ^^^ ·) (· ^^^ ·)) s) ∧
    (Issues (.snot t o) s → WritesScalar (.snot t o) o t.regs a1 b1
      { bits := onWords t (fun p _ => ~~~p) (fun p _ => ~~~p) a1.bits 0, p := a1.p } s) ∧
    (Issues (.sshl t o) s → WritesScalar (.sshl t o) o t.regs a k (sh (· <<< ·) (· <<< ·)) s) ∧
    (Issues (.sshr t o) s → WritesScalar (.sshr t o) o t.regs a k (sh (· >>> ·) (· >>> ·)) s) ∧
    (Issues (.ssra t o) s → WritesScalar (.ssra t o) o t.regs a k (sh BitVec.sshiftRight BitVec.sshiftRight) s) ∧
    (Issues (.ssel t o) s → WritesScalar (.ssel t o) o t.regs a b
      { bits := if s.me.scc then a.bits else b.bits, p := s.me.sccP || a.p || b.p } s) ∧
    (Issues (.spopc t o) s → WritesScalar (.spopc t o) o 1 a1 b1
      { bits := BitVec.ofNat 64 ((List.range w).countP a1.bits.getLsbD), p := a1.p } s) ∧
    (Issues (.sclz t o) s → ∃ z ≤ w, (∀ j < z, a1.bits.getLsbD (w - 1 - j) = false) ∧ (z < w → a1.bits.getLsbD (w - 1 - z) = true) ∧
      WritesScalar (.sclz t o) o 1 a1 b1 { bits := BitVec.ofNat 64 z, p := a1.p } s) ∧
    (Issues (.sbfe t o) s → ∃ x : Val, x.p = p ∧
      (∀ j < w, x.bits.getLsbD j =
        (if j < n then decide (count off + j < w) && a3.bits.getLsbD (count off + j)
         else t.isI && decide (0 < n) && decide (count off + (n - 1) < w) && a3.bits.getLsbD (count off + (n - 1)))) ∧
      (∀ j, w ≤ j → x.bits.getLsbD j = false) ∧ WritesScalar (.sbfe t o) o t.regs a3 off x s) ∧
    (Issues (.sbfi t o) s → ∃ x : Val, x.p = (p || old.p) ∧
      (∀ j < w, x.bits.getLsbD j =
        (if count off ≤ j ∧ j < count off + n then a3.bits.getLsbD (j - count off) else old.bits.getLsbD j)) ∧
      (∀ j, w ≤ j → x.bits.getLsbD j = false) ∧ WritesScalar (.sbfi t o) o t.regs a3 off x s)

/-- R122: SCMPEQ, SCMPNE, SCMPLT and SCMPLE permit the types that the rule lists and have no destination; they set SCC, bit patterns
for equality and the type's numbers for order, poisoned where a source is; they change nothing else. -/
def Obligations.ScalarCompares : Prop :=
  ∀ (t : Ty) (o : COp) (s : State),
    let a := srcA s t o 2
    let b := srcB s t o 2
    let sets (i : Instr) (ts : List Ty) (c : Bool) : Prop := Issues i s → t ∈ ts ∧ o.dst = .v 0 ∧ Completes i s fun x =>
      Latched o.hold s.env.W (fun _ => a) (fun _ => b) (fun _ => {}) s.me x ∧
      core { x with scc := s.me.scc, sccP := s.me.sccP } = core s.me ∧ x.scc = c ∧ x.sccP = (a.p || b.p)
    let equality : List Ty := [.b32, .b64, .i32, .i64, .n32, .n64]
    let order : List Ty := [.i32, .i64, .n32, .n64]
    sets (.scmpeq t o) equality (decide (a.bits = b.bits)) ∧ sets (.scmpne t o) equality (decide (a.bits ≠ b.bits)) ∧
    sets (.scmplt t o) order (decide (number t a.bits < number t b.bits)) ∧
    sets (.scmple t o) order (decide (number t a.bits ≤ number t b.bits))

/-- The words of a special register that an s destination receives, lowest first (R96, R316). -/
def Sys2Proof.Stmt.special (s : State) (n : Nat) : List Word :=
  let w := s.me
  let l := s.myLaunch
  let two (d : DWord) : List Word := [lo32 d, hi32 d]
  match n with
  | 0x10 => two (BitVec.ofNat 64 s.clock)
  | 0x11 => [match w.role with | .general => 0 | .copy => 1 | .matrix => 2 | .epilogue => 3]
  | 0x12 => [BitVec.ofNat 32 (w.core + 2 ^ 16 * w.slot)]
  | 0x13 => [w.fstat]
  | 0x14 => [l.partw]
  | 0x15 => [BitVec.ofNat 32 l.w]
  | 0x18 =>
    if l.kind ≠ .task then [0, 0, 0, 0]
    else match s.frontier s.myGroup.lid with
      | some (_, t) => two t.ts ++ [t.seq, t.lo]
      | none => List.replicate 4 (BitVec.allOnes 32)
  | 0x19 =>
    if l.kind ≠ .task then [0, 0, 0, 0]
    else match s.myTask with
      | some (_, t) => two t.ts ++ [t.seq, t.lo]
      | none => [0, 0, 0, 0]
  | 0x1A =>
    if l.kind ≠ .task then [0, 0, 0, 0]
    else match s.myTask with
      | some (_, t) =>
        if t.range then [t.lo, t.hi, t.cur, 1 + (if t.pin then 2 else 0) + (if t.split then 4 else 0)] else [0, 0, 0, 0]
      | none => [0, 0, 0, 0]
  | 0x1B => two l.save
  | n => [BitVec.ofNat 32 (l.ext (n - 8))]

/-- R123, R96: SGETR writes the special register that it names to its destination, unpoisoned: WID and its fields in every active
lane of v registers, every other one to s registers; it changes nothing else. That SVBASE reads as the base of the launch's save area is an
inference (log entry 83), and so are the low 32 bits of an extent of 2^32 or more (log entry 114). -/
def Obligations.SpecialRead : Prop :=
  ∀ (o : COp) (s : State), Issues (.sgetr o) s →
    let n := (o.ext.aux.extractLsb' 0 8).toNat
    let e := s.env
    Completes (.sgetr o) s fun x =>
      match o.dst with
      | .v m =>
        let val (l : Nat) : Val :=
          { bits := if n = 0 then e.l.wid e.g e.w.f1 l else BitVec.ofNat 64 (widField e.g e.w.f1 l (n - 1)) }
        let regs := if n = 0 then 2 else 1
        n ≤ 6 ∧ core { x with v := e.w.v, vP := e.w.vP } = core e.w ∧
        Latched o.hold e.W (fun _ => {}) (fun _ => {}) val e.w x ∧
        (∀ l ∈ e.active, x.vval m.toNat regs l = held regs (val l)) ∧
        ∀ k l, l < 128 → (l ∉ e.active ∨ (k ≠ m.toNat ∧ (n = 0 → k ≠ m.toNat + 1))) → SameV e.w x k l
      | .s m =>
        let ws := special s n
        6 < n ∧ core { x with s := e.w.s, sP := e.w.sP } = core e.w ∧
        Latched o.hold e.W (fun _ => {}) (fun _ => {})
          (fun _ => { bits := if ws.length = 1 then (ws.getD 0 0).setWidth 64 else pair (ws.getD 0 0) (ws.getD 1 0) }) e.w x ∧
        (∀ k < ws.length, x.sreg (m.toNat + k) = ws.getD k 0 ∧ x.sP.getLsbD (m.toNat + k) = false) ∧
        ∀ k, (k < m.toNat ∨ m.toNat + ws.length ≤ k) → SameS e.w x k
      | _ => False

/-- R124, R153: SSETR replaces FSTAT with its source, the bits that FSTAT does not define zero, and changes nothing else; a
poisoned source writes its value bits. -/
def Obligations.SpecialWrite : Prop :=
  ∀ (o : COp) (s : State), Issues (.ssetr o) s →
    let a := srcA s .n32 o 1
    Completes (.ssetr o) s fun x =>
      core { x with fstat := s.me.fstat } = core s.me ∧ x.fstat = lo32 a.bits &&& 7 ∧
      Latched o.hold s.env.W (fun _ => a) (fun _ => {}) (fun _ => {}) s.me x

/-! ## The execution mask -/

/-- Bit `l` of mask group `m` (R82). -/
def Sys2Proof.Stmt.maskBit (w : Warp) (m l : Nat) : Bool := (w.sreg (m + l / 32)).getLsbD (l % 32)

/-- Some register of mask group `m` is poisoned. -/
def Sys2Proof.Stmt.maskBad (s : State) (m : Nat) : Prop := ∃ i < s.env.W / 32, s.me.sP.getLsbD (m + i) = true

/-- Bit `l` of a mask source: a mask group, or a constant or immediate repeated in each word (R125). -/
def Sys2Proof.Stmt.maskSrc (s : State) (o : COp) (imm : Bool) (x : Src) (l : Nat) : Bool :=
  if imm then (lo32 (immVal .b32 o.ext)).getLsbD (l % 32)
  else match x with
    | .s m => maskBit s.me m.toNat l
    | .k c => (lo32 (constVal .b32 c.toNat)).getLsbD (l % 32)
    | _ => false

/-- A mask instruction completes: EXEC becomes `f`, lane by lane, the group that DST names, if any, receives the old EXEC
unpoisoned, and nothing else changes. -/
def Sys2Proof.Stmt.SetsExec (i : Instr) (o : COp) (save : Bool) (f : Nat → Bool) (s : State) : Prop :=
  Completes i s fun x =>
    core { x with exec := s.me.exec, s := s.me.s, sP := s.me.sP } = core s.me ∧ (∀ l < s.env.W, x.exec.getLsbD l = f l) ∧
    (o.hold = .none → ∀ p : Fin 3, SlotKept s.me x p) ∧
    match save, o.dst with
    | true, .s m =>
      (∀ l < s.env.W, maskBit x m.toNat l = s.me.exec.getLsbD l) ∧
      (∀ i < s.env.W / 32, x.sP.getLsbD (m.toNat + i) = false) ∧
      (∀ p, o.hold = .d p → Slot s.me x s.env.W p fun l => { bits := if s.me.exec.getLsbD l then 1 else 0 }) ∧
      ∀ k, (k < m.toNat ∨ m.toNat + s.env.W / 32 ≤ k) → SameS s.me x k
    | true, _ => False
    | false, _ => ∀ k, SameS s.me x k

/-- R125, R101, R118: SETX, GETX, XAND, XANDN and both forms of XRESTORE set EXEC and save the old mask as the table says; a
source mask with a poisoned register raises POISON_USE with its specifier in INFO0 and leaves all as it was. -/
def Obligations.MaskInstructions : Prop :=
  ∀ (o : COp) (s : State),
    let old (l : Nat) : Bool := s.me.exec.getLsbD l
    let a (l : Nat) : Bool := maskSrc s o (hasImm o.ext) o.a l
    let b (l : Nat) : Bool := maskSrc s o false o.b l
    let badA : Prop := hasImm o.ext = false ∧ ∃ m, o.a = .s m ∧ maskBad s m.toNat
    let badB : Prop := ∃ m, o.b = .s m ∧ maskBad s m.toNat
    let traps (i : Instr) (x : Src) : Prop := exec i s = .next (takeTrap { code := .poisonUse, info0 := x.code.setWidth 64 } s)
    let both (i : Instr) (save : Bool) (f : Nat → Bool) : Prop :=
      (¬badA → ¬badB → SetsExec i o save f s) ∧ (badA → traps i o.a) ∧ (¬badA → badB → traps i o.b)
    (Issues (.setx o) s → both (.setx o) false a) ∧
    (Issues (.getx o) s → both (.getx o) true old) ∧
    (Issues (.xand o) s → both (.xand o) true fun l => old l && a l) ∧
    (Issues (.xandn o) s → both (.xandn o) true fun l => old l && !a l) ∧
    (Issues (.xrestore o) s → both (.xrestore o) false a) ∧
    (Issues (.xrestoreMasked o) s → both (.xrestoreMasked o) false fun l => a l && !b l)

/-! ## Branches -/

/-- Branch targets are multiples of 4, in generation-3 code of 8 (R54, R76). -/
def Sys2Proof.Stmt.Aligned (s : State) (t : DWord) : Prop := t.toNat % (if s.env.l.gen = 3 then 8 else 4) = 0

/-- The issuing warp, left as `x`, has branched to `t`: 6 cycles pass first unless the target was predicted or lies, not ahead of
the branch, in the loop buffer (R130). -/
def Sys2Proof.Stmt.Branched (s : State) (t : DWord) (predicted : Bool) (x : Warp) : Prop :=
  x.pc = t ∧ x.half = false ∧ x.fetched = none ∧ x.word = none ∧
  x.status = if predicted || (decide (t.toNat ≤ s.me.pc.toNat) && s.me.loopBuf.contains (t.toNat / 32)) then .ready
    else .penalty (s.clock + 6)

/-- The trap of `i` with these details. -/
def Sys2Proof.Stmt.Traps (i : Instr) (t : TrapInfo) (s : State) : Prop := exec i s = .next (takeTrap t s)

/-- `i` branches to `t` and leaves the rest of the warp as it was, but for the latches and the return prediction `rp`. -/
def Sys2Proof.Stmt.BranchesTo (i : Instr) (t : DWord) (predicted : Bool) (rp : List DWord) (l : Warp → Prop) (s : State) : Prop :=
  ∃ u, exec i s = .next u ∧ OnlyMe s u ∧ SameMemory s u ∧ Branched s t predicted u.me ∧ u.me.retPred = rp ∧ l u.me ∧
    core { u.me with fetched := s.me.fetched, retPred := s.me.retPred } = core s.me

/-- R126 to R128, R130, R54: BRA, BRC, BRXZ and BRXNZ branch to their own address plus the offset where their condition holds and go
on to the next instruction where it does not; LOOP takes one from its 32-bit counter, an s or g register, and branches
while the result is not zero; a taken branch to a misaligned target raises MISALIGNED, a poisoned SCC at BRC or counter at
LOOP raises POISON_USE, all as it was. Nothing else changes. -/
def Obligations.Branches : Prop :=
  ∀ (o : COp) (s : State),
    let d := immVal .b32 o.ext
    let t := s.me.pc + (lo32 d).signExtend 64
    let lt (x : Warp) : Prop := Latched o.hold s.env.W (fun _ => { bits := d }) (fun _ => {}) (fun _ => {}) s.me x
    let go (i : Instr) (taken : Prop) : Prop :=
      (taken → Aligned s t → BranchesTo i t false s.me.retPred lt s) ∧
      (taken → ¬Aligned s t → Traps i { code := .misaligned, info0 := t } s) ∧
      (¬taken → Completes i s fun x => core x = core s.me ∧ lt x)
    let none' : Prop := ∀ l < s.env.W, s.me.exec.getLsbD l = false
    (Issues (.bra o) s → go (.bra o) True) ∧
    (Issues (.brcT o) s → (s.me.sccP = true → Traps (.brcT o) { code := .poisonUse, info0 := 0x3FF } s) ∧
      (s.me.sccP = false → go (.brcT o) (s.me.scc = true))) ∧
    (Issues (.brcF o) s → (s.me.sccP = true → Traps (.brcF o) { code := .poisonUse, info0 := 0x3FF } s) ∧
      (s.me.sccP = false → go (.brcF o) (s.me.scc = false))) ∧
    (Issues (.brxz o) s → go (.brxz o) none') ∧
    (Issues (.brxnz o) s → go (.brxnz o) ¬none') ∧
    (Issues (.loop o) s →
      let c := scalarVal s.env .n32 o.dst
      let x : Val := { bits := (lo32 c.bits - 1).setWidth 64 }
      let more : Prop := lo32 c.bits - 1 ≠ 0
      (c.p = true → Traps (.loop o) { code := .poisonUse, info0 := o.dst.code.setWidth 64 } s) ∧
      (c.p = false → more → ¬Aligned s t → Traps (.loop o) { code := .misaligned, info0 := t } s) ∧
      (c.p = false → (more → Aligned s t) → ∃ u, exec (.loop o) s = .next u ∧ SameMemory s u ∧
        Latched o.hold s.env.W (fun _ => { bits := d }) (fun _ => {}) (fun _ => x) s.me u.me ∧
        (more → Branched s t false u.me) ∧ (¬more → WentOn s u.me ∧ u.me.fetched = s.me.fetched) ∧
        WroteScalar o.dst 1 x s (u.setMe { u.me with fetched := s.me.fetched })))

/-- R129, R130: CALL saves the address of the next instruction in its pair and pushes it on the return prediction; RET goes to the
address in its pair and pops the prediction; JMPI goes to the address in its pair plus a 32-bit index, none, an s or g
register or an immediate. A poisoned register raises POISON_USE, a misaligned target MISALIGNED. Nothing else changes. -/
def Obligations.CallReturnJump : Prop :=
  ∀ (o : COp) (s : State),
    let d := immVal .b32 o.ext
    let ct := s.me.pc + (lo32 d).signExtend 64
    let link : Val := { bits := s.me.pc + BitVec.ofNat 64 s.cur.adv }
    let a := scalarVal s.env .n64 o.a
    let bad (x : Src) : TrapInfo := { code := .poisonUse, info0 := x.code.setWidth 64 }
    let jump (i : Instr) (b : Val) : Prop :=
      let t := a.bits + (lo32 b.bits).setWidth 64
      (a.p = true → Traps i (bad o.a) s) ∧ (a.p = false → b.p = true → Traps i (bad o.b) s) ∧
      (a.p = false → b.p = false → ¬Aligned s t → Traps i { code := .misaligned, info0 := t } s) ∧
      (a.p = false → b.p = false → Aligned s t → BranchesTo i t false s.me.retPred
        (Latched o.hold s.env.W (fun _ => a) (fun _ => b) (fun _ => {}) s.me) s)
    (Issues (.call o) s →
      (¬Aligned s ct → Traps (.call o) { code := .misaligned, info0 := ct } s) ∧
      (Aligned s ct → ∃ u, exec (.call o) s = .next u ∧ SameMemory s u ∧ Branched s ct false u.me ∧
        u.me.retPred = (link.bits :: s.me.retPred).take 4 ∧
        Latched o.hold s.env.W (fun _ => { bits := d }) (fun _ => {}) (fun _ => link) s.me u.me ∧
        WroteScalar o.dst 2 link s (u.setMe { u.me with fetched := s.me.fetched, retPred := s.me.retPred }))) ∧
    (Issues (.ret o) s →
      (a.p = true → Traps (.ret o) (bad o.a) s) ∧
      (a.p = false → ¬Aligned s a.bits → Traps (.ret o) { code := .misaligned, info0 := a.bits } s) ∧
      (a.p = false → Aligned s a.bits →
        BranchesTo (.ret o) a.bits (s.me.retPred.head? == some a.bits) (s.me.retPred.drop 1)
          (Latched o.hold s.env.W (fun _ => a) (fun _ => {}) (fun _ => {}) s.me) s)) ∧
    (Issues (.jmpi o) s → jump (.jmpi o) {}) ∧
    (Issues (.jmpiIndex o) s → jump (.jmpiIndex o) (scalarVal s.env .n32 o.b)) ∧
    (Issues (.jmpiImm o) s → jump (.jmpiImm o) { bits := d })

/-! ## Vector instructions -/

/-- The values of source `x`, which is source `i` of `n`, as a type, lane by lane (R159, R160); an immediate stands in place of the last. -/
def Sys2Proof.Stmt.lanes (s : State) (o : COp) (n i : Nat) (t : Ty) (x : Src) : Nat → Val := laneSource s.env o n i t x

/-- The register that a vector destination names in lane `l`: v_n, or base + index of its index register (R94). -/
def Sys2Proof.Stmt.target (s : State) (d : Src) (l : Nat) : Nat :=
  match d with
  | .v n => n.toNat
  | .idx i => (sget {} s.me.x (128 * i.toNat + l)).base.toNat + (sget {} s.me.x (128 * i.toNat + l)).index.toNat
  | _ => 0

/-- In `x` the active lanes of vector destination `d` of `regs` registers hold `val`, and no other vector register of any lane differs. -/
def Sys2Proof.Stmt.WroteLanes (d : Src) (regs : Nat) (val : Nat → Val) (s : State) (x : Warp) : Prop :=
  (∀ l ∈ s.env.active, x.vval (target s d l) regs l = held regs (val l)) ∧
  ∀ k l, l < 128 → (l ∉ s.env.active ∨ (k ≠ target s d l ∧ (regs = 2 → k ≠ target s d l + 1))) → SameV s.me x k l

/-- A vector instruction completes: in every active lane its destination receives `val`, FSTAT receives the flags `fl` of the active
lanes whose result is not poisoned, and nothing else changes but the latches (R163, R100, R153). -/
def Sys2Proof.Stmt.WritesLanes (i : Instr) (o : COp) (regs : Nat) (a b val : Nat → Val) (fl : Nat → Flags) (s : State) : Prop :=
  Completes i s fun x =>
    core { x with v := s.me.v, vP := s.me.vP, fstat := s.me.fstat } = core s.me ∧ WroteLanes o.dst regs val s x ∧
    x.fstat = s.me.fstat ||| (flagsOf ((s.env.active.filter fun l => !(val l).p).map fl)).word ∧
    Latched o.hold s.env.W a b val s.me x

/-- The same for an instruction that raises no flag. -/
def Sys2Proof.Stmt.WritesLanesOnly (i : Instr) (o : COp) (regs : Nat) (a b val : Nat → Val) (s : State) : Prop :=
  Completes i s fun x =>
    core { x with v := s.me.v, vP := s.me.vP } = core s.me ∧ WroteLanes o.dst regs val s x ∧
    Latched o.hold s.env.W a b val s.me x

/-- R164, R165, R166, R163: the integer forms of VMOV, VADD, VSUB, VMUL, VMULH, VMULW, VFMA, VMIN, VMAX, VCLAMP, VABS, VNEG, VADDC,
VSUBB, VDOT2 and VDOT4 give each active lane the number that the rules state, modulo 2^w or clamped under SAT, poisoned
where a source is. -/
def Obligations.VectorInteger : Prop :=
  ∀ (t : Ty) (o : COp) (s : State), Ty.fmt? t = none →
    let m := modOf o.ext
    let n (f : Nat → Val) (l : Nat) : Int := number t (f l).bits
    let a (k : Nat) := lanes s o k 1 t o.a
    let b (k : Nat) := lanes s o k 2 t o.b
    let c := lanes s o 3 3 t o.c
    let un (f : Int → Int) (l : Nat) : Val := { bits := bitsOf t m.sat (f (n (a 1) l)), p := (a 1 l).p }
    let bin (sat : Bool) (f : Int → Int → Int) (l : Nat) : Val :=
      { bits := bitsOf t sat (f (n (a 2) l) (n (b 2) l)), p := (a 2 l).p || (b 2 l).p }
    let p3 (l : Nat) : Bool := (a 3 l).p || (b 3 l).p || (c l).p
    let tern (sat : Bool) (f : Int → Int → Int → Int) (l : Nat) : Val :=
      { bits := bitsOf t sat (f (n (a 3) l) (n (b 3) l) (n c l)), p := p3 l }
    let word (f : Nat → Val) (l : Nat) : Int := (lo32 (f l).bits).toNat
    let carry (l : Nat) : Int := if (c l).bits.getLsbD 0 then 1 else 0
    let wide (x : Int) : DWord := pair (BitVec.ofInt 32 x) (if 0 ≤ x ∧ x < 2 ^ 32 then 0 else 1)
    let u : Ty := if t.isI then .i32 else .n32
    let pa := lanes s o 3 1 .b32 o.a
    let pb := lanes s o 3 2 .b32 o.b
    let pc := lanes s o 3 3 u o.c
    let dot (k : Nat) (l : Nat) : Val :=
      let e (v : Val) (i : Nat) : Int := number t (v.bits >>> (tyBits t * i))
      { bits := bitsOf u m.sat (number u (pc l).bits + ((List.range k).map fun i => e (pa l) i * e (pb l) i).sum),
        p := (pa l).p || (pb l).p || (pc l).p }
    (Issues (.vdot2 t o) s → WritesLanesOnly (.vdot2 t o) o 1 pa pb (dot 2) s) ∧
    (Issues (.vdot4 t o) s → WritesLanesOnly (.vdot4 t o) o 1 pa pb (dot 4) s) ∧
    (Issues (.vmov t o) s → WritesLanesOnly (.vmov t o) o t.regs (a 1) (b 1) (a 1) s) ∧
    (Issues (.vadd t o) s → WritesLanesOnly (.vadd t o) o t.regs (a 2) (b 2) (bin m.sat (· + ·)) s) ∧
    (Issues (.vsub t o) s → WritesLanesOnly (.vsub t o) o t.regs (a 2) (b 2) (bin m.sat (· - ·)) s) ∧
    (Issues (.vmul t o) s → WritesLanesOnly (.vmul t o) o t.regs (a 2) (b 2) (bin m.sat (· * ·)) s) ∧
    (Issues (.vmulh t o) s → WritesLanesOnly (.vmulh t o) o t.regs (a 2) (b 2) (bin false fun x y => x * y / 2 ^ tyBits t) s) ∧
    (Issues (.vmulw t o) s → WritesLanesOnly (.vmulw t o) o 2 (a 2) (b 2)
      (fun l => { bits := BitVec.ofInt 64 (n (a 2) l * n (b 2) l), p := (a 2 l).p || (b 2 l).p }) s) ∧
    (Issues (.vfma t o) s → WritesLanesOnly (.vfma t o) o t.regs (a 3) (b 3) (tern m.sat fun x y z => x * y + z) s) ∧
    (Issues (.vmin t o) s → WritesLanesOnly (.vmin t o) o t.regs (a 2) (b 2) (bin false min) s) ∧
    (Issues (.vmax t o) s → WritesLanesOnly (.vmax t o) o t.regs (a 2) (b 2) (bin false max) s) ∧
    (Issues (.vclamp t o) s → WritesLanesOnly (.vclamp t o) o t.regs (a 3) (b 3) (tern false fun x y z => min (max x y) z) s) ∧
    (Issues (.vabs t o) s → WritesLanesOnly (.vabs t o) o t.regs (a 1) (b 1) (un fun x => x.natAbs) s) ∧
    (Issues (.vneg t o) s → WritesLanesOnly (.vneg t o) o t.regs (a 1) (b 1) (un fun x => -x) s) ∧
    (Issues (.vaddc t o) s → WritesLanesOnly (.vaddc t o) o 2 (a 3) (b 3)
      (fun l => { bits := wide (word (a 3) l + word (b 3) l + carry l), p := p3 l }) s) ∧
    (Issues (.vsubb t o) s → WritesLanesOnly (.vsubb t o) o 2 (a 3) (b 3)
      (fun l => { bits := wide (word (a 3) l - word (b 3) l - carry l), p := p3 l }) s)

/-- R164, R166, R163: the floating forms of VADD, VSUB, VMUL, VFMA, VMIN, VMAX, VCLAMP, VABS, VNEG and VCSGN, and VDOT2 and VDOT4, give each
active lane the result that the model's arithmetic of spec/06 gives for the format, mode and FTZ, raise its flags in FSTAT
where the lane is not poisoned, and change nothing else. -/
def Obligations.VectorFloat : Prop :=
  ∀ (t : Ty) (o : COp) (s : State) (f : Fmt),
    let m := modOf o.ext
    let n (g : Nat → Val) (l : Nat) : Nat := (g l).bits.toNat
    let a (k : Nat) := lanes s o k 1 t o.a
    let b (k : Nat) := lanes s o k 2 t o.b
    let c := lanes s o 3 3 t o.c
    let p (k : Nat) (l : Nat) : Bool := (a k l).p || (b k l).p || (if k = 3 then (c l).p else false)
    let does (i : Instr) (k : Nat) (r : Nat → Nat × Flags) : Prop :=
      WritesLanes i o t.regs (a k) (b k) (fun l => { bits := placed t (BitVec.ofNat _ (r l).1), p := p k l }) (fun l => (r l).2) s
    let neg (l : Nat) : Bool := ((f.unpack (n (b 2) l % 2 ^ f.bits))).neg?
    let clamp (l : Nat) : Nat × Flags :=
      let x := fpMinMax f m.ftz true (n (a 3) l) (n (b 3) l)
      let y := fpMinMax f m.ftz false (placed t (BitVec.ofNat _ x.1)).toNat (n c l)
      (y.1, x.2.or y.2)
    let pa (l : Nat) : Val := lanes s o 3 1 .b32 o.a l
    let pb (l : Nat) : Val := lanes s o 3 2 .b32 o.b l
    let pc (l : Nat) : Val := lanes s o 3 3 (dotAcc t) o.c l
    let dots (i : Instr) (k : Nat) : Prop :=
      let r (l : Nat) : Res := opDot t k m (pa l).bits (pb l).bits (pc l).bits
      WritesLanes i o 1 pa pb (fun l => { bits := (r l).bits, p := (pa l).p || (pb l).p || (pc l).p }) (fun l => (r l).fl) s
    (Ty.fmt? t = some f →
      (Issues (.vadd t o) s → does (.vadd t o) 2 fun l => fpAdd f m.rnd m.ftz (n (a 2) l) (n (b 2) l)) ∧
      (Issues (.vsub t o) s → does (.vsub t o) 2 fun l => fpSub f m.rnd m.ftz (n (a 2) l) (n (b 2) l)) ∧
      (Issues (.vmul t o) s → does (.vmul t o) 2 fun l => fpMul f m.rnd m.ftz (n (a 2) l) (n (b 2) l)) ∧
      (Issues (.vfma t o) s → does (.vfma t o) 3 fun l => fpFma f m.rnd m.ftz (n (a 3) l) (n (b 3) l) (n c l)) ∧
      (Issues (.vmin t o) s → does (.vmin t o) 2 fun l => fpMinMax f m.ftz false (n (a 2) l) (n (b 2) l)) ∧
      (Issues (.vmax t o) s → does (.vmax t o) 2 fun l => fpMinMax f m.ftz true (n (a 2) l) (n (b 2) l)) ∧
      (Issues (.vclamp t o) s → does (.vclamp t o) 3 clamp) ∧
      (Issues (.vabs t o) s → does (.vabs t o) 1 fun l => fpSign f (fun _ => false) (n (a 1) l)) ∧
      (Issues (.vneg t o) s → does (.vneg t o) 1 fun l => fpSign f (fun x => !x) (n (a 1) l)) ∧
      (Issues (.vcsgn t o) s → (∀ l ∈ s.env.active, (f.unpack (n (b 2) l % 2 ^ f.bits)).isNan = false) →
        does (.vcsgn t o) 2 fun l => fpSign f (fun _ => neg l) (n (a 2) l))) ∧
    (Issues (.vdot2 t o) s → dots (.vdot2 t o) 2) ∧ (Issues (.vdot4 t o) s → dots (.vdot4 t o) 4)

/-- R167, R168, R163: VAND, VOR, VXOR, VNOT, VSHL, VSHR, VSRA, VPOPC, VCLZ, VBREV, VBFE, VBFI and VPERMB give each active lane the bits
that the rules state, poisoned where a source is. -/
def Obligations.VectorBits : Prop :=
  ∀ (t : Ty) (o : COp) (s : State),
    let w := tyBits t
    let a (k : Nat) := lanes s o k 1 t o.a
    let b (k : Nat) := lanes s o k 2 t o.b
    let c := lanes s o 3 3 t o.c
    let k (j : Nat) := lanes s o j 2 .n32 o.b
    let wid := lanes s o 3 3 .n32 o.c
    let old (l : Nat) := s.me.vval (target s o.dst l) t.regs l
    let n (l : Nat) : Nat := min (count (wid l)) w
    let bin (f : Word → Word → Word) (g : DWord → DWord → DWord) (l : Nat) : Val :=
      { bits := onWords t f g (a 2 l).bits (b 2 l).bits, p := (a 2 l).p || (b 2 l).p }
    let sh (f : Word → Nat → Word) (g : DWord → Nat → DWord) (l : Nat) : Val :=
      { bits := onWords t (fun p _ => f p (count (k 2 l))) (fun p _ => g p (count (k 2 l))) (a 2 l).bits 0,
        p := (a 2 l).p || (k 2 l).p }
    let bitwise (i : Instr) (regs : Nat) (va vb : Nat → Val) (p : Nat → Bool) (bit : Nat → Nat → Bool) : Prop :=
      ∃ val : Nat → Val, (∀ l, (val l).p = p l ∧ (∀ j < w, (val l).bits.getLsbD j = bit l j) ∧
        ∀ j, w ≤ j → (val l).bits.getLsbD j = false) ∧ WritesLanesOnly i o regs va vb val s
    (Issues (.vand t o) s → WritesLanesOnly (.vand t o) o t.regs (a 2) (b 2) (bin (· &&& ·) (· &&& ·)) s) ∧
    (Issues (.vor t o) s → WritesLanesOnly (.vor t o) o t.regs (a 2) (b 2) (bin (· ||| ·) (· ||| ·)) s) ∧
    (Issues (.vxor t o) s → WritesLanesOnly (.vxor t o) o t.regs (a 2) (b 2) (bin (· ^^^ ·) (· ^^^ ·)) s) ∧
    (Issues (.vnot t o) s → WritesLanesOnly (.vnot t o) o t.regs (a 1) (b 1)
      (fun l => { bits := onWords t (fun p _ => ~~~p) (fun p _ => ~~~p) (a 1 l).bits 0, p := (a 1 l).p }) s) ∧
    (Issues (.vshl t o) s → WritesLanesOnly (.vshl t o) o t.regs (a 2) (k 2) (sh (· <<< ·) (· <<< ·)) s) ∧
    (Issues (.vshr t o) s → WritesLanesOnly (.vshr t o) o t.regs (a 2) (k 2) (sh (· >>> ·) (· >>> ·)) s) ∧
    (Issues (.vsra t o) s →
      WritesLanesOnly (.vsra t o) o t.regs (a 2) (k 2) (sh BitVec.sshiftRight BitVec.sshiftRight) s) ∧
    (Issues (.vpopc t o) s → WritesLanesOnly (.vpopc t o) o 1 (a 1) (b 1)
      (fun l => { bits := BitVec.ofNat 64 ((List.range w).countP (a 1 l).bits.getLsbD), p := (a 1 l).p }) s) ∧
    (Issues (.vclz t o) s → ∃ z : Nat → Nat,
      (∀ l, z l ≤ w ∧ (∀ j < z l, (a 1 l).bits.getLsbD (w - 1 - j) = false) ∧
        (z l < w → (a 1 l).bits.getLsbD (w - 1 - z l) = true)) ∧
      WritesLanesOnly (.vclz t o) o 1 (a 1) (b 1) (fun l => { bits := BitVec.ofNat 64 (z l), p := (a 1 l).p }) s) ∧
    (Issues (.vbrev t o) s → bitwise (.vbrev t o) t.regs (a 1) (b 1) (fun l => (a 1 l).p)
      fun l j => (a 1 l).bits.getLsbD (w - 1 - j)) ∧
    (Issues (.vbfe t o) s → bitwise (.vbfe t o) t.regs (a 3) (k 3) (fun l => (a 3 l).p || (k 3 l).p || (wid l).p) fun l j =>
      if j < n l then decide (count (k 3 l) + j < w) && (a 3 l).bits.getLsbD (count (k 3 l) + j)
      else t.isI && decide (0 < n l) && decide (count (k 3 l) + (n l - 1) < w) &&
        (a 3 l).bits.getLsbD (count (k 3 l) + (n l - 1))) ∧
    (Issues (.vbfi t o) s → bitwise (.vbfi t o) t.regs (a 3) (k 3)
      (fun l => (a 3 l).p || (k 3 l).p || (wid l).p || (old l).p) fun l j =>
      if count (k 3 l) ≤ j ∧ j < count (k 3 l) + n l then (a 3 l).bits.getLsbD (j - count (k 3 l)) else (old l).bits.getLsbD j) ∧
    (Issues (.vpermb t o) s → bitwise (.vpermb t o) 1 (a 3) (b 3) (fun l => (a 3 l).p || (b 3 l).p || (c l).p) fun l j =>
      let sel := ((c l).bits.extractLsb' (4 * (j / 8)) 4).toNat
      let byte (v : Val) (i : Nat) : Bool := v.bits.getLsbD (8 * i + j % 8)
      if sel < 4 then byte (a 3 l) sel else if sel < 8 then byte (b 3 l) (sel - 4) else false)

/-- A mask instruction of the vector family completes: the group that DST names receives bit `l` = `q l` in active lanes and 0 in
inactive ones, a register of it poisoned where `p` holds in one of its active lanes; FSTAT receives the flags `fl` of the
active lanes that are not poisoned, and nothing else changes but the latches (R82, R100). -/
def Sys2Proof.Stmt.WritesMask (i : Instr) (o : COp) (a b : Nat → Val) (q p : Nat → Bool) (fl : Nat → Flags) (s : State) : Prop :=
  Completes i s fun x =>
    core { x with s := s.me.s, sP := s.me.sP, fstat := s.me.fstat } = core s.me ∧
    x.fstat = s.me.fstat ||| (flagsOf ((s.env.active.filter fun l => !p l).map fl)).word ∧
    match o.dst with
    | .s m =>
      (∀ l < s.env.W, maskBit x m.toNat l = (s.me.exec.getLsbD l && q l)) ∧
      (∀ k < s.env.W / 32, x.sP.getLsbD (m.toNat + k) = s.env.active.any fun l => l / 32 == k && p l) ∧
      (∀ k, (k < m.toNat ∨ m.toNat + s.env.W / 32 ≤ k) → SameS s.me x k) ∧
      Latched o.hold s.env.W a b (fun l => { bits := if maskBit x m.toNat l then 1 else 0, p := x.sP.getLsbD (m.toNat + l / 32) }) s.me x
    | _ => False

/-- R169, R82, R100: the vector compares write every bit of their mask group, bit patterns compared for raw bits, the type's
order else, the bits of inactive lanes zero; a compare of floating numbers raises NV as R169 says. -/
def Obligations.VectorCompares : Prop :=
  ∀ (t : Ty) (o : COp) (s : State),
    let a := lanes s o 2 1 t o.a
    let b := lanes s o 2 2 t o.b
    let p (l : Nat) : Bool := (a l).p || (b l).p
    let ints (i : Instr) (c : Int → Int → Bool) : Prop :=
      WritesMask i o a b (fun l => c (number t (a l).bits) (number t (b l).bits)) p (fun _ => {}) s
    (Ty.fmt? t = none →
      (Issues (.vcmpeq t o) s → ints (.vcmpeq t o) fun x y => decide (x = y)) ∧
      (Issues (.vcmpne t o) s → ints (.vcmpne t o) fun x y => decide (x ≠ y)) ∧
      (Issues (.vcmplt t o) s → ints (.vcmplt t o) fun x y => decide (x < y)) ∧
      (Issues (.vcmple t o) s → ints (.vcmple t o) fun x y => decide (x ≤ y))) ∧
    ∀ f, Ty.fmt? t = some f →
      let num (v : Nat → Val) (l : Nat) : Machine.Num := fin1 f (modOf o.ext).ftz (v l).bits.toNat
      let quiet (l : Nat) : Flags := { nv := (num a l).isSnan || (num b l).isSnan }
      let loud (l : Nat) : Flags := { nv := (num a l).isNan || (num b l).isNan }
      let fl (i : Instr) (c : Machine.Num → Machine.Num → Bool) (e : Nat → Flags) : Prop :=
        WritesMask i o a b (fun l => c (num a l) (num b l)) p e s
      (Issues (.vcmpeq t o) s → fl (.vcmpeq t o) numEq quiet) ∧
      (Issues (.vcmpne t o) s → fl (.vcmpne t o) (fun x y => !numEq x y) quiet) ∧
      (Issues (.vcmplt t o) s → fl (.vcmplt t o) numLt loud) ∧
      (Issues (.vcmple t o) s → fl (.vcmple t o) (fun x y => numLt x y || numEq x y) loud) ∧
      (Issues (.vcmpu t o) s → fl (.vcmpu t o) (fun x y => x.isNan || y.isNan) quiet)

/-- R170, R171, R172, R174, R175, R163: VSEL takes OPA where the mask bit is 1 and OPB where it is 0, poisoned with the register of
its bit; VCVT between integers gives the number modulo 2^w or clamped; VCVT to and from floating types, VFRACT, VLDEXP,
VRINT, VSQRT and the approximated functions give what the model's arithmetic of spec/06 gives, with its flags. (Within
R174's bounds the approximated functions are free values: this statement holds for every choice of them.) -/
def Obligations.SelectAndConvert : Prop :=
  ∀ (t : Ty) (o : COp) (s : State),
    let m := modOf o.ext
    let u := m.ty2
    let a := lanes s o 1 1 t o.a
    let au := lanes s o 1 1 u o.a
    let none' := lanes s o 1 2 t o.b
    let f := tyFmt t
    let res (i : Instr) (v w : Nat → Val) (r : Nat → Nat × Flags) (p : Nat → Bool) : Prop :=
      WritesLanes i o t.regs v w (fun l => { bits := placed t (BitVec.ofNat _ (r l).1), p := p l }) (fun l => (r l).2) s
    let one (i : Instr) (g : Nat → Nat × Flags) : Prop := res i a none' (fun l => g (a l).bits.toNat) fun l => (a l).p
    let cv (g : Nat → Nat × Flags) : Prop := res (.vcvt t o) au none' (fun l => g (au l).bits.toNat) fun l => (au l).p
    let sa (l : Nat) : Val := laneOp s.env t o false o.a l
    let sb (l : Nat) : Val := laneOp s.env t o (hasImm o.ext) o.b l
    let la := lanes s o 2 1 t o.a
    let lb := lanes s o 2 2 .i32 o.b
    (Issues (.vsel t o) s → ∀ k, o.c = .s k → WritesLanesOnly (.vsel t o) o t.regs sa sb (fun l =>
        let v := if maskBit s.me k.toNat l then sa l else sb l
        { v with p := v.p || s.me.sP.getLsbD (k.toNat + l / 32) }) s) ∧
    (Issues (.vcvt t o) s →
      (Ty.fmt? u = none → Ty.fmt? t = none → WritesLanes (.vcvt t o) o t.regs au none'
        (fun l => { bits := bitsOf t m.sat (number u (au l).bits), p := (au l).p }) (fun _ => {}) s) ∧
      (∀ g, Ty.fmt? u = none → Ty.fmt? t = some g → cv fun x => g.flushResult m.ftz (intToFp g m.rnd (number u (BitVec.ofNat 64 x)))) ∧
      (∀ g, Ty.fmt? u = some g → Ty.fmt? t = none → cv (fpToInt g t.isI (tyBits t) m.rnd m.ftz)) ∧
      (∀ g h, Ty.fmt? u = some g → Ty.fmt? t = some h → cv (fpConvert g h m.rnd m.ftz m.sat))) ∧
    (Issues (.vfract t o) s → one (.vfract t o) (fpFract f m.ftz)) ∧
    (Issues (.vldexp t o) s → res (.vldexp t o) la lb (fun l => fpLdexp f m.rnd m.ftz (la l).bits.toNat (number .i32 (lb l).bits))
      fun l => (la l).p || (lb l).p) ∧
    (Issues (.vrint t o) s → one (.vrint t o) (fpRint f m.rnd m.ftz)) ∧
    (Issues (.vsqrt t o) s → one (.vsqrt t o) (fpSqrt f m.rnd m.ftz)) ∧
    (Issues (.vrcp t o) s → one (.vrcp t o) (fpApprox .rcp f m.ftz)) ∧
    (Issues (.vrsq t o) s → one (.vrsq t o) (fpApprox .rsq f m.ftz)) ∧
    (Issues (.vexp2 t o) s → one (.vexp2 t o) (fpApprox .exp2 f m.ftz)) ∧
    (Issues (.vlog2 t o) s → one (.vlog2 t o) (fpApprox .log2 f m.ftz)) ∧
    (Issues (.vsin t o) s → one (.vsin t o) (fpApprox .sin f m.ftz)) ∧
    (Issues (.vcos t o) s → one (.vcos t o) (fpApprox .cos f m.ftz))

/-- R173: VSEPACK and VSEUNPK raise ILLEGAL_CONVERGENCE where a group of 16 lanes is active in part, with those lanes in LANES and EXEC
in INFO0 and INFO1; otherwise VSEPACK writes word i of each active group's block into its lane i, zero from lane 5 on, and
VSEUNPK gives each lane its element of its group's block, rounded; poison of any lane or word of a group spreads over it. -/
def Obligations.BlocksOfLanes : Prop :=
  ∀ (t : Ty) (o : COp) (s : State),
    let m := modOf o.ext
    let u := m.ty2
    let e := s.env
    let inGroup (k : Nat) : List Nat := e.active.filter fun l => l / 16 == k
    let part : List Nat := e.active.filter fun l => (inGroup (l / 16)).length < 16
    let trap : TrapInfo := { code := .illegalConvergence, lanes := lanesOf part, info0 := s.me.exec.extractLsb' 0 64,
                             info1 := s.me.exec.extractLsb' 64 64 }
    let a := lanes s o 1 1 u o.a
    let num (l : Nat) : Machine.Num := (tyFmt u).unpack ((a l).bits.toNat % 2 ^ tyBits u)
    let ofGroup (k : Nat) : List Nat := (List.range 16).map fun i => 16 * k + i
    let blk (k : Nat) : Nat × Flags := seConvert t ((ofGroup k).map num)
    let bad (k : Nat) : Bool := (ofGroup k).any fun l => (a l).p
    let packed (l : Nat) : Val :=
      { bits := if l % 16 < 5 then BitVec.ofNat 64 ((blk (l / 16)).1 / 2 ^ (32 * (l % 16)) % 2 ^ 32) else 0, p := bad (l / 16) }
    let b := lanes s o 1 1 .b32 o.a
    let n := (seBytes u + 3) / 4
    let block (k : Nat) : Nat := (List.range 5).foldl (fun x i => x + (b (16 * k + i)).bits.toNat * 2 ^ (32 * i)) 0
    let r (l : Nat) : Nat × Flags := (tyFmt t).round m.rnd false (seElem u (block (l / 16)) (l % 16))
    let off (k : Nat) : Bool := (List.range n).any fun i => (b (16 * k + i)).p
    (Issues (.vsepack t o) s → (part ≠ [] → Traps (.vsepack t o) trap s) ∧
      (part = [] → Completes (.vsepack t o) s fun x =>
        core { x with v := s.me.v, vP := s.me.vP, fstat := s.me.fstat } = core s.me ∧ WroteLanes o.dst 1 packed s x ∧
        x.fstat = s.me.fstat ||| (flagsOf (((List.range (e.W / 16)).filter fun k =>
          !(inGroup k).isEmpty && !bad k).map fun k => (blk k).2)).word ∧
        Latched o.hold e.W a (fun _ => {}) packed s.me x)) ∧
    (Issues (.vseunpk t o) s → (part ≠ [] → Traps (.vseunpk t o) trap s) ∧
      (part = [] → WritesLanes (.vseunpk t o) o 1 b (fun _ => {})
        (fun l => { bits := placed t (BitVec.ofNat _ (r l).1), p := off (l / 16) }) (fun l => (r l).2) s))

/-- R176 to R180: VSHFL reads the lane that its form gives within the segment, whatever its EXEC bit; VVOTE.ANY and ALL write SCC
and, where DST names one, an s register, VVOTE.BALLOT a mask group; VLANE gives lane numbers and prefix counts, never
poisoned; VBCAST spreads one lane's value over the active lanes or writes it to s registers, a poisoned lane number raising
POISON_USE. -/
def Obligations.LaneExchange : Prop :=
  ∀ (t : Ty) (o : COp) (s : State),
    let e := s.env
    let a := lanes s o 2 1 t o.a
    let b := lanes s o 2 2 .n32 o.b
    let sg := if (o.ext.aux.extractLsb' 2 3).toNat = 0 then e.W else 2 ^ (o.ext.aux.extractLsb' 2 3).toNat
    let base (l : Nat) : Nat := l / sg * sg
    let shfl (i : Instr) (src : Nat → Nat → Nat) : Prop :=
      WritesLanesOnly i o t.regs a b (fun l =>
        { bits := (a (src l (count (b l)))).bits, p := (a (src l (count (b l)))).p || (b l).p }) s
    let v := lanes s o 1 1 .b32 o.a
    let yes (l : Nat) : Bool := decide (lo32 (v l).bits ≠ 0)
    let vote (i : Instr) (r : Bool) : Prop :=
      let x : Val := { bits := if r then 1 else 0, p := e.active.any fun l => (v l).p }
      Completes i s fun w =>
        core { w with scc := s.me.scc, sccP := s.me.sccP, s := s.me.s, sP := s.me.sP } = core s.me ∧ w.scc = r ∧ w.sccP = x.p ∧
        Latched o.hold e.W v (fun _ => {}) (fun _ => x) s.me w ∧
        match o.dst with
        | .s m => w.sval m.toNat 1 = x ∧ ∀ k, k ≠ m.toNat → SameS s.me w k
        | _ => ∀ k, SameS s.me w k
    let number' (i : Instr) (f : Nat → Nat) : Prop :=
      WritesLanesOnly i o 1 (fun _ => {}) (fun _ => {}) (fun l => { bits := BitVec.ofNat 64 (f l) }) s
    let k := scalarOp e .n32 o (hasImm o.ext) o.b
    let x := a (count k % e.W)
    (Issues (.vshflIdx t o) s → shfl (.vshflIdx t o) fun l n => base l + n % sg) ∧
    (Issues (.vshflXor t o) s → shfl (.vshflXor t o) fun l n => base l + ((l % sg) ^^^ (n % sg))) ∧
    (Issues (.vshflUp t o) s → shfl (.vshflUp t o) fun l n => if base l + n ≤ l then l - n else l) ∧
    (Issues (.vshflDn t o) s → shfl (.vshflDn t o) fun l n => if l + n < base l + sg then l + n else l) ∧
    (Issues (.vvoteAny o) s → vote (.vvoteAny o) (e.active.any yes)) ∧
    (Issues (.vvoteAll o) s → vote (.vvoteAll o) (e.active.all yes)) ∧
    (Issues (.vvoteBallot o) s → WritesMask (.vvoteBallot o) o v (fun _ => {}) yes (fun l => (v l).p) (fun _ => {}) s) ∧
    (Issues (.vlaneId o) s → number' (.vlaneId o) id) ∧
    (Issues (.vlanePfx o) s → number' (.vlanePfx o) fun l => (e.active.filter (· < l)).length) ∧
    (Issues (.vbcast t o) s →
      (k.p = true → Traps (.vbcast t o) { code := .poisonUse, info0 := o.b.code.setWidth 64 } s) ∧
      (k.p = false → ∀ m, o.dst = .s m → Completes (.vbcast t o) s fun w =>
        core { w with s := s.me.s, sP := s.me.sP } = core s.me ∧ w.sval m.toNat t.regs = held t.regs x ∧
        Latched o.hold e.W a (fun _ => k) (fun _ => x) s.me w ∧
        ∀ j, j ≠ m.toNat → (t.regs = 2 → j ≠ m.toNat + 1) → SameS s.me w j) ∧
      (k.p = false → (∀ m, o.dst ≠ .s m) → WritesLanesOnly (.vbcast t o) o t.regs a (fun _ => k) (fun _ => x) s))

/-- R181, R182: VXSET writes index, base and limit of an index register in every active lane and raises INDEX_BOUNDS, before
POISON_USE, where a value exceeds 511; VXADD adds to the index modulo 512; a poisoned source raises POISON_USE; VPTEST writes
the poison bits of its source to a mask group, never poisoned. -/
def Obligations.IndexRegisters : Prop :=
  ∀ (o : COp) (s : State),
    let e := s.env
    let i := (o.ext.aux.extractLsb' 0 3).toNat
    let a := lanes s o 3 1 .n32 o.a
    let b := lanes s o 3 2 .n32 o.b
    let c := lanes s o 3 3 .n32 o.c
    let d := lanes s o 1 1 .i32 o.a
    let v := lanes s o 1 1 .b32 o.a
    let big (l : Nat) : Prop := 511 < count (a l) ∨ 511 < count (b l) ∨ 511 < count (c l)
    let bad (l : Nat) : Bool := (a l).p || (b l).p || (c l).p
    let set (i' : Instr) (f : Nat → XReg) (x y : Nat → Val) : Prop := Completes i' s fun w =>
      core { w with x := s.me.x } = core s.me ∧
      (∀ k < 8, ∀ l < 128, sget {} w.x (128 * k + l) =
        if k = i ∧ l ∈ e.active then f l else sget {} s.me.x (128 * k + l)) ∧
      Latched o.hold e.W x y (fun _ => {}) s.me w
    (Issues (.vxset o) s →
      ((∀ l ∈ e.active, ¬big l ∧ bad l = false) → set (.vxset o) (fun l =>
        { index := BitVec.ofNat 9 (count (a l)), base := BitVec.ofNat 9 (count (b l)), limit := BitVec.ofNat 9 (count (c l)) }) a b) ∧
      ((∃ l ∈ e.active, big l) → ∃ t : TrapInfo, t.code = .indexBounds ∧ t.info0 = BitVec.ofNat 64 (i + 256) ∧
        (∀ l < 128, t.lanes.getLsbD l = true ↔ l ∈ e.active ∧ big l) ∧ Traps (.vxset o) t s) ∧
      ((∀ l ∈ e.active, ¬big l) → (∃ l ∈ e.active, bad l = true) → ∃ t : TrapInfo, t.code = .poisonUse ∧ Traps (.vxset o) t s)) ∧
    (Issues (.vxadd o) s →
      ((∀ l ∈ e.active, (d l).p = false) → set (.vxadd o) (fun l =>
        let x := sget {} s.me.x (128 * i + l)
        { x with index := BitVec.ofNat 9 (x.index.toNat + count (d l)) }) d (fun _ => {})) ∧
      ((∃ l ∈ e.active, (d l).p = true) → ∃ t : TrapInfo, t.code = .poisonUse ∧ Traps (.vxadd o) t s)) ∧
    (Issues (.vptest o) s → WritesMask (.vptest o) o v (fun _ => {}) (fun l => (v l).p) (fun _ => false) (fun _ => {}) s)

/-! ## Hints, stopping and ending -/

/-- The issuing instruction completes with `s'` as the rest of the machine: `u` is `s'` but that the issuing warp has gone on. -/
def Sys2Proof.Stmt.GoesOn (s s' u : State) : Prop :=
  OnlyMe s' u ∧ WentOn s u.me ∧ core u.me = core s'.me ∧ ∀ p : Fin 3, SlotKept s'.me u.me p

/-- `i` completes with `s'` as the rest of the machine. -/
def Sys2Proof.Stmt.Ends (i : Instr) (s s' : State) : Prop := ∃ u, exec i s = .next u ∧ GoesOn s s' u

/-- `i` performs the release of R193 to R196 at scope `sc` and then `k`: at once where nothing is left to wait for, or, the
warp held meanwhile, when it issues again after RELEASE_COMPLETE. A copy of the warp that has not finished is waited
for first: the writes of a CPOUT (R232) and, by inference, the loads of a CPIN (log entry 107). -/
def Sys2Proof.Stmt.Releasing (i : Instr) (sc : Scope) (k : State → Prop) (s : State) : Prop :=
  let s' := s.releaseAt s.cur.warp s.env.w.core sc
  let ids := s'.releaseWaits s.env.w.core sc
  let held (x : State) (ids : List Nat) (c : Cont) : State :=
    x.setMe { x.me with status := .held (.release ids), cont := c, word := some s.cur, elig := 0, overdue := false }
  let copying : Prop := s.copying s.cur.warp = true
  (s.me.cont ≠ .none → k s) ∧
  (s.me.cont = .none → copying → exec i s = .next (held s [] .none)) ∧
  (s.me.cont = .none → ¬copying → ids = [] → k s') ∧
  (s.me.cont = .none → ¬copying → ids ≠ [] → exec i s = .next (held s' ids .released))

/-- The task that the issuing warp runs may end: it is the frontier, or its core holds fewer than 32 finished tasks (R311; log entry 95
for the wait until then). -/
def Sys2Proof.Stmt.mayFinish (s : State) : Prop :=
  ∀ k, s.myTask = some k → s.isFrontier s.myGroup.lid k.1 = true ∨
    ((s.tasksOf s.myGroup.lid).filter fun e => e.2.core == k.2.core && e.2.st == .finished).length < 32

/-- `i` stalls its task, which goes on once it is the frontier (R324). -/
def Sys2Proof.Stmt.Stalls (i : Instr) (tid : Nat) (t : Task) (s : State) : Prop :=
  ∃ u, exec i s = .next u ∧ u = { s with warps := u.warps, tasks := tput s.tasks tid (s.myGroup.lid, { t with st := .stalled }) } ∧
    (∀ id, id ≠ s.cur.warp → tget u.warps id = tget s.warps id) ∧
    u.me = { s.me with status := .stalled, word := some s.cur, elig := 0, overdue := false }

/-- R133, R134, R135: NOP in its three lengths only goes on; ICSYNC also discards what the warp has fetched ahead; SLEEP keeps the
warp from issuing for min(OPA, 2^24) cycles. R131, R136, R137, R324: ICINV, once no CPOUT of its warp is under way, writes the dirty
bytes of its core back and holds the warp until ICINV_COMPLETE, then goes on; a task that buffers enters direct mode for it where it is
the frontier, which writes its buffer as plain stores, and stalls elsewhere. EXIT releases at .device and ends its warp, or ends its
task as soon as the core may hold it finished (log entry 95). HALT stops every resident warp of the workgroup that has not stopped
before, a warp parked for replay when its replay ends; the PC of each is that of its next unissued instruction, past fill words, or of
the instruction that it is held in (log entry 115); in a speculative task it is deferred as a trap. -/
def Obligations.PausingAndEnding : Prop :=
  ∀ (o : COp) (s : State),
    let me := s.cur.warp
    let c := s.env.w.core
    let sc := icinvScope o
    let icinvHold (s : State) : State :=
      let wb := s.writeBackAll c
      wb.setMe { wb.me with status := .held (.icinv sc (if sc = .device then (wb.die (c / 64)).wbuf.map WEntry.id else [])),
                            cont := .none, word := some s.cur, elig := 0, overdue := false }
    let ids := s.slots.map Prod.snd
    let a := srcA s .n32 o 1
    let n := min (count a) (2 ^ 24)
    (Issues (.nop o) s → Ends (.nop o) s s) ∧ (Issues (.nopW96 o) s → Ends (.nopW96 o) s s) ∧
    (Issues (.nopW128 o) s → Ends (.nopW128 o) s s) ∧
    (Issues (.icsync o) s → Completes (.icsync o) s fun x =>
      core { x with fetched := s.me.fetched, loopBuf := s.me.loopBuf } = core s.me ∧ x.fetched = none ∧ x.loopBuf = []) ∧
    (Issues (.sleep o) s → ∃ u, exec (.sleep o) s = .next u ∧ OnlyMe s u ∧ core u.me = core s.me ∧
      u.me.pc = s.me.pc + BitVec.ofNat 64 s.cur.adv ∧ u.me.half = s.cur.half ∧
      u.me.status = (if n = 0 then .ready else .asleep (s.clock + n)) ∧
      Latched o.hold s.env.W (fun _ => a) (fun _ => {}) (fun _ => {}) s.me u.me) ∧
    (Issues (.icinv o) s → (s.me.cont = .released → Ends (.icinv o) s s) ∧
      (s.me.cont ≠ .released → s.copyingOut me = true → exec (.icinv o) s = .next s) ∧
      (s.me.cont ≠ .released → s.copyingOut me = false →
        (∀ k, s.myTask = some k → k.2.st = .direct) → exec (.icinv o) s = .next (icinvHold s)) ∧
      (s.me.cont ≠ .released → s.copyingOut me = false → ∀ tid t, s.myTask = some (tid, t) → t.st ≠ .direct →
        (s.isFrontier s.myGroup.lid tid = true → exec (.icinv o) s = .next (icinvHold (s.enterDirect tid))) ∧
        (s.isFrontier s.myGroup.lid tid = false → Stalls (.icinv o) tid t s))) ∧
    (Issues (.exit o) s →
      (s.env.l.kind ≠ .task → Releasing (.exit o) .device (fun s' => ∃ x, GoesOn s s' x ∧
        exec (.exit o) s = .next (x.exitWarp me) ∧ (x.exitWarp me).me.status = .exited) s) ∧
      (s.env.l.kind = .task → mayFinish s → ∃ x, GoesOn s s x ∧ exec (.exit o) s = .next (endTask me false false x)) ∧
      (s.env.l.kind = .task → ¬mayFinish s → exec (.exit o) s = .next s)) ∧
    (Issues (.halt o) s → s.speculative = true →
      Traps (.halt o) { code := .softwareTrap, info1 := BitVec.ofNat 64 (2 ^ 63 + 256 * s.me.slot) } s) ∧
    (Issues (.halt o) s → s.speculative = false → ids.Nodup → me ∈ ids → me ∈ s.env.g.warps → ∃ u,
      exec (.halt o) s = .next u ∧ SameMemory s u ∧ u.me.status = .halted 0x12 ∧
      u.me.pc = s.me.pc + BitVec.ofNat 64 s.cur.adv ∧
      ∀ id, id ≠ me →
        if id ∈ ids ∧ id ∈ s.env.g.warps then
          match (s.warp id).status with
          | .exited => u.warp id = s.warp id
          | .halted _ => u.warp id = s.warp id
          | .deferred => u.warp id = s.warp id
          | .replay => ((u.warp id).stopping.isSome = true) ∧ u.warp id = { s.warp id with stopping := (u.warp id).stopping }
          | st => (u.warp id).status = .halted 0x12 ∧ (u.warp id).before = st ∧ (u.warp id).pc = (s.atNext (s.warp id)).pc
        else tget u.warps id = tget s.warps id)

/-- R138, R139: TRAP raises SOFTWARE_TRAP, under its condition on SCC, with its code and its register's value and poison; a
poisoned SCC raises POISON_USE; BKPT raises BREAKPOINT with its tag. A TRAP whose condition fails only goes on. -/
def Obligations.TrapInstructions : Prop :=
  ∀ (o : EOp) (s : State),
    let code : DWord := match o.frame with
      | some f => (f.aux.extractLsb' 0 16).setWidth 64
      | none => 0
    let val : DWord := match o.a with
      | .s n => (if s.me.sP.getLsbD n.toNat then 0x100000000#64 else 0) ||| (s.me.sreg n.toNat).setWidth 64
      | _ => 0
    let t : TrapInfo := { code := .softwareTrap, info0 := code, info1 := val }
    let onScc (i : Instr) (b : Bool) : Prop :=
      (s.me.sccP = true → Traps i { code := .poisonUse, info0 := 0x3FF } s) ∧
      (s.me.sccP = false → s.me.scc = b → Traps i t s) ∧ (s.me.sccP = false → s.me.scc ≠ b → Ends i s s)
    (Issues (.trap o) s → Traps (.trap o) t s) ∧
    (Issues (.trapT o) s → onScc (.trapT o) true) ∧
    (Issues (.trapF o) s → onScc (.trapF o) false) ∧
    (Issues (.bkpt o) s → Traps (.bkpt o) { code := .breakpoint, info0 := code } s)

/-! ## Memory -/

/-- Where the model's byte addresses of the scratchpad and of the constant segment lie in the statements below. -/
def Sys2Proof.Stmt.scratchAt : Nat := 2 ^ 60
def Sys2Proof.Stmt.constAt : Nat := 2 ^ 61

/-- A byte as a load on core `c` sees it: the L1's where it holds the byte, else the L2's (R193, R195). -/
def Sys2Proof.Stmt.sees (s : State) (c a : Nat) : Byte :=
  let x := (s.core c).sector (sectorOf a)
  if x.valid.getLsbD (a % 32) then secByte x.data (a % 32) else s.dieByte (c / 64) a

/-- A byte in the latest value that core `c` can reach: its own dirty bytes, else the L2's. -/
def Sys2Proof.Stmt.latest (s : State) (c a : Nat) : Byte :=
  let x := (s.core c).sector (sectorOf a)
  if x.dirty.getLsbD (a % 32) then secByte x.data (a % 32) else s.dieByte (c / 64) a

/-- A byte as core `c` sees it after an acquire at .die or wider: the clean bytes of its lines of private data stay (R193). -/
def Sys2Proof.Stmt.acquired (s : State) (c a : Nat) : Byte :=
  if ((s.core c).sector (sectorOf a)).priv then sees s c a else latest s c a

/-- A byte for the issuing warp: memory as `f` gives it for its core, its scratchpad, its constant segment. -/
def Sys2Proof.Stmt.view (f : State → Nat → Nat → Byte) (s : State) (a : Nat) : Byte :=
  if constAt ≤ a then s.myLaunch.const.byte (a - constAt)
  else if scratchAt ≤ a then s.myGroup.scratch.byte (a - scratchAt)
  else f s s.me.core a

/-- A mark of another warp covers byte `a` in the sector as the L1 holds it once the bytes `ls` have been loaded: where it lacked
one of them in the sector, what it fetched came with the mark of the L2's copy (R226, R227). -/
def Sys2Proof.Stmt.marked (nc : Bool) (ls : List Nat) (s : State) (a : Nat) : Bool :=
  let x := (s.core s.me.core).sector (sectorOf a)
  let home := s.dieMark (s.me.core / 64) (sectorOf a)
  let fetched := ls.any fun b => sectorOf b == sectorOf a && !x.valid.getLsbD (b % 32)
  let m := if nc then (if x.dirty.getLsbD (a % 32) then x.mark else home)
    else if fetched then overMark x.mark (~~~x.valid) (Mark.within home (~~~x.valid)) else x.mark
  match m with
  | some k => decide (k.warp ≠ s.cur.warp) && k.cover.getLsbD (a % 32)
  | none => false

/-- The bytes of a lane. -/
def Sys2Proof.Stmt.cells (n : Nat) : Route → Option (List Nat)
  | .cells ls => some ls
  | .scratch o => some ((List.range n).map (scratchAt + o + ·))
  | .const o => some ((List.range n).map (constAt + o + ·))
  | _ => none

/-- A byte at its point of coherence, under the host writes that every die sees already (R195, R220). -/
def Sys2Proof.Stmt.shared (s : State) (a : Nat) : Byte :=
  match pendingIn s.hostq a with
  | some e => secByte e.data (a % 32)
  | none => s.mem.byte a

/-- The caches are in their form: sectors in rising order, no write waiting in a die's buffer for a home on the same die (R195), the
host writes that every die sees are writes to the host. -/
def Sys2Proof.Stmt.CachesWf (s : State) : Prop :=
  (∀ c, risingFrom 0 (s.core c).l1 = true) ∧ (∀ e ∈ s.hostq, isHost (32 * e.sector) = true) ∧
  ∀ d, ∀ e ∈ (s.die d).wbuf, e.host = isHost (32 * e.sector) ∧ (isHost (32 * e.sector) = true ∨ homeDie (32 * e.sector) ≠ d)

/-- The L1 of core `c` has room for the lines of some locations beside those that it holds (R193): none of them leaves it (a line
that leaves is the concern of `MemoryEvents`). -/
def Sys2Proof.Stmt.Room (s : State) (c : Nat) (locs : List Nat) : Prop :=
  ((s.core c).l1.map (fun (e : Nat × Sector) => e.1 / 4) ++ locs.map fun a => a / 128).eraseDups.length ≤ 1024

/-- The requests of a memory instruction: those of its active lanes or, where it is performed again after a page fault, those that it
has held back (R203). `fl`: its data are read as floats. -/
def Sys2Proof.Stmt.requests (s : State) (f : AddrForm) (fl : Bool) (o : MOp) : List LaneReq :=
  if s.me.redo = [] then s.env.active.map (laneReq s.env f o fl) else s.me.redo

/-- Where the request of a lane goes; what its peer has answered for it (R211, R368). -/
def Sys2Proof.Stmt.goesTo (s : State) (f : AddrForm) (acc : Nat) (o : MOp) (r : LaneReq) : Route :=
  laneRoute s s.env f acc o.size.bytes r
def Sys2Proof.Stmt.answerTo (s : State) (r : LaneReq) : Option Answer := s.me.answers.find? fun x => x.lane == r.lane

/-- A request is for global or host memory. -/
def Sys2Proof.Stmt.isVirt (f : AddrForm) (r : LaneReq) : Bool := formSpot f r.addr == .virt

/-- The bytes of the requests of some kind, `loc l` those of lane `l`. -/
def Sys2Proof.Stmt.reqBytes (rs : List LaneReq) (loc : Nat → List Nat) : List Nat := rs.flatMap fun r => loc r.lane

/-- Nothing keeps memory instruction `i` from its access but its task, its peers and what it waits for there: every request reaches its
bytes, `loc l` in lane `l`, in global, host or private memory, the scratchpad or the constant segment, or bytes at a peer; no
address or datum is poisoned, each address is aligned and in bounds, no copy or MVB of the warp stands in the way, each page is
translated and permits the access, the L1 has room, and no byte, tag or word of the scratchpad is known to be uncorrectable.
`ops` are the data operands. -/
structure Sys2Proof.Stmt.Tries (i : Instr) (f : AddrForm) (acc : Nat) (fl : Bool) (ops : List Src) (o : MOp) (loc : Nat → List Nat)
    (s : State) : Prop where
  warp : (tget s.warps s.cur.warp).isSome = true
  running : s.me.stopping = none
  issues : s.me.redo = [] → Issues i s
  fresh : s.me.cont ≠ .stored
  caches : CachesWf s
  distinct : ((requests s f fl o).map LaneReq.lane).Nodup
  sound : s.me.redo = [] → ∀ l ∈ s.env.active, poisonedSpec s.env f o fl ops l = none
  bounds : boundsGate s.env.l f acc o.size.bytes (requests s f fl o) = .go
  free : ∀ r ∈ requests s f fl o, isVirt f r = true → (s.core s.me.core).copyClash s.cur.warp (vaOf r.addr) o.size.bytes = false
  plain : ∀ r ∈ requests s f fl o, cells o.size.bytes (goesTo s f acc o r) = some (loc r.lane) ∨
    ((goesTo s f acc o r).isPeer = true ∧ loc r.lane = [])
  apart : s.copyMeets s.env ((requests s f fl o).flatMap fun r =>
    Access.spans o.size.bytes { req := r, route := goesTo s f acc o r, virt := isVirt f r }) = false
  room : Room s s.me.core (reqBytes (requests s f fl o) loc)
  good : acc ≠ 1 → (s.core s.me.core).badTags = [] ∧ (∀ d ∈ s.dies, d.2.badTags = []) ∧ s.myGroup.badWords = [] ∧
    ∀ r ∈ requests s f fl o, ∀ a ∈ loc r.lane, s.bad.contains (a / 8) = false

/-- No task of the launch after `t` has read a sector that one of the requests writes (R322). -/
def Sys2Proof.Stmt.unread (s : State) (t : Task) (ls : List Nat) : Prop :=
  ∀ x ∈ s.tasksOf s.myGroup.lid, t.before x.2 = true → ∀ a ∈ ls, sectorOf a ∉ x.2.rset

/-- `i` tries its access, every peer that it needs has answered and refuses nothing, and it is not bound by a task: its warp runs none,
or one in direct mode of which no later task has read what the access writes (R322, R324). -/
structure Sys2Proof.Stmt.Reach (i : Instr) (f : AddrForm) (acc : Nat) (fl : Bool) (ops : List Src) (o : MOp) (loc : Nat → List Nat)
    (s : State) : Prop where
  tries : Tries i f acc fl ops o loc s
  answered : ∀ r ∈ requests s f fl o, (goesTo s f acc o r).isPeer = true → s.me.cont = .answered ∧
    ∃ x ∈ s.me.answers, answerTo s r = some x ∧ x.refused = none
  alone : ∀ t, s.myTask = some t → t.2.st = .direct ∧ tget s.tasks t.1 = some (s.myGroup.lid, t.2) ∧
    (acc ≠ 0 → unread s t.2 (reqBytes ((requests s f fl o).filter (isVirt f)) loc))

/-- `i` tries its access, some of its lanes reach peers that are not lost, and they have not been asked for it yet. -/
structure Sys2Proof.Stmt.Asking (i : Instr) (f : AddrForm) (acc : Nat) (fl : Bool) (ops : List Src) (o : MOp) (loc : Nat → List Nat)
    (s : State) : Prop where
  tries : Tries i f acc fl ops o loc s
  asks : s.me.cont ≠ .answered
  open_ : ∀ r ∈ requests s f fl o, answerTo s r = none ∨ ∃ x ∈ s.me.answers, answerTo s r = some x ∧ x.refused = none
  alone : ∀ t, s.myTask = some t → t.2.st = .direct
  away : ∃ r ∈ requests s f fl o, match goesTo s f acc o r with
    | .peer rank _ => (s.vi s.env.l.vi).lost.contains rank = false
    | _ => False

/-- `i` tries its access in task `tid`, which buffers: no byte is the host's or a peer's, no earlier task that has not finished has
written what a load or atomic reads (R321), the core has entries for the sectors (R324), and no later task has read what a store or
atomic writes (R322). -/
structure Sys2Proof.Stmt.Buffers (i : Instr) (f : AddrForm) (acc : Nat) (fl : Bool) (ops : List Src) (o : MOp) (loc : Nat → List Nat)
    (tid : Nat) (t : Task) (s : State) : Prop where
  tries : Tries i f acc fl ops o loc s
  task : s.myTask = some (tid, t) ∧ tget s.tasks tid = some (s.myGroup.lid, t) ∧ t.st ≠ .direct
  home : ∀ r ∈ requests s f fl o, (goesTo s f acc o r).isPeer = false ∧ ∀ a ∈ loc r.lane, a < scratchAt → isHost a = false
  parts : ∀ r ∈ requests s f fl o, ∀ q ∈ requests s f fl o, isVirt f r = true → isVirt f q = false → ∀ a ∈ loc r.lane, a ∉ loc q.lane
  ready : acc ≠ 1 → ∀ x ∈ s.tasksOf s.myGroup.lid, x.2.before t = true → x.2.st ≠ .finished →
    ∀ a ∈ reqBytes ((requests s f fl o).filter (isVirt f)) loc, sectorOf a ∉ x.2.wset
  space : let secs := ((reqBytes ((requests s f fl o).filter (isVirt f)) loc).map sectorOf).eraseDups
    s.taskRoom t (if acc = 1 then [] else secs) (if acc = 0 then [] else secs) = true
  calm : acc ≠ 0 → unread s t (reqBytes ((requests s f fl o).filter (isVirt f)) loc)

/-- What writes to memory may change in a warp that they do not belong to: its watches, its plumb monitor and whether it is woken. -/
def Sys2Proof.Stmt.still (w : Warp) : Warp := { w with watches := [], woken := false, plumb := {} }

/-- No warp but the issuing one differs, but in what `still` leaves aside; no launch, task, tile, register of a workgroup differs. -/
def Sys2Proof.Stmt.OthersStill (s u : State) : Prop :=
  (∀ id, id ≠ s.cur.warp → (tget u.warps id).map still = (tget s.warps id).map still) ∧ u.launches = s.launches ∧
  u.tasks = s.tasks ∧ u.slots = s.slots ∧ u.calls = s.calls ∧ u.cur = s.cur ∧
  ∀ g, (tget u.groups g).map (fun x => { x with scratch := [], badWords := [] }) =
    (tget s.groups g).map fun x => { x with scratch := [], badWords := [] }

/-- Register `j` of what a lane has loaded: less than 4 bytes are extended to 32 bits, by sign copies under SX (R211). -/
def Sys2Proof.Stmt.loaded (sx : Bool) (bytes : List Byte) (j : Nat) : Word :=
  let x := bitsOfBytes bytes
  match bytes.length with
  | 1 => if sx then (BitVec.ofNat 8 x).signExtend 32 else BitVec.ofNat 32 x
  | 2 => if sx then (BitVec.ofNat 16 x).signExtend 32 else BitVec.ofNat 32 x
  | _ => BitVec.ofNat 32 (x / 2 ^ (32 * j))

/-- The issuing warp, left as `x`, has a load in flight that will fill `d` and the registers after it with `vals`; they are empty
meanwhile (R97, R211). Where no lane is active nothing is in flight. `rs` are its requests. -/
def Sys2Proof.Stmt.InFlight (o : MOp) (rs : List LaneReq) (vals : List RegVal) (s : State) (x : Warp) : Prop :=
  let d := match o.dst with
    | .v n => n.toNat
    | _ => 0
  let n := max 1 (o.size.bytes / 4)
  if rs = [] then x.flight = s.me.flight ∧ x.vE = s.me.vE
  else
    x.flight = s.me.flight ++ [{ id := s.me.nextProd, vec := true, base := d, count := n, vals := vals }] ∧
    ∀ m < 256, x.vE.getLsbD m = (s.me.vE.getLsbD m || decide (d ≤ m ∧ m < d + n))

/-- The register values of what each lane has read. -/
def Sys2Proof.Stmt.valsOf (o : MOp) (sx : Bool) (ls : List Nat) (bytes : Nat → List Byte) (p : Nat → Bool) : List RegVal :=
  let d := match o.dst with
    | .v n => n.toNat
    | _ => 0
  ls.flatMap fun l => (List.range (max 1 (o.size.bytes / 4))).map fun j =>
    { key := 128 * (d + j) + l, val := loaded sx (bytes l) j, poison := p l }

/-- The task of the issuing warp, where it runs one in direct mode, has noted the sectors of `ls` in its write set; no other task differs
(R322, R324). -/
def Sys2Proof.Stmt.Noted (ls : List Nat) (s u : State) : Prop :=
  (s.myTask = none → u.tasks = s.tasks) ∧
  ∀ k, s.myTask = some k → (∀ j, j ≠ k.1 → tget u.tasks j = tget s.tasks j) ∧
    ∃ t, tget u.tasks k.1 = some (s.myGroup.lid, t) ∧ t = { k.2 with wset := t.wset } ∧
      ∀ x, x ∈ t.wset ↔ (x ∈ k.2.wset ∨ ∃ a ∈ ls, sectorOf a = x)

/-- `i` asks the peers of its lanes and is held until they answer (R211, R368): a load by read requests; one lane's store or atomic by
the access itself; those of several lanes first by reads that find out whether the peers' windows let them pass, which is the model's
choice (log entry 15). `s'` is the state before; nothing is performed. -/
def Sys2Proof.Stmt.Asks (i : Instr) (f : AddrForm) (acc : Nat) (fl : Bool) (o : MOp) (s s' : State) : Prop :=
  let rs := requests s f fl o
  let vi := s.env.l.vi
  let probe : Prop := acc ≠ 0 ∧ 2 ≤ (rs.countP fun r => (goesTo s f acc o r).isPeer) ∧ s.me.cont ≠ .probing
  ∃ u, exec i s = .next u ∧ SameMemory s' u ∧ u.groups = s'.groups ∧ u.tasks = s'.tasks ∧ u.me.status = .held .peer ∧
    u.me.pc = s.me.pc ∧ u.me.word = some s.cur ∧ (probe → u.me.cont = .probing) ∧ (¬probe → u.me.cont = .answered) ∧
    core { u.me with lastPage := s'.me.lastPage } = core s'.me ∧
    ∀ r ∈ rs, match goesTo s f acc o r with
      | .peer rank a => (s.vi vi).lost.contains rank = false → ∃ x ∈ (u.vi vi).flits, x.rank = rank ∧ x.addr = a ∧
          x.len = o.size.bytes ∧ x.nth = r.lane ∧ x.warp = some s.cur.warp ∧
          (probe ∨ acc = 0 → x.kind = .readRequest ∧ x.data = []) ∧
          (¬probe → acc = 1 → x.kind = .write ∧ x.data.take o.size.bytes = leBytes r.b.toNat o.size.bytes) ∧
          (¬probe → acc = 2 → x.kind = .atomic ∧
            x.data = leBytes r.b.toNat o.size.bytes ++ leBytes r.c.toNat o.size.bytes)
      | _ => True

/-- Where a byte of task `t` comes from (R320): its own buffer, else that of the latest finished task before it that has written the byte,
which is then a source; none for committed memory. -/
def Sys2Proof.Stmt.ComesFrom (s : State) (t : Task) (a : Nat) (x : Option (Byte × Option Nat)) : Prop :=
  let before' (e : Nat × Task) : Prop := e.2.st = .finished ∧ e.2.before t = true ∧ (tget e.2.wbuf a).isSome = true
  (∀ b, tget t.wbuf a = some b → x = some (b, none)) ∧
  (tget t.wbuf a = none → (∀ e ∈ s.tasksOf s.myGroup.lid, ¬before' e) → x = none) ∧
  (tget t.wbuf a = none → ∀ e ∈ s.tasksOf s.myGroup.lid, before' e →
    (∀ y ∈ s.tasksOf s.myGroup.lid, before' y → y ≠ e → y.2.before e.2 = true ∧ e.2.before y.2 = false) →
    x = (tget e.2.wbuf a).map fun b => (b, some e.1))

/-- Task `tid`, which was `t`, has noted reads of `rd` and writes of `wr`, and that its bytes came from the tasks' buffers; no other task
differs (R319, R320). `buf` is what its buffer holds. -/
def Sys2Proof.Stmt.Tracked (tid : Nat) (t : Task) (rd wr : List Nat) (buf : Nat → Option Byte) (s u : State) : Prop :=
  (∀ j, j ≠ tid → tget u.tasks j = tget s.tasks j) ∧
  ∃ x, tget u.tasks tid = some (s.myGroup.lid, x) ∧
    x = { t with rset := x.rset, wset := x.wset, srcs := x.srcs, wbuf := x.wbuf } ∧ (∀ a, tget x.wbuf a = buf a) ∧
    (∀ k, k ∈ x.rset ↔ (k ∈ t.rset ∨ ∃ a ∈ rd, sectorOf a = k)) ∧ (∀ k, k ∈ x.wset ↔ (k ∈ t.wset ∨ ∃ a ∈ wr, sectorOf a = k)) ∧
    ∀ k, k ∈ x.srcs ↔ (k ∈ t.srcs ∨ ∃ a ∈ rd, (s.taskByte s.myGroup.lid t a).bind Prod.snd = some k)

/-- R211, R227, R228, R97, R203, R368: a load reads the bytes of each request as its core sees them, an acquire or LDNC past the clean
bytes of the L1, or takes what its peer has answered, and puts them in flight for its registers, poisoned where another warp's
unpublished mark covers one and the load is no acquire. No byte of memory, no register and nothing of any other warp changes; the
core sees every byte as before, but what an acquire has made it forget, and the latest value of each byte that LDNC has read
(R215, R218). A load whose peers have not been asked asks them and is held until they answer (log entry 15). In a task that buffers each byte comes first from the buffers of its
own and of the finished tasks before it, which the task notes (R319, R320). -/
def Obligations.Loads : Prop :=
  ∀ (o : MOp) (s : State) (loc : Nat → List Nat),
    let acq : Prop := o.ord = .acq
    let loads (i : Instr) (f : AddrForm) (nc : Bool) : Prop :=
      let rs := requests s f false o
      let upTo (k : LaneReq) : List LaneReq := rs.take ((rs.takeWhile fun r => r.lane != k.lane).length + 1)
      let find (p : LaneReq → Bool) (k : Nat) : Bool := rs.any fun r => r.lane == k && p r
      let reads (inv : Bool) (from' : LaneReq → Nat → Option Byte) (clean : LaneReq → Bool) (u : State) : Prop :=
        let past : Nat → Byte := view (if nc then latest else if inv then acquired else sees) s
        let got (k : Nat) : List Byte := match rs.find? fun r => r.lane == k with
          | some r => if (goesTo s f 0 o r).isPeer then ((answerTo s r).map Answer.data).getD []
            else (loc k).map fun a => (from' r a).getD (past a)
          | none => []
        let fetched (r : LaneReq) : List Nat := (loc r.lane).filter fun a => (from' r a).isNone
        let poison (r : LaneReq) : Bool := clean r && isVirt f r &&
          (fetched r).any fun a => decide (a < scratchAt) && marked nc ((upTo r).flatMap fetched) s a
        u.mem = s.mem ∧ u.marks = s.marks ∧ u.groups = s.groups ∧ OthersStill s { u with tasks := s.tasks } ∧ WentOn s u.me ∧
        InFlight o rs (valsOf o (o.sub.getLsbD 0) (rs.map LaneReq.lane) got (find poison)) s u.me ∧
        (∀ a, view latest u a = view latest s a) ∧
        (∀ a, view sees u a = if nc ∧ a ∈ rs.flatMap fetched then view latest s a
          else view (if inv then acquired else sees) s a) ∧
        (∀ p : Fin 3, SlotKept s.me u.me p) ∧
        core { u.me with flight := s.me.flight, nextProd := s.me.nextProd, vE := s.me.vE, lastPage := s.me.lastPage } = core s.me
      (Reach i f 0 false [] o loc s → ∃ u, exec i s = .next u ∧ u.tasks = s.tasks ∧
        reads (decide acq && Scope.atLeastDie (MExt.scope o.ext)) (fun _ _ => none) (fun _ => decide (¬acq)) u) ∧
      (Asking i f 0 false [] o loc s → Asks i f 0 false o s s) ∧
      (∀ tid t, Buffers i f 0 false [] o loc tid t s → ∃ u, exec i s = .next u ∧
        Tracked tid t (reqBytes (rs.filter (isVirt f)) loc) [] (tget t.wbuf) s u ∧
        reads false (fun r a => if isVirt f r then (s.taskByte s.myGroup.lid t a).map Prod.fst else none) (fun _ => true) u)
    loads (.ld o) .generic false ∧ loads (.ldg o) .virtual false ∧ loads (.lds o) .scratch false ∧ loads (.ldl o) .priv false ∧
    loads (.ldc o) .const false ∧ loads (.ldnc o) .virtual true ∧
    (∀ t a, ComesFrom s t a (s.taskByte s.myGroup.lid t a))

/-- What a byte holds after stores of some bytes, the last of them standing (R197). -/
def Sys2Proof.Stmt.written (es : List (Nat × Byte)) (old : Byte) (a : Nat) : Byte :=
  es.foldl (fun b e => if e.1 = a then e.2 else b) old

/-- `u` is `s` with some bytes written at their points of coherence by an engine, a packet or an event: what every die sees of them is
new, and stands in memory; no byte of memory outside their sectors changes (R223, R228). -/
def Sys2Proof.Stmt.Put (locs : List Nat) (bytes : List Byte) (s u : State) : Prop :=
  (∀ a, shared u a = written (locs.zip bytes) (shared s a) a) ∧ (∀ a ∈ locs, u.mem.byte a = shared u a) ∧
  ∀ a, (∀ b ∈ locs, sectorOf b ≠ sectorOf a) → u.mem.byte a = s.mem.byte a

/-- No die differs but in which lines its L2 holds (R195). -/
def Sys2Proof.Stmt.SameDies (s u : State) : Prop := ∀ d, { u.die d with l2 := [] } = { s.die d with l2 := [] }

/-- Two interfaces agree in all but the counters of R415. -/
def Sys2Proof.Stmt.SameVi (x y : Vi) : Prop := { x with counters := [] } = { y with counters := [] }

/-- R197, R211, R193, R194, R298, R203, R368: a store writes the bytes of each request that reaches memory, the last lane's standing where
two meet, and its core sees them; every other byte its core sees as before. A plain store and one at .warp or .group leave memory
as it was, a release store at .die or wider, after its release, writes no byte of memory but its own; at .device or wider the warp
is held until what it wrote to another die or to the host has arrived, as part of the release, and then goes on. No register
changes, and no other warp but in what a write to the point of coherence wakes. A store whose peers have not been asked sends
them its bytes, after a question where several lanes reach peers (log entry 15). A store of a task in direct mode also enters the task's write set; one of a task that buffers goes into its buffer
and set instead, and changes no byte of memory (R319, R324). -/
def Obligations.Stores : Prop :=
  ∀ (o : MOp) (s : State) (loc : Nat → List Nat),
    let stores (i : Instr) (f : AddrForm) : Prop :=
      let rs := requests s f false o
      let bytes (r : LaneReq) : List Byte := leBytes r.b.toNat o.size.bytes
      let es (p : LaneReq → Bool) : List (Nat × Byte) := (rs.filter p).flatMap fun r => (loc r.lane).zip (bytes r)
      let all (_ : LaneReq) : Bool := true
      let through : Prop := o.ord = .rel ∧ Scope.atLeastDie (MExt.scope o.ext) = true
      let kept (s' u : State) : Prop := core { u.me with watches := s'.me.watches, lastPage := s'.me.lastPage, latch := s'.me.latch,
                                                         latchP := s'.me.latchP, latchAge := s'.me.latchAge } = core s'.me
      let after (s' : State) : Prop := ∃ u, exec i s = .next u ∧ OthersStill s' { u with tasks := s'.tasks } ∧
        Noted (reqBytes (rs.filter (isVirt f)) loc) s' u ∧
        (let away : Prop := o.ord = .rel ∧ Scope.atLeastDevice (MExt.scope o.ext) = true ∧
            ∃ r ∈ rs, isVirt f r = true ∧ ∃ a ∈ loc r.lane, isHost a = true ∨ homeDie a ≠ s.me.core / 64
         (¬away → WentOn s u.me) ∧
         (away → ∃ ids, u.me.status = .held (.release ids) ∧ u.me.cont = .stored ∧ u.me.pc = s.me.pc ∧ u.me.word = some s.cur ∧
           ids ≠ [] ∧ ∀ n ∈ ids, ∃ e ∈ (u.die (s.me.core / 64)).wbuf ++ u.hostq, e.id = n ∧
             e.sector ∈ ((es all).map Prod.fst).map sectorOf)) ∧
        (∀ a, view sees u a = written (es all) (view sees s' a) a) ∧
        (∀ a, u.mem.byte a = s'.mem.byte a ∨ (through ∧ a ∈ (es all).map Prod.fst)) ∧
        (∀ g, g ≠ s.me.gid → tget u.groups g = tget s'.groups g) ∧ (u.me.status = .ready → ∀ p : Fin 3, SlotKept s.me u.me p) ∧
        kept s' u
      (s.me.redo = [] → ∀ l ∈ s.env.active, ∀ r ∈ rs, r.lane = l → r.b = (datum s.env o false o.b l).1) ∧
      ((tget s.warps s.cur.warp).isSome = true → s.me.stopping = none → s.me.cont = .stored → Ends i s s) ∧
      (Reach i f 1 false [o.b] o loc s → (o.ord ≠ .rel → after s) ∧ (o.ord = .rel → Releasing i (MExt.scope o.ext) after s)) ∧
      (Asking i f 1 false [o.b] o loc s → (o.ord ≠ .rel → Asks i f 1 false o s s) ∧
        (o.ord = .rel → Releasing i (MExt.scope o.ext) (Asks i f 1 false o s) s)) ∧
      (∀ tid t, Buffers i f 1 false [o.b] o loc tid t s → ∃ u, exec i s = .next u ∧ u.mem = s.mem ∧ WentOn s u.me ∧
        OthersStill s { u with tasks := s.tasks } ∧
        Tracked tid t [] (reqBytes (rs.filter (isVirt f)) loc)
          (fun a => (es (isVirt f)).foldl (fun b e => if e.1 = a then some e.2 else b) (tget t.wbuf a)) s u ∧
        (∀ a, view sees u a = written (es fun r => !isVirt f r) (view sees s a) a) ∧
        (∀ g, g ≠ s.me.gid → tget u.groups g = tget s.groups g) ∧ (∀ p : Fin 3, SlotKept s.me u.me p) ∧ kept s u)
    stores (.st o) .generic ∧ stores (.stg o) .virtual ∧ stores (.sts o) .scratch ∧ stores (.stl o) .priv

/-- The bytes after atomics of some requests, in order, and the old bytes of each lane: `op` gives the new value, if any, from the old
one and the operands; `ans` is what a peer has answered for a request that it performs. -/
def Sys2Proof.Stmt.atomics (op : Nat → Nat → Nat → Option Nat) (n : Nat) (loc : Nat → List Nat) (ans : LaneReq → Option (List Byte)) :
    List LaneReq → (Nat → Byte) → (Nat → Byte) × List (Nat × List Byte)
  | [], f => (f, [])
  | r :: rs, f =>
    let old := (ans r).getD ((loc r.lane).map f)
    let num (x : BitVec 128) : Nat := x.toNat % 2 ^ (8 * n)
    let f' (a : Nat) : Byte := match ans r, op (bitsOfBytes old) (num r.b) (num r.c) with
      | none, some x => written ((loc r.lane).zip (leBytes x n)) (f a) a
      | _, _ => f a
    let y := Sys2Proof.Stmt.atomics op n loc ans rs f'
    (y.1, (r.lane, old) :: y.2)

/-- R212, R197, R223, R203, R368: an atomic replaces the bytes of each request that reaches memory, lane by lane, by the value that its
operation gives from the latest old value, and puts the old values in flight where its form returns them, for a peer's bytes
those that it has answered; AFADD rounds to nearest even. At a global or host address the new value is in memory itself; no byte of
memory outside the sectors that it touches changes after its release; no other byte changes for its core, and no register. An
atomic whose peers have not been asked asks them (log entry 15). One of a task in direct mode also enters the task's write set, a failing ACAS
too; in a task that buffers the old values come as for a load, the new ones go into its buffer, and the sectors enter both
sets (R319, R320, R324). -/
def Obligations.Atomics : Prop :=
  ∀ (o : MOp) (s : State) (loc : Nat → List Nat),
    let n := o.size.bytes
    let w := 8 * n
    let sg (x : Nat) : Int := if o.sub.getLsbD 1 then (BitVec.ofNat w x).toInt else x
    let f := if n = 8 then fmtF64 else fmtF32
    let rel : Prop := o.ord = .rel ∨ o.ord = .acqrel
    let does (i : Instr) (fl : Bool) (ops : List Src) (op : Nat → Nat → Nat → Option Nat) : Prop :=
      let rs := requests s .generic fl o
      let virt (r : LaneReq) : Bool := isVirt .generic r
      let ans (r : LaneReq) : Option (List Byte) :=
        if (goesTo s .generic 2 o r).isPeer then some (((answerTo s r).map Answer.data).getD []) else none
      let olds (r : (Nat → Byte) × List (Nat × List Byte)) (l : Nat) : List Byte := ((r.2.find? fun e => e.1 == l).map Prod.snd).getD []
      let flies (r : (Nat → Byte) × List (Nat × List Byte)) (u : State) : Prop :=
        (o.sub.getLsbD 0 = true → InFlight o rs (valsOf o false (rs.map LaneReq.lane) (olds r) fun _ => false) s u.me) ∧
        (o.sub.getLsbD 0 = false → u.me.flight = s.me.flight ∧ u.me.vE = s.me.vE)
      let kept (s' u : State) : Prop := core { u.me with flight := s'.me.flight, nextProd := s'.me.nextProd, vE := s'.me.vE,
                                                         lastPage := s'.me.lastPage, watches := s'.me.watches } = core s'.me
      let after (s' : State) : Prop :=
        (∀ r ∈ rs, ∀ a ∈ loc r.lane, view latest s' a = view sees s' a) →
        let r := atomics op n loc ans rs (view latest s')
        ∃ u, exec i s = .next u ∧ OthersStill s' { u with tasks := s'.tasks } ∧ Noted (reqBytes (rs.filter virt) loc) s' u ∧
          WentOn s u.me ∧ (∀ a, view latest u a = r.1 a) ∧
          ((∀ r ∈ rs, virt r = true) → ∀ q ∈ rs, ∀ a ∈ loc q.lane, u.mem.byte a = r.1 a) ∧
          (∀ a, (∀ q ∈ rs, ∀ b ∈ loc q.lane, sectorOf b ≠ sectorOf a) → u.mem.byte a = s'.mem.byte a) ∧
          (∀ g, g ≠ s.me.gid → tget u.groups g = tget s'.groups g) ∧ (∀ p : Fin 3, SlotKept s.me u.me p) ∧ flies r u ∧ kept s' u
      (s.me.redo = [] → ∀ l ∈ s.env.active, ∀ r ∈ rs, r.lane = l →
        r.b = (datum s.env o fl o.b l).1 ∧ r.c = (datum s.env o fl o.c l).1) ∧
      (Reach i .generic 2 fl ops o loc s → (¬rel → after s) ∧ (rel → Releasing i (MExt.scope o.ext) after s)) ∧
      (Asking i .generic 2 fl ops o loc s → (¬rel → Asks i .generic 2 fl o s s) ∧
        (rel → Releasing i (MExt.scope o.ext) (Asks i .generic 2 fl o s) s)) ∧
      (∀ tid t, Buffers i .generic 2 fl ops o loc tid t s →
        let mine := reqBytes (rs.filter virt) loc
        let start (a : Nat) : Byte := if a ∈ mine then ((s.taskByte s.myGroup.lid t a).map Prod.fst).getD (view sees s a) else view sees s a
        let r := atomics op n loc ans rs start
        let num (x : BitVec 128) : Nat := x.toNat % 2 ^ w
        let put (a : Nat) : Bool := rs.any fun q => virt q && (loc q.lane).contains a &&
          (op (bitsOfBytes (olds r q.lane)) (num q.b) (num q.c)).isSome
        ∃ u, exec i s = .next u ∧ u.mem = s.mem ∧ WentOn s u.me ∧ OthersStill s { u with tasks := s.tasks } ∧
          Tracked tid t mine mine (fun a => if put a then some (r.1 a) else tget t.wbuf a) s u ∧
          (∀ a, a ∉ mine → view sees u a = r.1 a) ∧ (∀ a ∈ mine, view sees u a = view sees s a) ∧
          (∀ g, g ≠ s.me.gid → tget u.groups g = tget s.groups g) ∧ (∀ p : Fin 3, SlotKept s.me u.me p) ∧ flies r u ∧ kept s u)
    does (.aadd o) false [o.b] (fun m b _ => some ((m + b) % 2 ^ w)) ∧
    does (.amin o) false [o.b] (fun m b _ => some (if sg b < sg m then b else m)) ∧
    does (.amax o) false [o.b] (fun m b _ => some (if sg m < sg b then b else m)) ∧
    does (.aand o) false [o.b] (fun m b _ => some (m &&& b)) ∧
    does (.aor o) false [o.b] (fun m b _ => some (m ||| b)) ∧
    does (.axor o) false [o.b] (fun m b _ => some (m ^^^ b)) ∧
    does (.axch o) false [o.b] (fun _ b _ => some b) ∧
    does (.acas o) false [o.b, o.c] (fun m b c => if m = b then some c else none) ∧
    does (.afadd o) true [o.b] (fun m b _ => some (fpAdd f .ne false m b).1)

/-- R213, R214, R320: a fence releases, then acquires, as its form says, and has no effect while its task buffers; PREFETCH of
unpoisoned addresses, where the L1 has room for their lines, changes no byte that any core sees, no register and no memory. -/
def Obligations.FencesAndPrefetch : Prop :=
  ∀ (o : MOp) (s : State),
    let sc := MExt.scope o.ext
    let c := s.env.w.core
    let direct : Prop := s.myTask = none ∨ ∃ t, s.myTask = some t ∧ t.2.st = .direct
    let fence (i : Instr) (rel acq : Bool) : Prop := Issues i s →
      let last (s' : State) : Prop := Ends i s (if acq then s'.acquireAt c sc else s')
      (¬direct → Ends i s s) ∧ (direct → rel = false → last s) ∧ (direct → rel = true → Releasing i sc last s)
    fence (.fenceAcq o) false true ∧ fence (.fenceRel o) true false ∧ fence (.fenceAcqrel o) true true ∧
    (Issues (.prefetch o) s → CachesWf s → ((s.core s.me.core).l1.map fun e => e.1 / 4).eraseDups.length + s.env.W ≤ 1024 →
      let bad (l : Nat) : Bool := (baseVal s.env .virtual o l).p
      ((∃ l ∈ s.env.active, bad l = true) → ∃ t : TrapInfo, t.code = .poisonUse ∧ t.info0 = o.a.code.setWidth 64 ∧
        (∀ l < 128, t.lanes.getLsbD l = true ↔ l ∈ s.env.active ∧ bad l = true) ∧ Traps (.prefetch o) t s) ∧
      ((∀ l ∈ s.env.active, bad l = false) → ∃ u, exec (.prefetch o) s = .next u ∧ WentOn s u.me ∧ u.mem = s.mem ∧
        u.groups = s.groups ∧ OthersStill s u ∧ core { u.me with lastPage := s.me.lastPage } = core s.me ∧
        (∀ p : Fin 3, SlotKept s.me u.me p) ∧ ∀ k a, sees u k a = sees s k a))

/-- R193, R194, R196, R226: what a release and an acquire do. After the release of a warp at .group or wider no copy carries a mark of
that warp; at .die or wider no byte of its core is dirty, at .device or wider no host write is left to its die alone, by inference (log
entry 92); every byte that its core can reach has the same latest value. After an acquire at .die or wider the core sees the latest
value of every byte outside its clean lines of private data (by inference: log entry 13 for which lines those are). -/
def Obligations.ReleaseAndAcquire : Prop :=
  ∀ (s : State) (id c : Nat) (sc : Scope), CachesWf s →
    let r := s.releaseAt id c sc
    let a := s.acquireAt c sc
    let unmarked (m : Option Mark) : Prop := ∀ k, m = some k → k.warp ≠ id
    CachesWf r ∧ CachesWf a ∧ (∀ x, latest r c x = latest s c x) ∧ (∀ x, latest a c x = latest s c x) ∧ a.mem = s.mem ∧
    (sc ≠ .warp → (∀ k sec, unmarked ((r.core k).sector sec).mark) ∧ (∀ sec, unmarked (tget r.marks sec)) ∧
      (∀ e ∈ r.hostq, unmarked e.mark) ∧ ∀ d, ∀ e ∈ (r.die d).wbuf, unmarked e.mark) ∧
    (Scope.atLeastDevice sc = true → ∀ e ∈ (r.die (c / 64)).wbuf, isHost (32 * e.sector) = false) ∧
    (Scope.atLeastDie sc = true → (∀ sec, ((r.core c).sector sec).dirty = 0) ∧ ∀ x, sees a c x = acquired s c x)

/-- R211, R140, R188, R191: before a load, store or atomic touches memory, a poisoned address or datum, then a misaligned address,
one outside every aperture that the form reaches, one outside the scratchpad, and one outside the private or constant
segment raise their traps, with the lanes that fail in LANES (for a poisoned scalar address by inference: log entry 66); nothing else
happens. -/
def Obligations.MemoryTraps : Prop :=
  ∀ (o : MOp) (s : State),
    let n := o.size.bytes
    let traps (i : Instr) (f : AddrForm) (acc : Nat) (fl : Bool) (ops : List Src) : Prop :=
      Issues i s → s.me.redo = [] → s.me.cont ≠ .stored →
      let addr (l : Nat) : DWord := laneAddr s.env f o l
      let spot (l : Nat) : Spot := formSpot f (addr l)
      let some' (p : Nat → Prop) : Prop := ∃ l ∈ s.env.active, p l
      let none' (p : Nat → Prop) : Prop := ∀ l ∈ s.env.active, ¬p l
      let poison (l : Nat) : Prop := poisonedSpec s.env f o fl ops l ≠ none
      let mis (l : Nat) : Prop := (addr l).toNat % n ≠ 0
      let out (l : Nat) : Prop := spot l = .outside ∨ (acc ≠ 0 ∧ ∃ k, spot l = .const k)
      let scr (l : Nat) : Prop := ∃ k, spot l = .scratch k ∧ s.env.l.scratch * 16384 < k + n
      let bnd (l : Nat) : Prop := ∃ k, (spot l = .priv k ∧ s.env.l.privP < k + n) ∨ (spot l = .const k ∧ s.env.l.constSize < k + n)
      let raises (c : TrapCode) (p : Nat → Prop) (info1 : DWord) : Prop := ∃ t : TrapInfo, t.code = c ∧
        (c ≠ .poisonUse → t.info1 = info1) ∧ (∀ l < 128, t.lanes.getLsbD l = true ↔ l ∈ s.env.active ∧ p l) ∧
        (c = .misaligned ∨ c = .protection → ∃ l ∈ s.env.active, p l ∧ t.info0 = addr l ∧ ∀ k ∈ s.env.active, p k → l ≤ k) ∧
        exec i s = .next (takeTrap t (s.setMe { s.me with answers := [], cont := .none }))
      (some' poison → raises .poisonUse poison 0) ∧
      (none' poison → some' mis → raises .misaligned mis 0) ∧
      (none' poison → none' mis → some' out → raises .protection out (BitVec.ofNat 64 (acc + 2048))) ∧
      (none' poison → none' mis → none' out → some' scr → raises .scratchBounds scr (BitVec.ofNat 64 s.env.l.scratchBytes)) ∧
      (none' poison → none' mis → none' out → none' scr → some' bnd → raises .protection bnd (BitVec.ofNat 64 (acc + 2048)))
    traps (.ld o) .generic 0 false [] ∧ traps (.ldg o) .virtual 0 false [] ∧ traps (.lds o) .scratch 0 false [] ∧
    traps (.ldl o) .priv 0 false [] ∧ traps (.ldc o) .const 0 false [] ∧ traps (.ldnc o) .virtual 0 false [] ∧
    traps (.st o) .generic 1 false [o.b] ∧ traps (.stg o) .virtual 1 false [o.b] ∧ traps (.sts o) .scratch 1 false [o.b] ∧
    traps (.stl o) .priv 1 false [o.b] ∧ traps (.aadd o) .generic 2 false [o.b] ∧ traps (.amin o) .generic 2 false [o.b] ∧
    traps (.amax o) .generic 2 false [o.b] ∧ traps (.aand o) .generic 2 false [o.b] ∧ traps (.aor o) .generic 2 false [o.b] ∧
    traps (.axor o) .generic 2 false [o.b] ∧ traps (.axch o) .generic 2 false [o.b] ∧ traps (.acas o) .generic 2 false [o.b, o.c] ∧
    traps (.afadd o) .generic 2 true [o.b]

/-! ## The matrix engine -/

/-- Instruction `i` of the issuing warp breaks no rule of the format; its operands and tiles are another matter. -/
structure Sys2Proof.Stmt.Formed (i : Instr) (s : State) : Prop where
  warp : (tget s.warps s.cur.warp).isSome = true
  running : s.me.stopping = none
  width : s.env.W = 32 ∨ s.env.W = 64 ∨ s.env.W = 128
  clear : ∃ r f, i.raw? = some r ∧ formatCheck s.env.ctx r = none ∧ formOf s.env.W r = some f

/-- Tile `t` of the issuing workgroup is READY. -/
def Sys2Proof.Stmt.IsReady (s : State) (t : Nat) : Prop := ∃ x, tget s.myGroup.tiles t = some x ∧ x.st = .ready

/-- The issuing warp goes on, its registers and flags as they were, and beside it only the core, workgroup and launch of the warp
differ: they become `k`, `g` and `l`. `mvbs` counts the commands that the package has numbered for its stacks (R251). -/
def Sys2Proof.Stmt.Accepts (i : Instr) (s : State) (k : Core) (g : Group) (l : Launch) (mvbs : Nat := 0) : Prop :=
  ∃ u, exec i s = .next u ∧ WentOn s u.me ∧ core u.me = core s.me ∧ (∀ p : Fin 3, SlotKept s.me u.me p) ∧
    u = { s with warps := u.warps, cores := u.cores, groups := u.groups, launches := u.launches, nextMvb := s.nextMvb + mvbs } ∧
    (∀ id, id ≠ s.cur.warp → tget u.warps id = tget s.warps id) ∧
    (u.core s.me.core = k ∧ ∀ c, c ≠ s.me.core → u.core c = s.core c) ∧
    (u.myGroup = g ∧ ∀ c, c ≠ s.me.gid → u.group c = s.group c) ∧
    u.myLaunch = l ∧ ∀ c, c ≠ s.myGroup.lid → u.launchOf c = s.launchOf c

/-- The same for an instruction that puts values in flight for `n` vector registers from `d`, which are empty until then (R97). -/
def Sys2Proof.Stmt.AcceptsFor (i : Instr) (s : State) (d n : Nat) (vals : List RegVal) (engine : Bool) (k : Core)
    (mvbs : Nat := 0) : Prop :=
  ∃ u, exec i s = .next u ∧ WentOn s u.me ∧ (∀ p : Fin 3, SlotKept s.me u.me p) ∧
    core { u.me with flight := s.me.flight, nextProd := s.me.nextProd, vE := s.me.vE } = core s.me ∧
    u.me.flight = s.me.flight ++ [{ id := s.me.nextProd, vec := true, base := d, count := n, vals := vals, engine := engine }] ∧
    (∀ m < 256, u.me.vE.getLsbD m = (s.me.vE.getLsbD m || decide (d ≤ m ∧ m < d + n))) ∧
    u = { s with warps := u.warps, cores := u.cores, nextMvb := s.nextMvb + mvbs } ∧
    (∀ id, id ≠ s.cur.warp → tget u.warps id = tget s.warps id) ∧ u.core s.me.core = k ∧ ∀ c, c ≠ s.me.core → u.core c = s.core c

/-- The core of the issuing warp with one more command of its matrix engine, whose common fields are filled in (R242, R243). -/
def Sys2Proof.Stmt.withMat (s : State) (c : MatCmd) : Core :=
  let e := s.env
  let k := s.core e.w.core
  { k with matq := k.matq ++ [{ c with id := k.nextCmd, warp := s.cur.warp, gid := e.w.gid, exec := e.w.exec,
                                       wid := e.l.wid e.g e.w.f1 0, slot := e.w.slot, pc := e.w.pc, len := s.cur.len }],
           nextCmd := k.nextCmd + 1 }

/-- FORMAT_COMBINATION (R258). -/
def Sys2Proof.Stmt.badFormat (fa fb af idx cause : Nat) : TrapInfo :=
  { code := .formatCombination, info0 := BitVec.ofNat 64 (fa + 0x100 * fb + 0x10000 * af + 0x1000000 * idx),
    info1 := BitVec.ofNat 64 cause }

/-- ILLEGAL_INSTRUCTION with the word in INFO0 and INFO1. -/
def Sys2Proof.Stmt.illegal (s : State) : TrapInfo :=
  { code := .illegalInstruction, info0 := s.cur.bits.extractLsb' 0 64, info1 := s.cur.bits.extractLsb' 64 64 }

/-- ILLEGAL_CONVERGENCE with EXEC in INFO0 and INFO1 (R247). -/
def Sys2Proof.Stmt.unevenLanes (s : State) : TrapInfo :=
  { code := .illegalConvergence, info0 := s.me.exec.extractLsb' 0 64, info1 := s.me.exec.extractLsb' 64 64 }

/-- SCRATCH_BOUNDS with what lies beyond in INFO0 and the allocation's bytes in INFO1 (R191, R279). -/
def Sys2Proof.Stmt.beyond (s : State) (x : Nat) : TrapInfo :=
  { code := .scratchBounds, info0 := BitVec.ofNat 64 x, info1 := BitVec.ofNat 64 s.env.l.scratchBytes }

/-- R242, R243, R251, R258, R268, R273, R279, R108: an instruction of the matrix or copy engine waits, nothing changing, while its queue is
full, and one that retags an accumulator tile while an accepted command uses its slots (that the instruction itself waits is an
inference: log entry 16); then a tile that it names and the workgroup has not defined raises TILE_UNDEFINED with its index; then it
waits while one of its tiles is not READY, and while a command reads the tile that it is to overwrite. -/
def Obligations.EngineWaits : Prop :=
  ∀ (o : EOp) (s : State),
    let a := tileAOf o
    let b := tileBOf o
    let k := s.core s.me.core
    let mat : Prop := 8 ≤ k.matq.length + k.mvbs.length
    let f := AccFmt.ofAf (o.fn.extractLsb' 5 2).toNat
    let n := (EOp.fr o).acc.toNat
    let used : Prop := ∃ c ∈ k.matq, c.gid = s.me.gid ∧ c.acc < n + accSlots f ∧ n < c.acc + accSlots c.fmt
    let copies : Prop := 16 ≤ k.copyq.length
    let stack : Prop := 64 ≤ s.mvbOn (Desc.home (s.env.l.tid (tidOf o)))
    let reads (t : Nat) : Prop := s.tileRead s.me.gid t = true
    let waits (i : Instr) (full : Prop) (ts : List Nat) (busy : Prop) : Prop := Formed i s →
      (full → exec i s = .next s) ∧
      (¬full → ∀ j (hj : j < ts.length), tget s.myGroup.tiles ts[j] = none → (∀ m (_ : m < j) (hm : m < ts.length),
        tget s.myGroup.tiles ts[m] ≠ none) → Traps i { code := .tileUndefined, info0 := BitVec.ofNat 64 ts[j] } s) ∧
      (¬full → (∀ t ∈ ts, tget s.myGroup.tiles t ≠ none) → (∃ t ∈ ts, ¬IsReady s t) → exec i s = .next s) ∧
      (¬full → (∀ t ∈ ts, IsReady s t) → busy → exec i s = .next s)
    waits (.mmat o) mat [a, b] False ∧ waits (.mvb o) (mat ∨ stack) [a] False ∧
    waits (.mvbTile o) (mat ∨ stack) [a, b] (reads b) ∧ waits (.accz o) (mat ∨ used) [] False ∧ waits (.accld o) (mat ∨ used) [a] False ∧
    waits (.mmar o) mat [] False ∧
    waits (.accst o) mat [a] (reads a) ∧ waits (.accrd o) (s.me.exec ≠ 0 ∧ mat) [] False ∧
    waits (.cpin o) copies [a] (reads a) ∧ waits (.cpout o) copies [a] (reads a) ∧ waits (.tlwait o) False [a] False

/-- R246, R258, R242, R256: MMAT checks, in order, that its tiles' TIDs are set, its shapes, sub-tile and accumulator tile, the
formats, their K and the accumulator's tags; then the engine accepts it, with what it captured, the core counts it where
the product is not fused, and every 2^L-th count is to be checked. That INFO0 names the TID for cause 2 and else the tile is an
inference (log entry 64). -/
def Obligations.MatrixMultiply : Prop :=
  ∀ (o : EOp) (s : State), Issues (.mmat o) s → (s.core s.me.core).matq.length + (s.core s.me.core).mvbs.length < 8 →
    IsReady s (tileAOf o) → IsReady s (tileBOf o) →
    let e := s.env
    let a := tileAOf o
    let b := tileBOf o
    let da := e.tileDesc a
    let db := e.tileDesc b
    let af := (o.fn.extractLsb' 5 2).toNat
    let f := AccFmt.ofAf af
    let n := (EOp.fr o).acc.toNat
    let bad (idx cause : Nat) : Prop := Traps (.mmat o) (badFormat da.fmt db.fmt af idx cause) s
    let dim (x : Nat) : Prop := x = 16 ∨ x = 32 ∨ x = 64
    let shape : Prop := dim (tileRows da) ∧ dim (tileRows db) ∧ 16 * roOf o + tileRows da ≤ 64 ∧ 16 * coOf o + tileRows db ≤ 64 ∧
      n % accSlots f = 0 ∧ n + accSlots f ≤ min 32 (2 * e.l.acc)
    let counted : Bool := !mfFused da.fmt
    let c := sget 0 e.l.chkCount e.w.core + 1
    let checked : Prop := counted = true ∧ e.l.check.l ≠ 0 ∧ c % 2 ^ e.l.check.l = 0
    let cmd : MatCmd := { id := 0, warp := 0, gid := 0, kind := .mmat, fmt := f, acc := n, ro := roOf o, co := coOf o,
                          za := o.fn.getLsbD 4, tileA := some a, tileB := some b, offA := (e.tile a).off,
                          offB := (e.tile b).off, descA := da, descB := db, count := c,
                          check := if checked then e.l.check else {} }
    (da.unset = true → bad (e.tile a).tid 2) ∧
    (da.unset = false → db.unset = true → bad (e.tile b).tid 2) ∧
    (da.unset = false → db.unset = false →
      (¬shape → Traps (.mmat o) (illegal s) s) ∧
      (shape → tripleK da.fmt db.fmt af = none → bad a 0) ∧
      (shape → ∀ k, tripleK da.fmt db.fmt af = some k →
        (tileCols da ≠ k ∨ tileCols db ≠ k → bad a 3) ∧
        (tileCols da = k → tileCols db = k → e.g.tagged f n = false → bad a 1) ∧
        (tileCols da = k → tileCols db = k → e.g.tagged f n = true →
          Accepts (.mmat o) s (withMat s cmd) e.g (if counted then { e.l with chkCount := sset 0 e.l.chkCount e.w.core c } else e.l))))

/-- R247, R258: MMAR raises ILLEGAL_CONVERGENCE unless every lane is active, FORMAT_COMBINATION cause 2 where its TID is unset and cause 0
where its format is none of MMAR's; otherwise it puts in flight, for registers 0 to 7 of each lane, the elements of its
group's product plus C, poisoned where a source register of the group is. -/
def Obligations.LaneMatrix : Prop :=
  ∀ (o : EOp) (s : State), Issues (.mmar o) s → (s.core s.me.core).matq.length + (s.core s.me.core).mvbs.length < 8 →
    let e := s.env
    let d := e.l.tid (tidOf o)
    let all : Prop := s.me.exec = allLanes e.W
    let bad (cause : Nat) : Prop := Traps (.mmar o) (badFormat d.fmt d.fmt 0 (tidOf o) cause) s
    let num : Src → Nat := fun
      | .v m => m.toNat
      | _ => 0
    let mc : Option Nat := match o.c with
      | .v m => some m.toNat
      | _ => none
    (¬all → Traps (.mmar o) (unevenLanes s) s) ∧
    (all → d.unset = true → bad 2) ∧
    (all → d.unset = false → mmarK d.fmt = none → bad 0) ∧
    (all → d.unset = false → ∀ k, mmarK d.fmt = some k → AcceptsFor (.mmar o) s (num o.dst) 8
      ((List.range e.W).flatMap fun l => (List.range 8).map fun i =>
        { key := 128 * (num o.dst + i) + l, val := mmarElem e.w d k (num o.a) (num o.b) mc (l / 32) (l % 16) (8 * (l % 32 / 16) + i),
          poison := mmarPoison e.w (num o.a) (num o.b) mc (l / 32) })
      false (s.core s.me.core))

/-- R249, R250, R251, R258: MVB raises FORMAT_COMBINATION cause 2 where a TID is unset and cause 0 where B is no matrix on one stack, the
formats do not combine or the tile's format is not F32, POISON_USE where its row is poisoned; it waits for an earlier copy of its
warp that meets its rows, under whatever virtual address (log entry 128), and for a suspended MVB that does; where the pages of B's rows are translated
to B's stack, the stack accepts it, and its register becomes empty or its tile FILLING. Which TID or tile INFO0 names for each cause is
an inference (log entry 64). -/
def Obligations.MatrixVector : Prop :=
  ∀ (o : EOp) (s : State), (s.core s.me.core).matq.length + (s.core s.me.core).mvbs.length < 8 → IsReady s (tileAOf o) →
    let e := s.env
    let x := tileAOf o
    let y := tileBOf o
    let d := e.l.tid (tidOf o)
    let dx := e.tileDesc x
    let dy := e.tileDesc y
    let row := scalarVal e .n32 o.a
    let r0 := count row
    let k := s.core e.w.core
    let mvb (i : Instr) (rd : Bool) : Prop := Issues i s → s.mvbOn d.home < 64 → (rd = false → IsReady s y) →
      (rd = false → s.tileRead s.me.gid y = false) →
      let unset : Prop := d.unset = true ∨ dx.unset = true ∨ (rd = false ∧ dy.unset = true)
      let which : Nat := if d.unset then tidOf o else if dx.unset then (e.tile x).tid else (e.tile y).tid
      let ok : Prop := d.rank = 2 ∧ d.home ≤ 15 ∧ tripleK d.fmt dx.fmt 0 ≠ none ∧ (rd = false → dy.fmt = 1)
      let bad (idx cause : Nat) : Prop := Traps i (badFormat dx.fmt d.fmt 0 idx cause) s
      let bytes := mfRow d.fmt (d.ext 0)
      let clash (n : Nat) : Prop := ∃ a ∈ mvbRows d r0 n, k.copyClash s.cur.warp (vaOf a) bytes = true
      let n := if rd then e.W else tileRows dy * tileCols dy
      (unset → bad which 2) ∧ (¬unset → ¬ok → bad (tidOf o) 0) ∧
      (¬unset → ok → row.p = true → Traps i { code := .poisonUse, info0 := o.a.code.setWidth 64 } s) ∧
      (¬unset → ok → row.p = false → clash n → exec i s = .next s) ∧
      (¬unset → ok → row.p = false → ¬clash n → ∀ xs, mvbPages s e d.home bytes (mvbRows d r0 n) = .ok xs →
        let c : MvbCmd := { id := k.nextCmd, warp := s.cur.warp, gid := e.w.gid, home := d.home, desc := d, row0 := r0, rd := rd,
                            prod := s.me.nextProd, yTile := y, yOff := (e.tile y).off, yRows := if rd then 0 else n, xTile := x,
                            xOff := (e.tile x).off, xDesc := dx, yDesc := dy, seq := s.nextMvb, exec := e.w.exec, pages := xs,
                            slot := e.w.slot, pc := e.w.pc, len := s.cur.len }
        let k' : Core := { k with mvbs := k.mvbs ++ [c], nextCmd := k.nextCmd + 1 }
        let meets : Prop := s.copyqMeets e (c.spans n) = true ∨ s.mvbsMeet e MvbCmd.suspended (c.spans n) = true
        (meets → exec i s = .next s) ∧
        (¬meets → if rd then ∀ m, o.dst = .v m → AcceptsFor i s m.toNat 1 [] true k' 1
          else Accepts i s k' { e.g with tiles := tput e.g.tiles y { e.tile y with st := .filling } } e.l 1))
    mvb (.mvb o) true ∧ mvb (.mvbTile o) false

/-- R252, R253, R237, R238, R243, R258: ACCZ and ACCLD, once no accepted command uses the slots of their tile (by inference: log entry
16), give them its tags and are accepted; ACCST is accepted for a tagged tile and its tile becomes FILLING; ACCRD is accepted for the
tile that a slot heads and its registers become empty, or with EXEC all zero goes on. What the entries forbid raises their traps in the
order of the rules, INFO0 and the formats of INFO1 by inference (log entry 64). -/
def Obligations.AccumulatorMoves : Prop :=
  ∀ (o : EOp) (s : State), (s.core s.me.core).matq.length + (s.core s.me.core).mvbs.length < 8 →
    let e := s.env
    let t := tileAOf o
    let d := e.tileDesc t
    let af := (o.fn.extractLsb' 5 2).toNat
    let f := AccFmt.ofAf af
    let n := (EOp.fr o).acc.toNat
    let slot : Prop := n % accSlots f = 0 ∧ n + accSlots f ≤ min 32 (2 * e.l.acc)
    let square : Prop := tileRows d = 64 ∧ tileCols d = 64
    let bad (i : Instr) (cause : Nat) : Prop := Traps i (badFormat d.fmt 0 af (e.tile t).tid cause) s
    let ill (i : Instr) : Prop := Traps i (illegal s) s
    let cmd (kind : MatKind) : MatCmd := { id := 0, warp := 0, gid := 0, kind := kind, fmt := f, acc := n }
    let retags (g : Group) : Prop := g = { e.g with tags := g.tags } ∧ g.tagged f n = true ∧
      ∀ j, (j < n ∨ n + accSlots f ≤ j) → g.tag j = e.g.tag j ∨ g.tag j = .unset
    let fits (c : Nat) : Prop := if f = .f64 then c = 0 else (1 ≤ c ∧ c ≤ 5) ∨ (mfSe c).isSome = true
    let free : Prop := ∀ c ∈ (s.core s.me.core).matq, c.gid = s.me.gid → n + accSlots f ≤ c.acc ∨ c.acc + accSlots c.fmt ≤ n
    let sat : Bool := o.fn.getLsbD 4
    let satBad : Prop := sat = true ∧ d.fmt ≠ 4 ∧ d.fmt ≠ 5
    (Issues (.accz o) s → free → (¬slot → ill (.accz o)) ∧
      (slot → ∃ g, retags g ∧ Accepts (.accz o) s (withMat s (cmd .accz)) g e.l)) ∧
    (Issues (.accld o) s → free → IsReady s t →
      (d.unset = true → bad (.accld o) 2) ∧ (d.unset = false → ¬slot → ill (.accld o)) ∧
      (d.unset = false → slot → ¬square → bad (.accld o) 4) ∧
      (d.unset = false → slot → square → d.fmt ≠ accCode f → bad (.accld o) 0) ∧
      (d.unset = false → slot → square → d.fmt = accCode f → ∃ g, retags g ∧
        Accepts (.accld o) s (withMat s { cmd .accld with tileA := some t, offA := (e.tile t).off, descA := d }) g e.l)) ∧
    (Issues (.accst o) s → IsReady s t → s.tileRead s.me.gid t = false →
      (d.unset = true → bad (.accst o) 2) ∧ (d.unset = false → ¬slot ∨ satBad → ill (.accst o)) ∧
      (d.unset = false → slot → ¬satBad → ¬square → bad (.accst o) 4) ∧
      (d.unset = false → slot → ¬satBad → square → ¬fits d.fmt → bad (.accst o) 0) ∧
      (d.unset = false → slot → ¬satBad → square → fits d.fmt → e.g.tagged f n = false → bad (.accst o) 1) ∧
      (d.unset = false → slot → ¬satBad → square → fits d.fmt → e.g.tagged f n = true →
        Accepts (.accst o) s (withMat s { cmd .accst with sat := sat, tileA := some t, offA := (e.tile t).off, descA := d })
          { e.g with tiles := tput e.g.tiles t { e.tile t with st := .filling } } e.l)) ∧
    (Issues (.accrd o) s →
      let wrong (cause : Nat) : Prop := Traps (.accrd o) (badFormat 0 0 0 n cause) s
      (min 32 (2 * e.l.acc) ≤ n → ill (.accrd o)) ∧
      (n < min 32 (2 * e.l.acc) → e.g.tag n = .head .f64 → wrong 0) ∧
      (n < min 32 (2 * e.l.acc) → (∀ h, e.g.tag n ≠ .head h) → wrong 1) ∧
      (n < min 32 (2 * e.l.acc) → ∀ h, e.g.tag n = .head h → h ≠ .f64 →
        (e.g.tagged h n = false → wrong 1) ∧
        (e.g.tagged h n = true → s.me.exec = 0 → Ends (.accrd o) s s) ∧
        (e.g.tagged h n = true → s.me.exec ≠ 0 → ∀ m, o.dst = .v m → AcceptsFor (.accrd o) s m.toNat 8 [] true
          (withMat s { cmd .accrd with fmt := h, ro := roOf o, co := coOf o, prod := s.me.nextProd }))))

/-- R254, R255, R256: TIDSET of a warp that runs no task waits for an earlier copy or MVB of its warp that meets its bytes (log entry 128), and
is held for TIDSET_COMPLETE once its address is unpoisoned, aligned and reachable; TIDGET writes the four words of quarter Q of its TID,
unpoisoned; CHKCFG sets the check configuration of its launch and clears the cores' counts. -/
def Obligations.TensorDescriptors : Prop :=
  ∀ (o : EOp) (s : State), s.myTask = none →
    let e := s.env
    let a : Val := match o.a with
      | .s n => e.w.sval n.toNat 2
      | _ => {}
    let off := a.bits.toNat % 2 ^ 32
    let clash : Prop := (s.core s.me.core).copyClash s.cur.warp (vaOf a.bits) 128 = true
    let meets : Prop := s.copyMeets e (descSpans (descRoutes s e a.bits)) = true
    let holds (x : Held) (c : Cont) : Prop := exec (.tidset o) s =
      .next (s.setMe { s.me with status := .held x, cont := c, word := some s.cur, elig := 0, overdue := false })
    let d : BitVec 1024 := e.l.tid (tidOf o)
    let q := ((EOp.auxBits o).extractLsb' 0 3).toNat
    let b := scalarVal e .n32 o.b
    let l := ((EOp.auxBits o).extractLsb' 0 5).toNat
    let ring (n : Nat) : Prop := ∃ j, 4 ≤ j ∧ j ≤ 20 ∧ n = 2 ^ j
    (Issues (.tidset o) s →
      (a.p = true → Traps (.tidset o) { code := .poisonUse, info0 := o.a.code.setWidth 64 } s) ∧
      (a.p = false → a.bits.toNat % 16 ≠ 0 → Traps (.tidset o) { code := .misaligned, info0 := a.bits } s) ∧
      (a.p = false → a.bits.toNat % 16 = 0 → ∀ k, spotOf a.bits = .scratch k →
        (off + 128 ≤ e.l.scratchBytes → holds (.tidset off true) .none) ∧
        (e.l.scratchBytes < off + 128 → Traps (.tidset o) (beyond s off) s)) ∧
      (a.p = false → a.bits.toNat % 16 = 0 → spotOf a.bits = .virt → clash → exec (.tidset o) s = .next s) ∧
      (a.p = false → a.bits.toNat % 16 = 0 → spotOf a.bits = .virt → ¬clash → s.me.answers = [] →
        (∀ r ∈ descRoutes s e a.bits, ∃ ls, r = .cells ls) → meets → exec (.tidset o) s = .next s) ∧
      (a.p = false → a.bits.toNat % 16 = 0 → spotOf a.bits = .virt → ¬clash → s.me.answers = [] →
        (∀ r ∈ descRoutes s e a.bits, ∃ ls, r = .cells ls) → ¬meets → holds (.tidset a.bits.toNat false) s.me.cont) ∧
      (a.p = false → a.bits.toNat % 16 = 0 → (spotOf a.bits = .outside ∨ ∃ k, spotOf a.bits = .priv k ∨ spotOf a.bits = .const k) →
        Traps (.tidset o) { code := .protection, info0 := a.bits, info1 := 2048 } s)) ∧
    (Issues (.tidget o) s → ∀ m, o.dst = .s m → Completes (.tidget o) s fun x =>
      core { x with s := s.me.s, sP := s.me.sP } = core s.me ∧ (∀ p : Fin 3, SlotKept s.me x p) ∧
      (∀ j < 4, x.sreg (m.toNat + j) = d.extractLsb' (128 * q + 32 * j) 32 ∧ x.sP.getLsbD (m.toNat + j) = false) ∧
      ∀ j, (j < m.toNat ∨ m.toNat + 4 ≤ j) → SameS s.me x j) ∧
    (Issues (.chkcfg o) s →
      let legal : Prop := l = 0 ∨ (4 ≤ l ∧ l ≤ 16 ∧ ring (count b))
      (¬legal → Traps (.chkcfg o) (illegal s) s) ∧
      (legal → a.p = true → Traps (.chkcfg o) { code := .poisonUse, info0 := o.a.code.setWidth 64 } s) ∧
      (legal → a.p = false → l ≠ 0 → b.p = true → Traps (.chkcfg o) { code := .poisonUse, info0 := o.b.code.setWidth 64 } s) ∧
      (legal → a.p = false → (l ≠ 0 → b.p = false) → a.bits.toNat % 64 ≠ 0 →
        Traps (.chkcfg o) { code := .misaligned, info0 := a.bits } s) ∧
      (legal → a.p = false → (l ≠ 0 → b.p = false) → a.bits.toNat % 64 = 0 →
        Accepts (.chkcfg o) s (s.core s.me.core) e.g { e.l with
          check := { l := l, base := a.bits, size := if l = 0 then 16 else count b }, chkCount := [] }))

/-! ## Tiles, copies and phase barriers -/

/-- R269 to R273, R279: CPIN and CPOUT check their descriptor by the conditions of R270, the formats, poison and the phase barrier, in that
order; then the copy engine accepts the copy with what it captured, and its tile becomes FILLING or DRAINING. Which descriptor
failure is named first, and that an unset tensor TID gives no rank and an unset tile TID no rows, so that FORMAT_COMBINATION with
cause 2 comes of them although R279 lists ILLEGAL_INSTRUCTION first, is the model's choice (log entry 70). -/
def Obligations.Copies : Prop :=
  ∀ (o : EOp) (s : State), (s.core s.me.core).copyq.length < 16 → IsReady s (tileAOf o) → s.tileRead s.me.gid (tileAOf o) = false →
    let e := s.env
    let t := tileAOf o
    let d := sNumber o.a
    let regs := (List.range 16).map fun j => e.w.sreg (d + j)
    let tensor := e.l.tid (tidOf o)
    let tile := e.tileDesc t
    let pb := 8 * (EOp.fr o).pb.toNat
    let copy (i : Instr) (out : Bool) : Prop := Issues i s →
      let k := s.core e.w.core
      let word (m : Nat) : Nat := (e.w.sreg (d + m)).toNat
      let dim (j : Nat) : Nat := word (9 + j) / 0x1000 % 16
      let sum : Nat := ((List.range 5).map fun j => if dim j = 0 then 0 else word (9 + j) % 0x1000 * (word (9 + j) / 0x10000 % 256)).sum
      let o0 : Int := (e.w.sreg d).toInt
      let reserved : Prop := word 14 ≠ 0 ∨ word 15 ≠ 0
      let level (j : Nat) : Prop := if dim j = 0 then word (9 + j) ≠ 0 else (tensor.unset = false ∧ tensor.rank ≤ dim j) ∨ 8 < dim j
      let levels' : Prop := ∃ j < 5, level j
      let rows : Prop := tile.unset = false ∧ tileRows tile ≤ sum
      let skew : Prop := ((mfSe tensor.fmt).isSome = true ∧ o0 % 16 ≠ 0) ∨ o0 * (mfBits tensor.fmt : Int) % 8 ≠ 0
      let ill (x y : Nat) : Prop := Traps i { code := .illegalInstruction, info0 := BitVec.ofNat 64 x, info1 := BitVec.ofNat 64 y } s
      let good : Prop := ¬reserved ∧ ¬levels' ∧ ¬rows ∧ ¬skew
      let unset : Prop := tensor.unset = true ∨ tile.unset = true
      let c : CopyCmd := { id := k.nextCmd, warp := s.cur.warp, slot := e.w.slot, gid := e.w.gid, out := out, keep := o.fn.getLsbD 6,
                           tile := t, off := (e.tile t).off, tensor := tensor, tdesc := tile, regs := regs,
                           pb := if (EOp.fr o).pbv then some pb else none, pc := e.w.pc, len := s.cur.len }
      (word 14 ≠ 0 → ill (d + 14) (word 14)) ∧ (word 14 = 0 → word 15 ≠ 0 → ill (d + 15) (word 15)) ∧
      (¬reserved → ∀ j < 5, level j → (∀ m < j, ¬level m) → ill (d + 9 + j) (word (9 + j))) ∧
      (¬reserved → ¬levels' → rows → ∀ j < 5, dim j ≠ 0 → (∀ m < 5, j < m → dim m = 0) → ill (d + 9 + j) sum) ∧
      (¬reserved → ¬levels' → ¬rows → skew → ill d (word 0)) ∧
      (good → unset ∨ tensor.fmt ≠ tile.fmt →
        Traps i { code := .formatCombination, info0 := BitVec.ofNat 64 (tensor.fmt + 0x100 * tile.fmt + 0x1000000 * tidOf o),
                  info1 := if unset then 2 else 0 } s) ∧
      (good → ¬unset → tensor.fmt = tile.fmt →
        (∀ j < 16, e.w.sP.getLsbD (d + j) = true → (∀ m < j, e.w.sP.getLsbD (d + m) = false) →
          Traps i { code := .poisonUse, info0 := BitVec.ofNat 64 (0x300 + d + j) } s) ∧
        ((∀ j < 16, e.w.sP.getLsbD (d + j) = false) →
          ((EOp.fr o).pbv = true → e.l.scratchBytes < pb + 8 →
            Traps i (beyond s (pb + 8)) s) ∧
          (((EOp.fr o).pbv = true → pb + 8 ≤ e.l.scratchBytes) →
            Accepts i s { k with copyq := k.copyq ++ [c], nextCmd := k.nextCmd + 1 }
              { e.g with tiles := tput e.g.tiles t { e.tile t with st := if out then .draining else .filling } } e.l)))
    copy (.cpin o) false ∧ copy (.cpout o) true

/-- R265 to R268, R262: TLDEF checks rank, TID, poison, alignment and bounds, waits while its entry moves or is used, releases at .group
and makes the entry READY at its offset; TLWAIT of a READY tile acquires and goes on; TLFREE empties an entry that nothing
moves or reads; TLSTATE writes offset, TID, whether a command reads, and state, 0 for an empty entry. -/
def Obligations.Tiles : Prop :=
  ∀ (o : EOp) (s : State),
    let e := s.env
    let t := ((EOp.auxBits o).extractLsb' 0 6).toNat
    let d := e.l.tid (tidOf o)
    let a := scalarVal e .n32 o.a
    let off := count a
    let stop := off + tileRows d * tileRB d
    let x := tget e.g.tiles t
    let moving : Prop := ∃ y, x = some y ∧ (y.st = .filling ∨ y.st = .draining)
    (Issues (.tldef o) s →
      let rank : Prop := d.unset = true ∨ d.rank = 1 ∨ d.rank = 2
      let sound : Prop := rank ∧ d.unset = false ∧ a.p = false
      (¬rank → Traps (.tldef o) (illegal s) s) ∧
      (d.unset = true → Traps (.tldef o) (badFormat 0 0 0 (tidOf o) 2) s) ∧
      (rank → d.unset = false → a.p = true → Traps (.tldef o) { code := .poisonUse, info0 := o.a.code.setWidth 64 } s) ∧
      (sound → off % 16 ≠ 0 → Traps (.tldef o) { code := .misaligned, info0 := BitVec.ofNat 64 off } s) ∧
      (sound → off % 16 = 0 → e.l.scratchBytes < stop → Traps (.tldef o) (beyond s stop) s) ∧
      (sound → off % 16 = 0 → stop ≤ e.l.scratchBytes → moving ∨ s.tileUsed e.w.gid t = true → exec (.tldef o) s = .next s) ∧
      (sound → off % 16 = 0 → stop ≤ e.l.scratchBytes → ¬moving → s.tileUsed e.w.gid t = false →
        Releasing (.tldef o) .group (fun s' => ∃ u, exec (.tldef o) s = .next u ∧ WentOn s u.me ∧ core u.me = core s'.me ∧
          OnlyMyGroup s' u ∧ (∀ p : Fin 3, SlotKept s.me u.me p) ∧ u.myGroup = { s'.myGroup with
            tiles := tput s'.myGroup.tiles t { off := off, tid := tidOf o, st := .ready } }) s)) ∧
    (Issues (.tlwait o) s → IsReady s (tileAOf o) → Ends (.tlwait o) s (s.acquireAt e.w.core .group)) ∧
    (Issues (.tlfree o) s →
      (moving ∨ s.tileRead e.w.gid t = true → exec (.tlfree o) s = .next s) ∧
      (¬moving → s.tileRead e.w.gid t = false →
        Accepts (.tlfree o) s (s.core s.me.core) { e.g with tiles := e.g.tiles.filter fun y => y.1 ≠ t } e.l)) ∧
    (Issues (.tlstate o) s →
      let code : TileState → Nat := fun
        | .empty => 1 | .filling => 2 | .ready => 3 | .draining => 4
      let v : Nat := match x with
        | some y => y.off / 16 * 2 ^ 15 + y.tid * 2 ^ 7 + (if s.tileRead e.w.gid t then 8 else 0) + code y.st
        | none => 0
      ∃ u, exec (.tlstate o) s = .next u ∧ SameMemory s u ∧ WentOn s u.me ∧ (∀ p : Fin 3, SlotKept s.me u.me p) ∧
        WroteScalar o.dst 1 { bits := BitVec.ofNat 64 v } s u)

/-- The fields of a phase barrier object: EPOCH, SC, EXPW, PENDW, reserved bits, TOK (R275). -/
def Sys2Proof.Stmt.barrierAt (s : State) (off : Nat) : PBar := PBar.ofNat (bitsOfBytes (s.myGroup.scratch.bytes off 8))

/-- The object `b` with its phase complete where nothing is pending (R275). -/
def Sys2Proof.Stmt.settled (b : PBar) : PBar :=
  if b.pendw = 0 ∧ b.tok = 0 then { b with epoch := (b.epoch + 1) % 0x10000, pendw := b.expw } else b

/-- `i` completes with `b` in the object at `off` and no other byte of the scratchpad or of memory changed, `s'` being the state before. -/
def Sys2Proof.Stmt.PutsBarrier (i : Instr) (off : Nat) (b : PBar) (s s' : State) : Prop :=
  ∃ u, exec i s = .next u ∧ OthersStill s' u ∧ WentOn s u.me ∧ SameMemory s' u ∧ (∀ p : Fin 3, SlotKept s.me u.me p) ∧
    barrierAt u off = b ∧ (∀ a, (a < off ∨ off + 8 ≤ a) → u.myGroup.scratch.byte a = s'.myGroup.scratch.byte a) ∧
    (∀ g, g ≠ s.me.gid → tget u.groups g = tget s'.groups g) ∧ core { u.me with watches := s'.me.watches } = core s'.me

/-- R275 to R278: PBINIT writes a new object of 1 to 4095 arrivals; PBARR releases at the object's scope, takes one from PENDW and adds
to TOK; PBEXP adds to TOK; both complete the phase where nothing is left; PBWAIT goes on, acquiring, once its epoch has
passed or it has been woken (R283), and waits until then: each completes for an unpoisoned value and an object within the
allocation, PBARR and PBWAIT at the scopes that R275 lists. A poisoned value or an object beyond the allocation raises its trap, and an
object with a reserved bit set RESERVED_FIELD, which is the model's choice of a trap for the refusal of R11 (log entry 79). -/
def Obligations.PhaseBarriers : Prop :=
  ∀ (o : EOp) (s : State),
    let e := s.env
    let off := 8 * (EOp.fr o).pb.toNat
    let v : Val := if o.a = .v 0 then { bits := (EOp.auxBits o).setWidth 64 } else scalarVal e .n32 o.a
    let n := count v
    let inside : Prop := off + 8 ≤ e.l.scratchBytes
    let b := barrierAt s off
    let listed (x : Scope) : Prop := x ∈ [.group, .die, .device, .fabric, .system] ∧ BitVec.ofNat 3 b.sc = x.code
    let sc := EOp.scopeOf o
    let guard (i : Instr) (k : Prop) : Prop := Issues i s →
      (v.p = true → Traps i { code := .poisonUse, info0 := o.a.code.setWidth 64 } s) ∧
      (v.p = false → ¬inside → Traps i (beyond s (off + 8)) s) ∧
      ((tget s.groups s.me.gid).isSome = true → e.g.badWords = [] → v.p = false → inside → k)
    let whole (i : Instr) (k : Prop) : Prop := guard i
      ((b.res ≠ 0 → Traps i { illegal s with code := .reservedField } s) ∧ (b.res = 0 → k))
    let bad : TrapInfo := { code := .illegalInstruction, info0 := 0x3FF, info1 := BitVec.ofNat 64 n }
    let epochPast : Prop := ∃ j, 1 ≤ j ∧ j ≤ 0x8000 ∧ b.epoch = (n + j) % 0x10000
    (Issues (.pbinit o) s → ¬(1 ≤ n ∧ n ≤ 4095) → Traps (.pbinit o) bad s) ∧
    (Issues (.pbinit o) s → 1 ≤ n ∧ n ≤ 4095 → sc = .warp → Traps (.pbinit o) (illegal s) s) ∧
    (1 ≤ n ∧ n ≤ 4095 → sc ≠ .warp → guard (.pbinit o)
      (PutsBarrier (.pbinit o) off { epoch := 0, sc := sc.code.toNat, expw := n, pendw := n, res := 0, tok := 0 } s s)) ∧
    whole (.pbarr o) (∀ x, listed x → Releasing (.pbarr o) x (fun s' =>
      let c := barrierAt s' off
      PutsBarrier (.pbarr o) off (settled { c with pendw := c.pendw - 1, tok := (c.tok + n) % 4096 }) s s') s) ∧
    whole (.pbexp o) (PutsBarrier (.pbexp o) off (settled { b with tok := (b.tok + n) % 4096 }) s s) ∧
    whole (.pbwait o) ((s.me.woken = true ∨ epochPast → ∀ x, listed x → Ends (.pbwait o) s (s.acquireAt e.w.core x)) ∧
      (s.me.woken = false → ¬epochPast → ∃ u, exec (.pbwait o) s = .next u ∧ OnlyMe s u ∧ u.me.status = .waiting (.pb off (BitVec.ofNat 16 n)) ∧
        u.me.pc = s.me.pc ∧ u.me.word = some s.cur ∧ core { u.me with waitClock := s.me.waitClock } = core s.me))

/-! ## Barriers, watches and waits -/

/-- ILLEGAL_INSTRUCTION with the word's low half in INFO0 and a value in INFO1. -/
def Sys2Proof.Stmt.wordTrap (s : State) (x : Nat) : TrapInfo :=
  { code := .illegalInstruction, info0 := s.cur.bits.extractLsb' 0 64, info1 := BitVec.ofNat 64 x }

/-- The issuing warp waits by a recognised means `x` from now on and issues `i` again when it wakes; `s'` is the rest of the machine
(R281). -/
def Sys2Proof.Stmt.WaitsFor (i : Instr) (x : Wait) (c : Cont) (s s' : State) : Prop :=
  exec i s = .next (s'.setMe { s'.me with status := .waiting x, cont := c, word := some s.cur, woken := false,
                                          waitClock := s'.clock, elig := 0, overdue := false })

/-- The warp's record of barrier `n` of level `k`. -/
def Sys2Proof.Stmt.barRec (s : State) (id k n : Nat) : BarRec := sget {} (s.warp id).bars (16 * k + n)

/-- R291, R294: an arrival of a warp of a workgroup. At level 1 its phase completes at once; at level 2 it completes where every other
warp that has not exited has arrived, and then every warp's record clears; at level 3 and above the workgroup, once all its
warps have arrived, is counted in the entry, whose phase completes where all have arrived or retired. Until then the
arriving warp's record holds the parity that it found. The 32 bytes of the entry change in memory with it where its page is
mapped, which is the model's choice (log entry 96: the home die's cache writes through). -/
def Sys2Proof.Stmt.Arrival (s : State) (k n : Nat) : Prop :=
  let id := s.cur.warp
  let g := s.myGroup
  let u := s.arriveAt id k n
  let ph := g.parity k n s.me.f1
  let l := s.myLaunch
  let all : Prop := ∀ j ∈ g.warps, j ≠ id → (s.warp j).status ≠ .exited → (barRec s j k n).arr = true
  let m := l.monument g k n
  (k ≤ 2 → u.mem = s.mem ∧ u.launches = s.launches) ∧
  (k = 1 → u.myGroup.parity k n s.me.f1 = !ph) ∧
  (k = 2 → all → u.myGroup.parity k n 0 = !ph ∧ ∀ j ∈ g.warps, (barRec u j k n).arr = false) ∧
  (2 ≤ k → ¬all → u.myGroup.parity k n 0 = ph ∧ barRec u id k n = { arr := true, p := ph } ∧ u.launches = s.launches ∧
    u.mem = s.mem) ∧
  (3 ≤ k → all → g.arrived.contains (16 * k + n) = false →
    let m1 := { m with arrived := m.arrived + 1 }
    let full : Prop := m.arrived + 1 + m.retired = m.expect
    let m2 := if full then { m with ph := !m.ph, arrived := 0, parkw := 0 } else m1
    let i := l.entryIndex g k n
    (u.launchOf g.lid).monument g k n = m2 ∧
    ∀ ls, s.monRoute l i 1 = .cells ls → (full → (s.monPut g.lid g k n m1).monRoute l i 1 = .cells ls) → Put ls m2.bytes s u)

/-- R294, R291, R293, R229, R306: BAR, BARARR and BARWAIT raise ILLEGAL_INSTRUCTION for a barrier that the launch does not have; a warp
that has arrived in a phase that is not complete waits before it arrives again; BARARR releases, arrives and writes the
parity that it found; BAR then goes on as BARWAIT, which acquires and goes on once the parity differs from its operand
and waits until then; BARWAIT of a poisoned operand raises POISON_USE. -/
def Obligations.Barriers : Prop :=
  ∀ (o : EOp) (s : State),
    let e := s.env
    let k := (o.fn.extractLsb' 4 3).toNat
    let n := ((EOp.auxBits o).extractLsb' 0 4).toNat
    let absent : Prop := e.l.top < k ∨ (3 ≤ k ∧ e.l.monuC.getD (k - 3) 0 ≤ n) ∨ (e.l.kind = .task ∧ 2 ≤ k)
    let r := barRec s s.cur.warp k n
    let ph := e.g.parity k n e.w.f1
    let sc : Scope := if k ≤ 1 then .warp else if k = 2 then .group else .device
    let v := scalarVal e .n32 o.a
    let guard (i : Instr) (p : Prop) : Prop := Issues i s →
      (absent → Traps i (wordTrap s (k + 0x100 * n + 0x10000 * e.l.top)) s) ∧ (¬absent → p)
    let again : Prop := r.arr = true ∧ ph = r.p
    let passes (i : Instr) (old : Bool) (s' : State) : Prop :=
      (s'.myGroup.parity k n e.w.f1 ≠ old → Ends i s (s'.acquireAt e.w.core sc)) ∧
      (s'.myGroup.parity k n e.w.f1 = old → WaitsFor i (.barrier k n old) (.arrived old) s s')
    guard (.bar o) (
      (∀ old, s.me.cont = .arrived old → passes (.bar o) old s) ∧
      ((∀ old, s.me.cont ≠ .arrived old) →
        (again → WaitsFor (.bar o) (.barrier k n r.p) .none s s) ∧
        (¬again → Releasing (.bar o) sc (fun s' => passes (.bar o) ph (s'.arriveAt s.cur.warp k n)) s))) ∧
    guard (.bararr o) (
      (again → WaitsFor (.bararr o) (.barrier k n r.p) .none s s) ∧
      (¬again → Releasing (.bararr o) sc (fun s' =>
        let x := s'.arriveAt s.cur.warp k n
        ∃ u, exec (.bararr o) s = .next u ∧ SameMemory x u ∧ WentOn s u.me ∧ (∀ p : Fin 3, SlotKept s.me u.me p) ∧
          WroteScalar o.dst 1 { bits := if ph then 1 else 0 } x u) s)) ∧
    guard (.barwait o) (
      (v.p = true → Traps (.barwait o) { code := .poisonUse, info0 := o.a.code.setWidth 64 } s) ∧
      (v.p = false → passes (.barwait o) (v.bits.getLsbD 0) s)) ∧
    ((tget s.warps s.cur.warp).isSome = true → s.me.status ≠ .exited → s.cur.warp ∈ e.g.warps → 1 ≤ k → Arrival s k n)

/-- The place that an instruction reaches once for its warp at a generic address: bytes of global or host memory, or of the scratchpad
(R299, R301). -/
def Sys2Proof.Stmt.Place (s : State) (a : DWord) (n : Nat) (r : Route) : Prop :=
  (canonical a = true ∧ (∃ ls, r = .cells ls) ∧ s.routeVa s.me s.env.l.vi s.me.core 128 (vaOf a) 0 n = r) ∨
  (a.extractLsb' 32 28 = 0 ∧ a.extractLsb' 60 4 = 8 ∧ r = .scratch (a.toNat % 2 ^ 32))

/-- R298 to R302: for a warp that runs no task, WATCH arms its slot on the sector of its address; UNWATCH disarms one slot or all;
WAITW waits while something is armed and nothing has fired, then clears what has fired and writes its mask, 0 where
nothing is armed; WAITC waits while its counter, which the warp's own stores have reached (log entry
128), is below its limit, then writes it; both acquire where their word says so. YIELD expires the quantum of a workgroup of a FULL launch, and does nothing else in any. -/
def Obligations.WatchesAndWaits : Prop :=
  ∀ (o : EOp) (s : State), s.myTask = none →
    let e := s.env
    let slot := (o.fn.extractLsb' 0 2).toNat
    let at' (w : Warp) (n : Nat) : Watch := sget {} w.watches n
    let sec : Route → Nat := fun
      | .cells ls => ls.headD 0 / 32
      | .scratch k => scratchSector s.me.gid k
      | _ => 0
    let a := scalarVal e .n64 o.a
    let poison (i : Instr) (x : Src) : Prop := Traps i { code := .poisonUse, info0 := x.code.setWidth 64 } s
    let sets (i : Instr) (f : Nat → Watch) : Prop := Completes i s fun x =>
      core { x with watches := s.me.watches } = core s.me ∧ (∀ n < 4, at' x n = f n) ∧ ∀ p : Fin 3, SlotKept s.me x p
    let fired (n : Nat) : Bool := (at' s.me n).armed && (at' s.me n).fired
    let armed : Prop := ∃ n < 4, (at' s.me n).armed = true
    let any : Prop := ∃ n < 4, fired n = true
    let mask : Nat := (if fired 0 then 1 else 0) + (if fired 1 then 2 else 0) + (if fired 2 then 4 else 0) + (if fired 3 then 8 else 0)
    let acq (s' : State) : State := if o.fn.getLsbD 0 then s'.acquireAt e.w.core (EOp.scopeOf o) else s'
    let writes (i : Instr) (s0 : State) (regs x : Nat) (p : Warp → Prop) : Prop := ∃ u, exec i s = .next u ∧ u.mem = s.mem ∧ WentOn s u.me ∧
      (∀ q : Fin 3, SlotKept s.me u.me q) ∧ p u.me ∧
      WroteScalar o.dst regs { bits := BitVec.ofNat 64 x } (acq s0) (u.setMe { u.me with watches := s.me.watches })
    let wide := o.fn.getLsbD 6
    let n := if wide then 8 else 4
    let v := scalarVal e (if wide then .n64 else .n32) o.b
    let lim := if wide then v.bits.toNat else count v
    (Issues (.watch o) s → (a.p = true → poison (.watch o) o.a) ∧
      (a.p = false → ∀ r, Place s a.bits 1 r → sets (.watch o) fun m =>
        if m = slot then { sector := sec r, armed := true, fired := false } else at' s.me m)) ∧
    (Issues (.unwatch o) s → sets (.unwatch o) fun m =>
      if m = slot then { at' s.me m with armed := false, fired := false } else at' s.me m) ∧
    (Issues (.unwatchAll o) s → sets (.unwatchAll o) fun m => { at' s.me m with armed := false, fired := false }) ∧
    (Issues (.waitw o) s → (armed ∧ ¬any → WaitsFor (.waitw o) .watch .none s s) ∧
      (¬armed ∨ any → writes (.waitw o) s 1 mask fun x => ∀ m < 4, at' x m =
        if fired m then { at' s.me m with fired := false } else at' s.me m)) ∧
    (Issues (.waitc o) s → (a.p = true → poison (.waitc o) o.a) ∧ (a.p = false → v.p = true → poison (.waitc o) o.b) ∧
      (a.p = false → v.p = false → a.bits.toNat % n ≠ 0 → Traps (.waitc o) { code := .misaligned, info0 := a.bits } s) ∧
      (a.p = false → v.p = false → a.bits.toNat % n = 0 → ∀ r, Place s a.bits n r →
        (∀ k, r = .scratch k → e.l.scratchBytes < k + n → Traps (.waitc o) (beyond s k) s) ∧
        ((∀ k, r = .scratch k → k + n ≤ e.l.scratchBytes) → s.bad = [] → e.g.badWords = [] →
          let c := bitsOfBytes (s.counterBytes s.me.gid r n)
          let read : List Nat := match r with
            | .cells ls => ls
            | _ => []
          (lim ≤ c → writes (.waitc o) (s.l1Forget s.me.core read) (if wide then 2 else 1) c fun _ => True) ∧
          (c < lim → WaitsFor (.waitc o) (.counter (sec r)) .none s s)))) ∧
    (Issues (.yield o) s → ∃ u, exec (.yield o) s = .next u ∧ WentOn s u.me ∧ core u.me = core s.me ∧
      (∀ p : Fin 3, SlotKept s.me u.me p) ∧ u = { s with warps := u.warps, groups := u.groups, vis := u.vis } ∧
      (∀ id, id ≠ s.cur.warp → tget u.warps id = tget s.warps id) ∧
      u.myGroup = (if e.l.kind = .full then { e.g with expired := true } else e.g) ∧
      ∀ g, g ≠ s.me.gid → tget u.groups g = tget s.groups g)

/-! ## Tasks -/

/-- `i` goes on with values in flight for scalar registers from `d` (R97), `s'` being the rest of the machine. -/
def Sys2Proof.Stmt.FliesScalars (i : Instr) (d : Nat) (ws : List Word) (s s' : State) : Prop :=
  let vals := (List.range ws.length).map fun j => ({ key := d + j, val := ws.getD j 0, poison := false } : RegVal)
  ∃ u, exec i s = .next u ∧ OnlyMe s' u ∧ WentOn s u.me ∧ (∀ p : Fin 3, SlotKept s.me u.me p) ∧
    core { u.me with flight := s.me.flight, nextProd := s.me.nextProd, sE := s.me.sE } = core s.me ∧
    u.me.flight = s.me.flight ++ [{ id := s.me.nextProd, vec := false, base := d, count := ws.length, vals := vals }] ∧
    ∀ m < 128, u.me.sE.getLsbD m = (s.me.sE.getLsbD m || decide (d ≤ m ∧ m < d + ws.length))

/-- R332 to R339, R327, R331: what the task instructions do in a TASK launch: TSPAWN and TSPAWNR add a record with the next SEQ to a queue
with room, the latter none for an empty range; a spawn waits while every queue is full, but the frontier's then aborts the last
speculative task that has spawned a still-queued one, or where there is none stops its queue with TASK_QUEUE_FULL; TRNG takes up to V of what is left of
its range; TSPLITQ sets SCC where something is left, and PIN in two forms; TDONE, as soon as the core may hold the task finished (log
entry 95), ends the warp, its task is finished or commits, and what is left of its range is queued as a task (log entry 90 where every
queue is full), or discarded with DROP; TABORT ends it with an empty buffer and discards what it has spawned; TFRONTQ and TSYNC look whether the frontier has passed a TS; TISSPEC asks whether the task is speculative; TCTX
gives its argument words. Outside a TASK launch they raise ILLEGAL_INSTRUCTION. -/
def Obligations.TaskInstructions : Prop :=
  ∀ (o : EOp) (s : State) (tid : Nat) (t : Task),
    let e := s.env
    let lid := s.myGroup.lid
    let inTask : Prop := e.l.kind = .task ∧ s.myTask = some (tid, t)
    let poison (i : Instr) (x : Src) : Prop := Traps i { code := .poisonUse, info0 := x.code.setWidth 64 } s
    let ts := scalarVal e .n64 o.a
    let range := scalarVal e .n64 o.c
    let narg := (o.fn.extractLsb' 4 3).toNat
    let args : List Val := match o.b with
      | .s m => (List.range narg).map fun j => e.w.sval (m.toNat + j) 1
      | _ => []
    let aim := if o.fn.getLsbD 3 then (o.fn.extractLsb' 1 2).toNat else e.w.core / 64
    let from' (ranged : Bool) : Word := if ranged then lo32 range.bits else 0
    let rec' (ranged : Bool) (die : Nat) : Task := { ts := ts.bits, seq := e.l.nextSeq, lo := from' ranged,
                                                     hi := if ranged then hi32 range.bits else 0, cur := from' ranged,
                                                     range := ranged, narg := narg, entry := (EOp.auxBits o).toNat,
                                                     args := args.map fun v => lo32 v.bits, die := die, parent := some tid }
    let spawns (i : Instr) (ranged : Bool) : Prop := Issues i s → inTask →
      let sound : Prop := ts.p = false ∧ (∀ v ∈ args, v.p = false) ∧ (ranged = true → range.p = false)
      let empty : Prop := ranged = true ∧ hi32 range.bits ≤ lo32 range.bits
      (ts.p = true → poison i o.a) ∧ (ts.p = false → (∃ v ∈ args, v.p = true) → poison i o.b) ∧
      (ts.p = false → (∀ v ∈ args, v.p = false) → ranged = true → range.p = true → poison i o.c) ∧
      (sound → ts.bits < t.ts → Traps i (wordTrap s 2) s) ∧
      (sound → t.ts ≤ ts.bits → empty → Ends i s s) ∧
      (sound → t.ts ≤ ts.bits → ¬empty → e.l.frozen = false → ∀ die, s.dieWithRoom aim = some die →
        Ends i s { s with launches := tput s.launches lid { e.l with nextSeq := e.l.nextSeq + 1 },
                          tasks := tput s.tasks s.nextTask (lid, rec' ranged die), nextTask := s.nextTask + 1 }) ∧
      (sound → t.ts ≤ ts.bits → ¬empty → s.dieWithRoom aim = none ∧ s.isFrontier lid tid = false ∨ e.l.frozen = true →
        exec i s = .next s) ∧
      (sound → t.ts ≤ ts.bits → ¬empty → s.dieWithRoom aim = none → s.isFrontier lid tid = true → e.l.frozen = false →
        let parents := (s.tasksOf lid).filter fun x => !s.isFrontier lid x.1 && x.2.st != .queued &&
          (s.tasksOf lid).any fun c => c.2.st == .queued && c.2.parent == some x.1
        (parents = [] → ∃ u, exec i s = .next u ∧ (u.queue e.l.vi e.l.q).error = some (4, 0) ∧
          u.me = { s.me with word := some s.cur } ∧
          ((s.queue e.l.vi e.l.q).lid = some lid → (u.launchOf lid).frozen = true)) ∧
        (∀ x ∈ parents, (∀ y ∈ parents, y ≠ x → y.2.before x.2 = true ∧ x.2.before y.2 = false) →
          let s1 := s.abort [(x.1, false)]
          ∀ die, s1.dieWithRoom aim = some die → tget s1.warps s.cur.warp = tget s.warps s.cur.warp →
            tget s1.groups s.me.gid = tget s.groups s.me.gid →
            Ends i s { s1 with launches := tput s1.launches lid { e.l with nextSeq := e.l.nextSeq + 1 },
                               tasks := tput s1.tasks s1.nextTask (lid, rec' ranged die), nextTask := s1.nextTask + 1 }))
    let v : Val := if o.a = .v 0 then { bits := (EOp.auxBits o).setWidth 64 } else scalarVal e .n32 o.a
    let left : Nat := if t.range then t.hi.toNat - t.cur.toNat else 0
    let drop := o.fn.getLsbD 0
    let remains : Prop := t.range = true ∧ t.cur < t.hi
    let held' := ((s.tasksOf lid).filter fun x => x.2.core == t.core && x.2.st == .finished).length
    let rest : Task := { t with lo := t.cur, split := false, pin := false, st := .queued, parent := none, warp := 0, wbuf := [],
                                rset := [], wset := [], srcs := [], trap := none, aborted := false }
    let k := min (count v) left
    let dst := sNumber o.dst
    let with' (x : Task) : State := { s with tasks := tput s.tasks tid (lid, x) }
    let setsScc (i : Instr) (b : Bool) (s' : State) : Prop := ∃ u, exec i s = .next u ∧ OnlyMe s' u ∧ WentOn s u.me ∧
      core { u.me with scc := s.me.scc, sccP := s.me.sccP } = core s.me ∧ u.me.scc = b ∧ u.me.sccP = false ∧
      ∀ p : Fin 3, SlotKept s.me u.me p
    let splits (i : Instr) (x : Task) : Prop :=
      Issues i s → inTask → setsScc i (t.range && decide (t.cur.toNat < t.hi.toNat)) (with' x)
    let other := o.fn.getLsbD 0
    let passed (lid : Nat) : Prop := ∀ x, s.frontier lid = some x → ts.bits < x.2.ts
    let q := (s.queue e.l.vi ((EOp.auxBits o).extractLsb' 0 4).toNat).lid
    let ok : Prop := if other then ∀ l, q = some l → (s.launchOf l).kind = .task → passed l else passed lid
    let fronts (i : Instr) (p : Prop) : Prop := Issues i s →
      (other = false → e.l.kind ≠ .task → Traps i (wordTrap s 1) s) ∧
      ((other = true ∨ e.l.kind = .task) → (ts.p = true → poison i o.a) ∧ (ts.p = false → p))
    let own : Prop := other = false ∧ ∃ x, s.myTask = some x ∧ x.2.ts ≤ ts.bits
    spawns (.tspawn o) false ∧ spawns (.tspawnr o) true ∧
    (Issues (.trng o) s → inTask → (v.p = true → poison (.trng o) o.a) ∧
      (v.p = false → FliesScalars (.trng o) dst [if t.range then t.cur else 0, BitVec.ofNat 32 k] s
        (with' { t with cur := t.cur + BitVec.ofNat 32 k }))) ∧
    splits (.tsplitq o) t ∧ splits (.tsplitqPin o) { t with pin := true } ∧ splits (.tsplitqUnpin o) { t with pin := false } ∧
    (Issues (.tdone o) s → inTask → ¬mayFinish s → exec (.tdone o) s = .next s) ∧
    (Issues (.tdone o) s → inTask → mayFinish s → tget s.tasks tid = some (lid, t) → tid ≠ s.nextTask → ∃ x, GoesOn s s x ∧
      exec (.tdone o) s = .next (endTask s.cur.warp drop false x) ∧
      let u := endTask s.cur.warp drop false x
      (t.st ≠ .direct → held' < 32 → u.me.status = .exited ∧ u.mem = s.mem ∧
        tget u.tasks tid = some (lid, { t with st := .finished, aborted := false, hi := if remains then t.cur else t.hi })) ∧
      (t.st ≠ .direct → held' < 32 → remains → drop = false →
        tget u.tasks s.nextTask = some (lid, { rest with die := (s.dieWithRoom t.die).getD t.die }) ∧ u.nextTask = s.nextTask + 1) ∧
      (t.st ≠ .direct → held' < 32 → ¬remains ∨ drop = true → u.nextTask = s.nextTask ∧ ∀ k, k ≠ tid → tget u.tasks k = tget s.tasks k) ∧
      (t.st = .direct ∨ 32 ≤ held' → s.copying s.cur.warp = false → tget u.tasks tid = none)) ∧
    (Issues (.tabort o) s → inTask → ¬mayFinish s → exec (.tabort o) s = .next s) ∧
    (Issues (.tabort o) s → inTask → mayFinish s → tget s.tasks tid = some (lid, t) → ∃ x, GoesOn s s x ∧
      exec (.tabort o) s = .next (endTask s.cur.warp false true x) ∧
      let u := endTask s.cur.warp false true x
      (t.st ≠ .direct → held' < 32 → (∀ y ∈ s.tasksOf lid, y.2.parent ≠ some tid) → u.me.status = .exited ∧ u.mem = s.mem ∧
        u.tasks = tput s.tasks tid (lid, { t with st := .finished, aborted := true, wbuf := [] })) ∧
      (t.st ≠ .direct → held' < 32 → ∀ y ∈ s.tasksOf lid, y.2.parent = some tid → y.2.st = .queued → y.1 ≠ tid →
        (∀ z ∈ s.tasksOf lid, z ≠ y → z.2.parent ≠ some tid ∧ z.2.parent ≠ some y.1 ∧ z.1 ≠ y.1 ∧ y.1 ∉ z.2.srcs) → y.1 ∉ y.2.srcs →
        tget s.tasks y.1 = some (lid, y.2) →
        tget u.tasks y.1 = none ∧ tget u.tasks tid = some (lid, { t with st := .finished, aborted := true, wbuf := [] })) ∧
      (t.st = .direct → s.copying s.cur.warp = false → tget u.tasks tid = none)) ∧
    fronts (.tfrontq o) ((ok → setsScc (.tfrontq o) true (s.acquireAt e.w.core .device)) ∧
      (¬ok → setsScc (.tfrontq o) false s)) ∧
    fronts (.tsync o) ((own → Traps (.tsync o) (wordTrap s 3) s) ∧
      (¬own → ok → Ends (.tsync o) s (s.acquireAt e.w.core .device)) ∧ (¬own → ¬ok → exec (.tsync o) s = .next s)) ∧
    (Issues (.tisspec o) s → inTask → setsScc (.tisspec o) s.speculative s) ∧
    (Issues (.tctx o) s → inTask → FliesScalars (.tctx o) dst ((List.range 4).map fun j => t.args.getD j 0) s s) ∧
    (e.l.kind ≠ .task → ∀ i ∈ [Instr.tspawn o, .tspawnr o, .trng o, .tsplitq o, .tsplitqPin o, .tsplitqUnpin o, .tdone o, .tabort o,
      .tisspec o, .tctx o], Issues i s → Traps i (wordTrap s 1) s)

/-! ## Surveys -/

/-- A scalar instruction writes consecutive s registers from its destination, unpoisoned, and changes nothing else, `s'` being the
machine before. -/
def Sys2Proof.Stmt.WritesWords (i : Instr) (m : Nat) (ws : List Word) (s s' : State) : Prop :=
  ∃ u, exec i s = .next u ∧ OnlyMe s' u ∧ WentOn s u.me ∧ core { u.me with s := s.me.s, sP := s.me.sP } = core s.me ∧
    (∀ p : Fin 3, SlotKept s.me u.me p) ∧
    (∀ j (hj : j < ws.length), u.me.sreg (m + j) = ws[j] ∧ u.me.sP.getLsbD (m + j) = false) ∧
    ∀ j, (j < m ∨ m + ws.length ≤ j) → SameS s.me u.me j

/-- The interface's ring has one more record due in `u` than in `s`: `r`, after all others but those of a higher slot of its core in
the same cycle (R111, R113). -/
def Sys2Proof.Stmt.OneMore (vi : Nat) (r : TrapRec) (s u : State) : Prop :=
  let after (x : TrapRec) : Prop := x.core = r.core ∧ x.clock = r.clock ∧ r.slot < x.slot
  ∃ pre post, (s.vi vi).trHeld = pre ++ post ∧ (u.vi vi).trHeld = pre ++ r :: post ∧ (∀ x ∈ pre, ¬after x) ∧ ∀ x ∈ post.head?, after x

/-- The bytes of a leaf of a workgroup (R353): those of its scratchpad, or for a parked one those of its save area. -/
def Sys2Proof.Stmt.leafBytes (s : State) (g : Group) (off n : Nat) : List Byte :=
  let l := s.launchOf g.lid
  if g.state = .parked then
    match s.saveRoute l g (s.me.core / 64) 0 (l.scratchPart + off) n with
    | .cells ls => ls.map fun a => s.mem.byte a
    | _ => g.scratch.bytes off n
  else g.scratch.bytes off n

/-- R345 to R359: outside TASK launches, SVGRP defines a group of its launch whose values pass R350's checks and SVGRP.CLR clears one;
both write the entry's 16 bytes in the table at SVBASE (by inference: log entry 83) where its page is mapped (log entry 98); SVLD of
active lanes that name one defined group reads, for each lane, the leaf of every started member and puts the value of the tree over
them in flight; it waits for members that have not started; where one is in transit it is accepted and reads later (log entry 109), where a leaf lies in
an uncorrectable word it is accepted and suspended with a record (R416, R417, log entry 39; flag 3 only for a save area); it raises its
traps in the order of R352 and R359; SVINFO writes the group's range, its word and the workgroup's member index. -/
def Obligations.SurveyInstructions : Prop :=
  ∀ (o : EOp) (s : State),
    let e := s.env
    let a := scalarVal e .n32 o.a
    let b := scalarVal e .n32 o.b
    let n := ((EOp.auxBits o).extractLsb' 0 4).toNat
    let die := (o.fn.extractLsb' 4 3).toNat
    let fld := (o.fn.extractLsb' 2 2).toNat
    let v := s.vi e.l.vi
    let here : Prop := e.l.kind ≠ .task
    let poison (i : Instr) (x : Src) : Prop := Traps i { code := .poisonUse, info0 := x.code.setWidth 64 } s
    let x : SvGroup := { lo := count a, hi := count b, die := die, fld := fld }
    let clash (y : Nat × SvGroup) : Prop := y.1 ≠ n ∧ y.2.die < 4 ∧ y.2.die ≠ die ∧
      (y.2.fld ≠ fld ∨ (y.2.lo < x.hi ∧ x.lo < y.2.hi))
    let legal : Prop := die ≤ 4 ∧ e.l.width (2 + fld) ≠ 0 ∧ x.lo < x.hi ∧ x.hi ≤ e.l.ext (2 + fld) ∧
      x.hi - x.lo ≤ (if die = 4 then 256 else 64) ∧ (die < 4 → (∃ c ∈ e.l.cores ++ e.l.collCores, c / 64 = die) ∧ ∀ y ∈ e.l.survey, ¬clash y)
    let sets (i : Instr) (t : Tab SvGroup) (entry : List Byte) : Prop := ∃ u, exec i s = .next u ∧ WentOn s u.me ∧
      (∀ p : Fin 3, SlotKept s.me u.me p) ∧ core { u.me with watches := s.me.watches } = core s.me ∧
      (let s' := { s with launches := tput s.launches s.myGroup.lid { e.l with survey := t } }
       OthersStill s' u ∧ u.cores = s.cores) ∧
      match s.routeRange e.l.vi e.w.die 1 (e.l.save + BitVec.ofNat 64 (16 * n)) 16 with
      | .cells ls => Put ls entry s u
      | _ => SameMemory s u
    let op := (o.fn.extractLsb' 3 4).toNat
    let size := if op = 1 then 2 else 4
    let addr (l : Nat) : Val := match o.a with
      | .v m => e.w.vval m.toNat 2 l
      | .s m => e.w.sval m.toNat 2
      | _ => {}
    let off (l : Nat) : Nat := (addr l).bits.toNat % 2 ^ 32 + (EOp.auxBits o).toNat
    let grp (l : Nat) : Nat := ((addr l).bits.extractLsb' 32 4).toNat
    let all (p : Nat → Prop) : Prop := ∀ l ∈ e.active, p l
    let clean (l : Nat) : Prop := (addr l).p = false
    let survey (l : Nat) : Prop := (addr l).bits.extractLsb' 36 28 = 0xA000000
    let aligned (l : Nat) : Prop := off l % size = 0
    let raises (c : TrapCode) : Prop := ∃ t : TrapInfo, t.code = c ∧ Traps (.svld o) t s
    let fault (idx cnt cause l : Nat) (lanes : Nat → Prop) : Prop := ∃ t : TrapInfo, t.code = .surveyFault ∧
      t.info0 = BitVec.ofNat 64 (off l % 2 ^ 32 + grp l * 2 ^ 32) ∧
      t.info1 = BitVec.ofNat 64 (idx + cnt * 2 ^ 32 + cause * 2 ^ 48) ∧
      (cause = 1 ∨ cause = 4 → ∀ l < 128, t.lanes.getLsbD l = true ↔ l ∈ e.active ∧ lanes l) ∧ Traps (.svld o) t s
    let outside (i : Instr) : Prop := Issues i s → ¬here → Traps i (wordTrap s 1) s
    (∀ i ∈ [Instr.svgrp o, .svgrpClr o, .svinfo o], outside i) ∧
    (Issues (.svgrp o) s → here → (a.p = true → poison (.svgrp o) o.a) ∧ (a.p = false → b.p = true → poison (.svgrp o) o.b) ∧
      (a.p = false → b.p = false → ¬legal → Traps (.svgrp o) (wordTrap s 2) s) ∧
      (a.p = false → b.p = false → legal → sets (.svgrp o) (tput e.l.survey n x)
        (leBytes x.lo 4 ++ leBytes x.hi 4 ++ leBytes (0x80000000 + 16 * die + fld) 4 ++ leBytes 0 4))) ∧
    (Issues (.svgrpClr o) s → here → sets (.svgrpClr o) (e.l.survey.filter fun y => y.1 != n) (leBytes 0 16)) ∧
    (Issues (.svinfo o) s → here → ∀ m, o.dst = .s m →
      let v (y : SvGroup) : Nat := e.g.f.getD y.fld 0
      WritesWords (.svinfo o) m.toNat (match tget e.l.survey n with
        | none => [0, 0, 0, 0xFFFFFFFF]
        | some y => [BitVec.ofNat 32 y.lo, BitVec.ofNat 32 y.hi, BitVec.ofNat 32 (0x80000000 + 16 * y.die + y.fld),
          if y.lo ≤ v y ∧ v y < y.hi then BitVec.ofNat 32 (v y - y.lo) else 0xFFFFFFFF]) s s) ∧
    (Issues (.svld o) s → (∀ p ∈ s.me.flight, p.survey = false) → here →
      (e.active = [] → Ends (.svld o) s s) ∧
      (¬all clean → raises .poisonUse) ∧ (all clean → ¬all survey → raises .protection) ∧
      (all clean → all survey → ∀ l ∈ e.active, ¬aligned l → (∀ k ∈ e.active, k < l → aligned k) → ∃ t : TrapInfo, t.code = .misaligned ∧
        t.info0 = (addr l).bits + BitVec.ofNat 64 (EOp.auxBits o).toNat ∧ Traps (.svld o) t s) ∧
      (all clean → all survey → all aligned → ∀ l0, e.active.head? = some l0 →
        (∀ l ∈ e.active, grp l ≠ grp l0 → (∀ k ∈ e.active, k < l → grp k = grp l0) → fault 0 0 4 l fun k => grp k ≠ grp l0) ∧
        (all (fun l => grp l = grp l0) →
          (tget e.l.survey (grp l0) = none → fault 0 0 2 l0 fun _ => True) ∧
          (∀ y, tget e.l.survey (grp l0) = some y →
            let idx := surveyMembers e.l e.g y
            let member (j : Nat) : Member := s.member s.myGroup.lid j
            let far (l : Nat) : Prop := e.l.scratchBytes < off l + size
            let unstarted := idx.filter fun j => member j == .unstarted
            (∀ l ∈ e.active, far l → (∀ k ∈ e.active, k < l → ¬far k) → fault 0 idx.length 1 l far) ∧
            (all (fun l => ¬far l) →
              (unstarted ≠ [] → WaitsFor (.svld o) (.survey unstarted) .none s s) ∧
              (unstarted = [] → (∃ j ∈ idx, member j = .retired) → raises .surveyFault) ∧
              ∀ gs : List (Nat × Group), idx.map member = (gs.map fun g => Member.here g.1 g.2) →
                let moving : Prop := ∃ g ∈ gs, g.2.state = .saving ∨ g.2.state = .restoring
                let offs := e.active.map fun l => (l, off l)
                let waiting (x : Bool) : SvHeld := { suspended := x, op := op, members := idx, offs := offs, pc := s.me.pc, len := s.cur.len }
                let accepted (m : Nat) (vals : List RegVal) (h : Option SvHeld) (p : State → Prop) : Prop :=
                  ∃ u, exec (.svld o) s = .next u ∧ WentOn s u.me ∧ u = { s with warps := u.warps, vis := u.vis, dies := u.dies } ∧
                    SameDies s u ∧ (∀ id, id ≠ s.cur.warp → tget u.warps id = tget s.warps id) ∧ (∀ p : Fin 3, SlotKept s.me u.me p) ∧
                    core { u.me with flight := s.me.flight, nextProd := s.me.nextProd, vE := s.me.vE } = core s.me ∧
                    (∀ n < 256, u.me.vE.getLsbD n = (s.me.vE.getLsbD n || decide (n = m))) ∧
                    u.me.flight = s.me.flight ++ [{ id := s.me.nextProd, vec := true, base := m, count := 1, survey := true,
                                                    vals := vals, held := h }] ∧ p u
                (moving → ∀ m, o.dst = .v m → accepted m.toNat [] (some (waiting false)) fun u => (u.vi e.l.vi).trHeld = v.trHeld) ∧
                (¬moving → ∀ x, svBad s (s.me.core / 64) op (idx.map member) offs = some x → ∀ m, o.dst = .v m →
                  accepted m.toNat [] (some (waiting true)) fun u => ∃ r, OneMore e.l.vi r s u ∧ r.code = 0x13 ∧ r.pc = s.me.pc ∧
                    r.info0 = x.place ∧ r.info1 = BitVec.ofNat 64 x.member ∧ r.flags / 8 % 2 = (if x.saved then 1 else 0)) ∧
                (¬moving → svBad s (s.me.core / 64) op (idx.map member) offs = none → ∀ m, o.dst = .v m →
                  accepted m.toNat (e.active.map fun l =>
                    { key := 128 * m.toNat + l, poison := false,
                      val := tree (treeOp op) 0 (gs.map fun g => svLeaf op (bitsOfBytes (leafBytes s g.2 (off l) size))) }) none
                    fun u => (u.vi e.l.vi).trHeld = v.trHeld)))))) ∧
    (Issues (.svld o) s → (∃ p ∈ s.me.flight, p.survey = true) → exec (.svld o) s = .next s) ∧
    (Issues (.svld o) s → (∀ p ∈ s.me.flight, p.survey = false) → ¬here → Traps (.svld o) (wordTrap s 1) s)

/-! ## Collectives, stakes and the system instructions -/

/-- R370 to R375, R383: a COLL whose checks all pass joins the meeting of its workgroup, which it opens where none is open, and is held;
one that fails a check raises the trap of the first that fails and joins nothing; one that the engine has accepted goes
on. Which register INFO1 names where several fields of a descriptor break is the model's choice (log entry 70), and that SCRATCH_BOUNDS
names the end of the phase barrier an inference (log entry 64). -/
def Obligations.CollectiveInstructions : Prop :=
  ∀ (o : EOp) (s : State),
    let e := s.env
    let v := s.vi e.l.vi
    let d := sNumber o.a
    let tile : Bool := (EOp.auxBits o).getLsbD 16
    let ta := tileAOf o
    let regs := (List.range 8).map fun j => e.w.sreg (d + j)
    let cd := collDesc regs
    let pb := 8 * (EOp.fr o).pb.toNat
    let coll (i : Instr) (kind : Nat) : Prop := Issues i s →
      let x := collOperand e o
      let tids := collTids kind e o
      let format := if kind = 4 then a2avFormatBad cd.count e.l (tidOf o) (rtidOf o) (ctidOf o) else collFormatBad kind (collOp o) x.1 x.2
      let ill (c : Nat) : Prop := Traps i (wordTrap s c) s
      let poisoned (j : Nat) : Bool := e.w.sP.getLsbD (d + j)
      let m : Meeting := s.myGroup.meet.getD { pc := e.w.pc, desc := regs, slot := e.w.slot, issued := [], op := o, kind := kind }
      let pre : Prop := e.l.coll = true ∧ e.l.kind ≠ .task
      let same : Prop := ∀ y, s.myGroup.meet = some y → y.pc = e.w.pc ∧ y.desc = regs
      let clean : Prop := ∀ j < 8, poisoned j = false
      let fits : Prop := collDescBad v kind tile regs = none ∧ (kind ≠ 4 → collShapeBad kind cd.count x.2 = false) ∧ format = none
      let sc := (barrierAt s pb).sc
      (s.me.cont = .met → Ends i s s) ∧
      (s.me.cont ≠ .met → (tile = true → IsReady s ta) →
        (e.l.coll = false → ill 1) ∧ (e.l.coll = true → e.l.kind = .task → ill 2) ∧
        (pre → ∀ y, s.myGroup.meet = some y → y.pc ≠ e.w.pc ∨ y.desc ≠ regs →
          Traps i { code := .illegalConvergence, info0 := y.pc, info1 := BitVec.ofNat 64 y.slot } s) ∧
        (pre → same → ∀ j < 8, poisoned j = true → (∀ k < j, poisoned k = false) →
          Traps i { code := .poisonUse, info0 := BitVec.ofNat 64 (0x300 + d + j) } s) ∧
        (pre → same → clean → ∀ y, (tids.find? fun z => z.2.unset) = some y → Traps i (badFormat y.2.fmt 0 0 y.1 2) s) ∧
        (pre → same → clean → (∀ z ∈ tids, z.2.unset = false) →
          (∀ k, collDescBad v kind tile regs = some k → ill (3 + 0x100 * (d + k))) ∧
          (collDescBad v kind tile regs = none → kind ≠ 4 → collShapeBad kind cd.count x.2 = true → ill 5) ∧
          (collDescBad v kind tile regs = none → (kind ≠ 4 → collShapeBad kind cd.count x.2 = false) → ∀ y, format = some y →
            Traps i (badFormat y.2.fmt 0 0 y.1 0) s) ∧
          (fits → e.l.scratchBytes < pb + 12 → Traps i (beyond s (pb + 12)) s) ∧
          (fits → pb + 12 ≤ e.l.scratchBytes → cd.cntb.toNat % 4 ≠ 0 → Traps i { code := .misaligned, info0 := cd.cntb } s) ∧
          (fits → pb + 12 ≤ e.l.scratchBytes → cd.cntb.toNat % 4 = 0 → sc ≠ 6 → sc ≠ 7 → ill 4) ∧
          (fits → pb + 12 ≤ e.l.scratchBytes → cd.cntb.toNat % 4 = 0 → sc = 6 ∨ sc = 7 → ∃ u, exec i s = .next u ∧
            u = { s with warps := u.warps, groups := u.groups } ∧ u.me.status = .held .coll ∧ u.me.pc = s.me.pc ∧
            u.me.word = some s.cur ∧ core u.me = core s.me ∧ (∀ id, id ≠ s.cur.warp → tget u.warps id = tget s.warps id) ∧
            (∀ g, g ≠ s.me.gid → tget u.groups g = tget s.groups g) ∧ u.myGroup = { s.myGroup with meet := u.myGroup.meet } ∧
            ∃ y, u.myGroup.meet = some y ∧ y = { m with issued := y.issued } ∧
              ∀ id, id ∈ y.issued ↔ (id ∈ m.issued ∨ id = s.cur.warp))))
    coll (.collAllreduce o) 0 ∧ coll (.collReducescatter o) 1 ∧ coll (.collAllgather o) 2 ∧ coll (.collBroadcast o) 3 ∧
    coll (.collA2av o) 4

/-- R380, R399, R400, R397, R415, R420 to R424, R204: COLLQ writes rank, size, flags and the calls under way; STAKE grants up to V stakes of a
PERSISTENT launch and acquires at .system, as R397 has every stake grant do; STAKEQ writes NEXT and N there
(elsewhere free values: log entry 23 of the model's choices); CNTRD reads a counter of its own or the named die, 0 where the interface
holds no core of it; CLKRD writes CLOCK, with TAG also the PC; HINTQ writes the first record of the table, in table order, that covers
its address, and looks no further than a record that it cannot read (log entry 24); DBGMARK writes a mark record, or the overflow flag;
both wait for a stack or link that is not ready (R411), and a word that neither can read as it was raises ECC_UNCORRECTABLE. -/
def Obligations.SystemInstructions : Prop :=
  ∀ (o : EOp) (s : State),
    let e := s.env
    let v := s.vi e.l.vi
    let dst := sNumber o.dst
    let words (i : Instr) (ws : List Word) : Prop := WritesWords i dst ws s s
    let poison (i : Instr) : Prop := Traps i { code := .poisonUse, info0 := o.a.code.setWidth 64 } s
    let val : Val := if o.a = .v 0 then { bits := (EOp.auxBits o).setWidth 64 } else scalarVal e .n32 o.a
    let k := min (count val) (e.l.stakes - e.l.nextStake)
    let n := ((EOp.auxBits o).extractLsb' 0 8).toNat
    let d := ((EOp.auxBits o).extractLsb' 8 3).toNat
    let die := if d = 0 then e.w.core / 64 else d - 1
    let defined : Prop := n ∈ [0, 1, 2, 3, 4, 5, 0x10, 0x11, 0x12, 0x13, 0x20, 0x21, 0x22, 0x30, 0x31, 0x40, 0x41, 0x42]
    let holds : Prop := ∃ c < 64, v.cores.getLsbD (64 * die + c) = true
    let now : DWord := BitVec.ofNat 64 s.clock
    let flag (b : Bool) (x : Nat) : Nat := if b then x else 0
    let pair' (i : Instr) (x : DWord) : Prop := ∃ u, exec i s = .next u ∧ SameMemory s u ∧ WentOn s u.me ∧
      (∀ p : Fin 3, SlotKept s.me u.me p) ∧ WroteScalar o.dst 2 { bits := x } s u
    let a := scalarVal e .n64 o.a
    let fails (i : Instr) (y : Nat) (s' : State) : Prop :=
      exec i s = .next (takeTrap { code := .eccUncorrectable, info0 := BitVec.ofNat 64 y } s')
    (Issues (.collq o) s → words (.collq o) [v.domRank &&& 0xFFF, v.domSize &&& 0x1FFF,
      BitVec.ofNat 32 (flag e.l.coll 4 + flag (v.domCtl.getLsbD 1) 2 + flag (v.domCtl.getLsbD 0) 1),
      BitVec.ofNat 32 (s.calls.countP fun c => c.2.gid == s.me.gid)]) ∧
    (Issues (.stake o) s → (e.l.kind ≠ .persistent → Traps (.stake o) (wordTrap s 1) s) ∧
      (e.l.kind = .persistent → val.p = true → poison (.stake o)) ∧
      (e.l.kind = .persistent → val.p = false → FliesScalars (.stake o) dst [BitVec.ofNat 32 e.l.nextStake, BitVec.ofNat 32 k] s
        { s.acquireAt e.w.core .system with launches := tput s.launches s.myGroup.lid { e.l with nextStake := e.l.nextStake + k } })) ∧
    (Issues (.stakeq o) s →
      (e.l.kind = .persistent → words (.stakeq o) [BitVec.ofNat 32 e.l.nextStake, BitVec.ofNat 32 e.l.stakes]) ∧
      (e.l.kind ≠ .persistent → ∃ x y, WritesWords (.stakeq o) dst [x, y] s { s with free := s.free + 2 })) ∧
    (Issues (.cntrd o) s → (¬defined ∨ 4 < d → Traps (.cntrd o) (illegal s) s) ∧
      (defined → d ≤ 4 → (holds → pair' (.cntrd o) (sget 0 v.counters (0x80 * die + n))) ∧
        (¬holds → pair' (.cntrd o) 0))) ∧
    (Issues (.clkrd o) s → pair' (.clkrd o) now) ∧
    (Issues (.clkrdTag o) s → words (.clkrdTag o) [lo32 now, hi32 now, lo32 s.me.pc, hi32 s.me.pc]) ∧
    (Issues (.hintq o) s → (a.p = true → poison (.hintq o)) ∧
      (a.p = false → (canonical a.bits = false → words (.hintq o) [0, 0, 0x1F, 0]) ∧
        (canonical a.bits = true →
          let c := e.w.core / 64
          let place (j : Nat) : Route := s.routeRange e.l.vi c 0 (v.hintBase + BitVec.ofNat 64 (16 * j)) 16
          let record (ls : List Nat) : Nat := bitsOfBytes (ls.map (s.dieByte c))
          let covers (x : Nat) : Prop := field x 0 64 ≤ a.bits.toNat ∧ a.bits.toNat < field x 0 64 + field x 96 32 * 0x10000
          let passed (j : Nat) : Prop := ∃ ls, place j = .cells ls ∧ s.readBad c ls = none ∧ ¬covers (record ls)
          let put (ws : List Word) (j : Nat) : Prop := WritesWords (.hintq o) dst ws s (s.hintTraffic v e.l.vi c (List.range j))
          ((∀ j < v.hintCnt.toNat, passed j) → put [0, 0, 0x1F, 0] v.hintCnt.toNat) ∧
          ∀ j < v.hintCnt.toNat, (∀ k < j, passed k) →
            match place j with
            | .cells ls =>
              let x := record ls
              (s.readBad c ls = none → covers x →
                put [BitVec.ofNat 32 x, BitVec.ofNat 32 (x / 2 ^ 32), BitVec.ofNat 32 (x / 2 ^ 64), BitVec.ofNat 32 (x / 2 ^ 96)] (j + 1)) ∧
              ∀ y, s.readBad c ls = some y → fails (.hintq o) y (s.readBadSeen e.l.vi c y)
            | .walk _ => exec (.hintq o) s = .next s
            | .ecc y => fails (.hintq o) y (s.readBadSeen e.l.vi c y)
            | _ => put [0, 0, 0x1F, 0] (j + 1)))) ∧
    (Issues (.dbgmark o) s →
      let goes (p : State → Prop) : Prop := ∃ u, exec (.dbgmark o) s = .next u ∧ WentOn s u.me ∧ (∀ p : Fin 3, SlotKept s.me u.me p) ∧
        core { u.me with watches := s.me.watches } = core s.me ∧ OthersStill s u ∧ p u
      (v.mkSize = 0 → goes fun u => u.vis = s.vis ∧ SameMemory s u) ∧
      (v.mkSize ≠ 0 →
        match s.routeRange e.l.vi e.w.die 1 (v.mkBase + BitVec.ofNat 64 (32 * (v.mkHead.toNat % v.mkSize.toNat))) 32 with
        | .cells ls => goes fun u => (u.vi e.l.vi).mkHead = v.mkHead + 1 ∧ Put ls (markRecord s e o) s u
        | .walk _ => exec (.dbgmark o) s = .next s
        | .ecc y => fails (.dbgmark o) y (s.eccSeen e.l.vi y)
        | _ => goes fun u => (u.vi e.l.vi).mkHead = v.mkHead ∧ (u.vi e.l.vi).trFlag.getLsbD 2 = true ∧ SameMemory s u))

/-! ## Events of a core and of the memory system -/

/-- The slot that an event names holds warp `id`, which is `w`. -/
def Sys2Proof.Stmt.InSlot (s : State) (id : Nat) (w : Warp) : Prop :=
  tget s.slots (32 * s.ev.core + s.ev.slot) = some id ∧ tget s.warps id = some w

/-- The step leaves warp `id` as `w` and nothing else changes. -/
def Sys2Proof.Stmt.OnlyWarp (i : Instr) (id : Nat) (w : Warp) (s : State) : Prop :=
  ∃ u, exec i s = .next u ∧ u = { s with warps := u.warps } ∧ tget u.warps id = some w ∧
    ∀ j, j ≠ id → tget u.warps j = tget s.warps j

/-- The values of producer `p` stand in its registers of `x`, which are full; every other register is as in `w` (R97, R99, R105). -/
def Sys2Proof.Stmt.WroteBack (p : Producer) (vals : List RegVal) (w x : Warp) : Prop :=
  x = { w with v := x.v, vP := x.vP, s := x.s, sP := x.sP, vE := x.vE, sE := x.sE, badRegs := x.badRegs,
               flight := w.flight.filter fun q => q.id != p.id } ∧
  if p.vec then
    x.s = w.s ∧ x.sP = w.sP ∧ x.sE = w.sE ∧
    ((vals.map RegVal.key).Nodup → ∀ v ∈ vals, x.vreg (v.key / 128) (v.key % 128) = v.val ∧
      x.vPoison (v.key / 128) (v.key % 128) = v.poison) ∧
    (∀ n l, l < 128 → (∀ v ∈ vals, v.key ≠ 128 * n + l) → SameV w x n l) ∧
    ∀ m < 256, x.vE.getLsbD m = (w.vE.getLsbD m && !decide (p.base ≤ m ∧ m < p.base + p.count))
  else
    x.v = w.v ∧ x.vP = w.vP ∧ x.vE = w.vE ∧
    ((vals.map RegVal.key).Nodup → ∀ v ∈ vals, v.key < 128 → x.sreg v.key = v.val ∧ x.sP.getLsbD v.key = v.poison) ∧
    (∀ n, n < 128 → (∀ v ∈ vals, v.key ≠ n) → SameS w x n) ∧
    ∀ m < 128, x.sE.getLsbD m = (w.sE.getLsbD m && !decide (p.base ≤ m ∧ m < p.base + p.count))

/-- R77, R97, R105, R109, R130, R131, R134, R113, R136: the events of a core. A block that a warp misses enters its core's instruction cache
as its die sees it, or raises ECC_UNCORRECTABLE where a word of it is uncorrectable (R416); a long-latency result fills its registers; a
branch penalty and a sleep end at their time; ICINV ends when what it waits for has drained, with the covered caches and loop buffers
empty; the oldest record of a trap is written where its ring has room, after the cycle in which it was raised; the slot of an ended
warp with nothing in flight is freed. -/
def Obligations.CoreEvents : Prop :=
  ∀ (s : State),
    let v := s.vi s.ev.vi
    (∀ id w, InSlot s id w →
      let vi := (s.launchOfWarp w).vi
      (∀ x ls, s.issuable w = true → s.fetchFor id = .miss x → canonical x.pc = true → s.fetchRoute vi x.core x.pc = .cells ls →
        (s.readBad (x.core / 64) ls = none → ∃ u, exec .icacheFill s = .next u ∧ u.mem = s.mem ∧ u.warp id = x ∧
          (∀ j, j ≠ id → tget u.warps j = tget s.warps j) ∧ u.groups = s.groups ∧ ∀ b, tget (u.core x.core).icache b =
            if b = x.pc.toNat / 32 then some (BitVec.ofNat 256 (bitsOfBytes (ls.map (s.dieByte (x.core / 64)))))
            else tget (s.core x.core).icache b) ∧
        (∀ a, s.readBad (x.core / 64) ls = some a → s.taskOf (s.group w.gid).lid id = none → ∃ u, exec .icacheFill s = .next u ∧ u.mem = s.mem ∧
          (u.warp id).status = .halted 0x13 ∧ (∀ b, tget (u.core x.core).icache b = tget (s.core x.core).icache b) ∧
          ∃ r, OneMore vi r s u ∧ r.code = 0x13 ∧ r.pc = x.pc ∧ r.info0 = BitVec.ofNat 64 a)) ∧
      (32 ≤ w.elig → OnlyWarp .fairnessCountExpire id { w with overdue := true } s) ∧
      (∀ p ∈ w.flight, p.id = s.ev.id → p.held = none → p.engine = false → (w.flight.map Producer.id).Nodup →
        ∃ x, OnlyWarp .longLatencyWriteback id x s ∧ WroteBack p p.vals w x) ∧
      (∀ t, w.status = .penalty t → t ≤ s.clock → OnlyWarp .branchPenaltyEnd id { w with status := .ready } s) ∧
      (∀ t, w.status = .asleep t → t ≤ s.clock → OnlyWarp .sleepExpire id { w with status := .ready } s) ∧
      (∀ t, w.status = .asleep t → s.clock < t → exec .sleepExpire s = .next s) ∧
      (∀ sc ids, w.status = .held (.icinv sc ids) → (∀ e ∈ (s.die w.die).wbuf ++ s.hostq, e.id ∉ ids) →
        let covers (c : Nat) : Bool := icinvCovers (s.vi vi) w.core sc c
        ∃ u, exec .icinvComplete s = .next u ∧ u = { s with warps := u.warps, cores := u.cores } ∧
          (∀ c, (u.core c) = if covers c then { s.core c with icache := [] } else s.core c) ∧
          (u.warp id).status = .ready ∧ (u.warp id).cont = .released ∧
          ∀ j x, tget s.warps j = some x → x.place.isSome = true → covers x.core = true → (u.warp j).loopBuf = []) ∧
      (w.status = .exited → w.flight = [] → ∃ u, exec .warpSlotRelease s = .next u ∧ u = { s with warps := u.warps, slots := u.slots } ∧
        tget u.slots (32 * s.ev.core + s.ev.slot) = none ∧ u.warp id = { w with place := none } ∧
        ∀ j, j ≠ id → tget u.warps j = tget s.warps j)) ∧
    (∀ r rest ls, v.trHeld = r :: rest → v.trBlocked = false → v.trBase ≠ 0 → v.trSize ≠ 0 →
      (v.trHead - v.trTail).toNat < v.trSize.toNat → r.clock < s.clock →
      s.routeRange s.ev.vi (r.core / 64) 1 (v.trBase + BitVec.ofNat 64 (64 * (v.trHead.toNat % v.trSize.toNat))) 64 = .cells ls →
      ∃ u, exec .trapRecordWrite s = .next u ∧ SameVi (u.vi s.ev.vi) { v with trHeld := rest, trHead := v.trHead + 1 } ∧
        Put ls r.bytes s u ∧ ∀ j, j ≠ s.ev.vi → SameVi (u.vi j) (s.vi j)) ∧
    (∀ r rest, v.trHeld = r :: rest → s.clock ≤ r.clock → exec .trapRecordWrite s = .next s)

/-- R193, R194, R195, R196, R198 to R201: an L1 sector that is evicted leaves every byte its core can reach at its latest value, and so does
the line that leaves a full L1 for another, of which an L1 holds 1,024 (log entry 91 for which line leaves); an entry of a boundary write buffer that no earlier one of its
sector precedes writes its bytes to memory, after the host writes of the sector that every die sees, and leaves the buffer, and so
does such a host write (log entry 92 for the queue of host writes); a release ends when its entries have drained and its warp's copies
and MVBs are performed (log entry 107 for CPINs and MVBs); a walk that has ended gives its warp its outcome, and a table outside global memory is a fault, by inference
(log entry 62); an invalidation leaves no cached translation in its range, once no MVB, copy or peer access that uses one is under
way. -/
def Obligations.MemoryEvents : Prop :=
  ∀ (s : State),
    let d := s.ev.die
    let c := s.ev.core
    let v := s.vi s.ev.vi
    let stale (x : Xlat) : Bool := v.sweeps s.ev.vi x
    (CachesWf s → ∃ u, exec .l1Eviction s = .next u ∧ tget (u.core c).l1 s.ev.addr = none ∧ (∀ a, latest u c a = latest s c a) ∧
      (∀ sec, sec ≠ s.ev.addr → (u.core c).sector sec = (s.core c).sector sec) ∧ ∀ k, k ≠ c → u.core k = s.core k) ∧
    (CachesWf s → ∀ sec,
      let lines (x : State) : List Nat := (x.core c).l1.map fun e => e.1 / 4
      let u := s.l1Room c sec
      (∀ a, latest u c a = latest s c a) ∧ (∀ k, k ≠ c → u.core k = s.core k) ∧
      ((lines s).eraseDups.length ≤ 1024 → (sec / 4 :: lines u).eraseDups.length ≤ 1024)) ∧
    (∀ e ∈ (s.die d).wbuf, e.id = s.ev.id → ((s.die d).wbuf.map WEntry.id).Nodup →
      (∀ x ∈ (s.die d).wbuf, x.id < e.id → x.sector ≠ e.sector) →
      ∃ u, exec .boundaryWriteDrain s = .next u ∧ (u.die d).wbuf = (s.die d).wbuf.filter (fun x => x.id != e.id) ∧
        (∀ a, u.mem.byte a = if a / 32 ≠ e.sector then s.mem.byte a else if e.mask.getLsbD (a % 32) = true then secByte e.data (a % 32)
          else shared s a) ∧
        (∀ id, (tget u.warps id).map still = (tget s.warps id).map still) ∧ u.groups = s.groups ∧ u.cores = s.cores) ∧
    (∀ e ∈ s.hostq, e.id = s.ev.id → (s.hostq.map WEntry.id).Nodup → (∀ x ∈ (s.die d).wbuf, x.id ≠ e.id) →
      (∀ x ∈ s.hostq.takeWhile (fun x => x.id != e.id), x.sector ≠ e.sector) →
      ∃ u, exec .boundaryWriteDrain s = .next u ∧ u.hostq = s.hostq.filter (fun x => x.id != e.id) ∧ u.cores = s.cores ∧
        (∀ a, u.mem.byte a = if a / 32 = e.sector ∧ e.mask.getLsbD (a % 32) = true then secByte e.data (a % 32) else s.mem.byte a) ∧
        (∀ id, (tget u.warps id).map still = (tget s.warps id).map still) ∧ u.groups = s.groups) ∧
    (∀ id w ids, InSlot s id w → w.status = .held (.release ids) → (∀ e ∈ (s.die w.die).wbuf ++ s.hostq, e.id ∉ ids) →
      (w.cont = .none → s.copying id = false) → OnlyWarp .releaseComplete id { w with status := .ready } s) ∧
    (∀ k ∈ (s.die d).walks, k.id = s.ev.id → ((s.die d).walks.map Walk.id).Nodup →
      (s.walk k.vi d k.va = .hole → exec .pageWalkComplete s = .fault .noSuchAddress) ∧
      (s.walk k.vi d k.va = .pending → exec .pageWalkComplete s = .next s) ∧
      (s.walk k.vi d k.va ≠ .hole → s.walk k.vi d k.va ≠ .pending → ∀ w, tget s.warps k.warp = some w →
        ∃ u, exec .pageWalkComplete s = .next u ∧ (u.die d).walks = (s.die d).walks.filter (fun x => x.id != k.id) ∧ u.mem = s.mem ∧
          (∀ ids, w.status = .held (.walks ids) → (u.warp k.warp).status =
            if ids.filter (· != k.id) = [] then .ready else .held (.walks (ids.filter (· != k.id)))) ∧
          (∀ ids, w.before = .held (.walks ids) → (u.warp k.warp).before =
            if ids.filter (· != k.id) = [] then .ready else .held (.walks (ids.filter (· != k.id)))) ∧
          ∃ acc, (u.warp k.warp).walkRes = w.walkRes ++ [(k.va / 65536, acc, s.walk k.vi d k.va)])) ∧
    (v.invGo = true → (∀ k ∈ s.cores, ∀ m ∈ k.2.mvbs, ∀ x ∈ m.pages, stale x = false) →
      (∀ k ∈ s.warps, k.2.staleAccess v s.ev.vi = false) →
      (∀ k ∈ s.cores, ∀ m ∈ k.2.copyq, (∃ x ∈ m.pages, stale x = true) → ∀ y ∈ s.vis, ∀ f ∈ y.2.flits, f.copy ≠ some (k.1, m.id)) →
      ∃ u, exec .invalidationComplete s = .next u ∧ u.mem = s.mem ∧ u.vi s.ev.vi = { v with invGo := false } ∧
        (∀ k ∈ u.cores, ∀ x ∈ k.2.tlb, stale x = false) ∧ (∀ k ∈ u.dies, ∀ x ∈ k.2.tlb, stale x = false) ∧
        ∀ id w, tget s.warps id = some w → (s.launchOfWarp w).vi = s.ev.vi → ∀ l x, tget (u.warp id).lastPage l = some x →
          stale x = false) ∧
    (v.invGo = false → exec .invalidationComplete s = .next s)

/-! ## Events of the engines -/

/-- Command `c` of the core's matrix engine is the one that the event names, of workgroup `g`, not suspended; nothing that it follows is
left (R242), and no SRAM word of the workgroup is uncorrectable. -/
structure Sys2Proof.Stmt.NextMat (s : State) (c : MatCmd) (g : Group) : Prop where
  queued : c ∈ (s.core s.ev.core).matq
  named : c.id = s.ev.id
  apart : ((s.core s.ev.core).matq.map MatCmd.id).Nodup
  first : ∀ d ∈ (s.core s.ev.core).matq, c.follows d = false
  group : tget s.groups c.gid = some g
  live : c.suspended = false
  good : g.badWords = []

/-- The scratchpad `m` after `bytes` are written at `off`, those from byte `lim` on lost. -/
def Sys2Proof.Stmt.scratchAfter (m : Memory) (off lim : Nat) (bytes : List Byte) (k : Nat) : Byte :=
  if off ≤ k ∧ k < off + bytes.length ∧ k < lim then bytes.getD (k - off) 0 else m.byte k

/-- R242, R245, R246, R252, R253, R256, R257: MMAT gives each element of its region the value of its product and leaves every other byte
of the accumulators; ACCZ zeroes its tile; ACCLD gives it the elements of the tile, rounded; ACCST writes the tile's bytes
and makes it READY; ACCRD fills its registers with its block. A check that has finished writes its record at the ring's
head and raises the head; it waits where a part of the ring is not ready (R411). -/
def Obligations.MatrixEvents : Prop :=
  ∀ (s : State) (c : MatCmd) (g : Group),
    let l := s.launchOf g.lid
    let k := s.core s.ev.core
    let inTile (b : Nat) : Prop := 8192 * c.acc ≤ b ∧ b < 8192 * c.acc + 8192 * accSlots c.fmt
    let rest (u : State) : Prop := u.mem = s.mem ∧ u.core s.ev.core = { k with matq := k.matq.filter fun d => d.id != c.id } ∧
      ∀ j, j ≠ c.gid → tget u.groups j = tget s.groups j
    let only (u : State) : Prop := rest u ∧ u.group c.gid = { g with acc := (u.group c.gid).acc }
    let rows := g.rowsOf l.scratchBytes c.offA c.descA
    let region := mmatRegion g l.scratchBytes c
    let stored := (List.range 64).flatMap (g.storeRow c)
    (NextMat s c g →
      (c.kind = .mmat → 16 * c.co + tileRows c.descB ≤ 64 → ∃ u, exec .mmatComplete s = .next u ∧ only u ∧
        (∀ x ∈ region, (u.group c.gid).accGet c.fmt c.acc x.1 x.2.1 = c.element x % 256 ^ accBytes c.fmt) ∧
        ∀ b, (∀ x ∈ region, ∀ j < accBytes c.fmt, b ≠ accAddr c.fmt c.acc x.1 x.2.1 + j) →
          sget 0 (u.group c.gid).acc b = sget 0 g.acc b) ∧
      (c.kind = .accz → ∃ u, exec .accumulatorMoveComplete s = .next u ∧ only u ∧
        ∀ b, sget 0 (u.group c.gid).acc b = if inTile b then 0 else sget 0 g.acc b) ∧
      (c.kind = .accld → tileRows c.descA = 64 → tileCols c.descA = 64 → ∃ u, exec .accumulatorMoveComplete s = .next u ∧ only u ∧
        (∀ i < 64, ∀ j < 64, (u.group c.gid).accGet c.fmt c.acc i j =
          ((accFmt c.fmt).round .ne false (numScale (Desc.scale c.descA) ((rows.getD i []).getD j .zero))).1 % 256 ^ accBytes c.fmt) ∧
        ∀ b, ¬inTile b → sget 0 (u.group c.gid).acc b = sget 0 g.acc b) ∧
      (c.kind = .accst → ∀ t x, c.tileA = some t → tget g.tiles t = some x → ∃ u, exec .accstComplete s = .next u ∧ rest u ∧
        tget (u.group c.gid).tiles t = some { x with st := .ready } ∧
        ∀ b, (u.group c.gid).scratch.byte b = scratchAfter g.scratch c.offA l.scratchBytes stored b) ∧
      (c.kind = .accst → (∀ t ∈ c.tileA, tget g.tiles t = none) → ∃ u, exec .accstComplete s = .next u ∧ rest u)) ∧
    (∀ w p, InSlot s c.warp w → p ∈ w.flight → p.id = s.ev.id → (w.flight.map Producer.id).Nodup → p.held = none → p.engine = true →
      c.kind = .accrd → c.prod = p.id → c ∈ k.matq → tget s.groups c.gid = some g → c.suspended = false → g.badWords = [] →
      (∀ d ∈ k.matq, d.kind = .accrd → d.warp = c.warp → d.prod = c.prod → d = c) → (∀ d ∈ k.matq, c.follows d = false) →
      ∃ u, exec .longLatencyWriteback s = .next u ∧ rest u ∧ WroteBack p (g.readBlock c l.w p.base) w (u.warp c.warp)) ∧
    ∀ x : Check, x ∈ s.checks → x.id = s.ev.id → (s.checks.map Check.id).Nodup →
      let die := x.core / 64
      (∀ a, s.routeRange x.vi die 1 x.cfg.base 8 = .walk a → exec .checkComplete s = .next s) ∧
      ∀ hs, s.routeRange x.vi die 1 x.cfg.base 8 = .cells hs → s.readBad die hs = none →
        let head := bitsOfBytes (hs.map (s.dieByte die))
        let place := s.routeRange x.vi die 1 (x.cfg.base + BitVec.ofNat 64 (64 + 32 * (head % x.cfg.size))) 32
        (∀ a, place = .walk a → exec .checkComplete s = .next s) ∧
        ∀ ls, place = .cells ls →
          let record := leBytes s.clock 8 ++ leBytes (x.core + 0x10000 * x.acc) 4 ++ leBytes x.seq 4 ++ leBytes x.wid.toNat 8 ++
            leBytes x.abs.toNat 4 ++ leBytes x.rel.toNat 4
          ∃ u, exec .checkComplete s = .next u ∧ u.checks = s.checks.filter (fun y => y.id != x.id) ∧ u.groups = s.groups ∧
            Put (ls ++ hs) (record ++ leBytes (head + 1) 8) s u

/-- R249, R250, R251, R235, R254, R272 to R274, R276: the MVB that arrived first at its stack fills its registers, or its y tile, scaled as
the tile stores it and READY then, with the products of the rows that it names, 0 beyond the last, or is suspended with a record
where it meets an uncorrectable word; TIDSET replaces its entry by the descriptor that it reads, or raises the trap of the first
check that fails; a copy that completes leaves its queue, sets the state of its tile and arrives at its phase barrier, which it does in
no cycle in which its core has issued already (R276); one that reaches a row at peers asks them for it first, as an event of its own, by
inference (log entry 110); one that meets a fault is suspended at that row with a record. A row of a CPIN that no task buffers is read
as its core sees it, zero outside the tensor. -/
def Obligations.CopyEvents : Prop :=
  ∀ (s : State),
    let core' := s.ev.core
    let k := s.core core'
    (∀ (c : MvbCmd) (g : Group), c ∈ k.mvbs → c.id = s.ev.id → (k.mvbs.map MvbCmd.id).Nodup → c.suspended = false →
      s.partReady (0x1000000000 * c.home) = true → tget s.groups c.gid = some g →
      (∀ x ∈ s.cores, ∀ d ∈ x.2.mvbs, d.home = c.home → d.suspended = false → c.seq ≤ d.seq) →
      let l := s.launchOf g.lid
      let bad := s.mvbBad g c (if c.rd then l.w else c.yRows)
      let y (i : Nat) : Word := s.mvbY core' c (mvbX g l.scratchBytes s.free c) (c.row0 + i)
      let left (u : State) : Prop := u.mem = s.mem ∧
        u.core core' = { k with mvbs := k.mvbs.filter fun d => d.id != c.id, l1 := (u.core core').l1 } ∧
        (∀ a, latest u core' a = latest s core' a) ∧ ∀ j, j ≠ c.gid → tget u.groups j = tget s.groups j
      (bad ≠ none → ∃ u, exec .mvbComplete s = .next u ∧ u.mem = s.mem ∧ u.groups = s.groups ∧ u.warps = s.warps ∧
        u.core core' = { k with mvbs := k.mvbs.map fun d => if d.id = c.id then { d with suspended := true } else d } ∧
        ∃ r, OneMore l.vi r s u ∧ r.code = 0x13 ∧ r.pc = c.pc ∧ r.slot = c.slot ∧ r.core = core') ∧
      (bad = none → c.rd = true → ∀ w p, tget s.warps c.warp = some w → p ∈ w.flight → p.id = c.prod → (w.flight.map Producer.id).Nodup →
        ∃ u, exec .mvbComplete s = .next u ∧ left u ∧ WroteBack p (((List.range l.w).filter fun i => c.exec.getLsbD i).map fun i =>
          { key := 128 * p.base + i, val := y i, poison := false }) w (u.warp c.warp)) ∧
      (bad = none → c.rd = false → ∀ x, tget g.tiles c.yTile = some x → ∃ u, exec .mvbComplete s = .next u ∧ left u ∧
        tget (u.group c.gid).tiles c.yTile = some { x with st := .ready } ∧
        ∀ b, (u.group c.gid).scratch.byte b =
          scratchAfter g.scratch c.yOff l.scratchBytes ((List.range c.yRows).flatMap fun i => leBytes (yStored c.yDesc (y i)) 4) b)) ∧
    (∀ id w a scratch cur, InSlot s id w → w.status = .held (.tidset a scratch) → w.word = some cur → w.stopping = none →
      let g := s.group w.gid
      let l := s.launchOf g.lid
      let rs := descRoutes s { w := w, g := g, l := l } (BitVec.ofNat 64 a)
      s.bad = [] → g.badWords = [] → (s.core w.core).badTags = [] → (s.die (w.core / 64)).badTags = [] → ∀ bytes : List Byte, (if scratch then bytes = g.scratch.bytes a 128
        else ∃ ls : List (List Nat), rs = ls.map Route.cells ∧ Room s w.core ls.flatten ∧ bytes = ls.flatten.map (sees s w.core)) →
      let d : BitVec 1024 := BitVec.ofNat 1024 (bitsOfBytes bytes)
      (descFault d = none → ∃ u, exec .tidsetComplete s = .next u ∧ u.mem = s.mem ∧ u.groups = s.groups ∧
        (u.launchOf g.lid).tid (wordTid cur.bits) = d ∧
        (∀ n, n ≠ wordTid cur.bits → (u.launchOf g.lid).tid n = l.tid n) ∧
        (u.warp id).pc = w.pc + BitVec.ofNat 64 cur.adv ∧ (u.warp id).status = .ready) ∧
      ∀ c o, descFault d = some (c, o) → s.taskOf g.lid id = none → ∃ u, exec .tidsetComplete s = .next u ∧ u.mem = s.mem ∧
        u.launches = s.launches ∧ (u.warp id).status = .halted (trapNumber c) ∧ (u.warp id).pc = w.pc ∧
        ∃ r, OneMore l.vi r s u ∧ r.code = trapNumber c ∧ r.info0 = cur.bits.extractLsb' 0 64 ∧
          r.info1 = BitVec.ofNat 64 o) ∧
    (∀ (c : CopyCmd) (g : Group), s.copyReady = some c → tget s.groups c.gid = some g →
      let r := s.runCopy c
      let x := r.1
      let l := s.launchOf g.lid
      let late : Prop := c.pb ≠ none ∧ k.issueClock = s.clock
      (r.2.2 = none → r.2.1 = iterations c.regs → late → exec .copyComplete s = .next s) ∧
      (r.2.2 = none → r.2.1 = iterations c.regs → ¬late → (tget x.groups c.gid).isSome = true → ∃ u, exec .copyComplete s = .next u ∧
        (u.core core').copyq = (x.core core').copyq.filter (fun d => d.id != c.id) ∧ u.mem = x.mem ∧
        (∀ y, tget (x.group c.gid).tiles c.tile = some y → tget (u.group c.gid).tiles c.tile =
          some { y with st := if c.out = true ∧ c.keep = false then .empty else .ready }) ∧
        (c.pb = none → (u.group c.gid).scratch = (x.group c.gid).scratch) ∧
        ∀ off, c.pb = some off → off + 8 ≤ (x.launchOf (x.group c.gid).lid).scratchBytes →
          let b := x.pbar c.gid off
          u.pbar c.gid off = settled { b with tok := (b.tok + 4095) % 4096 }) ∧
      let pages := x.pagesOf l.vi (core' / 64) (c.move r.2.1).addr (c.move r.2.1).len
      (r.2.2 = some .ask → ∃ u, exec .copyComplete s = .next u ∧ u.mem = x.mem ∧ u.groups = x.groups ∧ (u.core core').copyq =
        (x.core core').copyq.map (fun d => if d.id = c.id then { c with done := r.2.1, asked := true, peer := [], pages := pages } else d)) ∧
      (∀ y, r.2.2 = some (.fault y) → ∃ u, exec .copyFault s = .next u ∧ u.mem = x.mem ∧ u.groups = x.groups ∧ (u.core core').copyq =
        (x.core core').copyq.map (fun d => if d.id = c.id then { c with done := r.2.1, suspended := true, asked := false, peer := [] } else d) ∧
        ∃ rec', OneMore (x.launchOf (x.group c.gid).lid).vi rec' x u ∧
          rec'.code = trapNumber y.code ∧ rec'.pc = c.pc ∧ rec'.info0 = y.info0 ∧ rec'.info1 = copyInfo c r.2.1 y.level) ∧
      ∀ m : RowMove, ∀ ls : List Nat, c.out = false → s.bufferOf g.lid c.warp = none → ls.length = m.len → Room s core' ls →
        let rb := tileRB c.tdesc
        ∀ b, ((moveRow core' c g.lid l.scratchBytes m ((List.range m.len).zip ls) [] s).group c.gid).scratch.byte b =
          scratchAfter g.scratch (c.off + m.row * rb) l.scratchBytes
            (List.replicate m.at_ 0 ++ ls.map (sees s core') ++ List.replicate (rb - m.at_ - m.len) 0) b)

/-! ## Events of the rotation engine and of the task engine -/

/-- R282 to R287, R291, R296, R297, R305, R398, R417: a workgroup whose warps have ended and whose engines are idle leaves its core
and counts as retired in its launch and its monument entries, which go through to their homes (log entry 96); a place that is found
starts an unstarted workgroup with its warps at the first instruction, or brings a parked one back, and counts those that it passes
over; where there is none a victim is to park for it, and its core is then the claimed one's (log entry 25 for the claim and the
count); the park is abandoned where the victim wakes or meets at a COLL, or where no absent workgroup needs its room any more; else
the victim is saved at its rotation point; a completed save leaves it parked with its slots free, its parts in its save area (log
entry 9 for the bytes that the manual leaves open) and counts it in PARKW; a completed restore makes it resident with its scratchpad and
accumulators as its save area holds them; a fault suspends it (log entry 129 for the tables and the pool), and an uncorrectable word parks
it again with its queue in ERROR; a quantum expires; a recognised loop (log entry 127) of a warp that is about to issue waits on its
sectors. -/
def Obligations.RotationEvents : Prop :=
  ∀ (s : State),
    let gid := s.ev.wg
    let puts (g : Group) (k n : Nat) (m1 m2 : Monument) (full : Prop) (u : State) : Prop :=
      let l := s.launchOf g.lid
      let i := l.entryIndex g k n
      (u.launchOf g.lid).monument g k n = m2 ∧
      ∀ ls, s.monRoute l i 1 = .cells ls → (full → (s.monPut g.lid g k n m1).monRoute l i 1 = .cells ls) → Put ls m2.bytes s u
    (∀ g, tget s.groups gid = some g →
      let l := s.launchOf g.lid
      let d := g.core / 64
      (g.state = .resident → (∀ id ∈ g.warps, (s.warp id).status = .exited ∧ (s.warp id).place = none) → s.engineIdle gid = true →
        s.surveyed g = false → s.rampOk l.vi d l.granules = true → l.killed = false →
        ∃ u, exec .workgroupRetire s = .next u ∧ tget u.groups gid = none ∧ (∀ id ∈ g.warps, tget u.warps id = none) ∧
          (u.launchOf g.lid).retired = l.retired + 1 ∧ u.cores = s.cores ∧ u.slots = s.slots ∧
          (l.barriers.filter (fun b => decide (3 ≤ b.1)) = [] → u.mem = s.mem) ∧
          ∀ k n, l.barriers.filter (fun b => decide (3 ≤ b.1)) = [(k, n)] →
            let m := l.monument g k n
            let a := if g.arrived.contains (16 * k + n) then m.arrived - 1 else m.arrived
            let m1 := { m with arrived := a, retired := m.retired + 1 }
            let full : Prop := a + (m.retired + 1) = m.expect
            puts g k n m1 (if full then { m1 with ph := !m.ph, arrived := 0, parkw := 0 } else m1) full u) ∧
      let needed : Prop := ∃ c, l.claim = some c ∧ c.victim = gid ∧ (∃ k, (k, c.absent) ∈ s.runnable g.lid) ∧
        s.chooseCore l c.absent = none
      (g.state = .resident → g.parking = true → (g.wasWaiting = true ∧ s.wakes g = true) ∨ g.meet.isSome = true ∨ ¬needed →
        ∃ u, exec .parkStart s = .next u ∧ u = { s with groups := tput s.groups gid { g with parking := false }, launches := u.launches } ∧
          ((∀ c, l.claim = some c → c.victim ≠ gid) → u.launches = s.launches) ∧
          (∀ c, l.claim = some c → c.victim = gid → u.launches = tput s.launches g.lid { l with claim := none })) ∧
      (g.state = .resident → g.parking = true → (g.wasWaiting && s.wakes g) = false → needed → s.liveWarps g ≠ [] →
        s.atPoint gid g = true → CachesWf s → ∃ u, exec .parkStart s = .next u ∧
          (∃ b, u.group gid = { g with state := .saving, parking := false, wasWaiting := b }) ∧
          (∀ a, latest u g.core a = latest s g.core a) ∧ (u.die d).wbuf = [] ∧
          ∀ j, j ≠ gid → tget u.groups j = tget s.groups j) ∧
      (g.state = .saving → g.suspended = false → s.rampOk l.vi d l.granules = true → s.contextStop l g 1 = none →
        g.notices = [] → g.badWords = [] → (∀ id ∈ g.warps, (s.warp id).badRegs = []) →
        let mcs := Config.monumentShare l.vi d
        let x := (saveParts l g (s.wakes g) mcs s.clock s.free).foldl (fun x p => x.savePart l g d p.1 p.2)
          { s with free := s.free + 4096 * l.savePerRule }
        ∃ u, exec .saveComplete s = .next u ∧ (u.group gid).state = .parked ∧ (u.group gid).parkClock = s.clock ∧
          (u.group gid).mcs = mcs ∧ (u.group gid).passed = 0 ∧ (s.parkedOn g = [] → u.mem = x.mem) ∧
          (∀ k n, s.parkedOn g = [(k, n)] → let m := l.monument g k n
            (u.launchOf g.lid).monument g k n = { m with parkw := min 65535 (m.parkw + 1) }) ∧ (∀ e ∈ u.slots, e.2 ∉ g.warps) ∧
          (∀ e ∈ s.slots, e.2 ∉ g.warps → e ∈ u.slots) ∧ ∀ id ∈ g.warps, (u.warp id).place = none) ∧
      (g.state = .saving → g.suspended = false → s.rampOk l.vi d l.granules = true → ∀ va x a,
        s.contextStop l g 1 = some (.faulted va x, a) → ∃ u, exec .saveComplete s = .next u ∧ u.mem = s.mem ∧
          u.group gid = { g with suspended := true } ∧ ∃ r, OneMore l.vi r s u ∧ r.code = 0x0D ∧ r.flags / 4 % 2 = 1 ∧
            r.info0 = canonOf va ∧ r.info1 = BitVec.ofNat 64 g.linear ∧ r.pc = (s.warp (g.warps.headD 0)).pc) ∧
      (g.state = .restoring → g.suspended = false → g.first = true → ∃ u, exec .restoreComplete s = .next u ∧ u.mem = s.mem ∧
        (u.group gid).state = .resident ∧ (u.group gid).first = false ∧ (u.group gid).expired = false ∧
        (u.group gid).resSince = s.clock ∧ (u.group gid).notices = [] ∧ u.slots = s.slots) ∧
      (g.state = .restoring → g.suspended = false → g.first = false → s.contextStop l g 0 = none → s.saveBad l g d = none →
        ∃ u, exec .restoreComplete s = .next u ∧ (g.notices = [] → s.parkedOn g = [] → u.mem = s.mem) ∧
          (∀ k n, g.notices = [] → s.parkedOn g = [(k, n)] → let m := l.monument g k n
            (u.launchOf g.lid).monument g k n = { m with parkw := m.parkw - 1 }) ∧ (u.group gid).state = .resident ∧
          (u.group gid).expired = false ∧ (u.group gid).resSince = s.clock ∧
          (∀ i, i < l.scratchBytes → (u.group gid).scratch.byte i = (u.loadPart l g d l.scratchPart l.scratchBytes).getD i 0) ∧
          ∀ i, i < 8192 * l.slots → sget 0 (u.group gid).acc i = (u.loadPart l g d l.accPart (8192 * l.slots)).getD i 0) ∧
      (g.state = .restoring → g.suspended = false → g.first = false → s.contextStop l g 0 = none → ∀ a, s.saveBad l g d = some a →
        ∃ u, exec .restoreComplete s = .next u ∧ u.mem = s.mem ∧ u.group gid = { g with state := .parked, suspended := true } ∧
          (u.queue l.vi l.q).error = some (3, 1) ∧ ∃ r, OneMore l.vi r s u ∧ r.code = 0x13 ∧ r.info0 = BitVec.ofNat 64 a) ∧
      (l.kind = .full → g.state = .resident → g.expired = false →
        (s.clock < g.resSince + l.quantum → exec .quantumExpire s = .next s) ∧
        (g.resSince + l.quantum ≤ s.clock → ∃ u, exec .quantumExpire s = .next u ∧ u = { s with groups := u.groups, vis := u.vis } ∧
          u.group gid = { g with expired := true } ∧ ∀ j, j ≠ gid → tget u.groups j = tget s.groups j))) ∧
    (∀ (l : Launch) (k : Nat) (x : Absent) (rest : List (Nat × Absent)) (c : Nat) (slots : List Nat),
      tget s.launches s.ev.launch = some l → l.kind ≠ .task → l.frozen = false → l.killed = false →
      s.claimDue s.ev.launch l = some (k, x, c, slots) ∨
        (s.claimDue s.ev.launch l = none ∧ s.runnable s.ev.launch = (k, x) :: rest ∧ s.chooseCore l x = some (c, slots)) →
      s.rampOk l.vi (c / 64) l.granules = true →
      (∀ n, x = .unstarted n → ∃ u, exec .workgroupPlace s = .next u ∧ u.mem = s.mem ∧ slots.length = l.warps ∧ slots.Nodup ∧
        let g := u.group s.nextGroup
        g.lid = s.ev.launch ∧ g.linear = n ∧ g.f = l.fieldsOf n ∧ g.state = .restoring ∧ g.core = c ∧ g.g = [] ∧ g.scratch = [] ∧
        (∀ i < slots.length, tget u.slots (32 * c + slots.getD i 0) = some (s.nextWarp + i) ∧
          let w := u.warp (s.nextWarp + i)
          w.gid = s.nextGroup ∧ w.f1 = i ∧ w.place = some (c, slots.getD i 0) ∧ w.pc = l.codeBase ∧ w.exec = allLanes l.w ∧
          w.status = .ready ∧ w.s = [] ∧ w.v = [] ∧ w.scc = false) ∧ (u.launchOf s.ev.launch).passed = l.passed ∧
        (l.skipped.Nodup → (∀ m ∈ l.skipped, m < l.nextWg) → ∀ m, sget 0 (u.launchOf s.ev.launch).jumped m = sget 0 l.jumped m +
          if m < n ∧ (m ∈ l.skipped ∨ (l.nextWg ≤ m ∧ n ∉ l.skipped)) then 1 else 0) ∧
        (∀ j, j ≠ s.nextGroup → tget u.groups j = tget s.groups j) ∧
        ∀ j, (j < s.nextWarp ∨ s.nextWarp + slots.length ≤ j) → tget u.warps j = tget s.warps j) ∧
      (∀ gid g, x = .parked gid → tget s.groups gid = some g → s.neverRestorable l gid = 0 → g.warps.Nodup →
        ∃ u, exec .workgroupPlace s = .next u ∧ u.mem = s.mem ∧ u.group gid = { g with state := .restoring, core := c } ∧
          (∀ e ∈ g.warps.zip slots, (s.warp e.1).status ≠ .exited → u.warp e.1 = { s.warp e.1 with place := some (c, e.2) } ∧
            tget u.slots (32 * c + e.2) = some e.1) ∧ (u.launchOf s.ev.launch).passed = l.passed + 1 ∧
          ∀ j, j ≠ gid → tget u.groups j = (tget s.groups j).map fun y =>
            if y.lid = s.ev.launch ∧ y.state = .parked ∧ s.wakes y = false ∧ y.wasWaiting = false ∧
              (k = 1 ∨ listLe y.parkKey g.parkKey = true) then { y with passed := y.passed + 1 } else y)) ∧
    (∀ (l : Launch) (k : Nat) (x : Absent) (rest : List (Nat × Absent)),
      tget s.launches s.ev.launch = some l → l.kind = .full → l.frozen = false → l.killed = false →
      s.claimDue s.ev.launch l = none → s.runnable s.ev.launch = (k, x) :: rest →
      (s.chooseCore l x = none → (∀ gid, x = .parked gid → s.neverRestorable l gid = 0) →
        (∀ e ∈ s.groups, e.2.lid = s.ev.launch → e.2.parking = false ∧ e.2.state ≠ .saving) →
        ∀ vg, s.victim s.ev.launch l x = some vg → ∃ u, exec .workgroupPlace s = .next u ∧ u.mem = s.mem ∧ u.warps = s.warps ∧
          u.launchOf s.ev.launch = { l with claim := some (x.claim vg (s.group vg).core) } ∧
          u.group vg = { s.group vg with parking := true, wasWaiting := s.groupWaits (s.group vg) } ∧
          ∀ j, j ≠ vg → tget u.groups j = tget s.groups j) ∧
      (∀ gid, x = .parked gid → s.neverRestorable l gid ≠ 0 → ∃ u, exec .workgroupPlace s = .next u ∧ u.mem = s.mem ∧
        u.groups = s.groups ∧ (u.queue l.vi l.q).error = some (3, 0) ∧ ∃ r, OneMore l.vi r s u ∧ r.code = 0x14 ∧
          r.info0 = BitVec.ofNat 64 (s.neverRestorable l gid) ∧ r.info1 = BitVec.ofNat 64 (s.group gid).linear)) ∧
    (∀ l g die off bytes ls, bytes ≠ [] → bytes.length ≤ 32 → s.saveRoute l g die 1 off bytes.length = .cells ls →
      Put ls bytes s (s.savePart l g die off bytes)) ∧
    (∀ id w, InSlot s id w → w.plumb.recognised = true →
      let moving : Prop := w.status = .ready ∨ ∃ t, w.status = .penalty t
      (moving → ∃ u, exec .plumbRecognise s = .next u ∧ u.mem = s.mem ∧ (u.warp id).status = .waiting (.plumb w.plumb.sectors) ∧
        (u.warp id).pc = w.pc ∧ (u.warp id).woken = w.plumb.hit ∧ ∀ j, j ≠ id → tget u.warps j = tget s.warps j) ∧
      (¬moving → exec .plumbRecognise s = .next s))

/-- R311, R313, R315, R318, R324, R327, R331, R333, R397: a core on which fewer than min(16, 96/REGS) tasks run takes the least of its
candidates by their triples: the queued tasks of its die, or where there is none those of every die, and the upper parts of the range
tasks that can be split; it runs with a new warp at its entry, and the lower part of a range that is split stays with its task. Direct
mode begins with the buffer of the task as plain stores. The frontier that has finished commits: its bytes are in memory, its record is
gone, no L1 of the launch keeps a sector that it wrote, and a stalled new frontier goes on in direct mode. A launch all of whose work is
done ends once all it wrote is at its home, with its completion signal, and its packet completes. -/
def Obligations.TaskEvents : Prop :=
  ∀ (s : State),
    let c := s.ev.core
    (∀ (lid : Nat) (l : Launch) (x : Work) (slot : Nat) (rest : List Nat),
      s.launches.find? (fun e => e.2.kind == .task && e.2.cores.contains c && !e.2.frozen && !e.2.killed) = some (lid, l) →
      s.fit l c 1 none = some (slot :: rest) → slot < min 16 (96 / max 1 l.regs) →
      let ts := s.tasksOf lid
      (ts.countP fun e => e.2.core == c && e.2.st.hasWarp) < min 16 (96 / max 1 l.regs) → s.rampOk l.vi (c / 64) l.granules = true →
      let first (a b : Task) : Prop := a.ts.toNat < b.ts.toNat ∨ (a.ts = b.ts ∧
        ((1 ≤ (b.seq - a.seq).toNat ∧ (b.seq - a.seq).toNat < 2 ^ 31) ∨ (a.seq = b.seq ∧ a.lo.toNat < b.lo.toNat)))
      let queued (e : Nat × Task) : Prop := e ∈ ts ∧ e.2.st = .queued
      let half (t : Task) : Word := BitVec.ofNat 32 (t.hi.toNat - (t.hi.toNat - t.cur.toNat) / 2)
      let candidate (y : Work) (lo : Task) : Prop := match y with
        | .queued tid => queued (tid, lo) ∧ (lo.die = c / 64 ∨ ∀ e, queued e → e.2.die ≠ c / 64)
        | .split tid => ∃ t, (tid, t) ∈ ts ∧ t.st.hasWarp = true ∧ t.range = true ∧ t.pin = false ∧ t.cur.toNat + 2 ≤ t.hi.toNat ∧
          lo = { ts := t.ts, seq := t.seq, lo := half t, hi := t.hi, cur := half t, range := true, narg := t.narg,
                 entry := t.entry, args := t.args, die := t.die }
      (∃ y, candidate x y ∧ ∀ z w, candidate z w → (z, w) ≠ (x, y) → first y w ∧ ¬first w y) →
      let id := s.nextWarp
      let starts (entry : Nat) (p : State → Prop) : Prop := ∃ u, exec .taskDispatch s = .next u ∧ u.mem = s.mem ∧
        tget u.slots (32 * c + slot) = some id ∧ (u.group s.nextGroup).warps = [id] ∧ (u.group s.nextGroup).lid = lid ∧
        (u.group s.nextGroup).state = .resident ∧ p u ∧
        u.warp id = { gid := s.nextGroup, place := some (c, slot), pc := l.codeBase + BitVec.ofNat 64 (4 * entry), exec := allLanes l.w } ∧
        ∀ j, j ≠ id → tget u.warps j = tget s.warps j
      (∀ tid k t, x = .queued tid → tget s.tasks tid = some (k, t) → starts t.entry fun u =>
        tget u.tasks tid = some (lid, { t with st := .running, core := c, warp := id }) ∧
        ∀ j, j ≠ tid → tget u.tasks j = tget s.tasks j) ∧
      (∀ tid k t, x = .split tid → tget s.tasks tid = some (k, t) → tid ≠ s.nextTask → starts t.entry fun u =>
        tget u.tasks tid = some (lid, { t with hi := half t, split := true }) ∧
        ∃ y, tget u.tasks s.nextTask = some (lid, y) ∧ y.ts = t.ts ∧ y.seq = t.seq ∧ y.lo = half t ∧ y.cur = half t ∧ y.hi = t.hi ∧
          y.st = .running ∧ y.core = c ∧ y.warp = id ∧ y.parent = none ∧ y.args = t.args)) ∧
    (∀ tid lid t, tget s.tasks tid = some (lid, t) → CachesWf s → Room s t.core (t.wbuf.map Prod.fst) →
      let u := s.enterDirect tid
      u.mem = s.mem ∧ tget u.tasks tid = some (lid, { t with st := .direct, wbuf := [] }) ∧
      ∀ a, sees u t.core a = written t.wbuf (sees s t.core a) a) ∧
    (∀ tid t, s.frontier s.ev.launch = some (tid, t) → tget s.tasks tid = some (s.ev.launch, t) → t.st = .finished →
      s.copying t.warp = false → (s.launchOf s.ev.launch).killed = false →
      let x := s.releaseDevice t.warp t.core
      ∃ u, exec .taskCommit s = .next u ∧ tget u.tasks tid = none ∧
        let next := ({ s with tasks := tdel s.tasks tid } : State).frontier s.ev.launch
        ((∀ k y, next = some (k, y) → Room s y.core (y.wbuf.map Prod.fst)) →
          ∀ a, shared u a = written t.wbuf (shared x a) a) ∧
        ((∀ k y, next = some (k, y) → y.st ≠ .stalled ∧ y.st ≠ .deferred) → ∀ c ∈ (s.launchOf s.ev.launch).cores,
          ∀ sec, sec ∈ t.wset ∨ sec ∈ t.wbuf.map (fun e => sectorOf e.1) → ((u.core c).sector sec).valid = 0) ∧
        ∀ k y, next = some (k, y) → tget s.tasks k = some (s.ev.launch, y) → y.st = .stalled →
          tget u.tasks k = some (s.ev.launch, { y with st := .direct, wbuf := [] }) ∧ (u.warp y.warp).status = .ready) ∧
    (∀ tid t, s.frontier s.ev.launch = some (tid, t) → t.st ≠ .finished → exec .taskCommit s = .next s) ∧
    (∀ l, tget s.launches s.ev.launch = some l → s.launchDone s.ev.launch l = true →
      let q := s.queue l.vi l.q
      let y := s.launchRelease l
      let done (i : Instr) (m : Nat → Byte) : Prop := ∃ x : State, exec i s = .next (x.settleQueues l.vi) ∧
        tget x.launches s.ev.launch = none ∧ (∀ a, x.mem.byte a = m a) ∧ (∀ d < 4, (x.die d).wbuf = []) ∧ x.hostq = [] ∧
        x.queue l.vi l.q = { q with packet := none, lid := none, preempt := none, notice := false, qrptr := q.qrptr + 1 }
      (l.sig = false → done .launchComplete y.mem.byte) ∧
      (∀ ls, l.sig = true → s.frontAcc l.vi 2 l.csig 8 = .cells ls → done .launchComplete fun a =>
        written (ls.zip (leBytes (leAt (y.homeBytes ls) 0 8 + l.cval.toNat) 8)) (y.mem.byte a) a)) ∧
    (∀ l, tget s.launches s.ev.launch = some l → s.launchDone s.ev.launch l = false → exec .launchComplete s = .next s)

/-! ## Events of the collective engine and of the fabric -/

/-- In `u` call `id`, `c`, has ended with this code and detail: its status word is written, its phase barrier has one arrival more, and
nothing else differs from `x` in memory but that what waited in the buffer of its die has reached its home (R221, R231, R275, R375,
R379). -/
def Sys2Proof.Stmt.Ended (id : Nat) (c : Call) (code detail : Nat) (x u : State) : Prop :=
  tget u.calls id = none ∧ (u.die c.die).wbuf = [] ∧
  (CachesWf x → ∀ a, u.mem.byte a = if isHost a then x.mem.byte a else x.dieByte c.die a) ∧
  ∀ g, tget x.groups c.gid = some g → c.pb + 12 ≤ (x.launchOf g.lid).scratchBytes →
    let b := x.pbar c.gid c.pb
    (u.group c.gid).scratch.bytes (c.pb + 8) 4 = leBytes (code + 256 * min detail (2 ^ 24 - 1)) 4 ∧
    u.pbar c.gid c.pb = settled { b with pendw := b.pendw - 1 } ∧
    ∀ k, (k < c.pb ∨ c.pb + 12 ≤ k) → (u.group c.gid).scratch.byte k = g.scratch.byte k

/-- R369, R374 to R381: a closed meeting becomes a call, its warps go on and the calls of its TAG count one more, or it ends at
once where a member is lost; a landed chunk raises its counter by one, at a peer by an atomic to it; without counters (CNTB = 0) it also
lands as an event of its own, which is the model's choice (log entry 45); a call ends DONE with its result in memory, once every counter
has risen, or with CRYPT_REDUCE_CONFLICT, MISMATCH at the lowest member that differs, OVERFLOW, COUNTS_EXCEEDED or PEER_LOST; a fault
suspends it with a record; a member that has not matched for longer than TIMEOUT makes it end PEER_LOST. -/
def Obligations.CollectiveEvents : Prop :=
  ∀ (s : State),
    let id := s.ev.call
    (∀ g m, tget s.groups s.ev.wg = some g → g.meet = some m → s.meetClosed g m = true → s.callsOf s.ev.wg < 16 →
      s.calls.length < 256 → (s.launchOf g.lid).killed = false → (∀ k ∈ s.liveWarps g, s.copying k = false) →
      let c := s.meetCall s.ev.wg g m
      (((s.vi c.vi).lostMember c = none → ∃ u, exec .collAccept s = .next u ∧ u.group s.ev.wg = { g with meet := none } ∧
          (∃ y, tget u.calls s.nextCall = some y ∧
            y = { c with staged := y.staged, counts := y.counts, raised := y.raised, stage := y.stage }) ∧
          sget 0 (u.vi c.vi).tagNext c.tag = sget 0 (s.vi c.vi).tagNext c.tag + 1 ∧
          ∀ k ∈ m.issued, (s.warp k).status = .held .coll → (u.warp k).status = .ready ∧ (u.warp k).cont = .met) ∧
        ∀ i, (s.vi c.vi).lostMember c = some i → ∃ u x, exec .collAccept s = .next u ∧ x.groups = tput s.groups s.ev.wg { g with meet := none } ∧
          x.launches = s.launches ∧ Ended s.nextCall c 6 i x u)) ∧
    (∀ c, tget s.calls id = some c →
      let v := s.vi c.vi
      let ends (i : Instr) (code detail : Nat) (x : State) : Prop := ∃ u, exec i s = .next u ∧ Ended id c code detail x u
      let vals (i : Nat) : List Nat := ((v.memberVals c i).getD []).take 9
      (∀ i, v.differs c = some i → i < c.count ∧ vals i ≠ vals 0 ∧ ∀ j < i, vals j = vals 0) ∧
      (∀ i, v.lostMember c = some i → i < c.count ∧ i ≠ c.me ∧ c.first + i * c.stride ∈ v.lost ∧
        ∀ j < i, j ≠ c.me → c.first + j * c.stride ∉ v.lost) ∧
      (∀ i, v.unmatched c = some i → i < c.count ∧ v.memberVals c i = none ∧ ∀ j < i, j ≠ c.me → (v.memberVals c j).isSome = true) ∧
      (∀ i, v.lostMember c = some i → ends .collComplete 6 i s) ∧
      let counting : Prop := ∃ f ∈ v.flits, ∃ k, f.call = some (id, k)
      (v.lostMember c = none → c.suspended = true ∨ v.matched c = false ∨ counting → exec .collComplete s = .next s) ∧
      (v.lostMember c = none → c.suspended = false → v.matched c = true → ¬counting →
        (v.cryptConflict c = true → ends .collComplete 2 0 s) ∧
        (v.cryptConflict c = false → ∀ i, v.differs c = some i → ends .collComplete 3 i s) ∧
        (v.cryptConflict c = false → v.differs c = none →
          (c.kind ≠ 4 → c.stage = 3 → c.cntb = 0 ∨ c.left = [] → (∀ k ∈ c.left, s.chunkReady c k = true) →
            ends .collComplete 1 0 (s.writeResult c)) ∧
          (c.kind = 4 → 2 ≤ c.stage → v.exceeded c = true → ends .collComplete 5 0 s) ∧
          (c.kind = 4 → c.stage = 3 → v.exceeded c = false → s.landingReady c = true →
            (v.receivedAll c ≤ Desc.ext c.rdesc 1 → ends .collComplete 1 0 (s.writeLanding c)) ∧
            (Desc.ext c.rdesc 1 < v.receivedAll c → ends .collComplete 4 (v.receivedAll c) (s.writeLanding c))))) ∧
      (∀ i, v.unmatched c = some i →
        (c.start + 2400 * v.domTmo.toNat < s.clock → ends .matchTimeout 6 i s) ∧
        (s.clock ≤ c.start + 2400 * v.domTmo.toNat → exec .matchTimeout s = .next s)) ∧
      (v.unmatched c = none → exec .matchTimeout s = .next s) ∧
      (c.stage = 3 → c.suspended = false → c.kind ≠ 4 → c.tile = none → s.ev.chunk ∈ c.left → s.chunkReady c s.ev.chunk = true →
        let x := s.landChunk c s.ev.chunk
        let y := x.engineRelease c.die
        let place := x.collRoute c (c.counterAcc s.ev.chunk)
        let raised (p : State → Prop) : Prop := ∃ u, exec .chunkCounterRaise s = .next u ∧
          tget u.calls id = some { c with raised := c.raised ++ [s.ev.chunk] } ∧ p u
        (c.cntb = 0 → raised fun u => u.mem = x.mem) ∧
        (∀ ls, c.cntb ≠ 0 → place = .cells ls → raised fun u => Put ls (leBytes (bitsOfBytes (ls.map (shared y)) + 1) 4) y u) ∧
        ∀ rank a, c.cntb ≠ 0 → place = .peer rank a → rank ∉ v.lost → sget 0 v.txCtr rank + 1 < 2 ^ 63 → raised fun u =>
          u.mem = y.mem ∧ ∃ f ∈ (u.vi c.vi).flits, f.rank = rank ∧ f.kind = .atomic ∧ f.addr = a ∧ f.len = 4 ∧ f.data = leBytes 1 4 ∧
            f.call = some (id, s.ev.chunk)) ∧
      (∀ k r bs ls, c.tile = none → v.chunkBytes c k = some [(r, bs)] →
        s.collRoute c { a := rowAddr c.desc r + BitVec.ofNat 64 (c.chunkFrom k), n := bs.length, acc := 1 } = .cells ls →
        Put ls bs s (s.landChunk c k)) ∧
      (∀ k r bs g, c.tile.isSome = true → v.chunkBytes c k = some [(r, bs)] → tget s.groups c.gid = some g →
        let lim := (s.launchOf g.lid).scratchBytes
        ∀ b, ((s.landChunk c k).group c.gid).scratch.byte b = scratchAfter g.scratch (c.off + r * c.rb + c.chunkFrom k) lim bs b) ∧
      (c.suspended = false → c.stage = 0 → ∀ o, s.tileBad c = some o → ∃ u, exec .collFault s = .next u ∧ u.mem = s.mem ∧
        tget u.calls id = some { c with suspended := true } ∧ ∃ r, OneMore c.vi r s u ∧ r.code = 0x13 ∧
          r.info0 = sramPlace (s.group c.gid).core o ∧ r.info1 = BitVec.allOnes 64 ∧ r.pc = c.pc ∧ r.slot = c.slot) ∧
      ∀ info1 code flags a, c.suspended = false → (c.stage = 0 → s.tileBad c = none) →
        ((s.nextAccs c).findSome? fun x => (s.collFaultOf c [x.2]).map fun f => (x.1, f)) = some (info1, code, flags, a) → ∃ u, exec .collFault s = .next u ∧ u.mem = s.mem ∧
          tget u.calls id = some { c with suspended := true } ∧ ∃ r, OneMore c.vi r s u ∧ r.code = trapNumber code ∧
            r.flags / 4 % 2 = flags / 4 % 2 ∧ r.info0 = a ∧ r.info1 = info1 ∧ r.pc = c.pc ∧ r.slot = c.slot ∧
            r.core = (s.group c.gid).core)

/-- R223, R366 to R369, R376, R406: a flit that fails its check, whose counter was accepted before or lies below the replay window, or
that comes on an encrypted domain without keys, is dropped and counted (log entry 43 for the window and the missing keys); a flit that
is accepted is not accepted again. A read request and an atomic within the fabric window are answered with the bytes, which an atomic
replaces (the bytes of an uncorrectable word are free values: log entry 124); a write within it is performed and acknowledged; outside it
each is answered with its refusal. An answer serves as acknowledgement (log entry 42) and reaches the lane, the copy or the call that waits
for it, a call being suspended where its counter is refused (log entry 126); what a peer sends for a call is kept for it; a repeat takes
the next counter and keeps its clock (log entry 44); a peer that has stayed silent for longer than TIMEOUT is lost with all that waits
for it; keys make every peer of an encrypted domain fresh, and with ENC = 0 leave the counters as they are, which is the model's choice
(log entry 121). -/
def Obligations.FabricEvents : Prop :=
  ∀ (s : State),
    let vi := s.ev.vi
    let v := s.vi vi
    let src := s.ev.src
    let got (v' : Vi) : Prop := s.fabricReady = true ∧ v.accept src s.ev.ctr s.ev.ok = some v'
    let inside (n : Nat) : Prop := v.fwinBase.toNat ≤ s.ev.addr ∧ s.ev.addr + n ≤ v.fwinBase.toNat + v.fwinSize.toNat ∧
      s.ev.addr + n ≤ 2 ^ 40
    let able : Prop := src ∉ v.lost ∧ sget 0 v.txCtr src + 1 < 2 ^ 63
    let locs (n : Nat) : List Nat := (List.range n).map (s.ev.addr + ·)
    let old (n : Nat) (data : List Byte) : Prop := data.length = n ∧
      ∀ i < n, s.bad.contains ((s.ev.addr + i) / 8) = false → data.getD i 0 = s.mem.byte (s.ev.addr + i)
    let answers (u : State) (data : List Byte) (no : Bool) : Prop := (u.vi vi).flits = v.flits ++
      [{ rank := src, ctr := sget 0 v.txCtr src, kind := .readResponse, tag := s.ev.tag, nth := s.ev.nth, data := data,
         refused := no, sent := s.clock }]
    let acks (u : State) (no : Bool) : Prop := ∃ f, (u.vi vi).lastAck = some f ∧ f.rank = src ∧ f.kind = .ack ∧ f.tag = s.ev.tag ∧
      f.nth = s.ev.nth ∧ f.refused = no
    let less (f : Flit) : List Flit := v.flits.filter fun g => !(g.rank == f.rank && g.ctr == f.ctr)
    let reaches (u : State) (f : Flit) (data : List Byte) (no : Option Nat) : Prop := (u.vi vi).flits = less f ∧ u.mem = s.mem ∧
      ∀ id w, f.warp = some id → tget s.warps id = some w → w.status = .held .peer →
        (u.warp id).answers = w.answers ++ [{ lane := f.nth, data := data, refused := no }] ∧ (u.warp id).cont = .answered ∧
        ((∀ g ∈ less f, g.warp ≠ some id) → (u.warp id).status = .ready) ∧
        ((∃ g ∈ less f, g.warp = some id) → (u.warp id).status = .held .peer)
    let reachesEngine (u : State) (f : Flit) (data : List Byte) (no : Option Nat) : Prop := f.warp = none →
      (∀ core id, f.copy = some (core, id) → (u.core core).copyq = (s.core core).copyq.map fun c =>
        if c.id = id then { c with peer := c.peer ++ [{ lane := f.nth, data := data, refused := no }] } else c) ∧
      ∀ id k c, f.copy = none → f.call = some (id, k) → tget s.calls id = some c →
        tget u.calls id = if no = none then some c else some { c with suspended := true, raised := c.raised.filter (· != k) }
    let notes (i : Instr) (x : State) : Prop := exec i s = .next (match s.callFor vi s.ev.tag s.ev.nth with
      | some id => (x.callAdvance id).endLostCalls vi
      | none => x.endLostCalls vi)
    let prior : PeerCall := (v.peerCall src s.ev.tag s.ev.nth).getD { src := src, tag := s.ev.tag, nth := s.ev.nth }
    let keeps (i : Instr) (p : PeerCall → Prop) : Prop := ∃ x, notes i x ∧ x.calls = s.calls ∧ x.mem = s.mem ∧ x.groups = s.groups ∧
      acks x false ∧ ∃ y, (x.vi vi).peerCall src s.ev.tag s.ev.nth = some y ∧ p y
    (∀ ok, (v.accept src s.ev.ctr ok).isSome = true ↔ ok = true ∧ (v.domCtl.getLsbD 0 = true → v.keys = true) ∧
      let c := nearestCtr (sget 0 v.rxHigh src - 1) (s.ev.ctr % 2 ^ 32)
      sget 0 v.rxHigh src ≤ c + 4096 ∧ c ∉ (tget v.rxSeen src).getD []) ∧
    (∀ v' ok, got v' → v'.accept src s.ev.ctr ok = none) ∧
    (s.fabricReady = true → v.accept src s.ev.ctr s.ev.ok = none →
      let drops (i : Instr) : Prop := exec i s = .next { s with vis := tput s.vis vi { v with dropped := v.dropped + 1 } }
      (s.peerWaits s.ev.len = false → drops .readRequest ∧ drops .atomic) ∧ (s.peerWaits s.ev.data.length = false → drops .write) ∧
      drops .readResponse ∧ drops .acknowledgement ∧ drops .collectiveData ∧ drops .collectiveControl) ∧
    (∀ v', got v' → s.peerWaits s.ev.len = false → able →
      (∃ u, exec .readRequest s = .next u ∧ u.mem = s.mem ∧ (inside s.ev.len → ∃ data, old s.ev.len data ∧ answers u data false) ∧
        (¬inside s.ev.len → answers u [] true)) ∧
      ∃ u, exec .atomic s = .next u ∧ (¬inside s.ev.len → answers u [] true ∧ u.mem = s.mem) ∧
        (inside s.ev.len → ∃ data, old s.ev.len data ∧ answers u data false ∧
          match atomicNew s.ev.maj s.ev.flag s.ev.len (bitsOfBytes data) (s.ev.val.toNat % 2 ^ (8 * s.ev.len))
              (s.ev.val2.toNat % 2 ^ (8 * s.ev.len)) with
          | some x => Put (locs s.ev.len) (leBytes x s.ev.len) s u
          | none => u.mem = s.mem)) ∧
    (∀ v', got v' → s.peerWaits s.ev.data.length = false → ∃ u, exec .write s = .next u ∧
      (inside s.ev.data.length → acks u false ∧ Put (locs s.ev.data.length) s.ev.data s u) ∧
      (¬inside s.ev.data.length → acks u true ∧ u.mem = s.mem)) ∧
    (∀ v' f, got v' → sget 0 v.txCtr src + 1 < 2 ^ 63 → (∀ g ∈ v.flits, g.kind ≠ .ack) →
      v.asked src s.ev.tag s.ev.nth (fun k => k == .readRequest || k == .atomic) = some f → ∃ u, exec .readResponse s = .next u ∧
        reaches u f s.ev.data (if s.ev.flag then some 9 else none) ∧ reachesEngine u f s.ev.data (if s.ev.flag then some 9 else none)) ∧
    (∀ v' f, got v' → v.flits.find? (fun g => g.rank == src && g.ctr == s.ev.val.toNat && g.kind != .readRequest && g.kind != .atomic) = some f →
      ∃ u, exec .acknowledgement s = .next u ∧ reaches u f [] (if s.ev.flag then some 9 else none) ∧
        reachesEngine u f [] (if s.ev.flag then some 9 else none)) ∧
    (∀ v', got v' → sget 0 v.txCtr src + 1 < 2 ^ 63 →
      keeps .collectiveData (fun y => y.vals = prior.vals ∧ y.counted = prior.counted ∧
        ∀ o, tget y.data o = if s.ev.addr ≤ o ∧ o < s.ev.addr + s.ev.data.length then some (s.ev.data.getD (o - s.ev.addr) 0)
          else tget prior.data o) ∧
      keeps .collectiveControl (fun y => y = if s.ev.flag then { prior with counted := true } else { prior with vals := some s.ev.nums })) ∧
    (∀ f, v.flits.find? (fun g => g.rank == src && g.ctr == s.ev.ctr) = some f → sget 0 v.txCtr src + 1 < 2 ^ 63 →
      (∀ e ∈ s.calls, e.2.vi = vi → v.lostMember e.2 = none) → ∃ u, exec .flitResend s = .next u ∧ u = { s with vis := u.vis } ∧ sget 0 (u.vi vi).txCtr src = sget 0 v.txCtr src + 1 ∧
        (u.vi vi).flits = v.flits.map fun g => if g.rank = src ∧ g.ctr = s.ev.ctr then { g with ctr := sget 0 v.txCtr src } else g) ∧
    ((∃ f ∈ v.flits, f.rank = src ∧ f.sent + 2400 * v.domTmo.toNat < s.clock) → ∃ u, exec .peerTimeout s = .next u ∧
      src ∈ (u.vi vi).lost ∧ (∀ f ∈ (u.vi vi).flits, f.rank ≠ src) ∧
      ((v.flits.map fun f => (f.rank, f.ctr)).Nodup → ∀ f ∈ v.flits, f.rank = src → ∀ id, f.warp = some id →
        (s.warp id).status = .held .peer → (tget s.warps id).isSome = true →
          ({ lane := f.nth, data := [], refused := some 10 } : Answer) ∈ (u.warp id).answers)) ∧
    ((∀ f ∈ v.flits, f.rank = src → s.clock ≤ f.sent + 2400 * v.domTmo.toNat) → exec .peerTimeout s = .next s) ∧
    (v.tdisp = .run → v.domCtl.getLsbD 0 = false → exec .domainKeyLoad s = .next { s with vis := tput s.vis vi { v with keys := true } }) ∧
    (v.tdisp = .run → v.domCtl.getLsbD 0 = true → ∃ u, exec .domainKeyLoad s = .next u ∧ u = { s with vis := u.vis } ∧
      (u.vi vi).keys = true ∧ (u.vi vi).lost = [] ∧
      (∀ r, sget 0 (u.vi vi).txCtr r = 0) ∧ ∀ f, f ∈ (u.vi vi).flits ↔ f ∈ v.flits ∧ f.rank ∉ v.lost) ∧
    (v.tdisp ≠ .run → exec .domainKeyLoad s = .next s)

/-! ## Events of the front end -/

/-- `i` does what `P` says and then raises the pre-emption requests that are due on interface `vi` (R403). -/
def Sys2Proof.Stmt.Settles (i : Instr) (vi : Nat) (s : State) (P : State → Prop) : Prop :=
  ∃ x : State, exec i s = .next (x.settleQueues vi) ∧ P x

/-- In `u` queue `q` is `x`; every other queue, and memory, is as in `s`. -/
def Sys2Proof.Stmt.OnlyQueue (vi q : Nat) (x : Queue) (s u : State) : Prop :=
  u.queue vi q = x ∧ (∀ r, r ≠ q → u.queue vi r = s.queue vi r) ∧ SameMemory s u ∧ u.launches = s.launches

/-- The next packet of the queue that the event names may start and its slot can be read: its bytes are `bs`, a packet of type `ty` (R392). -/
structure Sys2Proof.Stmt.AtPacket (ty : Nat) (bs : List Byte) (s : State) : Prop where
  ready : s.startable s.ev.vi s.ev.q = true
  room : (s.queue s.ev.vi s.ev.q).pending ≤ (s.queue s.ev.vi s.ev.q).slots
  slot : ∃ ls, s.frontAcc s.ev.vi 0 (s.queue s.ev.vi s.ev.q).slotAddr 128 = .cells ls ∧ bs = s.homeBytes ls
  type : leAt bs 0 1 = ty

/-- The queue of the event enters ERROR with this code and detail (R391). -/
def Sys2Proof.Stmt.Fails (i : Instr) (code detail : Nat) (s : State) : Prop :=
  ∃ u, exec i s = .next u ∧ (u.queue s.ev.vi s.ev.q).error = some (code, detail) ∧ (u.queue s.ev.vi s.ev.q).packet = none

/-- The queue after its packet has completed. -/
def Sys2Proof.Stmt.pastPacket (x : Queue) : Queue := { x with packet := none, lid := none, preempt := none, notice := false, qrptr := x.qrptr + 1 }

/-- R391, R392, R397, R398: a packet of each small type: NOP only completes, MARKER writes QMARK, TIMESTAMP writes CLOCK and SIGNAL
its value or the sum, each after what waits on the front end's die has drained; WAIT completes once its word is at least
VAL; COPYH moves its bytes. A packet beyond the ring, of an unknown type or with a reserved bit (log entry 54 for which offset DETAIL
names), and an access that faults or meets an uncorrectable word, put the queue in ERROR. -/
def Obligations.PacketEvents : Prop :=
  ∀ (s : State) (bs : List Byte),
    let vi := s.ev.vi
    let q := s.ev.q
    let x := s.queue vi q
    let a : DWord := BitVec.ofNat 64 (leAt bs 8 8)
    let val : DWord := BitVec.ofNat 64 (leAt bs 16 8)
    let y := s.frontRelease vi
    let done (i : Instr) (x : Queue) (m : Nat → Byte) : Prop := Settles i vi s fun u => u.queue vi q = pastPacket x ∧
      (∀ r, r ≠ q → u.queue vi r = s.queue vi r) ∧ ∀ k, u.mem.byte k = m k
    let ok (ty : Nat) : Prop := AtPacket ty bs s ∧ badPacket ty bs = none
    let put (ls : List Nat) (n : Nat) (k : Nat) : Byte := written (ls.zip (leBytes n 8)) (y.mem.byte k) k
    let kind : List (Nat × Instr) := [(1, .launch), (2, .launchb), (3, .wait), (4, .signal), (5, .marker), (6, .timestamp), (7, .copyh),
      (8, .nopPacket)]
    (ok 8 → done .nopPacket x s.mem.byte) ∧ (ok 5 → done .marker { x with qmark := val } s.mem.byte) ∧
    (ok 6 → (∀ ls, s.frontAcc vi 1 a 8 = .cells ls → done .timestamp x (put ls s.clock)) ∧
      (s.frontAcc vi 1 a 8 = .fault → Fails .timestamp 6 6 s) ∧ (s.frontAcc vi 1 a 8 = .wait → exec .timestamp s = .next s)) ∧
    (ok 4 → leAt bs 2 1 % 2 = 0 → (∀ ls, s.frontAcc vi 1 a 8 = .cells ls → done .signal x (put ls val.toNat)) ∧
      (s.frontAcc vi 1 a 8 = .fault → Fails .signal 6 4 s)) ∧
    (ok 4 → leAt bs 2 1 % 2 = 1 → (∀ ls, s.frontAcc vi 2 a 8 = .cells ls →
        done .signal x (put ls (leAt (y.homeBytes ls) 0 8 + val.toNat))) ∧
      (s.frontAcc vi 2 a 8 = .fault → Fails .signal 6 4 s)) ∧
    (ok 3 → (∀ ls, s.frontAcc vi 0 a 8 = .cells ls → ∃ u, exec .wait s = .next u ∧
        OnlyQueue vi q { x with packet := some (.wait a val) } s u) ∧ (s.frontAcc vi 0 a 8 = .fault → Fails .wait 6 3 s)) ∧
    (∀ b v ls, x.packet = some (.wait b v) → s.frontAcc vi 0 b 8 = .cells ls →
      (v.toNat ≤ leAt (s.homeBytes ls) 0 8 → done .waitSatisfied x s.mem.byte) ∧
      (leAt (s.homeBytes ls) 0 8 < v.toNat → exec .waitSatisfied s = .next s)) ∧
    (ok 7 → ∃ u, exec .copyh s = .next u ∧ u.queue vi q = { x with packet := some (.copyh a val (leAt bs 24 8)) } ∧
      ∀ k, u.mem.byte k = y.mem.byte k) ∧
    (∀ src dst n as bs', x.packet = some (.copyh src dst n) → n ≠ 0 → s.frontAcc vi 0 src n = .cells as →
      s.frontAcc vi 1 dst n = .cells bs' → (∀ k ∈ as, k ∉ bs') →
      Settles .copyhComplete vi s fun u => u.queue vi q = pastPacket x ∧ (∀ r, r ≠ q → u.queue vi r = s.queue vi r) ∧
        Put bs' (as.map s.mem.byte) s u) ∧
    (∀ src dst, x.packet = some (.copyh src dst 0) → done .copyhComplete x s.mem.byte) ∧
    (∀ ty i, (ty, i) ∈ kind →
      (s.startable vi q = false → exec i s = .next s) ∧
      (s.startable vi q = true → x.slots < x.pending → Fails i 5 0xFFFF s) ∧
      (s.startable vi q = true → x.pending ≤ x.slots → s.frontAcc vi 0 x.slotAddr 128 = .fault → ∃ d, Fails i 6 d s) ∧
      (∀ t, t = 0 ∨ 8 < t → AtPacket t bs s → Fails i 5 0 s) ∧
      (∀ o, AtPacket ty bs s → (ty ≤ 2 → s.holdsCores vi q = true) → badPacket ty bs = some o → Fails i 5 o s) ∧
      (AtPacket ty bs s → ty ≤ 2 → s.holdsCores vi q = false → exec i s = .next s) ∧
      (∀ t, 0 < t → t ≤ 8 → t ≠ ty → AtPacket t bs s → exec i s = .next s))

/-- `n` bytes at address `a` of the front end are `bs`; none are read where `n` is 0. -/
def Sys2Proof.Stmt.Reads (s : State) (a : DWord) (n : Nat) (bs : List Byte) : Prop :=
  (n = 0 ∧ bs = []) ∨ (n ≠ 0 ∧ ∃ ls, s.frontAcc s.ev.vi 0 a n = .cells ls ∧ bs = s.homeBytes ls)

/-- R21, R393 to R396, R312: a launch packet whose image, tensor records, supplied bases and constant segment can be read starts the
launch that they describe, a TASK launch with its root task (on the die of the first reserved core, which is the model's choice: log
entry 31), with its monument entries and its survey group table written (log entries 83 and 98 for where that lies and whom it is hidden
from), or is refused with the first reason that holds (log entries 55 and 57 for what the manual leaves open of the reasons), the queue in
ERROR; LAUNCHB first takes the first bucket that holds its shapes, reason 13 where none does. -/
def Obligations.LaunchEvents : Prop :=
  ∀ (s : State) (bs hs ts us ks : List Byte) (b : Bool) (p : LaunchPkt),
    let vi := s.ev.vi
    let q := s.ev.q
    let i : Instr := if b then .launchb else .launch
    let shapes : DWord := BitVec.ofNat 64 (leAt bs 0x30 8)
    let btab : DWord := BitVec.ofNat 64 (leAt bs 8 8)
    let nsh := leAt bs 0x38 4 % 8
    let nb := leAt bs 0x38 4 / 256 % 32
    let counts : Prop := btab.toNat % 64 = 0 ∧ shapes.toNat % 16 = 0 ∧ 1 ≤ nsh ∧ nsh ≤ 4 ∧ 1 ≤ nb ∧ nb ≤ 16
    let holds (x : Bucket) (sh : List Byte) : Prop := ∀ i < nsh, x.lo.getD i 0 ≤ leAt sh (4 * i) 4 ∧ leAt sh (4 * i) 4 ≤ x.hi.getD i 0
    let bucket (tab : List Byte) (n : Nat) : Bucket := Bucket.of ((tab.drop (64 * n)).take 64)
    let ty := if b then 2 else 1
    let started : Prop := AtPacket ty bs s ∧ s.holdsCores vi q = true ∧ badPacket ty bs = none
    let packet : Prop := if b then counts ∧ ∃ sh tab n, Reads s shapes 16 sh ∧ Reads s btab (64 * nb) tab ∧ n < nb ∧
        holds (bucket tab n) sh ∧ (∀ m < n, ¬holds (bucket tab m) sh) ∧ (bucket tab n).reserved = false ∧
        p = { LaunchPkt.of bs with hdr := (bucket tab n).hdr, ext := (bucket tab n).ext }
      else p = LaunchPkt.of bs
    let h := Hdr.of hs
    let recs := (List.range h.ntid).map fun i => TensorRec.of ((ts.drop (136 * i)).take 136)
    let bases := (List.range (openTids recs).length).map fun i => BitVec.ofNat 64 (leAt us (8 * i) 8)
    let cs := coresOf ((s.vi vi).coreSet (s.queue vi q))
    let l := launchOfPacket vi q s.clock cs p h (withBases recs bases) []
    let image : Prop := started ∧ packet ∧ Reads s p.hdr 0x180 hs
    let tensors : Prop := image ∧ headerBad p h = false ∧ Reads s (p.hdr + 0x180) (136 * h.ntid) ts
    let all : Prop := tensors ∧ recs.any TensorRec.reserved = false ∧ Reads s p.tbases (8 * (openTids recs).length) us
    (image → headerBad p h = true → Fails i 1 1 s) ∧
    (tensors → recs.any TensorRec.reserved = true → Fails i 1 1 s) ∧
    (all → ∀ n, refusal cs p h (withBases recs bases) bases l = some n → 2 ≤ n ∧ n ≤ 12 ∧ Fails i 1 n s) ∧
    (all → refusal cs p h (withBases recs bases) bases l = none → Reads s h.const h.constSize ks →
      ∀ ls, s.frontAcc vi 1 l.save 256 = .cells ls → Settles i vi s fun u =>
      (∃ m, tget u.launches s.nextLaunch = some { l with const := Memory.writeBytes [] 0 ks, mon := m } ∧
        ((∀ k ∈ [3, 4, 5, 6], l.monuCount k = 0) → m = [] ∧ Put ls ((List.range 16).flatMap fun g => svBytes (tget l.survey g)) s u) ∧
        ∀ k ∈ [3, 4, 5, 6], ∀ n < l.monuCount k, ∀ j < l.groupsAt k,
          let g : Group := { lid := s.nextLaunch, f := l.groupFields k j }
          tget m (l.entryIndex g k n) = some { key := l.key g k, level := k, num := n, expect := l.membersAt k }) ∧
      u.nextLaunch = s.nextLaunch + 1 ∧ u.queue vi q = { s.queue vi q with packet := some (.launch b), lid := some s.nextLaunch } ∧
      (h.kind ≠ 2 → u.tasks = s.tasks) ∧
      (h.kind = 2 → ∃ t, tget u.tasks s.nextTask = some (s.nextLaunch, t) ∧ t.st = .queued ∧ t.ts = 0 ∧ t.entry = 0 ∧
        t.args = p.args.map (BitVec.ofNat 32) ∧ t.die = l.cores.headD 0 / 64)) ∧
    (started → packet → s.frontAcc vi 0 p.hdr 0x180 = .fault → Fails i 6 ty s) ∧
    (b = true → started → ¬counts → Fails i 1 1 s) ∧
    (b = true → started → counts → ∀ sh tab n, Reads s shapes 16 sh → Reads s btab (64 * nb) tab → n < nb → holds (bucket tab n) sh →
      (∀ m < n, ¬holds (bucket tab m) sh) → (bucket tab n).reserved = true → Fails i 1 1 s) ∧
    (b = true → started → counts → ∀ sh tab, Reads s shapes 16 sh → Reads s btab (64 * nb) tab →
      (∀ n < nb, ¬holds (bucket tab n) sh) → Fails i 1 13 s)

/-- R389, R390, R401 to R404: the doorbell and the bits of QCTL are written, and a reset of a queue that is IDLE or in ERROR empties
it; a core set goes to the ready queue of highest priority that may have it (log entry 37), away from those that hold part of it, and
notes the layout of its queue-state record (log entry 100); a quantum that is over is noted; a launch whose grace has ended after a
request is killed and its queue is PREEMPTED; a ramp window begins anew. A pre-emption request, which follows what makes it due (log
entry 69), notes CLOCK and writes 1 at QNOTE, in 8 bytes (log entry 58), as soon as its stack is ready. -/
def Obligations.QueueEvents : Prop :=
  ∀ (s : State),
    let vi := s.ev.vi
    let q := s.ev.q
    let x := s.queue vi q
    let st := s.queueState vi q
    let d := s.die s.ev.die
    let v := s.vi vi
    Settles .qwptrWrite vi s (OnlyQueue vi q { x with qwptr := lo32 s.ev.val } s) ∧
    Settles .queueEnable vi s (OnlyQueue vi q { x with en := true } s) ∧
    (∃ u, exec .queueDisable s = .next u ∧ OnlyQueue vi q { x with en := false } s u) ∧
    (st = 0 ∨ st = 3 → ∃ u, exec .queueReset s = .next u ∧ (x.lid = none → SameMemory s u) ∧ u.queue vi q =
      { x with en := s.ev.flag, qrptr := x.qwptr, error := none, lid := none, packet := none, preempt := none, notice := false }) ∧
    (st ≠ 0 → st ≠ 3 → Settles .queueReset vi s (OnlyQueue vi q { x with en := s.ev.flag } s)) ∧
    (s.nextHolder vi = none → exec .coreSetGrant s = .next s) ∧
    (∀ r, s.nextHolder vi = some r → s.mayTake vi r = true ∧ r < 16 ∧
      (∀ p < 16, s.mayTake vi p = true → (s.queue vi p).qprio.toNat ≤ 8 → (s.queue vi p).qprio.toNat ≤ (s.queue vi r).qprio.toNat) ∧
      Settles .coreSetGrant vi s fun u =>
        ((∀ p < 16, p ≠ r → ((s.queue vi p).keep &&& v.coreSet (s.queue vi r)) = 0) → SameMemory s u) ∧
        (u.queue vi r).keep = v.coreSet (s.queue vi r) ∧ (u.queue vi r).grantClock = s.clock ∧
        (u.queue vi r).grantQuant = (s.queue vi r).qquant.toNat ∧ (u.queue vi r).quantExp = false ∧ (u.queue vi r).qlv = s.ctl.running.qlvs.head? ∧
        ∀ p < 16, p ≠ r → ((s.queue vi p).keep &&& v.coreSet (s.queue vi r)) ≠ 0 →
          u.queue vi p = { s.queue vi p with keep := 0, quantExp := false }) ∧
    (x.keep ≠ 0 → x.grantClock + 2400 * x.grantQuant ≤ s.clock →
      ∃ u, exec .queueQuantumExpire s = .next u ∧ OnlyQueue vi q { x with quantExp := true } s u) ∧
    (x.keep = 0 ∨ s.clock < x.grantClock + 2400 * x.grantQuant → exec .queueQuantumExpire s = .next s) ∧
    (∀ t, x.preempt = some t → x.launching = true → t + 2400 * v.grace.toNat ≤ s.clock → Settles .graceExpire vi s fun u =>
      (u.queue vi q).error = some (2, 0) ∧ (u.queue vi q).packet = none ∧
      ∀ l, x.lid = some l → (∀ e ∈ s.groups, e.2.lid ≠ l) → tget u.launches l = none ∧ (∀ e ∈ u.tasks, e.2.1 ≠ l) ∧
        (∀ e ∈ u.calls, e.2.lid ≠ l) ∧ ∃ r, OneMore vi r s u ∧ r.code = 0x15 ∧ r.pc = 0 ∧ r.lanes = BitVec.allOnes 128 ∧
          r.info0 = BitVec.ofNat 64 q ∧ r.info1 = BitVec.ofNat 64 t) ∧
    (∀ t, x.preempt = some t → s.clock < t + 2400 * v.grace.toNat → exec .graceExpire s = .next s) ∧
    (d.rampStart + 2400 ≤ s.clock → exec .rampWindowExpire s =
      .next { s with dies := tput s.dies s.ev.die { d with rampUsed := 0, rampStart := s.clock } }) ∧
    (s.clock < d.rampStart + 2400 → exec .rampWindowExpire s = .next s) ∧
    (x.qnote = 0 → s.requestPreempt vi q = s.setQueue vi q { x with preempt := some s.clock }) ∧
    (∀ ls, x.qnote ≠ 0 → s.frontAcc vi 1 x.qnote 8 = .cells ls → ((s.requestPreempt vi q).queue vi q).preempt = some s.clock ∧
      ∀ k, (s.requestPreempt vi q).mem.byte k = written (ls.zip (leBytes 1 8)) ((s.frontRelease vi).mem.byte k) k) ∧
    (x.qnote ≠ 0 → s.frontAcc vi 1 x.qnote 8 = .wait →
      ((s.requestPreempt vi q).queue vi q) = { x with preempt := some s.clock, notice := true } ∧ SameMemory s (s.requestPreempt vi q)) ∧
    ((∀ r < 16, (s.queue vi r).launching = true → (s.queue vi r).notice = false ∧ ((s.queue vi r).preempt = none → s.wanted vi r = false)) →
      s.settleQueues vi = s)

/-! ## Events of the control processor, the registers and the debug aperture -/

/-- The host writes register `off` of `len` bytes (R11, R413). -/
def Sys2Proof.Stmt.Writes (off len : Nat) (s : State) : Prop := s.ev.maj ≠ 1 ∧ s.ev.addr = off ∧ s.ev.len = len

/-- R406 to R412: LOCK, START and STOP move an interface between its states and are answered; the report and SUMMARY answer with what the
machine holds and change nothing else; an image is staged, activated, cancelled, and at a packet boundary refused with the
first reason that holds or takes over; cold start leaves the reset state with the host's memory, warm start keeps the memory, and neither
starts with an image that does not verify; parts become ready, an interface only on a good configuration. Where the manual leaves
something open these are the model's choices: what HBM reads after a cold start (log entries 4 and 34), that a warm start loses the
caches (34), that STOP resets the queue registers (60), that any image can be staged (38), the layout of a queue-state record (100), and
that neither start takes an image that does not verify (101). -/
def Obligations.ControlEvents : Prop :=
  ∀ (s : State),
    let vi := s.ev.vi
    let v := s.vi vi
    let a := s.ev
    let f : Firmware := { version := a.ver, secVer := a.secVer, meas := a.meas, sigOk := a.ok, qlvs := a.nums, saves := a.saves }
    let idle : Prop := ∀ q < 16, s.queueState vi q = 0
    let goes (t : Tdisp) : State := { s with vis := tput s.vis vi { v with tdisp := t } }
    let answer (x : State) (k : Nat) : Host.Outcome State Fault Refusal := .next { x with reply := [("accepted", k)] }
    let kept : State := { State.reset with tape := s.tape, ev := s.ev, free := s.free }
    let ctl (c : Control) (i : Instr) : Prop := ∃ u, exec i s = .next u ∧ u.ctl = c
    (v.tdisp = .unlocked → idle → exec .lockInterfaceRequest s = answer (goes .locked) 1) ∧
    (v.tdisp ≠ .unlocked ∨ ¬idle → exec .lockInterfaceRequest s = answer s 0) ∧
    (v.tdisp = .locked → exec .startInterfaceRequest s = answer ((goes .run).settleQueues vi) 1) ∧
    (v.tdisp ≠ .locked → exec .startInterfaceRequest s = answer s 0) ∧
    (v.tdisp = .unlocked → exec .stopInterfaceRequest s = answer s 0) ∧
    (v.tdisp ≠ .unlocked → ∃ u, exec .stopInterfaceRequest s = answer u 1 ∧ (u.vi vi).tdisp = .unlocked ∧ (u.vi vi).keys = false ∧
      (∀ q, u.queue vi q = {}) ∧ (∀ k, sget 0 (u.vi vi).counters k = 0) ∧
      ∀ q < 16, ∀ l, (s.queue vi q).lid = some l → (∀ e ∈ s.groups, e.2.lid ≠ l) → tget u.launches l = none) ∧
    (∃ r, exec .getDeviceInterfaceReport s = .next { s with reply := r } ∧
      ("STATE", match v.tdisp with | .unlocked => 0 | .locked => 1 | .run => 2 | .error => 3) ∈ r ∧ ("VI", vi) ∈ r ∧
      ("CORES", v.cores.toNat) ∈ r ∧ ("STACKS", v.hbm.toNat) ∈ r ∧ ("FWVER", s.ctl.running.version) ∈ r ∧
      ("FWMEAS", s.ctl.running.meas) ∈ r ∧ ("DOMSIZE", v.domSize.toNat) ∈ r ∧ ("DOMRANK", v.domRank.toNat) ∈ r ∧
      ∀ d < 4, ("TROOT", (sget 0 v.troot d).toNat) ∈ r) ∧
    (∃ r, exec .summary s = .next { s with reply := r } ∧ ("READY", s.ready.toNat) ∈ r ∧ ("FWSTATUS", s.ctl.status.1) ∈ r ∧
      (∀ k < 64, ("VI", k) ∈ r) ∧
      ∀ e ∈ s.slots, ∀ c, (s.warp e.2).status = .halted c →
        ("CORE", e.1 / 32) ∈ r ∧ ("SLOT", e.1 % 32) ∈ r ∧ ("CODE", c) ∈ r) ∧
    (exec .firmwareStage s = .next { s with ctl := { s.ctl with staged := some f, previous := 0 } }) ∧
    (s.ctl.staged.isSome = true → exec .firmwareActivate s = .next { s with ctl := { s.ctl with activating := true } }) ∧
    (s.ctl.staged = none → exec .firmwareActivate s = .next s ∧ exec .firmwareSwitch s = .next s) ∧
    ctl { s.ctl with activating := false } .cancel ∧
    (∀ x, s.ctl.staged = some x → s.ctl.activating = false ∨ s.atBoundary = false → exec .firmwareSwitch s = .next s) ∧
    (∀ x, s.ctl.staged = some x → s.ctl.activating = true → s.atBoundary = true →
      let refused (r n : Nat) : Prop := ctl { s.ctl with activating := false, status := (r, n) } .firmwareSwitch
      let layouts : Prop := 1 ∈ x.saves ∨ s.parkedVi = none
      let reads (n : Nat) : Prop := s.recordLayout n ∈ x.qlvs
      let all : Prop := ∀ n < 1024, reads n
      (∀ n < 1024, ¬reads n → (∀ k < n, reads k) → refused 1 (n % 16)) ∧
      (all → ∀ w, 1 ∉ x.saves → s.parkedVi = some w → refused 2 w) ∧
      (all → layouts → x.sigOk = false → refused 3 0) ∧
      (all → layouts → x.sigOk = true → x.secVer < s.ctl.running.secVer → refused 4 0) ∧
      (all → layouts → x.sigOk = true → s.ctl.running.secVer ≤ x.secVer →
        ctl { s.ctl with running := x, staged := none, activating := false, previous := s.ctl.running.meas } .firmwareSwitch)) ∧
    (a.ok = false → exec .coldStart s = .next s ∧ (a.flag = true → exec .warmStart s = .next s)) ∧
    (a.ok = true → ∃ u, exec .coldStart s = .next u ∧ u = { kept with mem := u.mem, ctl := u.ctl } ∧
      (∀ k, u.mem.byte k = if hostBase ≤ k then s.mem.byte k else memDefault) ∧ u.ctl.running = f ∧ u.ctl.staged = none ∧
      u.ctl.cfgOk = a.flag) ∧
    (a.flag = false ∨ a.ok = true → ∃ u, exec .warmStart s = .next u ∧ u = { kept with mem := s.mem, bad := s.bad, clock := s.clock, ready := u.ready, ctl := u.ctl } ∧
      (∀ k < 57, u.ready.getLsbD k = (s.ready.getLsbD k && !decide (1 ≤ k ∧ k ≤ 4))) ∧
      u.ctl.running = (if a.flag then f else s.ctl.running) ∧ u.ctl.staged = none ∧ u.ctl.status = (0, 0)) ∧
    (a.flag = true → exec .partReady s = .next { s with vis := tput s.vis vi { v with viReady := s.ctl.cfgOk } }) ∧
    (a.flag = false → a.id < 57 → ∃ u : State, exec .partReady s = .next u.resumeQueues ∧ u = { s with ready := u.ready } ∧
      ∀ k < 57, u.ready.getLsbD k = (s.ready.getLsbD k || decide (k = a.id)))

/-- R11, R201, R298, R389, R406, R413 to R416: a register takes a value that is legal for it, where the state of its queue or
interface permits, and keeps its value otherwise; a legal value written to a frozen register, a core set among them, outside
CONFIG_UNLOCKED puts the interface and its queues in ERROR; flags are cleared by ones; counters are cleared; a failing word or tag is
recorded (log entries 102 and 125 for what the event names) and a corrected one counted, one of a queue-state record puts its interface
in ERROR; a write of the host is performed as soon as every part that it needs is ready (R411). -/
def Obligations.RegisterEvents : Prop :=
  ∀ (s : State),
    let vi := s.ev.vi
    let v := s.vi vi
    let x := s.ev.val
    let n := if s.ev.len = 4 then (lo32 x).toNat else x.toNat
    let with' (u : Vi) : State := { s with vis := tput s.vis vi u }
    let row (off len : Nat) (legal : Prop) (u : Vi) : Prop := Writes off len s →
      (legal → exec .registerWrite s = .next ((with' u).settleQueues vi)) ∧ (¬legal → exec .registerWrite s = .next (s.settleQueues vi))
    let ring : Prop := n = 0 ∨ ∃ k, 4 ≤ k ∧ k ≤ 20 ∧ n = 2 ^ k
    let fails : Prop := ∃ u, exec .registerWrite s = .next u ∧ (u.vi vi).tdisp = .error ∧ ∀ q < 16, (u.queue vi q).error = some (7, 0)
    let frozen (off len : Nat) (legal : Prop) (u : Vi) : Prop := (v.tdisp = .unlocked → row off len legal u) ∧
      (v.tdisp = .error → row off len False u) ∧
      (v.tdisp = .locked ∨ v.tdisp = .run → Writes off len s → (legal → fails) ∧ (¬legal → exec .registerWrite s = .next (s.settleQueues vi)))
    let w := lo32 x
    let queue (off len : Nat) (legal : Queue → Nat → Prop) (f : Queue → Queue) : Prop := ∀ q < 16,
      row (64 * q + off) len (legal (s.queue vi q) (s.queueState vi q)) { v with queues := tput v.queues q (f (s.queue vi q)) }
    let free (y : Queue) (st : Nat) : Prop := st ≠ 1 ∧ (st = 2 → y.en = false)
    let sets (i : Instr) (legal : Prop) (u : Vi) : Prop := (legal → exec i s = .next (with' u)) ∧ (¬legal → exec i s = .next s)
    let word := s.ev.addr / 8
    let m := s.viOfStack (s.ev.addr / 2 ^ 36)
    let locs := (List.range s.ev.data.length).map (s.ev.addr + ·)
    let raises (n d y : Nat) : Prop := ∃ u, exec .scrubError s = .next u ∧ u = { s with vis := u.vis } ∧
      sget 0 (u.vi y).counters (0x80 * d + n) = sget 0 (s.vi y).counters (0x80 * d + n) + 1
    let reachable : Prop := ∀ a ∈ locs, a < 2 ^ 40 ∨ (hostBase ≤ a ∧ a < hostBase + 2 ^ 52)
    (queue 0x00 8 (fun y st => free y st ∧ n % 4096 = 0) (fun y => { y with qbase := x }) ∧
      queue 0x08 4 (fun y st => free y st ∧ 4 ≤ n ∧ n ≤ 16) (fun y => { y with qsize := w }) ∧
      queue 0x14 4 (fun _ _ => n < 8) (fun y => { y with qprio := w }) ∧
      queue 0x18 4 (fun _ _ => 1 ≤ n ∧ n ≤ 1000000) (fun y => { y with qquant := w }) ∧
      queue 0x1C 4 (fun y st => free y st ∧ n < 16) (fun y => { y with qset := w }) ∧
      queue 0x20 8 (fun _ _ => True) (fun y => { y with qnote := x })) ∧
    (row 0x420 8 (n % 65536 = 0 ∧ v.invGo = false) { v with invStart := x } ∧ row 0x428 4 (v.invGo = false) { v with invCount := w } ∧
      row 0x440 8 (n % 16 = 0) { v with hintBase := x } ∧ row 0x448 4 (n ≤ 2 ^ 20) { v with hintCnt := w } ∧
      row 0x80C 4 (100 ≤ n ∧ n ≤ 1000000) { v with domTmo := w } ∧ row 0x840 4 (100 ≤ n ∧ n ≤ 100000) { v with grace := w } ∧
      (∀ d < 4, row (0x844 + 4 * d) 4 (n ≤ 4096) { v with ramp := sset 64 v.ramp d w }) ∧
      row 0x868 4 ring { v with trSize := w } ∧ row 0x880 8 (n % 64 = 0) { v with mkBase := x } ∧
      row 0x888 4 ring { v with mkSize := w } ∧ row 0x944 4 (n < 2) { v with boostCtl := w }) ∧
    ((∀ d < 4, frozen (0x400 + 8 * d) 8 (n % 4096 = 0) { v with troot := sset 0 v.troot d x }) ∧
      frozen 0x800 4 (1 ≤ n ∧ n ≤ 4096) { v with domSize := w } ∧ frozen 0x804 4 (n < v.domSize.toNat) { v with domRank := w } ∧
      frozen 0x808 4 (n < 4) { v with domCtl := w } ∧ frozen 0x810 8 (n % 65536 = 0 ∧ n < 2 ^ 40) { v with fwinBase := x } ∧
      frozen 0x818 8 (n % 65536 = 0) { v with fwinSize := x } ∧
      ∀ k < 16, ∀ j < 4, frozen (0x600 + 32 * k + 8 * j) 8 (∀ b < 64, x.getLsbD b = true → v.cores.getLsbD (64 * j + b) = true)
        (let here : BitVec 256 := (BitVec.allOnes 64).setWidth 256 <<< (64 * j)
         { v with csets := sset 0 v.csets k ((sget 0 v.csets k &&& ~~~here) ||| (x.setWidth 256 <<< (64 * j))) })) ∧
    sets .invalidate True { v with invGo := true } ∧ sets .trbaseWrite (x.toNat % 64 = 0) { v with trBase := x, trBlocked := false } ∧
    sets .trtailWrite True { v with trTail := w } ∧ sets .trflagClear (x.toNat < 8) { v with trFlag := v.trFlag &&& ~~~w } ∧
    sets .cntclr (x = 1) { v with counters := [] } ∧ sets .eccstatClear (x.toNat < 8) { v with eccStat := v.eccStat &&& ~~~w } ∧
    sets .domlostClear (x = 1 ∧ v.domCtl.getLsbD 0 = false) { v with
      lost := [], flits := v.flits.filter (fun f => !v.lost.contains f.rank), txCtr := [], rxHigh := [], rxSeen := [] } ∧
    (s.ev.flag = false → s.ev.maj ≠ 1 → s.ev.maj ≠ 2 → s.ev.addr < 2 ^ 40 → ∃ u, exec .scrubError s = .next u ∧ word ∈ u.bad ∧ (∀ b, b ∈ s.bad → b ∈ u.bad) ∧
      u.mem = s.mem ∧ (u.vi m).eccStat.getLsbD 1 = true ∧
      (u.vi m).eccAddr = if (s.vi m).eccStat = 0 then BitVec.ofNat 64 (8 * word) else (s.vi m).eccAddr) ∧
    (s.ev.flag = true → s.ev.maj ∉ [1, 4, 5, 6] → ∃ u, exec .scrubError s = .next u ∧ u.mem = s.mem ∧ u.bad = s.bad ∧
      (u.vi (s.viOfCore s.ev.core)).eccStat.getLsbD 0 = true) ∧
    (s.ev.flag = true → s.ev.maj = 1 → raises 0x40 (s.ev.core / 64) (s.viOfCore s.ev.core)) ∧
    (s.ev.flag = false → s.ev.maj = 1 → s.ev.addr < 2 ^ 40 → raises 0x41 (homeDie s.ev.addr) m) ∧
    (s.ev.flag = true → s.ev.maj = 5 → raises 0x42 (s.ev.core / 64) (s.viOfCore s.ev.core)) ∧
    (s.ev.flag = true → s.ev.maj = 4 → ∃ u, exec .scrubError s = .next u ∧ u = { s with cores := u.cores } ∧
      s.ev.nth ∈ (u.core s.ev.core).badTags) ∧
    (s.ev.flag = true → s.ev.maj = 6 → ∃ u, exec .scrubError s = .next u ∧ u = { s with dies := u.dies } ∧
      s.ev.nth ∈ (u.die (s.ev.core / 64)).badTags ∧ SameDies s { u with dies := tput u.dies (s.ev.core / 64) (s.die (s.ev.core / 64)) }) ∧
    (s.ev.flag = false → s.ev.maj = 2 → v.tdisp = .locked ∨ v.tdisp = .run → ∃ u, exec .scrubError s = .next u ∧
      (u.vi vi).tdisp = .error ∧ ∀ q < 16, (u.queue vi q).error = some (7, 0)) ∧
    let ready : Prop := ∀ a ∈ locs, s.partReady a = true
    (reachable → ready → ∃ u, exec .hostWrite s = .next u ∧ Put locs s.ev.data s u ∧
      u.cores = s.cores ∧ u.groups = s.groups ∧ ∀ id, (tget u.warps id).map still = (tget s.warps id).map still) ∧
    (¬reachable ∨ ¬ready → exec .hostWrite s = .next s)

/-- R418: at each 10 µs boundary a permit is charged for every cluster above nominal; then the clusters that ask and are granted a
permit run high, round the die from the one granted last, the others nominal; permits that run out begin a step-down, which
takes every boosted cluster down one step each 2 µs; 100 µs without boost refill one permit, up to 64. -/
def Obligations.BoostEvents : Prop :=
  ∀ (s : State),
    let d := s.ev.die
    let x := s.die d
    let clock (y : Die) (k : Nat) : Boost := sget .nominal y.clusters k
    let up := (List.range 4).filter fun k => clock x k != .nominal
    let left := x.permits - up.length
    let gs := grantClusters (s.boostAsked d) x.lastGrant left
    let only (i : Instr) (p : Die → Prop) : Prop := ∃ u, exec i s = .next u ∧ u = { s with dies := u.dies } ∧
      (∀ e, e ≠ d → tget u.dies e = tget s.dies e) ∧ p (u.die d)
    (s.clock < x.boostAt + 24000 ∨ x.stepDown ≠ 0 → exec .boostInterval s = .next s) ∧
    (x.boostAt + 24000 ≤ s.clock → x.stepDown = 0 → left = 0 → up ≠ [] → only .boostInterval fun y =>
      y.permits = 0 ∧ y.stepDown = 2 ∧ y.stepAt = s.clock ∧ y.boostAt = s.clock ∧ y.calm = s.clock ∧ ∀ k, clock y k = clock x k) ∧
    (x.boostAt + 24000 ≤ s.clock → x.stepDown = 0 → (left ≠ 0 ∨ up = []) → only .boostInterval fun y =>
      y.permits = left ∧ y.boostAt = s.clock ∧ y.calm = (if up = [] then x.calm else s.clock) ∧
      (∀ k, clock y k = if k ∈ gs then .high else .nominal) ∧ (gs = [] → y.lastGrant = x.lastGrant)) ∧
    (gs.length ≤ left ∧ gs.Nodup ∧ ∀ k ∈ gs, k < 4 ∧ s.boostAsked d k = true) ∧
    (gs.length < left → ∀ k < 4, s.boostAsked d k = true → k ∈ gs) ∧
    (up = [] → x.calm + 240000 ≤ s.clock → only .boostRefill fun y => y.permits = min 64 (x.permits + 1) ∧ y.calm = x.calm + 240000) ∧
    (up ≠ [] ∨ s.clock < x.calm + 240000 → exec .boostRefill s = .next s) ∧
    (x.stepDown = 0 ∨ s.clock < x.stepAt + 4800 → exec .boostStepDown s = .next s) ∧
    (x.stepDown ≠ 0 → x.stepAt + 4800 ≤ s.clock → only .boostStepDown fun y => y.stepDown = x.stepDown - 1 ∧ y.stepAt = s.clock ∧ y.calm = s.clock ∧
      ∀ k < 4, clock y k = if clock x k = .nominal then .nominal else if x.stepDown = 2 then .mid else .nominal)

/-- R113, R114, R136, R190, R203, R414, R425: through an open debug window RESUME lets a halted warp go on unless its record still waits,
KILL ends a warp that is halted, parked for replay or whose workgroup has a suspended command, after its release, and drops its
suspended copies (log entry 36), a task as TDONE does, REPLAY lets what is parked in the slot perform its accesses again, unless its
record still waits, in the window of a slot without a warp a suspended save or restore only; a write is kept and at resume changes
the registers that it names and nothing else, but PRVLANE changes at once (log entry 47); where the window belongs to no core of the
interface, or the warp is not stopped, nothing happens. -/
def Obligations.DebugEvents : Prop :=
  ∀ (s : State),
    let shut : Prop := (s.vi s.ev.vi).cores.getLsbD s.ev.core = false
    (shut → ∀ i ∈ [Instr.resume, .kill, .replay, .debugWindowWrite], exec i s = .next s) ∧
    (¬shut → tget s.slots (32 * s.ev.core + s.ev.slot) = none → exec .resume s = .next s ∧ exec .kill s = .next s ∧
      exec .debugWindowWrite s = .next s ∧ ∃ u, exec .replay s = .next u ∧ u = { s with groups := u.groups } ∧
        ∀ gid g, tget s.groups gid = some g → ∃ b, tget u.groups gid = some { g with suspended := b } ∧ (b = true → g.suspended = true) ∧
          (g.state ≠ .saving → g.state ≠ .restoring → b = g.suspended)) ∧
    (¬shut → ∀ id w, InSlot s id w →
      let stopped : Prop := w.status = .replay ∨ ∃ c, w.status = .halted c
      let W := (s.launchOfWarp w).w
      let stood : Status := match w.before with
        | .waiting _ => .ready
        | x => x
      let off := s.ev.addr
      let n := s.ev.data.length
      let win (prv o : Nat) (bs : List Byte) : List (Nat × Nat × Byte) := (List.range bs.length).map fun i => (prv, o + i, bs.getD i 0)
      let took (o : Nat) (bs : List Byte) (p : State → Warp → Prop) : Prop := ∀ c prv, w.status = .halted c → s.recordWaits w = false →
        w.win = win prv o bs → ∃ u, exec .resume s = .next u ∧ u.mem = s.mem ∧
          p u { u.warp id with before := w.before, fetched := w.fetched, win := w.win } ∧ (u.warp id).win = [] ∧
          ∀ j, j ≠ id → tget u.warps j = tget s.warps j
      (∀ c, w.status = .halted c → s.recordWaits w = false → w.win = [] →
        OnlyWarp .resume id { w with status := stood, before := .ready, fetched := none } s) ∧
      (s.recordWaits w = true → exec .resume s = .next s) ∧
      ((∀ c, w.status ≠ .halted c) → exec .resume s = .next s) ∧
      (stopped → (s.launchOfWarp w).kind ≠ .task → ∃ u, exec .kill s = .next u ∧ (u.warp id).status = .exited ∧
        (u.warp id).word = none ∧ (u.warp id).redo = [] ∧ (CachesWf s → ∀ a, latest u w.core a = latest s w.core a) ∧
        ∀ c ∈ (u.core w.core).copyq, c.warp = id → c.suspended = false) ∧
      (stopped → (s.launchOfWarp w).kind = .task → ∀ tid t, s.taskOf (s.group w.gid).lid id = some (tid, t) →
        let may : Prop := s.isFrontier (s.group w.gid).lid tid = true ∨
          ((s.tasksOf (s.group w.gid).lid).countP fun e => e.2.core == t.core && e.2.st == .finished) < 32
        (may → ∃ y, exec .kill s = .next (endTask id false false y) ∧ y.tasks = s.tasks ∧ y.mem = s.mem ∧ y.groups = s.groups) ∧
        (¬may → exec .kill s = .next s)) ∧
      (¬stopped → s.suspendedCommand w.gid = false → exec .kill s = .next s) ∧
      (w.status = .replay → s.recordWaits w = false → w.win = [] → (w.word.isSome = true ∨ w.stopping = none) → (∀ p ∈ w.flight, p.held = none) → (∀ e ∈ s.calls, e.2.suspended = false) →
        ∃ u, exec .replay s = .next u ∧ u.mem = s.mem ∧ u.warp id = { w with status := .ready } ∧
          (∀ j, j ≠ id → tget u.warps j = tget s.warps j) ∧
          (u.core s.ev.core).copyq = (s.core s.ev.core).copyq.map fun c =>
            if c.slot = s.ev.slot ∧ (∀ r ∈ (s.vi (s.viOfCore s.ev.core)).trHeld, r.core = s.ev.core → r.slot = s.ev.slot → r.pc ≠ c.pc)
            then { c with suspended := false } else c) ∧
      (¬stopped → exec .debugWindowWrite s = .next s) ∧
      (stopped → off + n ≤ 0x40000 → off + n ≤ 0x25000 ∨ 0x25004 ≤ off →
        OnlyWarp .debugWindowWrite id { w with win := w.win ++ win w.prvLane off s.ev.data } s) ∧
      (stopped → ∀ x, x < 128 → off = 0x25000 → s.ev.data = leBytes x 4 → OnlyWarp .debugWindowWrite id { w with prvLane := x } s) ∧
      (∀ n x, n < 128 → took (0x20000 + 4 * n) (leBytes x 4) fun _ y => y.sreg n = BitVec.ofNat 32 x ∧ y.sP = w.sP ∧
        core { y with s := w.s } = core w ∧ y.pc = w.pc ∧ ∀ m, m ≠ n → y.sreg m = w.sreg m) ∧
      (∀ n x, n < 16 → took (0x20200 + 4 * n) (leBytes x 4) fun u y => sget 0 (u.group w.gid).g n = BitVec.ofNat 32 x ∧ core y = core w ∧
        y.pc = w.pc ∧ ∀ m, m ≠ n → sget 0 (u.group w.gid).g m = sget 0 (s.group w.gid).g m) ∧
      (∀ n l x, n < 256 → l < 128 → took (512 * n + 4 * l) (leBytes x 4) fun _ y =>
        y.vreg n l = (if l < W then BitVec.ofNat 32 x else w.vreg n l) ∧ core { y with v := w.v } = core w ∧ y.pc = w.pc ∧
        ∀ m k, k < 128 → (m ≠ n ∨ k ≠ l) → y.vreg m k = w.vreg m k) ∧
      (∀ x, took 0x23090 (leBytes x 8) fun _ y => y.pc = BitVec.ofNat 64 x ∧ y.s = w.s ∧ y.v = w.v ∧ y.exec = w.exec) ∧
      (∀ x, took 0x230B4 (leBytes x 4) fun _ y => y.fstat = BitVec.ofNat 32 (x % 8) ∧ y.pc = w.pc ∧
        core { y with fstat := w.fstat } = core w) ∧
      (∀ x, took 0x230B0 (leBytes x 4) fun _ y => y.scc = x.testBit 0 ∧ y.sccP = x.testBit 1 ∧ y.pc = w.pc ∧
        core { y with scc := w.scc, sccP := w.sccP } = core w))

/-! ## Traps, encodings, steps -/

/-- The trap record that falls due for the issuing warp (R112, R113). -/
def Sys2Proof.Stmt.Recorded (t : TrapInfo) (flags : Nat) (s : State) (r : TrapRec) : Prop :=
  let w := s.me
  let l := s.myLaunch
  r = { code := trapNumber t.code, len := s.cur.len, flags := flags + (if l.gen = 3 then 1 else 0), slot := w.slot, core := w.core,
        pc := w.pc, wid := l.wid s.myGroup w.f1 0, lanes := t.lanes, info0 := t.info0, info1 := t.info1, clock := s.clock }

/-- R69, R70, R94, R98, R107, R111 to R114, R306, R325, R414, R416: taking a trap halts the issuing warp at its instruction, which writes nothing,
with a record due on its interface's ring and the overflow flag set where the ring has no room; BREAKPOINT and a TRAP's
SOFTWARE_TRAP leave the PC past it. A speculative task holds its record instead. An instruction whose word breaks a rule of
the format raises the trap of the first rule broken, with the word in INFO0 and INFO1 (free values at ROLE_VIOLATION), an
undefined word ILLEGAL_INSTRUCTION; where it is the level of a barrier that is undefined INFO1 names it. A scalar, vector or memory
instruction waits for an empty register and raises EMPTY_REGISTER at an FE operand, STALE_LATCH at a slot that holds nothing live, INDEX_BOUNDS at a resolved register beyond
its bounds, ECC_UNCORRECTABLE where it reads a register whose word is uncorrectable. -/
def Obligations.TakingTraps : Prop :=
  ∀ (s : State), (tget s.warps s.cur.warp).isSome = true →
    let w := s.me
    let l := s.myLaunch
    let v := s.vi l.vi
    let kept (u : State) : Prop := u.mem = s.mem ∧ u.groups = s.groups ∧ u.cores = s.cores ∧ u.me.latch = w.latch ∧
      u.me.latchP = w.latchP ∧ u.me.latchAge = w.latchAge ∧
      core { u.me with before := w.before, stopping := w.stopping } = core w ∧
      ∀ id, id ≠ s.cur.warp → tget u.warps id = tget s.warps id
    let skips (t : TrapInfo) : Prop := t.code = .breakpoint ∨ (t.code = .softwareTrap ∧ t.info1.getLsbD 62 = false)
    (∀ t, s.speculative = false →
      let u := takeTrap t s
      kept u ∧ u.tasks = s.tasks ∧ u.me.status = .halted (trapNumber t.code) ∧
      (skips t → u.me.pc = w.pc + BitVec.ofNat 64 s.cur.adv) ∧ (¬skips t → u.me.pc = w.pc) ∧
      (∃ r, OneMore l.vi r s u ∧ Recorded t 0 s r) ∧
      (v.ringRoom = true → (u.vi l.vi).trFlag = v.trFlag) ∧ (v.ringRoom = false → (u.vi l.vi).trFlag.getLsbD 0 = true)) ∧
    (∀ t tid k, s.myTask = some (tid, k) → s.speculative = true →
      let u := takeTrap t s
      kept u ∧ u.me.status = .deferred ∧ u.me.pc = w.pc ∧ (∀ y, (u.vi y).trHeld = (s.vi y).trHeld) ∧
      ∃ r, tget u.tasks tid = some (s.myGroup.lid, { k with st := .deferred, trap := some r }) ∧ Recorded t 2 s r) ∧
    let second (b : BitVec 128) : DWord := if badLevel (Raw.ofBits b) then levelInfo (Raw.ofBits b) l.top else b.extractLsb' 64 64
    (∀ i r c, i.raw? = some r → w.redo = [] → formatCheck s.env.ctx r = some c →
      (c ≠ .roleViolation → Traps i { code := c, info0 := r.bits.extractLsb' 0 64, info1 := second r.bits } s) ∧
      (c = .roleViolation → ∃ x y, exec i s = .next (takeTrap { code := c, info0 := x, info1 := y } { s with free := s.free + 2 }))) ∧
    (∀ bits, let r := Raw.ofBits bits
      let i := Instr.undefinedEncoding bits
      let t (c : TrapCode) : TrapInfo := { code := c, info0 := bits.extractLsb' 0 64, info1 := second bits }
      (∀ c, formatCheck s.env.ctx r = some c → c ≠ .roleViolation → Traps i (t c) s) ∧
      (∀ f, formatCheck s.env.ctx r = none → formOf s.env.W r = some f → operandGate s.env.ctx f r w = .go →
        Traps i (t .illegalInstruction) s)) ∧
    (∀ i r f, i.raw? = some r → r.maj.toNat < 0xC0 → formatCheck s.env.ctx r = none → formOf s.env.W r = some f →
      let ops := operandsOf f r
      let empty (e : Rule × BitVec 10 × Bool × Bool) : Prop := emptySource s.env.ctx w e = true
      let awaits : Prop := empty (f.dst, r.dst, false, false) ∨ ∃ e ∈ ops, e.2.2.1 = false ∧ empty e
      let stale (e : Rule × BitVec 10 × Bool × Bool) : Prop := e.1.holds e.2.2.2 e.2.1 = true ∧ ∃ p : Fin 3, e.2.1 = Src.code (.latch p) ∧
        (∀ a, sget none w.latchAge p = some a → 2 ≤ a)
      (awaits → exec i s = .next s) ∧
      (¬awaits → ∀ e xs ys, ops = xs ++ e :: ys → empty e → (∀ x ∈ xs, ¬empty x) →
        Traps i { code := .emptyRegister, info0 := e.2.1.setWidth 64 } s) ∧
      ((∀ e ∈ ops, ¬empty e) → ¬empty (f.dst, r.dst, false, false) →
        (∀ e xs ys, ops = xs ++ e :: ys → stale e → (∀ x ∈ xs, ¬stale x) → ∃ n,
          Traps i { code := .staleLatch, info0 := e.2.1.setWidth 64, info1 := n } s) ∧
        ((∀ e ∈ ops, ¬stale e) → (∀ t, indexGate s.env.ctx f r w = .trap t → Traps i t s ∧ t.code = .indexBounds) ∧
          (indexGate s.env.ctx f r w = .go → w.badRegs ≠ [] → s.speculative = false → ∀ t, sramGate s.env.ctx f r w = .trap t →
            t.code = .eccUncorrectable ∧ ∃ u x, exec i s = .next u ∧ OneMore l.vi x s u ∧ Recorded t 0 s x ∧
              u.me.status = .halted 0x13 ∧ u.me.pc = w.pc ∧ u.mem = s.mem ∧ (u.vi l.vi).eccStat.getLsbD 0 = true))))

/-- R51, R55 to R66: every instruction of the set, with every operand at every value that its encoding admits, is decoded from its own
bytes, whatever follows them; its length is 8, 12 or 16 bytes; two instructions never share a word. -/
def Obligations.DecodeEncode : Prop :=
  (∀ i : Instr, i.WF → (encodeLen i = 8 ∨ encodeLen i = 12 ∨ encodeLen i = 16) ∧ (encodeBytes i).length = encodeLen i ∧
    (∀ rest, decode (encodeBytes i ++ rest) = .instr i) ∧ issueOf (encodeBits i) = i) ∧
  ∀ i j : Instr, i.WF → j.WF → encodeBits i = encodeBits j → i = j

/-- R55: the fields of a word are the bits that the rule gives, and the word is made of them again; the words that the rules of spec/
write out decode to the instructions that they give for them. -/
def Obligations.DecodeSanity : Prop :=
  (∀ w : BitVec 128, let r := Raw.ofBits w
    r.fn = w.extractLsb' 57 7 ∧ r.c = w.extractLsb' 47 10 ∧ r.b = w.extractLsb' 37 10 ∧ r.a = w.extractLsb' 27 10 ∧
    r.dst = w.extractLsb' 17 10 ∧ r.fe = w.extractLsb' 14 3 ∧ r.hold = w.extractLsb' 10 4 ∧ r.maj = w.extractLsb' 2 8 ∧
    r.len = w.extractLsb' 0 2) ∧
  decodeBits 0x2000004008080104 = .instr (.vadd .i32 { dst := .v 4, a := .v 1, b := .v 2 }) ∧
  decodeBits 0x00000018260C006C = .instr (.xand { dst := .s 6, a := .s 4 }) ∧
  decodeBits 0x000000404000000010060291 = .instr (.lds { dst := .v 3, a := .v 2, ext := .short .device 0x40 }) ∧
  decodeBits 0x0000000020C800000000000000000302 = .instr (.mmat { frame := some { tileA := 2, tileB := 3, acc := 4 } }) ∧
  decodeBits 0x020060D820000378 = .instr (.waitc { fn := 1, a := .s 4, b := .s 6 }) ∧
  decodeBits 0x000000183000039C = .instr (.tsync { a := .s 6 }) ∧
  decodeBits 0x00000018400803B4 = .instr (.svld { dst := .v 4, a := .s 8 }) ∧
  decodeBits 0x000000000000000100000000062803DA = .instr (.cntrd { dst := .s 20, frame := some { aux := 1 } })

/-- The bytes of a 32-byte block from offset `off` on. -/
def Sys2Proof.Stmt.bytesFrom (b : BitVec 256) (off : Nat) : List Byte := (List.range (32 - off)).map fun k => b.extractLsb' (8 * (off + k)) 8

/-- R51 to R53, R77, R108, R109: where the turn gives an issue slot to a sub-core whose one warp may issue and has the block at its PC,
and the bytes there decode to an instruction, the step runs that instruction, with the clock of the turn, and then only
moves the place of the sub-core's rotation, notes the slot that has issued in this cycle and looks at what each warp may do next (its
count of slots passed over); an instruction that leaves its warp as it was is not eligible and nothing else happens, which is the
model's choice (log entry 73). -/
def Obligations.StepRunsDecoded : Prop :=
  ∀ (s : State) (ts : List Turn) (dt c sub j id : Nat) (w : Warp) (b : BitVec 256) (i : Instr),
    s.tape = { dt := dt, act := .issue c sub } :: ts → s.subCore c sub = [(j, id)] → tget s.warps id = some w →
    let s' : State := { s with tape := ts, clock := s.clock + dt }
    s'.issuable w = true → (s.core c).passedSlot s'.clock j = false → (s.group w.gid).parking = false → w.word = none → (s.launchOfWarp w).gen = 4 →
    fetchBlock (s.core w.core) w = some b → decode (bytesFrom b (w.pc.toNat % 32)) = .instr i →
    let word := blockBits b (w.pc.toNat % 32)
    let n := lenBytes (word.extractLsb' 0 2)
    let x : State := { s' with
      warps := tput s.warps id (w.withBlock b),
      cur := { warp := id, len := n, bits := maskLen n word, adv := n } }
    let counted (y : Warp) : Warp := { y with elig := 0, overdue := false, eligSince := none }
    let same (t u : State) : Prop := ∀ k, (tget u.warps k).map counted = (tget t.warps k).map counted
    (∀ t, exec i x = .next t → tget t.warps id ≠ tget x.warps id → ∃ u, step s = .next u ∧
      u = { t with warps := u.warps, cores := u.cores } ∧ same t u ∧
      u.core c = { t.core c with rr := (u.core c).rr, issueClock := s'.clock, issueSlot := j } ∧
      (∀ k, k ≠ c → u.core k = t.core k) ∧ sget 0 (u.core c).rr (4 * sub + roleClass w.role) = (j + 1) % 32) ∧
    (∀ t, exec i x = .next t → tget t.warps id = tget x.warps id → ∃ u, step s = .next u ∧ u = { s' with warps := u.warps } ∧ same s' u) ∧
    (∀ f, exec i x = .fault f → step s = .fault f)

/-- R411, R96, R113, R389, R414, R415, R418 and the registers' reset values: after reset nothing is ready, no launch, warp or packet
exists, every queue, ring and register of every interface holds its reset value and CLOCK is 0. (That a byte that nothing
has written reads as 0, that interface 0 holds every core, and that each interface is unlocked are the model's choices: log entries 4, 6
and 5.) -/
def Obligations.ResetState : Prop :=
  let s := State.reset
  s.clock = 0 ∧ s.ready = 0 ∧ s.hostq = [] ∧ s.warps = [] ∧ s.launches = [] ∧ s.groups = [] ∧ s.tasks = [] ∧ s.calls = [] ∧ s.slots = [] ∧
  s.mem.wf = true ∧ CachesWf s ∧ (∀ a, s.mem.byte a = memDefault) ∧
  (∀ d, (s.die d).permits = 64 ∧ (s.die d).wbuf = [] ∧ (s.die d).tlb = []) ∧ (∀ c, (s.core c).l1 = [] ∧ (s.core c).icache = []) ∧
  ∀ k, let v := s.vi k
    (∀ q, let x := v.queue q
      x.qbase = 0 ∧ x.qsize = 4 ∧ x.qwptr = 0 ∧ x.qrptr = 0 ∧ x.qprio = 0 ∧ x.qquant = 1000 ∧ x.qset = 0 ∧ x.qnote = 0 ∧ x.qmark = 0 ∧
      x.en = false ∧ x.error = none ∧ s.queueState k q = 0) ∧
    v.tdisp = .unlocked ∧ v.keys = false ∧ v.domSize = 1 ∧ v.domRank = 0 ∧ v.domCtl = 0 ∧ v.domTmo = 10000 ∧ v.grace = 2000 ∧
    (∀ d, sget 64 v.ramp d = 64) ∧ v.fwinBase = 0 ∧ v.fwinSize = 0 ∧ v.trBase = 0 ∧ v.trSize = 0 ∧ v.trHead = 0 ∧ v.trTail = 0 ∧
    v.trFlag = 0 ∧ v.mkBase = 0 ∧ v.mkSize = 0 ∧ v.mkHead = 0 ∧ v.eccStat = 0 ∧ v.hintBase = 0 ∧ v.hintCnt = 0 ∧ v.boostCtl = 0 ∧
    (∀ d, sget 0 v.troot d = 0) ∧ ∀ n, sget 0 v.counters n = 0

/-- The form of memory is kept by every step, whatever turn it takes and whatever instruction or event it runs: addresses rising, no
byte listed that an unlisted address reads as (R222; the form is the model's own). -/
def Obligations.MemoryStaysCanonical : Prop :=
  ∀ s u : State, s.mem.wf = true → step s = .next u → u.mem.wf = true
end

