-- ==== Sys2Proof/Laws/Sparse.lean ====
section
/-!
SUPPORT. The laws of the finite maps and of memory: a read after a write, and the canonical form.
-/
namespace Sys2Proof.Machine

variable {α : Type}

theorem sget_putEntry_same (d x : α) (m : Sparse α) (i : Nat) : sget d (putEntry x m i) i = x := by
  induction m with
  | nil => simp [putEntry, sget]
  | cons e m ih =>
    obtain ⟨k, y⟩ := e
    simp only [putEntry]
    split
    · simp [sget]
    · split
      · simp [sget]
      · simp_all [sget]

theorem sget_putEntry_other (d x : α) (m : Sparse α) {i j : Nat} (h : j ≠ i) :
    sget d (putEntry x m i) j = sget d m j := by
  induction m with
  | nil => simp [putEntry, sget, h]
  | cons e m ih =>
    obtain ⟨k, y⟩ := e
    simp only [putEntry]
    split
    · simp [sget, h]
    · split
      · simp_all [sget]
      · simp [sget, ih]

theorem sget_remove_same (d : α) (m : Sparse α) (i : Nat) : sget d (m.filter fun e => e.1 != i) i = d := by
  induction m with
  | nil => rfl
  | cons e m ih =>
    obtain ⟨k, y⟩ := e
    by_cases h : k = i
    · simp_all
    · simp [h, sget, Ne.symm h, ih]

theorem sget_remove_other (d : α) (m : Sparse α) {i j : Nat} (h : j ≠ i) :
    sget d (m.filter fun e => e.1 != i) j = sget d m j := by
  induction m with
  | nil => rfl
  | cons e m ih =>
    obtain ⟨k, y⟩ := e
    by_cases hk : k = i
    · simp_all [sget]
    · simp [hk, sget, ih]

/-- A read of the key that was written gives the value written. -/
@[simp] theorem sget_sset_same [DecidableEq α] (d : α) (m : Sparse α) (i : Nat) (v : α) :
    sget d (sset d m i v) i = v := by
  unfold sset putAt
  by_cases h : v = d
  · simp [h, sget_remove_same]
  · simp [h, sget_putEntry_same]

/-- A write leaves every other key alone. -/
theorem sget_sset_other [DecidableEq α] (d : α) (m : Sparse α) {i j : Nat} (v : α) (h : j ≠ i) :
    sget d (sset d m i v) j = sget d m j := by
  unfold sset putAt
  by_cases hv : v = d
  · simp [hv, sget_remove_other _ _ h]
  · simp [hv, sget_putEntry_other _ _ _ h]

/-- Both together. -/
theorem sget_sset [DecidableEq α] (d : α) (m : Sparse α) (i j : Nat) (v : α) :
    sget d (sset d m i v) j = if j = i then v else sget d m j := by
  by_cases h : j = i
  · subst h; simp
  · simp [h, sget_sset_other]

/-- A lookup of the key that was put gives the entry. -/
@[simp] theorem tget_tput_same (m : Tab α) (i : Nat) (v : α) : tget (tput m i v) i = some v := by
  unfold tput putAt
  induction m with
  | nil => simp [putEntry, tget]
  | cons e m ih =>
    obtain ⟨k, y⟩ := e
    simp only [putEntry]
    split
    · simp [tget]
    · split
      · simp [tget]
      · simp_all [tget]

theorem tget_tput_other (m : Tab α) {i j : Nat} (v : α) (h : j ≠ i) : tget (tput m i v) j = tget m j := by
  unfold tput putAt
  induction m with
  | nil => simp [putEntry, tget, h]
  | cons e m ih =>
    obtain ⟨k, y⟩ := e
    simp only [putEntry]
    split
    · simp [tget, h]
    · split
      · simp_all [tget]
      · simp [tget, ih]

theorem tget_tput (m : Tab α) (i j : Nat) (v : α) : tget (tput m i v) j = if j = i then some v else tget m j := by
  by_cases h : j = i
  · subst h; simp
  · simp [h, tget_tput_other]

/-- A second entry of a key replaces the first. -/
@[simp] theorem tput_tput (m : Tab α) (i : Nat) (v x : α) : tput (tput m i v) i x = tput m i x := by
  unfold tput putAt
  induction m with
  | nil => simp [putEntry]
  | cons e m ih =>
    obtain ⟨k, y⟩ := e
    by_cases h : i < k
    · simp [putEntry, h]
    · by_cases h' : i = k
      · subst h'; simp [putEntry]
      · have ih : putEntry x (putEntry v m i) i = putEntry x m i := ih
        simp [putEntry, h, h', ih]

/-- A removed key has no entry. -/
@[simp] theorem tget_tdel_same (m : Tab α) (i : Nat) : tget (tdel m i) i = none := by
  unfold tdel putAt
  induction m with
  | nil => rfl
  | cons e m ih =>
    obtain ⟨k, y⟩ := e
    by_cases h : k = i
    · simp_all
    · simp_all [tget, Ne.symm h]

theorem tget_tdel_other (m : Tab α) {i j : Nat} (h : j ≠ i) : tget (tdel m i) j = tget m j := by
  unfold tdel putAt
  induction m with
  | nil => rfl
  | cons e m ih =>
    obtain ⟨k, y⟩ := e
    by_cases hk : k = i
    · simp_all [tget]
    · simp_all [tget]

/-! ## The canonical form -/

theorem risingFrom_mono {b c : Nat} (h : c ≤ b) {m : Sparse α} (hm : risingFrom b m = true) : risingFrom c m = true := by
  cases m with
  | nil => rfl
  | cons e m => obtain ⟨k, y⟩ := e; simp_all [risingFrom]; omega

theorem risingFrom_filter (p : Nat × α → Bool) {b : Nat} {m : Sparse α} (hm : risingFrom b m = true) :
    risingFrom b (m.filter p) = true := by
  induction m generalizing b with
  | nil => rfl
  | cons e m ih =>
    obtain ⟨k, y⟩ := e
    simp only [risingFrom, Bool.and_eq_true, decide_eq_true_eq] at hm
    rw [List.filter_cons]
    split
    · simp [risingFrom, hm.1, ih hm.2]
    · exact risingFrom_mono (by omega) (ih hm.2)

theorem risingFrom_putEntry (x : α) {b i : Nat} {m : Sparse α} (hb : b ≤ i) (hm : risingFrom b m = true) :
    risingFrom b (putEntry x m i) = true := by
  induction m generalizing b with
  | nil => simp [putEntry, risingFrom, hb]
  | cons e m ih =>
    obtain ⟨k, y⟩ := e
    simp only [risingFrom, Bool.and_eq_true, decide_eq_true_eq] at hm
    simp only [putEntry]
    split
    · simp [risingFrom, hb, hm.2]; omega
    · split
      · next h => subst h; simp [risingFrom, hb, hm.2]
      · simp [risingFrom, hm.1]
        exact ih (by omega) hm.2

theorem all_filter_of_all (p q : Nat × α → Bool) {m : Sparse α} (h : m.all p = true) : (m.filter q).all p = true := by
  simp only [List.all_eq_true] at h ⊢
  intro x hx
  exact h x (List.mem_filter.mp hx).1

theorem all_putEntry (p : Nat × α → Bool) (x : α) (i : Nat) {m : Sparse α} (hx : p (i, x) = true)
    (h : m.all p = true) : (putEntry x m i).all p = true := by
  induction m with
  | nil => simpa [putEntry] using hx
  | cons e m ih =>
    obtain ⟨k, y⟩ := e
    simp only [List.all_cons, Bool.and_eq_true] at h
    simp only [putEntry]
    split
    · simp [hx, h.1, h.2]
    · split
      · simp [hx, h.2]
      · simp [h.1, ih h.2]

/-- Every write keeps the canonical form. -/
theorem scanon_sset [DecidableEq α] (d : α) {m : Sparse α} (i : Nat) (v : α) (h : scanon d m = true) :
    scanon d (sset d m i v) = true := by
  simp only [scanon, Bool.and_eq_true] at h ⊢
  unfold sset putAt
  by_cases hv : v = d
  · simp only [hv, if_true]
    exact ⟨risingFrom_filter _ h.1, all_filter_of_all _ _ h.2⟩
  · simp only [hv, if_false]
    exact ⟨risingFrom_putEntry _ (Nat.zero_le _) h.1, all_putEntry _ _ _ (by simpa using hv) h.2⟩

theorem scanon_filter [DecidableEq α] (d : α) {m : Sparse α} (p : Nat × α → Bool) (h : scanon d m = true) :
    scanon d (m.filter p) = true := by
  simp only [scanon, Bool.and_eq_true] at h ⊢
  exact ⟨risingFrom_filter _ h.1, all_filter_of_all _ _ h.2⟩

/-! ## Memory -/

@[simp] theorem Memory.byte_write_same (m : Memory) (a : Nat) (b : Byte) : (m.write a b).byte a = b :=
  sget_sset_same _ _ _ _

theorem Memory.byte_write_other (m : Memory) {a c : Nat} (b : Byte) (h : c ≠ a) : (m.write a b).byte c = m.byte c :=
  sget_sset_other _ _ _ h

theorem Memory.wf_write {m : Memory} (a : Nat) (b : Byte) (h : m.wf = true) : (m.write a b).wf = true :=
  scanon_sset _ _ _ h

theorem Memory.wf_writeBytes {m : Memory} (a : Nat) (bs : List Byte) (h : m.wf = true) :
    (m.writeBytes a bs).wf = true := by
  induction bs generalizing m a with
  | nil => exact h
  | cons b bs ih => exact ih _ (Memory.wf_write _ _ h)

/-- A byte below the bytes written, or past them, is left alone. -/
theorem Memory.byte_writeBytes_outside (m : Memory) (a : Nat) (bs : List Byte) {c : Nat}
    (h : c < a ∨ a + bs.length ≤ c) : (m.writeBytes a bs).byte c = m.byte c := by
  induction bs generalizing m a with
  | nil => rfl
  | cons b bs ih =>
    simp only [List.length_cons] at h
    show (Memory.writeBytes (m.write a b) (a + 1) bs).byte c = m.byte c
    rw [ih _ _ (by omega), Memory.byte_write_other _ _ (by omega)]

/-- A byte written reads as it was written. -/
theorem Memory.byte_writeBytes_inside (m : Memory) (a i : Nat) (bs : List Byte) (h : i < bs.length) :
    (m.writeBytes a bs).byte (a + i) = bs[i] := by
  induction bs generalizing m a i with
  | nil => simp at h
  | cons b bs ih =>
    show (Memory.writeBytes (m.write a b) (a + 1) bs).byte (a + i) = _
    cases i with
    | zero => rw [Nat.add_zero, Memory.byte_writeBytes_outside _ _ _ (by omega)]; simp
    | succ i =>
      have := ih (m.write a b) (a + 1) i (by simpa using h)
      rw [show a + (i + 1) = a + 1 + i by omega, this]; simp

@[simp] theorem Memory.length_bytes (m : Memory) (a n : Nat) : (m.bytes a n).length = n := by
  induction n generalizing a with
  | zero => rfl
  | succ n ih => simp [Memory.bytes, ih]

/-- Bytes read back are the bytes written. -/
theorem Memory.bytes_writeBytes (m : Memory) (a : Nat) (bs : List Byte) : (m.writeBytes a bs).bytes a bs.length = bs := by
  apply List.ext_getElem
  · simp
  intro i h1 h2
  have get : ∀ (m : Memory) (a n i : Nat) (h : i < (m.bytes a n).length), (m.bytes a n)[i] = m.byte (a + i) := by
    intro m a n
    induction n generalizing a with
    | zero => intro i h; simp [Memory.bytes] at h
    | succ n ih =>
      intro i h
      cases i with
      | zero => simp [Memory.bytes]
      | succ i => simp [Memory.bytes, ih]; congr 1; omega
  rw [get, Memory.byte_writeBytes_inside]

end Sys2Proof.Machine
end

