-- ==== Sys2Proof/Laws/State.lean ====
section
/-!
SUPPORT. One lemma for each field of `State` under each update of a table of the state, and for each field of `Warp` under
each update of a register: no proof unfolds a record update.
-/
namespace Sys2Proof.Machine

@[simp] theorem State.setWarp_warps (s : State) (id : Nat) (w : Warp) : (s.setWarp id w).warps = tput s.warps id w := rfl
@[simp] theorem State.setWarp_tape (s : State) (id : Nat) (w : Warp) : (s.setWarp id w).tape = s.tape := rfl
@[simp] theorem State.setWarp_cur (s : State) (id : Nat) (w : Warp) : (s.setWarp id w).cur = s.cur := rfl
@[simp] theorem State.setWarp_ev (s : State) (id : Nat) (w : Warp) : (s.setWarp id w).ev = s.ev := rfl
@[simp] theorem State.setWarp_free (s : State) (id : Nat) (w : Warp) : (s.setWarp id w).free = s.free := rfl
@[simp] theorem State.setWarp_clock (s : State) (id : Nat) (w : Warp) : (s.setWarp id w).clock = s.clock := rfl
@[simp] theorem State.setWarp_mem (s : State) (id : Nat) (w : Warp) : (s.setWarp id w).mem = s.mem := rfl
@[simp] theorem State.setWarp_marks (s : State) (id : Nat) (w : Warp) : (s.setWarp id w).marks = s.marks := rfl
@[simp] theorem State.setWarp_hostq (s : State) (id : Nat) (w : Warp) : (s.setWarp id w).hostq = s.hostq := rfl
@[simp] theorem State.setWarp_bad (s : State) (id : Nat) (w : Warp) : (s.setWarp id w).bad = s.bad := rfl
@[simp] theorem State.setWarp_vis (s : State) (id : Nat) (w : Warp) : (s.setWarp id w).vis = s.vis := rfl
@[simp] theorem State.setWarp_dies (s : State) (id : Nat) (w : Warp) : (s.setWarp id w).dies = s.dies := rfl
@[simp] theorem State.setWarp_cores (s : State) (id : Nat) (w : Warp) : (s.setWarp id w).cores = s.cores := rfl
@[simp] theorem State.setWarp_slots (s : State) (id : Nat) (w : Warp) : (s.setWarp id w).slots = s.slots := rfl
@[simp] theorem State.setWarp_launches (s : State) (id : Nat) (w : Warp) : (s.setWarp id w).launches = s.launches := rfl
@[simp] theorem State.setWarp_groups (s : State) (id : Nat) (w : Warp) : (s.setWarp id w).groups = s.groups := rfl
@[simp] theorem State.setWarp_tasks (s : State) (id : Nat) (w : Warp) : (s.setWarp id w).tasks = s.tasks := rfl
@[simp] theorem State.setWarp_calls (s : State) (id : Nat) (w : Warp) : (s.setWarp id w).calls = s.calls := rfl
@[simp] theorem State.setWarp_checks (s : State) (id : Nat) (w : Warp) : (s.setWarp id w).checks = s.checks := rfl
@[simp] theorem State.setWarp_ready (s : State) (id : Nat) (w : Warp) : (s.setWarp id w).ready = s.ready := rfl
@[simp] theorem State.setWarp_ctl (s : State) (id : Nat) (w : Warp) : (s.setWarp id w).ctl = s.ctl := rfl
@[simp] theorem State.setWarp_reply (s : State) (id : Nat) (w : Warp) : (s.setWarp id w).reply = s.reply := rfl
@[simp] theorem State.setWarp_nextWarp (s : State) (id : Nat) (w : Warp) : (s.setWarp id w).nextWarp = s.nextWarp := rfl
@[simp] theorem State.setWarp_nextGroup (s : State) (id : Nat) (w : Warp) : (s.setWarp id w).nextGroup = s.nextGroup := rfl
@[simp] theorem State.setWarp_nextLaunch (s : State) (id : Nat) (w : Warp) : (s.setWarp id w).nextLaunch = s.nextLaunch := rfl
@[simp] theorem State.setWarp_nextTask (s : State) (id : Nat) (w : Warp) : (s.setWarp id w).nextTask = s.nextTask := rfl
@[simp] theorem State.setWarp_nextCall (s : State) (id : Nat) (w : Warp) : (s.setWarp id w).nextCall = s.nextCall := rfl
@[simp] theorem State.setWarp_nextCheck (s : State) (id : Nat) (w : Warp) : (s.setWarp id w).nextCheck = s.nextCheck := rfl
@[simp] theorem State.setWarp_nextMvb (s : State) (id : Nat) (w : Warp) : (s.setWarp id w).nextMvb = s.nextMvb := rfl

@[simp] theorem State.setMe_warps (s : State) (w : Warp) : (s.setMe w).warps = tput s.warps s.cur.warp w := rfl
@[simp] theorem State.setMe_tape (s : State) (w : Warp) : (s.setMe w).tape = s.tape := rfl
@[simp] theorem State.setMe_cur (s : State) (w : Warp) : (s.setMe w).cur = s.cur := rfl
@[simp] theorem State.setMe_ev (s : State) (w : Warp) : (s.setMe w).ev = s.ev := rfl
@[simp] theorem State.setMe_free (s : State) (w : Warp) : (s.setMe w).free = s.free := rfl
@[simp] theorem State.setMe_clock (s : State) (w : Warp) : (s.setMe w).clock = s.clock := rfl
@[simp] theorem State.setMe_mem (s : State) (w : Warp) : (s.setMe w).mem = s.mem := rfl
@[simp] theorem State.setMe_marks (s : State) (w : Warp) : (s.setMe w).marks = s.marks := rfl
@[simp] theorem State.setMe_hostq (s : State) (w : Warp) : (s.setMe w).hostq = s.hostq := rfl
@[simp] theorem State.setMe_bad (s : State) (w : Warp) : (s.setMe w).bad = s.bad := rfl
@[simp] theorem State.setMe_vis (s : State) (w : Warp) : (s.setMe w).vis = s.vis := rfl
@[simp] theorem State.setMe_dies (s : State) (w : Warp) : (s.setMe w).dies = s.dies := rfl
@[simp] theorem State.setMe_cores (s : State) (w : Warp) : (s.setMe w).cores = s.cores := rfl
@[simp] theorem State.setMe_slots (s : State) (w : Warp) : (s.setMe w).slots = s.slots := rfl
@[simp] theorem State.setMe_launches (s : State) (w : Warp) : (s.setMe w).launches = s.launches := rfl
@[simp] theorem State.setMe_groups (s : State) (w : Warp) : (s.setMe w).groups = s.groups := rfl
@[simp] theorem State.setMe_tasks (s : State) (w : Warp) : (s.setMe w).tasks = s.tasks := rfl
@[simp] theorem State.setMe_calls (s : State) (w : Warp) : (s.setMe w).calls = s.calls := rfl
@[simp] theorem State.setMe_checks (s : State) (w : Warp) : (s.setMe w).checks = s.checks := rfl
@[simp] theorem State.setMe_ready (s : State) (w : Warp) : (s.setMe w).ready = s.ready := rfl
@[simp] theorem State.setMe_ctl (s : State) (w : Warp) : (s.setMe w).ctl = s.ctl := rfl
@[simp] theorem State.setMe_reply (s : State) (w : Warp) : (s.setMe w).reply = s.reply := rfl
@[simp] theorem State.setMe_nextWarp (s : State) (w : Warp) : (s.setMe w).nextWarp = s.nextWarp := rfl
@[simp] theorem State.setMe_nextGroup (s : State) (w : Warp) : (s.setMe w).nextGroup = s.nextGroup := rfl
@[simp] theorem State.setMe_nextLaunch (s : State) (w : Warp) : (s.setMe w).nextLaunch = s.nextLaunch := rfl
@[simp] theorem State.setMe_nextTask (s : State) (w : Warp) : (s.setMe w).nextTask = s.nextTask := rfl
@[simp] theorem State.setMe_nextCall (s : State) (w : Warp) : (s.setMe w).nextCall = s.nextCall := rfl
@[simp] theorem State.setMe_nextCheck (s : State) (w : Warp) : (s.setMe w).nextCheck = s.nextCheck := rfl
@[simp] theorem State.setMe_nextMvb (s : State) (w : Warp) : (s.setMe w).nextMvb = s.nextMvb := rfl

@[simp] theorem State.setGroup_groups (s : State) (id : Nat) (g : Group) : (s.setGroup id g).groups = tput s.groups id g := rfl
@[simp] theorem State.setGroup_tape (s : State) (id : Nat) (g : Group) : (s.setGroup id g).tape = s.tape := rfl
@[simp] theorem State.setGroup_cur (s : State) (id : Nat) (g : Group) : (s.setGroup id g).cur = s.cur := rfl
@[simp] theorem State.setGroup_ev (s : State) (id : Nat) (g : Group) : (s.setGroup id g).ev = s.ev := rfl
@[simp] theorem State.setGroup_free (s : State) (id : Nat) (g : Group) : (s.setGroup id g).free = s.free := rfl
@[simp] theorem State.setGroup_clock (s : State) (id : Nat) (g : Group) : (s.setGroup id g).clock = s.clock := rfl
@[simp] theorem State.setGroup_mem (s : State) (id : Nat) (g : Group) : (s.setGroup id g).mem = s.mem := rfl
@[simp] theorem State.setGroup_marks (s : State) (id : Nat) (g : Group) : (s.setGroup id g).marks = s.marks := rfl
@[simp] theorem State.setGroup_hostq (s : State) (id : Nat) (g : Group) : (s.setGroup id g).hostq = s.hostq := rfl
@[simp] theorem State.setGroup_bad (s : State) (id : Nat) (g : Group) : (s.setGroup id g).bad = s.bad := rfl
@[simp] theorem State.setGroup_vis (s : State) (id : Nat) (g : Group) : (s.setGroup id g).vis = s.vis := rfl
@[simp] theorem State.setGroup_dies (s : State) (id : Nat) (g : Group) : (s.setGroup id g).dies = s.dies := rfl
@[simp] theorem State.setGroup_cores (s : State) (id : Nat) (g : Group) : (s.setGroup id g).cores = s.cores := rfl
@[simp] theorem State.setGroup_slots (s : State) (id : Nat) (g : Group) : (s.setGroup id g).slots = s.slots := rfl
@[simp] theorem State.setGroup_warps (s : State) (id : Nat) (g : Group) : (s.setGroup id g).warps = s.warps := rfl
@[simp] theorem State.setGroup_launches (s : State) (id : Nat) (g : Group) : (s.setGroup id g).launches = s.launches := rfl
@[simp] theorem State.setGroup_tasks (s : State) (id : Nat) (g : Group) : (s.setGroup id g).tasks = s.tasks := rfl
@[simp] theorem State.setGroup_calls (s : State) (id : Nat) (g : Group) : (s.setGroup id g).calls = s.calls := rfl
@[simp] theorem State.setGroup_checks (s : State) (id : Nat) (g : Group) : (s.setGroup id g).checks = s.checks := rfl
@[simp] theorem State.setGroup_ready (s : State) (id : Nat) (g : Group) : (s.setGroup id g).ready = s.ready := rfl
@[simp] theorem State.setGroup_ctl (s : State) (id : Nat) (g : Group) : (s.setGroup id g).ctl = s.ctl := rfl
@[simp] theorem State.setGroup_reply (s : State) (id : Nat) (g : Group) : (s.setGroup id g).reply = s.reply := rfl
@[simp] theorem State.setGroup_nextWarp (s : State) (id : Nat) (g : Group) : (s.setGroup id g).nextWarp = s.nextWarp := rfl
@[simp] theorem State.setGroup_nextGroup (s : State) (id : Nat) (g : Group) : (s.setGroup id g).nextGroup = s.nextGroup := rfl
@[simp] theorem State.setGroup_nextLaunch (s : State) (id : Nat) (g : Group) : (s.setGroup id g).nextLaunch = s.nextLaunch := rfl
@[simp] theorem State.setGroup_nextTask (s : State) (id : Nat) (g : Group) : (s.setGroup id g).nextTask = s.nextTask := rfl
@[simp] theorem State.setGroup_nextCall (s : State) (id : Nat) (g : Group) : (s.setGroup id g).nextCall = s.nextCall := rfl
@[simp] theorem State.setGroup_nextCheck (s : State) (id : Nat) (g : Group) : (s.setGroup id g).nextCheck = s.nextCheck := rfl
@[simp] theorem State.setGroup_nextMvb (s : State) (id : Nat) (g : Group) : (s.setGroup id g).nextMvb = s.nextMvb := rfl

@[simp] theorem State.setLaunch_launches (s : State) (id : Nat) (l : Launch) : (s.setLaunch id l).launches = tput s.launches id l := rfl
@[simp] theorem State.setLaunch_tape (s : State) (id : Nat) (l : Launch) : (s.setLaunch id l).tape = s.tape := rfl
@[simp] theorem State.setLaunch_cur (s : State) (id : Nat) (l : Launch) : (s.setLaunch id l).cur = s.cur := rfl
@[simp] theorem State.setLaunch_ev (s : State) (id : Nat) (l : Launch) : (s.setLaunch id l).ev = s.ev := rfl
@[simp] theorem State.setLaunch_free (s : State) (id : Nat) (l : Launch) : (s.setLaunch id l).free = s.free := rfl
@[simp] theorem State.setLaunch_clock (s : State) (id : Nat) (l : Launch) : (s.setLaunch id l).clock = s.clock := rfl
@[simp] theorem State.setLaunch_mem (s : State) (id : Nat) (l : Launch) : (s.setLaunch id l).mem = s.mem := rfl
@[simp] theorem State.setLaunch_marks (s : State) (id : Nat) (l : Launch) : (s.setLaunch id l).marks = s.marks := rfl
@[simp] theorem State.setLaunch_hostq (s : State) (id : Nat) (l : Launch) : (s.setLaunch id l).hostq = s.hostq := rfl
@[simp] theorem State.setLaunch_bad (s : State) (id : Nat) (l : Launch) : (s.setLaunch id l).bad = s.bad := rfl
@[simp] theorem State.setLaunch_vis (s : State) (id : Nat) (l : Launch) : (s.setLaunch id l).vis = s.vis := rfl
@[simp] theorem State.setLaunch_dies (s : State) (id : Nat) (l : Launch) : (s.setLaunch id l).dies = s.dies := rfl
@[simp] theorem State.setLaunch_cores (s : State) (id : Nat) (l : Launch) : (s.setLaunch id l).cores = s.cores := rfl
@[simp] theorem State.setLaunch_slots (s : State) (id : Nat) (l : Launch) : (s.setLaunch id l).slots = s.slots := rfl
@[simp] theorem State.setLaunch_warps (s : State) (id : Nat) (l : Launch) : (s.setLaunch id l).warps = s.warps := rfl
@[simp] theorem State.setLaunch_groups (s : State) (id : Nat) (l : Launch) : (s.setLaunch id l).groups = s.groups := rfl
@[simp] theorem State.setLaunch_tasks (s : State) (id : Nat) (l : Launch) : (s.setLaunch id l).tasks = s.tasks := rfl
@[simp] theorem State.setLaunch_calls (s : State) (id : Nat) (l : Launch) : (s.setLaunch id l).calls = s.calls := rfl
@[simp] theorem State.setLaunch_checks (s : State) (id : Nat) (l : Launch) : (s.setLaunch id l).checks = s.checks := rfl
@[simp] theorem State.setLaunch_ready (s : State) (id : Nat) (l : Launch) : (s.setLaunch id l).ready = s.ready := rfl
@[simp] theorem State.setLaunch_ctl (s : State) (id : Nat) (l : Launch) : (s.setLaunch id l).ctl = s.ctl := rfl
@[simp] theorem State.setLaunch_reply (s : State) (id : Nat) (l : Launch) : (s.setLaunch id l).reply = s.reply := rfl
@[simp] theorem State.setLaunch_nextWarp (s : State) (id : Nat) (l : Launch) : (s.setLaunch id l).nextWarp = s.nextWarp := rfl
@[simp] theorem State.setLaunch_nextGroup (s : State) (id : Nat) (l : Launch) : (s.setLaunch id l).nextGroup = s.nextGroup := rfl
@[simp] theorem State.setLaunch_nextLaunch (s : State) (id : Nat) (l : Launch) : (s.setLaunch id l).nextLaunch = s.nextLaunch := rfl
@[simp] theorem State.setLaunch_nextTask (s : State) (id : Nat) (l : Launch) : (s.setLaunch id l).nextTask = s.nextTask := rfl
@[simp] theorem State.setLaunch_nextCall (s : State) (id : Nat) (l : Launch) : (s.setLaunch id l).nextCall = s.nextCall := rfl
@[simp] theorem State.setLaunch_nextCheck (s : State) (id : Nat) (l : Launch) : (s.setLaunch id l).nextCheck = s.nextCheck := rfl
@[simp] theorem State.setLaunch_nextMvb (s : State) (id : Nat) (l : Launch) : (s.setLaunch id l).nextMvb = s.nextMvb := rfl

@[simp] theorem State.setCore_cores (s : State) (id : Nat) (c : Core) : (s.setCore id c).cores = tput s.cores id c := rfl
@[simp] theorem State.setCore_tape (s : State) (id : Nat) (c : Core) : (s.setCore id c).tape = s.tape := rfl
@[simp] theorem State.setCore_cur (s : State) (id : Nat) (c : Core) : (s.setCore id c).cur = s.cur := rfl
@[simp] theorem State.setCore_ev (s : State) (id : Nat) (c : Core) : (s.setCore id c).ev = s.ev := rfl
@[simp] theorem State.setCore_free (s : State) (id : Nat) (c : Core) : (s.setCore id c).free = s.free := rfl
@[simp] theorem State.setCore_clock (s : State) (id : Nat) (c : Core) : (s.setCore id c).clock = s.clock := rfl
@[simp] theorem State.setCore_mem (s : State) (id : Nat) (c : Core) : (s.setCore id c).mem = s.mem := rfl
@[simp] theorem State.setCore_marks (s : State) (id : Nat) (c : Core) : (s.setCore id c).marks = s.marks := rfl
@[simp] theorem State.setCore_hostq (s : State) (id : Nat) (c : Core) : (s.setCore id c).hostq = s.hostq := rfl
@[simp] theorem State.setCore_bad (s : State) (id : Nat) (c : Core) : (s.setCore id c).bad = s.bad := rfl
@[simp] theorem State.setCore_vis (s : State) (id : Nat) (c : Core) : (s.setCore id c).vis = s.vis := rfl
@[simp] theorem State.setCore_dies (s : State) (id : Nat) (c : Core) : (s.setCore id c).dies = s.dies := rfl
@[simp] theorem State.setCore_slots (s : State) (id : Nat) (c : Core) : (s.setCore id c).slots = s.slots := rfl
@[simp] theorem State.setCore_warps (s : State) (id : Nat) (c : Core) : (s.setCore id c).warps = s.warps := rfl
@[simp] theorem State.setCore_launches (s : State) (id : Nat) (c : Core) : (s.setCore id c).launches = s.launches := rfl
@[simp] theorem State.setCore_groups (s : State) (id : Nat) (c : Core) : (s.setCore id c).groups = s.groups := rfl
@[simp] theorem State.setCore_tasks (s : State) (id : Nat) (c : Core) : (s.setCore id c).tasks = s.tasks := rfl
@[simp] theorem State.setCore_calls (s : State) (id : Nat) (c : Core) : (s.setCore id c).calls = s.calls := rfl
@[simp] theorem State.setCore_checks (s : State) (id : Nat) (c : Core) : (s.setCore id c).checks = s.checks := rfl
@[simp] theorem State.setCore_ready (s : State) (id : Nat) (c : Core) : (s.setCore id c).ready = s.ready := rfl
@[simp] theorem State.setCore_ctl (s : State) (id : Nat) (c : Core) : (s.setCore id c).ctl = s.ctl := rfl
@[simp] theorem State.setCore_reply (s : State) (id : Nat) (c : Core) : (s.setCore id c).reply = s.reply := rfl
@[simp] theorem State.setCore_nextWarp (s : State) (id : Nat) (c : Core) : (s.setCore id c).nextWarp = s.nextWarp := rfl
@[simp] theorem State.setCore_nextGroup (s : State) (id : Nat) (c : Core) : (s.setCore id c).nextGroup = s.nextGroup := rfl
@[simp] theorem State.setCore_nextLaunch (s : State) (id : Nat) (c : Core) : (s.setCore id c).nextLaunch = s.nextLaunch := rfl
@[simp] theorem State.setCore_nextTask (s : State) (id : Nat) (c : Core) : (s.setCore id c).nextTask = s.nextTask := rfl
@[simp] theorem State.setCore_nextCall (s : State) (id : Nat) (c : Core) : (s.setCore id c).nextCall = s.nextCall := rfl
@[simp] theorem State.setCore_nextCheck (s : State) (id : Nat) (c : Core) : (s.setCore id c).nextCheck = s.nextCheck := rfl
@[simp] theorem State.setCore_nextMvb (s : State) (id : Nat) (c : Core) : (s.setCore id c).nextMvb = s.nextMvb := rfl

@[simp] theorem State.setDie_dies (s : State) (id : Nat) (d : Die) : (s.setDie id d).dies = tput s.dies id d := rfl
@[simp] theorem State.setDie_tape (s : State) (id : Nat) (d : Die) : (s.setDie id d).tape = s.tape := rfl
@[simp] theorem State.setDie_cur (s : State) (id : Nat) (d : Die) : (s.setDie id d).cur = s.cur := rfl
@[simp] theorem State.setDie_ev (s : State) (id : Nat) (d : Die) : (s.setDie id d).ev = s.ev := rfl
@[simp] theorem State.setDie_free (s : State) (id : Nat) (d : Die) : (s.setDie id d).free = s.free := rfl
@[simp] theorem State.setDie_clock (s : State) (id : Nat) (d : Die) : (s.setDie id d).clock = s.clock := rfl
@[simp] theorem State.setDie_mem (s : State) (id : Nat) (d : Die) : (s.setDie id d).mem = s.mem := rfl
@[simp] theorem State.setDie_marks (s : State) (id : Nat) (d : Die) : (s.setDie id d).marks = s.marks := rfl
@[simp] theorem State.setDie_hostq (s : State) (id : Nat) (d : Die) : (s.setDie id d).hostq = s.hostq := rfl
@[simp] theorem State.setDie_bad (s : State) (id : Nat) (d : Die) : (s.setDie id d).bad = s.bad := rfl
@[simp] theorem State.setDie_vis (s : State) (id : Nat) (d : Die) : (s.setDie id d).vis = s.vis := rfl
@[simp] theorem State.setDie_cores (s : State) (id : Nat) (d : Die) : (s.setDie id d).cores = s.cores := rfl
@[simp] theorem State.setDie_slots (s : State) (id : Nat) (d : Die) : (s.setDie id d).slots = s.slots := rfl
@[simp] theorem State.setDie_warps (s : State) (id : Nat) (d : Die) : (s.setDie id d).warps = s.warps := rfl
@[simp] theorem State.setDie_launches (s : State) (id : Nat) (d : Die) : (s.setDie id d).launches = s.launches := rfl
@[simp] theorem State.setDie_groups (s : State) (id : Nat) (d : Die) : (s.setDie id d).groups = s.groups := rfl
@[simp] theorem State.setDie_tasks (s : State) (id : Nat) (d : Die) : (s.setDie id d).tasks = s.tasks := rfl
@[simp] theorem State.setDie_calls (s : State) (id : Nat) (d : Die) : (s.setDie id d).calls = s.calls := rfl
@[simp] theorem State.setDie_checks (s : State) (id : Nat) (d : Die) : (s.setDie id d).checks = s.checks := rfl
@[simp] theorem State.setDie_ready (s : State) (id : Nat) (d : Die) : (s.setDie id d).ready = s.ready := rfl
@[simp] theorem State.setDie_ctl (s : State) (id : Nat) (d : Die) : (s.setDie id d).ctl = s.ctl := rfl
@[simp] theorem State.setDie_reply (s : State) (id : Nat) (d : Die) : (s.setDie id d).reply = s.reply := rfl
@[simp] theorem State.setDie_nextWarp (s : State) (id : Nat) (d : Die) : (s.setDie id d).nextWarp = s.nextWarp := rfl
@[simp] theorem State.setDie_nextGroup (s : State) (id : Nat) (d : Die) : (s.setDie id d).nextGroup = s.nextGroup := rfl
@[simp] theorem State.setDie_nextLaunch (s : State) (id : Nat) (d : Die) : (s.setDie id d).nextLaunch = s.nextLaunch := rfl
@[simp] theorem State.setDie_nextTask (s : State) (id : Nat) (d : Die) : (s.setDie id d).nextTask = s.nextTask := rfl
@[simp] theorem State.setDie_nextCall (s : State) (id : Nat) (d : Die) : (s.setDie id d).nextCall = s.nextCall := rfl
@[simp] theorem State.setDie_nextCheck (s : State) (id : Nat) (d : Die) : (s.setDie id d).nextCheck = s.nextCheck := rfl
@[simp] theorem State.setDie_nextMvb (s : State) (id : Nat) (d : Die) : (s.setDie id d).nextMvb = s.nextMvb := rfl

@[simp] theorem State.setVi_vis (s : State) (id : Nat) (v : Vi) : (s.setVi id v).vis = tput s.vis id v := rfl
@[simp] theorem State.setVi_tape (s : State) (id : Nat) (v : Vi) : (s.setVi id v).tape = s.tape := rfl
@[simp] theorem State.setVi_cur (s : State) (id : Nat) (v : Vi) : (s.setVi id v).cur = s.cur := rfl
@[simp] theorem State.setVi_ev (s : State) (id : Nat) (v : Vi) : (s.setVi id v).ev = s.ev := rfl
@[simp] theorem State.setVi_free (s : State) (id : Nat) (v : Vi) : (s.setVi id v).free = s.free := rfl
@[simp] theorem State.setVi_clock (s : State) (id : Nat) (v : Vi) : (s.setVi id v).clock = s.clock := rfl
@[simp] theorem State.setVi_mem (s : State) (id : Nat) (v : Vi) : (s.setVi id v).mem = s.mem := rfl
@[simp] theorem State.setVi_marks (s : State) (id : Nat) (v : Vi) : (s.setVi id v).marks = s.marks := rfl
@[simp] theorem State.setVi_hostq (s : State) (id : Nat) (v : Vi) : (s.setVi id v).hostq = s.hostq := rfl
@[simp] theorem State.setVi_bad (s : State) (id : Nat) (v : Vi) : (s.setVi id v).bad = s.bad := rfl
@[simp] theorem State.setVi_dies (s : State) (id : Nat) (v : Vi) : (s.setVi id v).dies = s.dies := rfl
@[simp] theorem State.setVi_cores (s : State) (id : Nat) (v : Vi) : (s.setVi id v).cores = s.cores := rfl
@[simp] theorem State.setVi_slots (s : State) (id : Nat) (v : Vi) : (s.setVi id v).slots = s.slots := rfl
@[simp] theorem State.setVi_warps (s : State) (id : Nat) (v : Vi) : (s.setVi id v).warps = s.warps := rfl
@[simp] theorem State.setVi_launches (s : State) (id : Nat) (v : Vi) : (s.setVi id v).launches = s.launches := rfl
@[simp] theorem State.setVi_groups (s : State) (id : Nat) (v : Vi) : (s.setVi id v).groups = s.groups := rfl
@[simp] theorem State.setVi_tasks (s : State) (id : Nat) (v : Vi) : (s.setVi id v).tasks = s.tasks := rfl
@[simp] theorem State.setVi_calls (s : State) (id : Nat) (v : Vi) : (s.setVi id v).calls = s.calls := rfl
@[simp] theorem State.setVi_checks (s : State) (id : Nat) (v : Vi) : (s.setVi id v).checks = s.checks := rfl
@[simp] theorem State.setVi_ready (s : State) (id : Nat) (v : Vi) : (s.setVi id v).ready = s.ready := rfl
@[simp] theorem State.setVi_ctl (s : State) (id : Nat) (v : Vi) : (s.setVi id v).ctl = s.ctl := rfl
@[simp] theorem State.setVi_reply (s : State) (id : Nat) (v : Vi) : (s.setVi id v).reply = s.reply := rfl
@[simp] theorem State.setVi_nextWarp (s : State) (id : Nat) (v : Vi) : (s.setVi id v).nextWarp = s.nextWarp := rfl
@[simp] theorem State.setVi_nextGroup (s : State) (id : Nat) (v : Vi) : (s.setVi id v).nextGroup = s.nextGroup := rfl
@[simp] theorem State.setVi_nextLaunch (s : State) (id : Nat) (v : Vi) : (s.setVi id v).nextLaunch = s.nextLaunch := rfl
@[simp] theorem State.setVi_nextTask (s : State) (id : Nat) (v : Vi) : (s.setVi id v).nextTask = s.nextTask := rfl
@[simp] theorem State.setVi_nextCall (s : State) (id : Nat) (v : Vi) : (s.setVi id v).nextCall = s.nextCall := rfl
@[simp] theorem State.setVi_nextCheck (s : State) (id : Nat) (v : Vi) : (s.setVi id v).nextCheck = s.nextCheck := rfl
@[simp] theorem State.setVi_nextMvb (s : State) (id : Nat) (v : Vi) : (s.setVi id v).nextMvb = s.nextMvb := rfl

@[simp] theorem State.setTask_tasks (s : State) (id lid : Nat) (t : Task) : (s.setTask id lid t).tasks = tput s.tasks id (lid, t) := rfl
@[simp] theorem State.setTask_tape (s : State) (id lid : Nat) (t : Task) : (s.setTask id lid t).tape = s.tape := rfl
@[simp] theorem State.setTask_cur (s : State) (id lid : Nat) (t : Task) : (s.setTask id lid t).cur = s.cur := rfl
@[simp] theorem State.setTask_ev (s : State) (id lid : Nat) (t : Task) : (s.setTask id lid t).ev = s.ev := rfl
@[simp] theorem State.setTask_free (s : State) (id lid : Nat) (t : Task) : (s.setTask id lid t).free = s.free := rfl
@[simp] theorem State.setTask_clock (s : State) (id lid : Nat) (t : Task) : (s.setTask id lid t).clock = s.clock := rfl
@[simp] theorem State.setTask_mem (s : State) (id lid : Nat) (t : Task) : (s.setTask id lid t).mem = s.mem := rfl
@[simp] theorem State.setTask_marks (s : State) (id lid : Nat) (t : Task) : (s.setTask id lid t).marks = s.marks := rfl
@[simp] theorem State.setTask_hostq (s : State) (id lid : Nat) (t : Task) : (s.setTask id lid t).hostq = s.hostq := rfl
@[simp] theorem State.setTask_bad (s : State) (id lid : Nat) (t : Task) : (s.setTask id lid t).bad = s.bad := rfl
@[simp] theorem State.setTask_vis (s : State) (id lid : Nat) (t : Task) : (s.setTask id lid t).vis = s.vis := rfl
@[simp] theorem State.setTask_dies (s : State) (id lid : Nat) (t : Task) : (s.setTask id lid t).dies = s.dies := rfl
@[simp] theorem State.setTask_cores (s : State) (id lid : Nat) (t : Task) : (s.setTask id lid t).cores = s.cores := rfl
@[simp] theorem State.setTask_slots (s : State) (id lid : Nat) (t : Task) : (s.setTask id lid t).slots = s.slots := rfl
@[simp] theorem State.setTask_warps (s : State) (id lid : Nat) (t : Task) : (s.setTask id lid t).warps = s.warps := rfl
@[simp] theorem State.setTask_launches (s : State) (id lid : Nat) (t : Task) : (s.setTask id lid t).launches = s.launches := rfl
@[simp] theorem State.setTask_groups (s : State) (id lid : Nat) (t : Task) : (s.setTask id lid t).groups = s.groups := rfl
@[simp] theorem State.setTask_calls (s : State) (id lid : Nat) (t : Task) : (s.setTask id lid t).calls = s.calls := rfl
@[simp] theorem State.setTask_checks (s : State) (id lid : Nat) (t : Task) : (s.setTask id lid t).checks = s.checks := rfl
@[simp] theorem State.setTask_ready (s : State) (id lid : Nat) (t : Task) : (s.setTask id lid t).ready = s.ready := rfl
@[simp] theorem State.setTask_ctl (s : State) (id lid : Nat) (t : Task) : (s.setTask id lid t).ctl = s.ctl := rfl
@[simp] theorem State.setTask_reply (s : State) (id lid : Nat) (t : Task) : (s.setTask id lid t).reply = s.reply := rfl
@[simp] theorem State.setTask_nextWarp (s : State) (id lid : Nat) (t : Task) : (s.setTask id lid t).nextWarp = s.nextWarp := rfl
@[simp] theorem State.setTask_nextGroup (s : State) (id lid : Nat) (t : Task) : (s.setTask id lid t).nextGroup = s.nextGroup := rfl
@[simp] theorem State.setTask_nextLaunch (s : State) (id lid : Nat) (t : Task) : (s.setTask id lid t).nextLaunch = s.nextLaunch := rfl
@[simp] theorem State.setTask_nextTask (s : State) (id lid : Nat) (t : Task) : (s.setTask id lid t).nextTask = s.nextTask := rfl
@[simp] theorem State.setTask_nextCall (s : State) (id lid : Nat) (t : Task) : (s.setTask id lid t).nextCall = s.nextCall := rfl
@[simp] theorem State.setTask_nextCheck (s : State) (id lid : Nat) (t : Task) : (s.setTask id lid t).nextCheck = s.nextCheck := rfl
@[simp] theorem State.setTask_nextMvb (s : State) (id lid : Nat) (t : Task) : (s.setTask id lid t).nextMvb = s.nextMvb := rfl

@[simp] theorem State.setQueue_tape (s : State) (v q : Nat) (x : Queue) : (s.setQueue v q x).tape = s.tape := rfl
@[simp] theorem State.setQueue_cur (s : State) (v q : Nat) (x : Queue) : (s.setQueue v q x).cur = s.cur := rfl
@[simp] theorem State.setQueue_ev (s : State) (v q : Nat) (x : Queue) : (s.setQueue v q x).ev = s.ev := rfl
@[simp] theorem State.setQueue_free (s : State) (v q : Nat) (x : Queue) : (s.setQueue v q x).free = s.free := rfl
@[simp] theorem State.setQueue_clock (s : State) (v q : Nat) (x : Queue) : (s.setQueue v q x).clock = s.clock := rfl
@[simp] theorem State.setQueue_mem (s : State) (v q : Nat) (x : Queue) : (s.setQueue v q x).mem = s.mem := rfl
@[simp] theorem State.setQueue_marks (s : State) (v q : Nat) (x : Queue) : (s.setQueue v q x).marks = s.marks := rfl
@[simp] theorem State.setQueue_hostq (s : State) (v q : Nat) (x : Queue) : (s.setQueue v q x).hostq = s.hostq := rfl
@[simp] theorem State.setQueue_bad (s : State) (v q : Nat) (x : Queue) : (s.setQueue v q x).bad = s.bad := rfl
@[simp] theorem State.setQueue_dies (s : State) (v q : Nat) (x : Queue) : (s.setQueue v q x).dies = s.dies := rfl
@[simp] theorem State.setQueue_cores (s : State) (v q : Nat) (x : Queue) : (s.setQueue v q x).cores = s.cores := rfl
@[simp] theorem State.setQueue_slots (s : State) (v q : Nat) (x : Queue) : (s.setQueue v q x).slots = s.slots := rfl
@[simp] theorem State.setQueue_warps (s : State) (v q : Nat) (x : Queue) : (s.setQueue v q x).warps = s.warps := rfl
@[simp] theorem State.setQueue_launches (s : State) (v q : Nat) (x : Queue) : (s.setQueue v q x).launches = s.launches := rfl
@[simp] theorem State.setQueue_groups (s : State) (v q : Nat) (x : Queue) : (s.setQueue v q x).groups = s.groups := rfl
@[simp] theorem State.setQueue_tasks (s : State) (v q : Nat) (x : Queue) : (s.setQueue v q x).tasks = s.tasks := rfl
@[simp] theorem State.setQueue_calls (s : State) (v q : Nat) (x : Queue) : (s.setQueue v q x).calls = s.calls := rfl
@[simp] theorem State.setQueue_checks (s : State) (v q : Nat) (x : Queue) : (s.setQueue v q x).checks = s.checks := rfl
@[simp] theorem State.setQueue_ready (s : State) (v q : Nat) (x : Queue) : (s.setQueue v q x).ready = s.ready := rfl
@[simp] theorem State.setQueue_ctl (s : State) (v q : Nat) (x : Queue) : (s.setQueue v q x).ctl = s.ctl := rfl
@[simp] theorem State.setQueue_reply (s : State) (v q : Nat) (x : Queue) : (s.setQueue v q x).reply = s.reply := rfl
@[simp] theorem State.setQueue_nextWarp (s : State) (v q : Nat) (x : Queue) : (s.setQueue v q x).nextWarp = s.nextWarp := rfl
@[simp] theorem State.setQueue_nextGroup (s : State) (v q : Nat) (x : Queue) : (s.setQueue v q x).nextGroup = s.nextGroup := rfl
@[simp] theorem State.setQueue_nextLaunch (s : State) (v q : Nat) (x : Queue) : (s.setQueue v q x).nextLaunch = s.nextLaunch := rfl
@[simp] theorem State.setQueue_nextTask (s : State) (v q : Nat) (x : Queue) : (s.setQueue v q x).nextTask = s.nextTask := rfl
@[simp] theorem State.setQueue_nextCall (s : State) (v q : Nat) (x : Queue) : (s.setQueue v q x).nextCall = s.nextCall := rfl
@[simp] theorem State.setQueue_nextCheck (s : State) (v q : Nat) (x : Queue) : (s.setQueue v q x).nextCheck = s.nextCheck := rfl
@[simp] theorem State.setQueue_nextMvb (s : State) (v q : Nat) (x : Queue) : (s.setQueue v q x).nextMvb = s.nextMvb := rfl

@[simp] theorem State.count_tape (s : State) (v d n k : Nat) : (s.count v d n k).tape = s.tape := rfl
@[simp] theorem State.count_cur (s : State) (v d n k : Nat) : (s.count v d n k).cur = s.cur := rfl
@[simp] theorem State.count_ev (s : State) (v d n k : Nat) : (s.count v d n k).ev = s.ev := rfl
@[simp] theorem State.count_free (s : State) (v d n k : Nat) : (s.count v d n k).free = s.free := rfl
@[simp] theorem State.count_clock (s : State) (v d n k : Nat) : (s.count v d n k).clock = s.clock := rfl
@[simp] theorem State.count_mem (s : State) (v d n k : Nat) : (s.count v d n k).mem = s.mem := rfl
@[simp] theorem State.count_marks (s : State) (v d n k : Nat) : (s.count v d n k).marks = s.marks := rfl
@[simp] theorem State.count_hostq (s : State) (v d n k : Nat) : (s.count v d n k).hostq = s.hostq := rfl
@[simp] theorem State.count_bad (s : State) (v d n k : Nat) : (s.count v d n k).bad = s.bad := rfl
@[simp] theorem State.count_dies (s : State) (v d n k : Nat) : (s.count v d n k).dies = s.dies := rfl
@[simp] theorem State.count_cores (s : State) (v d n k : Nat) : (s.count v d n k).cores = s.cores := rfl
@[simp] theorem State.count_slots (s : State) (v d n k : Nat) : (s.count v d n k).slots = s.slots := rfl
@[simp] theorem State.count_warps (s : State) (v d n k : Nat) : (s.count v d n k).warps = s.warps := rfl
@[simp] theorem State.count_launches (s : State) (v d n k : Nat) : (s.count v d n k).launches = s.launches := rfl
@[simp] theorem State.count_groups (s : State) (v d n k : Nat) : (s.count v d n k).groups = s.groups := rfl
@[simp] theorem State.count_tasks (s : State) (v d n k : Nat) : (s.count v d n k).tasks = s.tasks := rfl
@[simp] theorem State.count_calls (s : State) (v d n k : Nat) : (s.count v d n k).calls = s.calls := rfl
@[simp] theorem State.count_checks (s : State) (v d n k : Nat) : (s.count v d n k).checks = s.checks := rfl
@[simp] theorem State.count_ready (s : State) (v d n k : Nat) : (s.count v d n k).ready = s.ready := rfl
@[simp] theorem State.count_ctl (s : State) (v d n k : Nat) : (s.count v d n k).ctl = s.ctl := rfl
@[simp] theorem State.count_reply (s : State) (v d n k : Nat) : (s.count v d n k).reply = s.reply := rfl
@[simp] theorem State.count_nextWarp (s : State) (v d n k : Nat) : (s.count v d n k).nextWarp = s.nextWarp := rfl
@[simp] theorem State.count_nextGroup (s : State) (v d n k : Nat) : (s.count v d n k).nextGroup = s.nextGroup := rfl
@[simp] theorem State.count_nextLaunch (s : State) (v d n k : Nat) : (s.count v d n k).nextLaunch = s.nextLaunch := rfl
@[simp] theorem State.count_nextTask (s : State) (v d n k : Nat) : (s.count v d n k).nextTask = s.nextTask := rfl
@[simp] theorem State.count_nextCall (s : State) (v d n k : Nat) : (s.count v d n k).nextCall = s.nextCall := rfl
@[simp] theorem State.count_nextCheck (s : State) (v d n k : Nat) : (s.count v d n k).nextCheck = s.nextCheck := rfl
@[simp] theorem State.count_nextMvb (s : State) (v d n k : Nat) : (s.count v d n k).nextMvb = s.nextMvb := rfl

@[simp] theorem State.trapDue_tape (s : State) (v : Nat) (r : TrapRec) : (s.trapDue v r).tape = s.tape := rfl
@[simp] theorem State.trapDue_cur (s : State) (v : Nat) (r : TrapRec) : (s.trapDue v r).cur = s.cur := rfl
@[simp] theorem State.trapDue_ev (s : State) (v : Nat) (r : TrapRec) : (s.trapDue v r).ev = s.ev := rfl
@[simp] theorem State.trapDue_free (s : State) (v : Nat) (r : TrapRec) : (s.trapDue v r).free = s.free := rfl
@[simp] theorem State.trapDue_clock (s : State) (v : Nat) (r : TrapRec) : (s.trapDue v r).clock = s.clock := rfl
@[simp] theorem State.trapDue_mem (s : State) (v : Nat) (r : TrapRec) : (s.trapDue v r).mem = s.mem := rfl
@[simp] theorem State.trapDue_marks (s : State) (v : Nat) (r : TrapRec) : (s.trapDue v r).marks = s.marks := rfl
@[simp] theorem State.trapDue_hostq (s : State) (v : Nat) (r : TrapRec) : (s.trapDue v r).hostq = s.hostq := rfl
@[simp] theorem State.trapDue_bad (s : State) (v : Nat) (r : TrapRec) : (s.trapDue v r).bad = s.bad := rfl
@[simp] theorem State.trapDue_dies (s : State) (v : Nat) (r : TrapRec) : (s.trapDue v r).dies = s.dies := rfl
@[simp] theorem State.trapDue_cores (s : State) (v : Nat) (r : TrapRec) : (s.trapDue v r).cores = s.cores := rfl
@[simp] theorem State.trapDue_slots (s : State) (v : Nat) (r : TrapRec) : (s.trapDue v r).slots = s.slots := rfl
@[simp] theorem State.trapDue_warps (s : State) (v : Nat) (r : TrapRec) : (s.trapDue v r).warps = s.warps := rfl
@[simp] theorem State.trapDue_launches (s : State) (v : Nat) (r : TrapRec) : (s.trapDue v r).launches = s.launches := rfl
@[simp] theorem State.trapDue_groups (s : State) (v : Nat) (r : TrapRec) : (s.trapDue v r).groups = s.groups := rfl
@[simp] theorem State.trapDue_tasks (s : State) (v : Nat) (r : TrapRec) : (s.trapDue v r).tasks = s.tasks := rfl
@[simp] theorem State.trapDue_calls (s : State) (v : Nat) (r : TrapRec) : (s.trapDue v r).calls = s.calls := rfl
@[simp] theorem State.trapDue_checks (s : State) (v : Nat) (r : TrapRec) : (s.trapDue v r).checks = s.checks := rfl
@[simp] theorem State.trapDue_ready (s : State) (v : Nat) (r : TrapRec) : (s.trapDue v r).ready = s.ready := rfl
@[simp] theorem State.trapDue_ctl (s : State) (v : Nat) (r : TrapRec) : (s.trapDue v r).ctl = s.ctl := rfl
@[simp] theorem State.trapDue_reply (s : State) (v : Nat) (r : TrapRec) : (s.trapDue v r).reply = s.reply := rfl
@[simp] theorem State.trapDue_nextWarp (s : State) (v : Nat) (r : TrapRec) : (s.trapDue v r).nextWarp = s.nextWarp := rfl
@[simp] theorem State.trapDue_nextGroup (s : State) (v : Nat) (r : TrapRec) : (s.trapDue v r).nextGroup = s.nextGroup := rfl
@[simp] theorem State.trapDue_nextLaunch (s : State) (v : Nat) (r : TrapRec) : (s.trapDue v r).nextLaunch = s.nextLaunch := rfl
@[simp] theorem State.trapDue_nextTask (s : State) (v : Nat) (r : TrapRec) : (s.trapDue v r).nextTask = s.nextTask := rfl
@[simp] theorem State.trapDue_nextCall (s : State) (v : Nat) (r : TrapRec) : (s.trapDue v r).nextCall = s.nextCall := rfl
@[simp] theorem State.trapDue_nextCheck (s : State) (v : Nat) (r : TrapRec) : (s.trapDue v r).nextCheck = s.nextCheck := rfl
@[simp] theorem State.trapDue_nextMvb (s : State) (v : Nat) (r : TrapRec) : (s.trapDue v r).nextMvb = s.nextMvb := rfl

@[simp] theorem Warp.putV_gid (w : Warp) (n lane : Nat) (x : Word) (p : Bool) : (w.putV n lane x p).gid = w.gid := rfl
@[simp] theorem Warp.putV_f1 (w : Warp) (n lane : Nat) (x : Word) (p : Bool) : (w.putV n lane x p).f1 = w.f1 := rfl
@[simp] theorem Warp.putV_role (w : Warp) (n lane : Nat) (x : Word) (p : Bool) : (w.putV n lane x p).role = w.role := rfl
@[simp] theorem Warp.putV_place (w : Warp) (n lane : Nat) (x : Word) (p : Bool) : (w.putV n lane x p).place = w.place := rfl
@[simp] theorem Warp.putV_pc (w : Warp) (n lane : Nat) (x : Word) (p : Bool) : (w.putV n lane x p).pc = w.pc := rfl
@[simp] theorem Warp.putV_exec (w : Warp) (n lane : Nat) (x : Word) (p : Bool) : (w.putV n lane x p).exec = w.exec := rfl
@[simp] theorem Warp.putV_scc (w : Warp) (n lane : Nat) (x : Word) (p : Bool) : (w.putV n lane x p).scc = w.scc := rfl
@[simp] theorem Warp.putV_sccP (w : Warp) (n lane : Nat) (x : Word) (p : Bool) : (w.putV n lane x p).sccP = w.sccP := rfl
@[simp] theorem Warp.putV_fstat (w : Warp) (n lane : Nat) (x : Word) (p : Bool) : (w.putV n lane x p).fstat = w.fstat := rfl
@[simp] theorem Warp.putV_s (w : Warp) (n lane : Nat) (x : Word) (p : Bool) : (w.putV n lane x p).s = w.s := rfl
@[simp] theorem Warp.putV_sP (w : Warp) (n lane : Nat) (x : Word) (p : Bool) : (w.putV n lane x p).sP = w.sP := rfl
@[simp] theorem Warp.putV_sE (w : Warp) (n lane : Nat) (x : Word) (p : Bool) : (w.putV n lane x p).sE = w.sE := rfl
@[simp] theorem Warp.putV_vE (w : Warp) (n lane : Nat) (x : Word) (p : Bool) : (w.putV n lane x p).vE = w.vE := rfl
@[simp] theorem Warp.putV_x (w : Warp) (n lane : Nat) (x : Word) (p : Bool) : (w.putV n lane x p).x = w.x := rfl
@[simp] theorem Warp.putV_latch (w : Warp) (n lane : Nat) (x : Word) (p : Bool) : (w.putV n lane x p).latch = w.latch := rfl
@[simp] theorem Warp.putV_latchP (w : Warp) (n lane : Nat) (x : Word) (p : Bool) : (w.putV n lane x p).latchP = w.latchP := rfl
@[simp] theorem Warp.putV_latchAge (w : Warp) (n lane : Nat) (x : Word) (p : Bool) : (w.putV n lane x p).latchAge = w.latchAge := rfl
@[simp] theorem Warp.putV_bars (w : Warp) (n lane : Nat) (x : Word) (p : Bool) : (w.putV n lane x p).bars = w.bars := rfl
@[simp] theorem Warp.putV_watches (w : Warp) (n lane : Nat) (x : Word) (p : Bool) : (w.putV n lane x p).watches = w.watches := rfl
@[simp] theorem Warp.putV_lastPage (w : Warp) (n lane : Nat) (x : Word) (p : Bool) : (w.putV n lane x p).lastPage = w.lastPage := rfl
@[simp] theorem Warp.putV_fetched (w : Warp) (n lane : Nat) (x : Word) (p : Bool) : (w.putV n lane x p).fetched = w.fetched := rfl
@[simp] theorem Warp.putV_loopBuf (w : Warp) (n lane : Nat) (x : Word) (p : Bool) : (w.putV n lane x p).loopBuf = w.loopBuf := rfl
@[simp] theorem Warp.putV_retPred (w : Warp) (n lane : Nat) (x : Word) (p : Bool) : (w.putV n lane x p).retPred = w.retPred := rfl
@[simp] theorem Warp.putV_flight (w : Warp) (n lane : Nat) (x : Word) (p : Bool) : (w.putV n lane x p).flight = w.flight := rfl
@[simp] theorem Warp.putV_nextProd (w : Warp) (n lane : Nat) (x : Word) (p : Bool) : (w.putV n lane x p).nextProd = w.nextProd := rfl
@[simp] theorem Warp.putV_plumb (w : Warp) (n lane : Nat) (x : Word) (p : Bool) : (w.putV n lane x p).plumb = w.plumb := rfl
@[simp] theorem Warp.putV_status (w : Warp) (n lane : Nat) (x : Word) (p : Bool) : (w.putV n lane x p).status = w.status := rfl
@[simp] theorem Warp.putV_woken (w : Warp) (n lane : Nat) (x : Word) (p : Bool) : (w.putV n lane x p).woken = w.woken := rfl
@[simp] theorem Warp.putV_before (w : Warp) (n lane : Nat) (x : Word) (p : Bool) : (w.putV n lane x p).before = w.before := rfl
@[simp] theorem Warp.putV_word (w : Warp) (n lane : Nat) (x : Word) (p : Bool) : (w.putV n lane x p).word = w.word := rfl
@[simp] theorem Warp.putV_cont (w : Warp) (n lane : Nat) (x : Word) (p : Bool) : (w.putV n lane x p).cont = w.cont := rfl
@[simp] theorem Warp.putV_walkRes (w : Warp) (n lane : Nat) (x : Word) (p : Bool) : (w.putV n lane x p).walkRes = w.walkRes := rfl
@[simp] theorem Warp.putV_half (w : Warp) (n lane : Nat) (x : Word) (p : Bool) : (w.putV n lane x p).half = w.half := rfl
@[simp] theorem Warp.putV_redo (w : Warp) (n lane : Nat) (x : Word) (p : Bool) : (w.putV n lane x p).redo = w.redo := rfl
@[simp] theorem Warp.putV_stopping (w : Warp) (n lane : Nat) (x : Word) (p : Bool) : (w.putV n lane x p).stopping = w.stopping := rfl
@[simp] theorem Warp.putV_prvLane (w : Warp) (n lane : Nat) (x : Word) (p : Bool) : (w.putV n lane x p).prvLane = w.prvLane := rfl
@[simp] theorem Warp.putV_waitClock (w : Warp) (n lane : Nat) (x : Word) (p : Bool) : (w.putV n lane x p).waitClock = w.waitClock := rfl
@[simp] theorem Warp.putV_elig (w : Warp) (n lane : Nat) (x : Word) (p : Bool) : (w.putV n lane x p).elig = w.elig := rfl
@[simp] theorem Warp.putV_eligSince (w : Warp) (n lane : Nat) (x : Word) (p : Bool) : (w.putV n lane x p).eligSince = w.eligSince := rfl
@[simp] theorem Warp.putV_overdue (w : Warp) (n lane : Nat) (x : Word) (p : Bool) : (w.putV n lane x p).overdue = w.overdue := rfl
@[simp] theorem Warp.putV_answers (w : Warp) (n lane : Nat) (x : Word) (p : Bool) : (w.putV n lane x p).answers = w.answers := rfl
@[simp] theorem Warp.putV_win (w : Warp) (n lane : Nat) (x : Word) (p : Bool) : (w.putV n lane x p).win = w.win := rfl

@[simp] theorem Warp.putS_gid (w : Warp) (n : Nat) (x : Word) (p : Bool) : (w.putS n x p).gid = w.gid := rfl
@[simp] theorem Warp.putS_f1 (w : Warp) (n : Nat) (x : Word) (p : Bool) : (w.putS n x p).f1 = w.f1 := rfl
@[simp] theorem Warp.putS_role (w : Warp) (n : Nat) (x : Word) (p : Bool) : (w.putS n x p).role = w.role := rfl
@[simp] theorem Warp.putS_place (w : Warp) (n : Nat) (x : Word) (p : Bool) : (w.putS n x p).place = w.place := rfl
@[simp] theorem Warp.putS_pc (w : Warp) (n : Nat) (x : Word) (p : Bool) : (w.putS n x p).pc = w.pc := rfl
@[simp] theorem Warp.putS_exec (w : Warp) (n : Nat) (x : Word) (p : Bool) : (w.putS n x p).exec = w.exec := rfl
@[simp] theorem Warp.putS_scc (w : Warp) (n : Nat) (x : Word) (p : Bool) : (w.putS n x p).scc = w.scc := rfl
@[simp] theorem Warp.putS_sccP (w : Warp) (n : Nat) (x : Word) (p : Bool) : (w.putS n x p).sccP = w.sccP := rfl
@[simp] theorem Warp.putS_fstat (w : Warp) (n : Nat) (x : Word) (p : Bool) : (w.putS n x p).fstat = w.fstat := rfl
@[simp] theorem Warp.putS_sE (w : Warp) (n : Nat) (x : Word) (p : Bool) : (w.putS n x p).sE = w.sE := rfl
@[simp] theorem Warp.putS_v (w : Warp) (n : Nat) (x : Word) (p : Bool) : (w.putS n x p).v = w.v := rfl
@[simp] theorem Warp.putS_vP (w : Warp) (n : Nat) (x : Word) (p : Bool) : (w.putS n x p).vP = w.vP := rfl
@[simp] theorem Warp.putS_vE (w : Warp) (n : Nat) (x : Word) (p : Bool) : (w.putS n x p).vE = w.vE := rfl
@[simp] theorem Warp.putS_x (w : Warp) (n : Nat) (x : Word) (p : Bool) : (w.putS n x p).x = w.x := rfl
@[simp] theorem Warp.putS_latch (w : Warp) (n : Nat) (x : Word) (p : Bool) : (w.putS n x p).latch = w.latch := rfl
@[simp] theorem Warp.putS_latchP (w : Warp) (n : Nat) (x : Word) (p : Bool) : (w.putS n x p).latchP = w.latchP := rfl
@[simp] theorem Warp.putS_latchAge (w : Warp) (n : Nat) (x : Word) (p : Bool) : (w.putS n x p).latchAge = w.latchAge := rfl
@[simp] theorem Warp.putS_bars (w : Warp) (n : Nat) (x : Word) (p : Bool) : (w.putS n x p).bars = w.bars := rfl
@[simp] theorem Warp.putS_watches (w : Warp) (n : Nat) (x : Word) (p : Bool) : (w.putS n x p).watches = w.watches := rfl
@[simp] theorem Warp.putS_lastPage (w : Warp) (n : Nat) (x : Word) (p : Bool) : (w.putS n x p).lastPage = w.lastPage := rfl
@[simp] theorem Warp.putS_fetched (w : Warp) (n : Nat) (x : Word) (p : Bool) : (w.putS n x p).fetched = w.fetched := rfl
@[simp] theorem Warp.putS_loopBuf (w : Warp) (n : Nat) (x : Word) (p : Bool) : (w.putS n x p).loopBuf = w.loopBuf := rfl
@[simp] theorem Warp.putS_retPred (w : Warp) (n : Nat) (x : Word) (p : Bool) : (w.putS n x p).retPred = w.retPred := rfl
@[simp] theorem Warp.putS_flight (w : Warp) (n : Nat) (x : Word) (p : Bool) : (w.putS n x p).flight = w.flight := rfl
@[simp] theorem Warp.putS_nextProd (w : Warp) (n : Nat) (x : Word) (p : Bool) : (w.putS n x p).nextProd = w.nextProd := rfl
@[simp] theorem Warp.putS_plumb (w : Warp) (n : Nat) (x : Word) (p : Bool) : (w.putS n x p).plumb = w.plumb := rfl
@[simp] theorem Warp.putS_status (w : Warp) (n : Nat) (x : Word) (p : Bool) : (w.putS n x p).status = w.status := rfl
@[simp] theorem Warp.putS_woken (w : Warp) (n : Nat) (x : Word) (p : Bool) : (w.putS n x p).woken = w.woken := rfl
@[simp] theorem Warp.putS_before (w : Warp) (n : Nat) (x : Word) (p : Bool) : (w.putS n x p).before = w.before := rfl
@[simp] theorem Warp.putS_word (w : Warp) (n : Nat) (x : Word) (p : Bool) : (w.putS n x p).word = w.word := rfl
@[simp] theorem Warp.putS_cont (w : Warp) (n : Nat) (x : Word) (p : Bool) : (w.putS n x p).cont = w.cont := rfl
@[simp] theorem Warp.putS_walkRes (w : Warp) (n : Nat) (x : Word) (p : Bool) : (w.putS n x p).walkRes = w.walkRes := rfl
@[simp] theorem Warp.putS_half (w : Warp) (n : Nat) (x : Word) (p : Bool) : (w.putS n x p).half = w.half := rfl
@[simp] theorem Warp.putS_redo (w : Warp) (n : Nat) (x : Word) (p : Bool) : (w.putS n x p).redo = w.redo := rfl
@[simp] theorem Warp.putS_stopping (w : Warp) (n : Nat) (x : Word) (p : Bool) : (w.putS n x p).stopping = w.stopping := rfl
@[simp] theorem Warp.putS_prvLane (w : Warp) (n : Nat) (x : Word) (p : Bool) : (w.putS n x p).prvLane = w.prvLane := rfl
@[simp] theorem Warp.putS_waitClock (w : Warp) (n : Nat) (x : Word) (p : Bool) : (w.putS n x p).waitClock = w.waitClock := rfl
@[simp] theorem Warp.putS_elig (w : Warp) (n : Nat) (x : Word) (p : Bool) : (w.putS n x p).elig = w.elig := rfl
@[simp] theorem Warp.putS_eligSince (w : Warp) (n : Nat) (x : Word) (p : Bool) : (w.putS n x p).eligSince = w.eligSince := rfl
@[simp] theorem Warp.putS_overdue (w : Warp) (n : Nat) (x : Word) (p : Bool) : (w.putS n x p).overdue = w.overdue := rfl
@[simp] theorem Warp.putS_answers (w : Warp) (n : Nat) (x : Word) (p : Bool) : (w.putS n x p).answers = w.answers := rfl
@[simp] theorem Warp.putS_win (w : Warp) (n : Nat) (x : Word) (p : Bool) : (w.putS n x p).win = w.win := rfl

@[simp] theorem Warp.setScc_gid (w : Warp) (b p : Bool) : (w.setScc b p).gid = w.gid := rfl
@[simp] theorem Warp.setScc_f1 (w : Warp) (b p : Bool) : (w.setScc b p).f1 = w.f1 := rfl
@[simp] theorem Warp.setScc_role (w : Warp) (b p : Bool) : (w.setScc b p).role = w.role := rfl
@[simp] theorem Warp.setScc_place (w : Warp) (b p : Bool) : (w.setScc b p).place = w.place := rfl
@[simp] theorem Warp.setScc_pc (w : Warp) (b p : Bool) : (w.setScc b p).pc = w.pc := rfl
@[simp] theorem Warp.setScc_exec (w : Warp) (b p : Bool) : (w.setScc b p).exec = w.exec := rfl
@[simp] theorem Warp.setScc_fstat (w : Warp) (b p : Bool) : (w.setScc b p).fstat = w.fstat := rfl
@[simp] theorem Warp.setScc_s (w : Warp) (b p : Bool) : (w.setScc b p).s = w.s := rfl
@[simp] theorem Warp.setScc_sP (w : Warp) (b p : Bool) : (w.setScc b p).sP = w.sP := rfl
@[simp] theorem Warp.setScc_sE (w : Warp) (b p : Bool) : (w.setScc b p).sE = w.sE := rfl
@[simp] theorem Warp.setScc_v (w : Warp) (b p : Bool) : (w.setScc b p).v = w.v := rfl
@[simp] theorem Warp.setScc_vP (w : Warp) (b p : Bool) : (w.setScc b p).vP = w.vP := rfl
@[simp] theorem Warp.setScc_vE (w : Warp) (b p : Bool) : (w.setScc b p).vE = w.vE := rfl
@[simp] theorem Warp.setScc_x (w : Warp) (b p : Bool) : (w.setScc b p).x = w.x := rfl
@[simp] theorem Warp.setScc_latch (w : Warp) (b p : Bool) : (w.setScc b p).latch = w.latch := rfl
@[simp] theorem Warp.setScc_latchP (w : Warp) (b p : Bool) : (w.setScc b p).latchP = w.latchP := rfl
@[simp] theorem Warp.setScc_latchAge (w : Warp) (b p : Bool) : (w.setScc b p).latchAge = w.latchAge := rfl
@[simp] theorem Warp.setScc_bars (w : Warp) (b p : Bool) : (w.setScc b p).bars = w.bars := rfl
@[simp] theorem Warp.setScc_watches (w : Warp) (b p : Bool) : (w.setScc b p).watches = w.watches := rfl
@[simp] theorem Warp.setScc_lastPage (w : Warp) (b p : Bool) : (w.setScc b p).lastPage = w.lastPage := rfl
@[simp] theorem Warp.setScc_fetched (w : Warp) (b p : Bool) : (w.setScc b p).fetched = w.fetched := rfl
@[simp] theorem Warp.setScc_loopBuf (w : Warp) (b p : Bool) : (w.setScc b p).loopBuf = w.loopBuf := rfl
@[simp] theorem Warp.setScc_retPred (w : Warp) (b p : Bool) : (w.setScc b p).retPred = w.retPred := rfl
@[simp] theorem Warp.setScc_flight (w : Warp) (b p : Bool) : (w.setScc b p).flight = w.flight := rfl
@[simp] theorem Warp.setScc_nextProd (w : Warp) (b p : Bool) : (w.setScc b p).nextProd = w.nextProd := rfl
@[simp] theorem Warp.setScc_plumb (w : Warp) (b p : Bool) : (w.setScc b p).plumb = w.plumb := rfl
@[simp] theorem Warp.setScc_status (w : Warp) (b p : Bool) : (w.setScc b p).status = w.status := rfl
@[simp] theorem Warp.setScc_woken (w : Warp) (b p : Bool) : (w.setScc b p).woken = w.woken := rfl
@[simp] theorem Warp.setScc_before (w : Warp) (b p : Bool) : (w.setScc b p).before = w.before := rfl
@[simp] theorem Warp.setScc_word (w : Warp) (b p : Bool) : (w.setScc b p).word = w.word := rfl
@[simp] theorem Warp.setScc_cont (w : Warp) (b p : Bool) : (w.setScc b p).cont = w.cont := rfl
@[simp] theorem Warp.setScc_walkRes (w : Warp) (b p : Bool) : (w.setScc b p).walkRes = w.walkRes := rfl
@[simp] theorem Warp.setScc_half (w : Warp) (b p : Bool) : (w.setScc b p).half = w.half := rfl
@[simp] theorem Warp.setScc_redo (w : Warp) (b p : Bool) : (w.setScc b p).redo = w.redo := rfl
@[simp] theorem Warp.setScc_stopping (w : Warp) (b p : Bool) : (w.setScc b p).stopping = w.stopping := rfl
@[simp] theorem Warp.setScc_prvLane (w : Warp) (b p : Bool) : (w.setScc b p).prvLane = w.prvLane := rfl
@[simp] theorem Warp.setScc_waitClock (w : Warp) (b p : Bool) : (w.setScc b p).waitClock = w.waitClock := rfl
@[simp] theorem Warp.setScc_elig (w : Warp) (b p : Bool) : (w.setScc b p).elig = w.elig := rfl
@[simp] theorem Warp.setScc_eligSince (w : Warp) (b p : Bool) : (w.setScc b p).eligSince = w.eligSince := rfl
@[simp] theorem Warp.setScc_overdue (w : Warp) (b p : Bool) : (w.setScc b p).overdue = w.overdue := rfl
@[simp] theorem Warp.setScc_answers (w : Warp) (b p : Bool) : (w.setScc b p).answers = w.answers := rfl
@[simp] theorem Warp.setScc_badRegs (w : Warp) (b p : Bool) : (w.setScc b p).badRegs = w.badRegs := rfl
@[simp] theorem Warp.setScc_win (w : Warp) (b p : Bool) : (w.setScc b p).win = w.win := rfl

@[simp] theorem Warp.orFstat_gid (w : Warp) (f : Flags) : (w.orFstat f).gid = w.gid := rfl
@[simp] theorem Warp.orFstat_f1 (w : Warp) (f : Flags) : (w.orFstat f).f1 = w.f1 := rfl
@[simp] theorem Warp.orFstat_role (w : Warp) (f : Flags) : (w.orFstat f).role = w.role := rfl
@[simp] theorem Warp.orFstat_place (w : Warp) (f : Flags) : (w.orFstat f).place = w.place := rfl
@[simp] theorem Warp.orFstat_pc (w : Warp) (f : Flags) : (w.orFstat f).pc = w.pc := rfl
@[simp] theorem Warp.orFstat_exec (w : Warp) (f : Flags) : (w.orFstat f).exec = w.exec := rfl
@[simp] theorem Warp.orFstat_scc (w : Warp) (f : Flags) : (w.orFstat f).scc = w.scc := rfl
@[simp] theorem Warp.orFstat_sccP (w : Warp) (f : Flags) : (w.orFstat f).sccP = w.sccP := rfl
@[simp] theorem Warp.orFstat_s (w : Warp) (f : Flags) : (w.orFstat f).s = w.s := rfl
@[simp] theorem Warp.orFstat_sP (w : Warp) (f : Flags) : (w.orFstat f).sP = w.sP := rfl
@[simp] theorem Warp.orFstat_sE (w : Warp) (f : Flags) : (w.orFstat f).sE = w.sE := rfl
@[simp] theorem Warp.orFstat_v (w : Warp) (f : Flags) : (w.orFstat f).v = w.v := rfl
@[simp] theorem Warp.orFstat_vP (w : Warp) (f : Flags) : (w.orFstat f).vP = w.vP := rfl
@[simp] theorem Warp.orFstat_vE (w : Warp) (f : Flags) : (w.orFstat f).vE = w.vE := rfl
@[simp] theorem Warp.orFstat_x (w : Warp) (f : Flags) : (w.orFstat f).x = w.x := rfl
@[simp] theorem Warp.orFstat_latch (w : Warp) (f : Flags) : (w.orFstat f).latch = w.latch := rfl
@[simp] theorem Warp.orFstat_latchP (w : Warp) (f : Flags) : (w.orFstat f).latchP = w.latchP := rfl
@[simp] theorem Warp.orFstat_latchAge (w : Warp) (f : Flags) : (w.orFstat f).latchAge = w.latchAge := rfl
@[simp] theorem Warp.orFstat_bars (w : Warp) (f : Flags) : (w.orFstat f).bars = w.bars := rfl
@[simp] theorem Warp.orFstat_watches (w : Warp) (f : Flags) : (w.orFstat f).watches = w.watches := rfl
@[simp] theorem Warp.orFstat_lastPage (w : Warp) (f : Flags) : (w.orFstat f).lastPage = w.lastPage := rfl
@[simp] theorem Warp.orFstat_fetched (w : Warp) (f : Flags) : (w.orFstat f).fetched = w.fetched := rfl
@[simp] theorem Warp.orFstat_loopBuf (w : Warp) (f : Flags) : (w.orFstat f).loopBuf = w.loopBuf := rfl
@[simp] theorem Warp.orFstat_retPred (w : Warp) (f : Flags) : (w.orFstat f).retPred = w.retPred := rfl
@[simp] theorem Warp.orFstat_flight (w : Warp) (f : Flags) : (w.orFstat f).flight = w.flight := rfl
@[simp] theorem Warp.orFstat_nextProd (w : Warp) (f : Flags) : (w.orFstat f).nextProd = w.nextProd := rfl
@[simp] theorem Warp.orFstat_plumb (w : Warp) (f : Flags) : (w.orFstat f).plumb = w.plumb := rfl
@[simp] theorem Warp.orFstat_status (w : Warp) (f : Flags) : (w.orFstat f).status = w.status := rfl
@[simp] theorem Warp.orFstat_woken (w : Warp) (f : Flags) : (w.orFstat f).woken = w.woken := rfl
@[simp] theorem Warp.orFstat_before (w : Warp) (f : Flags) : (w.orFstat f).before = w.before := rfl
@[simp] theorem Warp.orFstat_word (w : Warp) (f : Flags) : (w.orFstat f).word = w.word := rfl
@[simp] theorem Warp.orFstat_cont (w : Warp) (f : Flags) : (w.orFstat f).cont = w.cont := rfl
@[simp] theorem Warp.orFstat_walkRes (w : Warp) (f : Flags) : (w.orFstat f).walkRes = w.walkRes := rfl
@[simp] theorem Warp.orFstat_half (w : Warp) (f : Flags) : (w.orFstat f).half = w.half := rfl
@[simp] theorem Warp.orFstat_redo (w : Warp) (f : Flags) : (w.orFstat f).redo = w.redo := rfl
@[simp] theorem Warp.orFstat_stopping (w : Warp) (f : Flags) : (w.orFstat f).stopping = w.stopping := rfl
@[simp] theorem Warp.orFstat_prvLane (w : Warp) (f : Flags) : (w.orFstat f).prvLane = w.prvLane := rfl
@[simp] theorem Warp.orFstat_waitClock (w : Warp) (f : Flags) : (w.orFstat f).waitClock = w.waitClock := rfl
@[simp] theorem Warp.orFstat_elig (w : Warp) (f : Flags) : (w.orFstat f).elig = w.elig := rfl
@[simp] theorem Warp.orFstat_eligSince (w : Warp) (f : Flags) : (w.orFstat f).eligSince = w.eligSince := rfl
@[simp] theorem Warp.orFstat_overdue (w : Warp) (f : Flags) : (w.orFstat f).overdue = w.overdue := rfl
@[simp] theorem Warp.orFstat_answers (w : Warp) (f : Flags) : (w.orFstat f).answers = w.answers := rfl
@[simp] theorem Warp.orFstat_badRegs (w : Warp) (f : Flags) : (w.orFstat f).badRegs = w.badRegs := rfl
@[simp] theorem Warp.orFstat_win (w : Warp) (f : Flags) : (w.orFstat f).win = w.win := rfl

@[simp] theorem Warp.setFstat_gid (w : Warp) (x : Word) : (w.setFstat x).gid = w.gid := rfl
@[simp] theorem Warp.setFstat_f1 (w : Warp) (x : Word) : (w.setFstat x).f1 = w.f1 := rfl
@[simp] theorem Warp.setFstat_role (w : Warp) (x : Word) : (w.setFstat x).role = w.role := rfl
@[simp] theorem Warp.setFstat_place (w : Warp) (x : Word) : (w.setFstat x).place = w.place := rfl
@[simp] theorem Warp.setFstat_pc (w : Warp) (x : Word) : (w.setFstat x).pc = w.pc := rfl
@[simp] theorem Warp.setFstat_exec (w : Warp) (x : Word) : (w.setFstat x).exec = w.exec := rfl
@[simp] theorem Warp.setFstat_scc (w : Warp) (x : Word) : (w.setFstat x).scc = w.scc := rfl
@[simp] theorem Warp.setFstat_sccP (w : Warp) (x : Word) : (w.setFstat x).sccP = w.sccP := rfl
@[simp] theorem Warp.setFstat_s (w : Warp) (x : Word) : (w.setFstat x).s = w.s := rfl
@[simp] theorem Warp.setFstat_sP (w : Warp) (x : Word) : (w.setFstat x).sP = w.sP := rfl
@[simp] theorem Warp.setFstat_sE (w : Warp) (x : Word) : (w.setFstat x).sE = w.sE := rfl
@[simp] theorem Warp.setFstat_v (w : Warp) (x : Word) : (w.setFstat x).v = w.v := rfl
@[simp] theorem Warp.setFstat_vP (w : Warp) (x : Word) : (w.setFstat x).vP = w.vP := rfl
@[simp] theorem Warp.setFstat_vE (w : Warp) (x : Word) : (w.setFstat x).vE = w.vE := rfl
@[simp] theorem Warp.setFstat_x (w : Warp) (x : Word) : (w.setFstat x).x = w.x := rfl
@[simp] theorem Warp.setFstat_latch (w : Warp) (x : Word) : (w.setFstat x).latch = w.latch := rfl
@[simp] theorem Warp.setFstat_latchP (w : Warp) (x : Word) : (w.setFstat x).latchP = w.latchP := rfl
@[simp] theorem Warp.setFstat_latchAge (w : Warp) (x : Word) : (w.setFstat x).latchAge = w.latchAge := rfl
@[simp] theorem Warp.setFstat_bars (w : Warp) (x : Word) : (w.setFstat x).bars = w.bars := rfl
@[simp] theorem Warp.setFstat_watches (w : Warp) (x : Word) : (w.setFstat x).watches = w.watches := rfl
@[simp] theorem Warp.setFstat_lastPage (w : Warp) (x : Word) : (w.setFstat x).lastPage = w.lastPage := rfl
@[simp] theorem Warp.setFstat_fetched (w : Warp) (x : Word) : (w.setFstat x).fetched = w.fetched := rfl
@[simp] theorem Warp.setFstat_loopBuf (w : Warp) (x : Word) : (w.setFstat x).loopBuf = w.loopBuf := rfl
@[simp] theorem Warp.setFstat_retPred (w : Warp) (x : Word) : (w.setFstat x).retPred = w.retPred := rfl
@[simp] theorem Warp.setFstat_flight (w : Warp) (x : Word) : (w.setFstat x).flight = w.flight := rfl
@[simp] theorem Warp.setFstat_nextProd (w : Warp) (x : Word) : (w.setFstat x).nextProd = w.nextProd := rfl
@[simp] theorem Warp.setFstat_plumb (w : Warp) (x : Word) : (w.setFstat x).plumb = w.plumb := rfl
@[simp] theorem Warp.setFstat_status (w : Warp) (x : Word) : (w.setFstat x).status = w.status := rfl
@[simp] theorem Warp.setFstat_woken (w : Warp) (x : Word) : (w.setFstat x).woken = w.woken := rfl
@[simp] theorem Warp.setFstat_before (w : Warp) (x : Word) : (w.setFstat x).before = w.before := rfl
@[simp] theorem Warp.setFstat_word (w : Warp) (x : Word) : (w.setFstat x).word = w.word := rfl
@[simp] theorem Warp.setFstat_cont (w : Warp) (x : Word) : (w.setFstat x).cont = w.cont := rfl
@[simp] theorem Warp.setFstat_walkRes (w : Warp) (x : Word) : (w.setFstat x).walkRes = w.walkRes := rfl
@[simp] theorem Warp.setFstat_half (w : Warp) (x : Word) : (w.setFstat x).half = w.half := rfl
@[simp] theorem Warp.setFstat_redo (w : Warp) (x : Word) : (w.setFstat x).redo = w.redo := rfl
@[simp] theorem Warp.setFstat_stopping (w : Warp) (x : Word) : (w.setFstat x).stopping = w.stopping := rfl
@[simp] theorem Warp.setFstat_prvLane (w : Warp) (x : Word) : (w.setFstat x).prvLane = w.prvLane := rfl
@[simp] theorem Warp.setFstat_waitClock (w : Warp) (x : Word) : (w.setFstat x).waitClock = w.waitClock := rfl
@[simp] theorem Warp.setFstat_elig (w : Warp) (x : Word) : (w.setFstat x).elig = w.elig := rfl
@[simp] theorem Warp.setFstat_eligSince (w : Warp) (x : Word) : (w.setFstat x).eligSince = w.eligSince := rfl
@[simp] theorem Warp.setFstat_overdue (w : Warp) (x : Word) : (w.setFstat x).overdue = w.overdue := rfl
@[simp] theorem Warp.setFstat_answers (w : Warp) (x : Word) : (w.setFstat x).answers = w.answers := rfl
@[simp] theorem Warp.setFstat_badRegs (w : Warp) (x : Word) : (w.setFstat x).badRegs = w.badRegs := rfl
@[simp] theorem Warp.setFstat_win (w : Warp) (x : Word) : (w.setFstat x).win = w.win := rfl

@[simp] theorem Warp.aged_gid (w : Warp) : (w.aged).gid = w.gid := rfl
@[simp] theorem Warp.aged_f1 (w : Warp) : (w.aged).f1 = w.f1 := rfl
@[simp] theorem Warp.aged_role (w : Warp) : (w.aged).role = w.role := rfl
@[simp] theorem Warp.aged_place (w : Warp) : (w.aged).place = w.place := rfl
@[simp] theorem Warp.aged_pc (w : Warp) : (w.aged).pc = w.pc := rfl
@[simp] theorem Warp.aged_exec (w : Warp) : (w.aged).exec = w.exec := rfl
@[simp] theorem Warp.aged_scc (w : Warp) : (w.aged).scc = w.scc := rfl
@[simp] theorem Warp.aged_sccP (w : Warp) : (w.aged).sccP = w.sccP := rfl
@[simp] theorem Warp.aged_fstat (w : Warp) : (w.aged).fstat = w.fstat := rfl
@[simp] theorem Warp.aged_s (w : Warp) : (w.aged).s = w.s := rfl
@[simp] theorem Warp.aged_sP (w : Warp) : (w.aged).sP = w.sP := rfl
@[simp] theorem Warp.aged_sE (w : Warp) : (w.aged).sE = w.sE := rfl
@[simp] theorem Warp.aged_v (w : Warp) : (w.aged).v = w.v := rfl
@[simp] theorem Warp.aged_vP (w : Warp) : (w.aged).vP = w.vP := rfl
@[simp] theorem Warp.aged_vE (w : Warp) : (w.aged).vE = w.vE := rfl
@[simp] theorem Warp.aged_x (w : Warp) : (w.aged).x = w.x := rfl
@[simp] theorem Warp.aged_latch (w : Warp) : (w.aged).latch = w.latch := rfl
@[simp] theorem Warp.aged_latchP (w : Warp) : (w.aged).latchP = w.latchP := rfl
@[simp] theorem Warp.aged_bars (w : Warp) : (w.aged).bars = w.bars := rfl
@[simp] theorem Warp.aged_watches (w : Warp) : (w.aged).watches = w.watches := rfl
@[simp] theorem Warp.aged_lastPage (w : Warp) : (w.aged).lastPage = w.lastPage := rfl
@[simp] theorem Warp.aged_fetched (w : Warp) : (w.aged).fetched = w.fetched := rfl
@[simp] theorem Warp.aged_loopBuf (w : Warp) : (w.aged).loopBuf = w.loopBuf := rfl
@[simp] theorem Warp.aged_retPred (w : Warp) : (w.aged).retPred = w.retPred := rfl
@[simp] theorem Warp.aged_flight (w : Warp) : (w.aged).flight = w.flight := rfl
@[simp] theorem Warp.aged_nextProd (w : Warp) : (w.aged).nextProd = w.nextProd := rfl
@[simp] theorem Warp.aged_plumb (w : Warp) : (w.aged).plumb = w.plumb := rfl
@[simp] theorem Warp.aged_status (w : Warp) : (w.aged).status = w.status := rfl
@[simp] theorem Warp.aged_woken (w : Warp) : (w.aged).woken = w.woken := rfl
@[simp] theorem Warp.aged_before (w : Warp) : (w.aged).before = w.before := rfl
@[simp] theorem Warp.aged_word (w : Warp) : (w.aged).word = w.word := rfl
@[simp] theorem Warp.aged_cont (w : Warp) : (w.aged).cont = w.cont := rfl
@[simp] theorem Warp.aged_walkRes (w : Warp) : (w.aged).walkRes = w.walkRes := rfl
@[simp] theorem Warp.aged_half (w : Warp) : (w.aged).half = w.half := rfl
@[simp] theorem Warp.aged_redo (w : Warp) : (w.aged).redo = w.redo := rfl
@[simp] theorem Warp.aged_stopping (w : Warp) : (w.aged).stopping = w.stopping := rfl
@[simp] theorem Warp.aged_prvLane (w : Warp) : (w.aged).prvLane = w.prvLane := rfl
@[simp] theorem Warp.aged_waitClock (w : Warp) : (w.aged).waitClock = w.waitClock := rfl
@[simp] theorem Warp.aged_elig (w : Warp) : (w.aged).elig = w.elig := rfl
@[simp] theorem Warp.aged_eligSince (w : Warp) : (w.aged).eligSince = w.eligSince := rfl
@[simp] theorem Warp.aged_overdue (w : Warp) : (w.aged).overdue = w.overdue := rfl
@[simp] theorem Warp.aged_answers (w : Warp) : (w.aged).answers = w.answers := rfl
@[simp] theorem Warp.aged_badRegs (w : Warp) : (w.aged).badRegs = w.badRegs := rfl
@[simp] theorem Warp.aged_win (w : Warp) : (w.aged).win = w.win := rfl

@[simp] theorem Warp.completed_gid (w : Warp) (pc : DWord) (half : Bool) : (w.completed pc half).gid = w.gid := rfl
@[simp] theorem Warp.completed_f1 (w : Warp) (pc : DWord) (half : Bool) : (w.completed pc half).f1 = w.f1 := rfl
@[simp] theorem Warp.completed_role (w : Warp) (pc : DWord) (half : Bool) : (w.completed pc half).role = w.role := rfl
@[simp] theorem Warp.completed_place (w : Warp) (pc : DWord) (half : Bool) : (w.completed pc half).place = w.place := rfl
@[simp] theorem Warp.completed_exec (w : Warp) (pc : DWord) (half : Bool) : (w.completed pc half).exec = w.exec := rfl
@[simp] theorem Warp.completed_scc (w : Warp) (pc : DWord) (half : Bool) : (w.completed pc half).scc = w.scc := rfl
@[simp] theorem Warp.completed_sccP (w : Warp) (pc : DWord) (half : Bool) : (w.completed pc half).sccP = w.sccP := rfl
@[simp] theorem Warp.completed_fstat (w : Warp) (pc : DWord) (half : Bool) : (w.completed pc half).fstat = w.fstat := rfl
@[simp] theorem Warp.completed_s (w : Warp) (pc : DWord) (half : Bool) : (w.completed pc half).s = w.s := rfl
@[simp] theorem Warp.completed_sP (w : Warp) (pc : DWord) (half : Bool) : (w.completed pc half).sP = w.sP := rfl
@[simp] theorem Warp.completed_sE (w : Warp) (pc : DWord) (half : Bool) : (w.completed pc half).sE = w.sE := rfl
@[simp] theorem Warp.completed_v (w : Warp) (pc : DWord) (half : Bool) : (w.completed pc half).v = w.v := rfl
@[simp] theorem Warp.completed_vP (w : Warp) (pc : DWord) (half : Bool) : (w.completed pc half).vP = w.vP := rfl
@[simp] theorem Warp.completed_vE (w : Warp) (pc : DWord) (half : Bool) : (w.completed pc half).vE = w.vE := rfl
@[simp] theorem Warp.completed_x (w : Warp) (pc : DWord) (half : Bool) : (w.completed pc half).x = w.x := rfl
@[simp] theorem Warp.completed_latch (w : Warp) (pc : DWord) (half : Bool) : (w.completed pc half).latch = w.latch := rfl
@[simp] theorem Warp.completed_latchP (w : Warp) (pc : DWord) (half : Bool) : (w.completed pc half).latchP = w.latchP := rfl
@[simp] theorem Warp.completed_bars (w : Warp) (pc : DWord) (half : Bool) : (w.completed pc half).bars = w.bars := rfl
@[simp] theorem Warp.completed_watches (w : Warp) (pc : DWord) (half : Bool) : (w.completed pc half).watches = w.watches := rfl
@[simp] theorem Warp.completed_lastPage (w : Warp) (pc : DWord) (half : Bool) : (w.completed pc half).lastPage = w.lastPage := rfl
@[simp] theorem Warp.completed_fetched (w : Warp) (pc : DWord) (half : Bool) : (w.completed pc half).fetched = w.fetched := rfl
@[simp] theorem Warp.completed_loopBuf (w : Warp) (pc : DWord) (half : Bool) : (w.completed pc half).loopBuf = w.loopBuf := rfl
@[simp] theorem Warp.completed_retPred (w : Warp) (pc : DWord) (half : Bool) : (w.completed pc half).retPred = w.retPred := rfl
@[simp] theorem Warp.completed_flight (w : Warp) (pc : DWord) (half : Bool) : (w.completed pc half).flight = w.flight := rfl
@[simp] theorem Warp.completed_nextProd (w : Warp) (pc : DWord) (half : Bool) : (w.completed pc half).nextProd = w.nextProd := rfl
@[simp] theorem Warp.completed_plumb (w : Warp) (pc : DWord) (half : Bool) : (w.completed pc half).plumb = w.plumb := rfl
@[simp] theorem Warp.completed_before (w : Warp) (pc : DWord) (half : Bool) : (w.completed pc half).before = w.before := rfl
@[simp] theorem Warp.completed_stopping (w : Warp) (pc : DWord) (half : Bool) : (w.completed pc half).stopping = w.stopping := rfl
@[simp] theorem Warp.completed_prvLane (w : Warp) (pc : DWord) (half : Bool) : (w.completed pc half).prvLane = w.prvLane := rfl
@[simp] theorem Warp.completed_waitClock (w : Warp) (pc : DWord) (half : Bool) : (w.completed pc half).waitClock = w.waitClock := rfl
@[simp] theorem Warp.completed_eligSince (w : Warp) (pc : DWord) (half : Bool) : (w.completed pc half).eligSince = w.eligSince := rfl
@[simp] theorem Warp.completed_badRegs (w : Warp) (pc : DWord) (half : Bool) : (w.completed pc half).badRegs = w.badRegs := rfl
@[simp] theorem Warp.completed_win (w : Warp) (pc : DWord) (half : Bool) : (w.completed pc half).win = w.win := rfl

@[simp] theorem Warp.putS_s (w : Warp) (n : Nat) (x : Word) (p : Bool) : (w.putS n x p).s = sset 0 w.s n x := rfl
@[simp] theorem Warp.putS_sP (w : Warp) (n : Nat) (x : Word) (p : Bool) : (w.putS n x p).sP = setBit w.sP n p := rfl
@[simp] theorem Warp.putS_badRegs (w : Warp) (n : Nat) (x : Word) (p : Bool) : (w.putS n x p).badRegs = tdel w.badRegs (40000 + n) := rfl
@[simp] theorem Warp.putV_v (w : Warp) (n lane : Nat) (x : Word) (p : Bool) : (w.putV n lane x p).v = sset 0 w.v (128 * n + lane) x := rfl
@[simp] theorem Warp.putV_vP (w : Warp) (n lane : Nat) (x : Word) (p : Bool) : (w.putV n lane x p).vP = sset 0 w.vP n (setBit (sget 0 w.vP n) lane p) := rfl
@[simp] theorem Warp.putV_badRegs (w : Warp) (n lane : Nat) (x : Word) (p : Bool) : (w.putV n lane x p).badRegs = tdel w.badRegs (128 * n + lane) := rfl
@[simp] theorem Warp.setScc_scc (w : Warp) (b p : Bool) : (w.setScc b p).scc = b := rfl
@[simp] theorem Warp.setScc_sccP (w : Warp) (b p : Bool) : (w.setScc b p).sccP = p := rfl
@[simp] theorem Warp.orFstat_fstat (w : Warp) (f : Flags) : (w.orFstat f).fstat = w.fstat ||| f.word := rfl
@[simp] theorem Warp.setFstat_fstat (w : Warp) (x : Word) : (w.setFstat x).fstat = x &&& 7 := rfl
@[simp] theorem Warp.completed_pc (w : Warp) (pc : DWord) (half : Bool) : (w.completed pc half).pc = pc := rfl
@[simp] theorem Warp.completed_half (w : Warp) (pc : DWord) (half : Bool) : (w.completed pc half).half = half := rfl
@[simp] theorem Warp.completed_status (w : Warp) (pc : DWord) (half : Bool) : (w.completed pc half).status = .ready := rfl
@[simp] theorem Warp.completed_word (w : Warp) (pc : DWord) (half : Bool) : (w.completed pc half).word = none := rfl
@[simp] theorem Warp.completed_cont (w : Warp) (pc : DWord) (half : Bool) : (w.completed pc half).cont = .none := rfl
@[simp] theorem Warp.completed_latchAge (w : Warp) (pc : DWord) (half : Bool) : (w.completed pc half).latchAge = w.aged.latchAge := rfl

end Sys2Proof.Machine
end

