-- ==== Sys2Proof/Laws/Completion.lean ====
section
/-!
SUPPORT. What the end of an instruction can do: completing it and capturing into a latch slot (spec/04 R105 to R107).
-/
namespace Sys2Proof.Machine

/-- Bit `j` after bit `i` was set. -/
theorem setBit_getLsbD {n : Nat} (b : BitVec n) (i j : Nat) (v : Bool) (hi : i < n) :
    (setBit b i v).getLsbD j = if j = i then v else b.getLsbD j := by
  have hp : (BitVec.ofNat n (2 ^ i)).getLsbD j = decide (j = i) := by
    rw [BitVec.getLsbD_ofNat, Nat.testBit_two_pow]
    by_cases h : j = i
    · rw [h, decide_eq_true hi, decide_eq_true rfl, Bool.and_self]
    · rw [decide_eq_false (Ne.symm h), decide_eq_false h, Bool.and_false]
  cases v
  · rw [setBit, if_neg Bool.false_ne_true, BitVec.getLsbD_and, BitVec.getLsbD_not, hp]
    by_cases h : j = i
    · rw [if_pos h, decide_eq_true h, Bool.not_true, Bool.and_false, Bool.and_false]
    · rw [if_neg h, decide_eq_false h, Bool.not_false, Bool.and_true]
      by_cases hj : j < n
      · rw [decide_eq_true hj, Bool.and_true]
      · rw [decide_eq_false hj, Bool.and_false, BitVec.getLsbD_of_ge b j (Nat.le_of_not_lt hj)]
  · rw [setBit, if_pos rfl, BitVec.getLsbD_or, hp]
    by_cases h : j = i
    · rw [if_pos h, decide_eq_true h, Bool.or_true]
    · rw [if_neg h, decide_eq_false h, Bool.or_false]

/-! ## The issuing warp's record -/

@[simp] theorem State.me_setMe (s : State) (w : Warp) : (s.setMe w).me = w := by simp [State.me, State.warp]

theorem State.setMe_other (s : State) (w : Warp) {id : Nat} (h : id ≠ s.cur.warp) :
    tget (s.setMe w).warps id = tget s.warps id := by simp [tget_tput_other _ _ h]

@[simp] theorem State.setMe_setMe (s : State) (w x : Warp) : (s.setMe w).setMe x = s.setMe x := by
  simp [State.setMe, State.setWarp]

@[simp] theorem State.me_setGroup (s : State) (id : Nat) (g : Group) : (s.setGroup id g).me = s.me := rfl

@[simp] theorem State.group_setGroup_same (s : State) (id : Nat) (g : Group) : (s.setGroup id g).group id = g := by
  simp [State.group]

@[simp] theorem State.group_setMe (s : State) (w : Warp) (id : Nat) : (s.setMe w).group id = s.group id := rfl

/-! ## Captures -/

theorem Warp.captureLane_latch (p : Nat) (w : Warp) (l : Nat) (x : Val) :
    (w.captureLane p l x).latch = sset 0 w.latch (128 * p + l) x.bits := rfl

theorem Warp.captureLane_latchP (p : Nat) (w : Warp) (l : Nat) (x : Val) :
    (w.captureLane p l x).latchP = sset 0 w.latchP p (setBit (sget 0 w.latchP p) l x.p) := rfl

/-- The parts of a warp that a capture leaves alone. -/
theorem Warp.capture_frame (w : Warp) (exec : Lanes) (W p : Nat) (f : Nat → Val) :
    w.capture exec W p f =
      { w with latch := (w.capture exec W p f).latch, latchP := (w.capture exec W p f).latchP,
               latchAge := sset none w.latchAge p (some 0) } := by
  unfold Warp.capture
  generalize List.range W = ls
  have h (v : Warp) : ls.foldl (fun w l => w.captureLane p l (if exec.getLsbD l then f l else {})) v =
      { v with latch := (ls.foldl (fun w l => w.captureLane p l (if exec.getLsbD l then f l else {})) v).latch,
               latchP := (ls.foldl (fun w l => w.captureLane p l (if exec.getLsbD l then f l else {})) v).latchP } := by
    induction ls generalizing v with
    | nil => rfl
    | cons l ls ih => rw [List.foldl_cons, ih]; rfl
  rw [h]

/-- The values of a slot after a capture. -/
theorem Warp.capture_latch (w : Warp) (exec : Lanes) (W p : Nat) (f : Nat → Val) (k : Nat) :
    sget 0 (w.capture exec W p f).latch k =
      if 128 * p ≤ k ∧ k < 128 * p + W then (if exec.getLsbD (k - 128 * p) then (f (k - 128 * p)).bits else 0)
      else sget 0 w.latch k := by
  unfold Warp.capture
  induction W with
  | zero => simp only [List.range_zero, List.foldl_nil]; rw [if_neg (by omega)]
  | succ W ih =>
    rw [List.range_succ, List.foldl_append]
    rw [List.foldl_cons, List.foldl_nil, Warp.captureLane_latch, sget_sset, ih]
    by_cases hk : k = 128 * p + W
    · subst hk
      have hc : 128 * p ≤ 128 * p + W ∧ 128 * p + W < 128 * p + (W + 1) := by omega
      rw [if_pos rfl, if_pos hc, show 128 * p + W - 128 * p = W by omega]
      cases exec.getLsbD W <;> rfl
    · rw [if_neg hk]
      have hc : (128 * p ≤ k ∧ k < 128 * p + (W + 1)) = (128 * p ≤ k ∧ k < 128 * p + W) := propext (by omega)
      simp only [hc]

/-- The poison bits of a slot after a capture. -/
theorem Warp.capture_latchP (w : Warp) (exec : Lanes) (W p : Nat) (f : Nat → Val) (hW : W ≤ 128) (l : Nat) :
    (sget 0 (w.capture exec W p f).latchP p).getLsbD l =
      if l < W then (exec.getLsbD l && (f l).p) else (sget 0 w.latchP p).getLsbD l := by
  unfold Warp.capture
  induction W with
  | zero => simp
  | succ W ih =>
    rw [List.range_succ, List.foldl_append]
    rw [List.foldl_cons, List.foldl_nil, Warp.captureLane_latchP, sget_sset_same, setBit_getLsbD _ _ _ _ (by omega), ih (by omega)]
    by_cases hk : l = W
    · subst hk
      rw [if_pos rfl, if_pos (Nat.lt_succ_self l)]
      cases exec.getLsbD l <;> rfl
    · have hc : (l < W + 1) = (l < W) := propext (by omega)
      rw [if_neg hk]
      simp only [hc]

/-- Other slots keep their poison bits. -/
theorem Warp.capture_latchP_other (w : Warp) (exec : Lanes) (W : Nat) {p q : Nat} (f : Nat → Val) (h : q ≠ p) :
    sget 0 (w.capture exec W p f).latchP q = sget 0 w.latchP q := by
  unfold Warp.capture
  induction W with
  | zero => simp
  | succ W ih =>
    rw [List.range_succ, List.foldl_append]
    rw [List.foldl_cons, List.foldl_nil, Warp.captureLane_latchP, sget_sset_other _ _ _ h, ih]

/-- The ages of captures rise by one. -/
theorem sget_aged (w : Warp) (p : Nat) : sget none w.aged.latchAge p = (sget none w.latchAge p).map (· + 1) := by
  show sget none (w.latchAge.map fun e => (e.1, e.2.map (· + 1))) p = _
  generalize w.latchAge = m
  induction m with
  | nil => rfl
  | cons e m ih =>
    obtain ⟨k, y⟩ := e
    simp only [List.map_cons, sget]
    split
    · rfl
    · exact ih

/-! ## Completion -/

/-- An instruction that completes changes its warp alone: the PC moves on and its bookkeeping starts afresh. -/
theorem retire_spec (e : Env) (s : State) (h : s.me.stopping = none) :
    ∃ pl, retire e s = s.setMe { s.me.completed (s.me.pc + BitVec.ofNat 64 s.cur.adv) s.cur.half with plumb := pl } := by
  refine ⟨(s.me.plumb.see s.me.pc.toNat (Raw.ofBits s.cur.bits).maj.toNat
    (observed e (Raw.ofBits s.cur.bits) s.me s.myGroup)).fell s.me.pc.toNat, ?_⟩
  unfold retire
  simp only []
  unfold stopDue
  rw [State.me_setMe]
  simp [h]

/-- What a completed warp is after its capture. -/
def captured (e : Env) (k : Option (Nat × (Nat → Val))) (w : Warp) : Warp :=
  match k with
  | some (p, f) => w.capture e.w.exec e.W p f
  | none => w

/-- The same with a capture, which is applied to what has completed. -/
theorem retireHold_spec (e : Env) (k : Option (Nat × (Nat → Val))) (s : State) (h : s.me.stopping = none) :
    ∃ y pl, y = { s.me.completed (s.me.pc + BitVec.ofNat 64 s.cur.adv) s.cur.half with plumb := pl } ∧
      retireHold e k s = s.setMe (captured e k y) := by
  obtain ⟨pl, hr⟩ := retire_spec e s h
  refine ⟨_, pl, rfl, ?_⟩
  unfold retireHold captureHold
  rw [hr]
  cases k with
  | none => rfl
  | some k => simp [captured]

theorem captured_frame (e : Env) (k : Option (Nat × (Nat → Val))) (w : Warp) :
    ∃ la lp lg, captured e k w = { w with latch := la, latchP := lp, latchAge := lg } := by
  cases k with
  | none => exact ⟨w.latch, w.latchP, w.latchAge, rfl⟩
  | some k => exact ⟨_, _, _, Warp.capture_frame w e.w.exec e.W k.1 k.2⟩

end Sys2Proof.Machine
end

