-- ==== Sys2Proof/Laws/Encoding.lean ====
section
/-!
SUPPORT. Each field code of the encoding decodes to what it encodes, and the words of the fields split into the fields again.
-/
namespace Sys2Proof

theorem extract_low {v w : Nat} (x : BitVec v) (y : BitVec w) (i n : Nat) (h : i + n ≤ w) :
    (x ++ y).extractLsb' i n = y.extractLsb' i n := by
  ext k hk
  simp [BitVec.getElem_extractLsb', BitVec.getLsbD_append, show i + k < w by omega]

theorem extract_high {v w : Nat} (x : BitVec v) (y : BitVec w) (i n : Nat) (h : w ≤ i) :
    (x ++ y).extractLsb' i n = x.extractLsb' (i - w) n := by
  ext k hk
  simp [BitVec.getElem_extractLsb', BitVec.getLsbD_append, show ¬ i + k < w by omega,
    show i + k - w = i - w + k by omega]

theorem extract_all {w : Nat} (x : BitVec w) : x.extractLsb' 0 w = x := BitVec.extractLsb'_eq_self

theorem extract_right {v w : Nat} (x : BitVec v) (y : BitVec w) : (x ++ y).extractLsb' 0 w = y := by
  rw [extract_low _ _ _ _ (by omega), extract_all]

theorem bit_low {v w : Nat} (x : BitVec v) (y : BitVec w) (i : Nat) (h : i < w) :
    (x ++ y).getLsbD i = y.getLsbD i := by simp [BitVec.getLsbD_append, h]

theorem bit_high {v w : Nat} (x : BitVec v) (y : BitVec w) (i : Nat) (h : w ≤ i) :
    (x ++ y).getLsbD i = x.getLsbD (i - w) := by simp [BitVec.getLsbD_append, show ¬ i < w by omega]

@[simp] theorem bit1_getLsbD (b : Bool) : (bit1 b).getLsbD 0 = b := by cases b <;> rfl

/-- A word splits into the fields that it was put together from. -/
@[simp] theorem Raw.ofBits_bits (r : Raw) : Raw.ofBits r.bits = r := by
  cases r with | mk len maj hold fe dst a b c fn ext =>
  simp only [Raw.ofBits, Raw.bits, Raw.mk.injEq]
  refine ⟨extract_right _ _, ?_, ?_, ?_, ?_, ?_, ?_, ?_, ?_, ?_⟩
  · refine (extract_high _ _ _ _ (by decide)).trans ?_
    exact extract_right _ _
  · iterate 2 refine (extract_high _ _ _ _ (by decide)).trans ?_
    exact extract_right _ _
  · iterate 3 refine (extract_high _ _ _ _ (by decide)).trans ?_
    exact extract_right _ _
  · iterate 4 refine (extract_high _ _ _ _ (by decide)).trans ?_
    exact extract_right _ _
  · iterate 5 refine (extract_high _ _ _ _ (by decide)).trans ?_
    exact extract_right _ _
  · iterate 6 refine (extract_high _ _ _ _ (by decide)).trans ?_
    exact extract_right _ _
  · iterate 7 refine (extract_high _ _ _ _ (by decide)).trans ?_
    exact extract_right _ _
  · iterate 8 refine (extract_high _ _ _ _ (by decide)).trans ?_
    exact extract_right _ _
  · iterate 9 refine (extract_high _ _ _ _ (by decide)).trans ?_
    exact extract_all _

@[simp] theorem Src.ofCode_code (x : Src) : Src.ofCode x.code = some x := by
  cases x with
  | v n => revert n; decide
  | vl n => revert n; decide
  | vr n => revert n; decide
  | s n => revert n; decide
  | latch p => revert p; decide
  | idx i => revert i; decide
  | k c => revert c; decide
  | g n => revert n; decide

@[simp] theorem Ty.ofCode_code (t : Ty) : Ty.ofCode t.code = some t := by cases t <;> rfl
@[simp] theorem Rnd.ofCode_code (x : Rnd) : Rnd.ofCode x.code = x := by cases x <;> rfl
@[simp] theorem Edge.ofCode_code (x : Edge) : Edge.ofCode x.code = some x := by cases x <;> rfl
@[simp] theorem Scope.ofCode_code (x : Scope) : Scope.ofCode x.code = some x := by cases x <;> rfl
@[simp] theorem Ord.ofCode_code (x : Ord) : Ord.ofCode x.code = x := by cases x <;> rfl
@[simp] theorem Size.ofCode_code (x : Size) : Size.ofCode x.code = some x := by cases x <;> rfl
@[simp] theorem Hold.ofCode_code (h : Hold) : Hold.ofCode h.code = some h := by
  cases h with
  | none => rfl
  | a p => revert p; decide
  | b p => revert p; decide
  | d p => revert p; decide

@[simp] theorem Mod.ofWord_word (m : Mod) : Mod.ofWord m.word = some m := by
  cases m with | mk rnd ftz sat edge ty2 aux =>
  simp only [Mod.word]
  have h1 : (rnd.code ++ bit1 ftz ++ bit1 sat ++ edge.code ++ ty2.code ++ aux).extractLsb' 26 2 = edge.code := by
    iterate 2 refine (extract_high _ _ _ _ (by decide)).trans ?_
    exact extract_right _ _
  have h2 : (rnd.code ++ bit1 ftz ++ bit1 sat ++ edge.code ++ ty2.code ++ aux).extractLsb' 21 5 = ty2.code := by
    refine (extract_high _ _ _ _ (by decide)).trans ?_
    exact extract_right _ _
  have h3 : (rnd.code ++ bit1 ftz ++ bit1 sat ++ edge.code ++ ty2.code ++ aux).extractLsb' 30 2 = rnd.code := by
    iterate 5 refine (extract_high _ _ _ _ (by decide)).trans ?_
    exact extract_all _
  have h4 : (rnd.code ++ bit1 ftz ++ bit1 sat ++ edge.code ++ ty2.code ++ aux).extractLsb' 0 21 = aux := by
    exact extract_right _ _
  have h5 : (rnd.code ++ bit1 ftz ++ bit1 sat ++ edge.code ++ ty2.code ++ aux).getLsbD 29 = ftz := by
    iterate 4 refine (bit_high _ _ _ (by decide)).trans ?_
    exact (bit_low _ _ _ (by decide)).trans (bit1_getLsbD _)
  have h6 : (rnd.code ++ bit1 ftz ++ bit1 sat ++ edge.code ++ ty2.code ++ aux).getLsbD 28 = sat := by
    iterate 3 refine (bit_high _ _ _ (by decide)).trans ?_
    exact (bit_low _ _ _ (by decide)).trans (bit1_getLsbD _)
  simp only [Mod.ofWord, h1, h2, h3, h4, h5, h6, Edge.ofCode_code, Ty.ofCode_code, Rnd.ofCode_code]
  rfl

theorem Ext.ofBits_bits (e : Ext) :
    Ext.ofBits e.len (e.immBit.getLsbD 0) (e.xmBit.getLsbD 0) e.bits = some e := by
  cases e with
  | none => rfl
  | imm w =>
    have h : (Ext.imm w).bits.extractLsb' 0 32 = w := extract_right _ _
    simp [Ext.ofBits, Ext.len, Ext.immBit, Ext.xmBit, h]
  | mod m =>
    have h : (Ext.mod m).bits.extractLsb' 0 32 = m.word := extract_right _ _
    simp [Ext.ofBits, Ext.len, Ext.immBit, Ext.xmBit, h]
  | imm64 d => simp [Ext.ofBits, Ext.len, Ext.immBit, Ext.xmBit, Ext.bits]
  | immMod w m =>
    have h : (Ext.immMod w m).bits.extractLsb' 0 32 = w := extract_right _ _
    have h' : (Ext.immMod w m).bits.extractLsb' 32 32 = m.word :=
      (extract_high _ _ _ _ (by decide)).trans (extract_all _)
    simp [Ext.ofBits, Ext.len, Ext.immBit, Ext.xmBit, h, h']

@[simp] theorem MExt.ofBits_bits (e : MExt) : MExt.ofBits e.len e.bits = some e := by
  cases e with
  | none => rfl
  | short sc off =>
    have h1 : (0#32 ++ sc.code ++ 0#5 ++ off).extractLsb' 24 5 = 0 := by
      refine (extract_high _ _ _ _ (by decide)).trans ?_
      exact extract_right _ _
    have h2 : (0#32 ++ sc.code ++ 0#5 ++ off).extractLsb' 29 3 = sc.code := by
      iterate 2 refine (extract_high _ _ _ _ (by decide)).trans ?_
      exact extract_right _ _
    have h3 : (0#32 ++ sc.code ++ 0#5 ++ off).extractLsb' 0 24 = off := by
      exact extract_right _ _
    simp only [MExt.ofBits, MExt.len, MExt.bits, h1, h2, h3, Scope.ofCode_code]
    rfl
  | long sc abs off =>
    have h1 : (sc.code ++ bit1 abs ++ 0#3 ++ off).extractLsb' 57 3 = 0 := by
      refine (extract_high _ _ _ _ (by decide)).trans ?_
      exact extract_right _ _
    have h2 : (sc.code ++ bit1 abs ++ 0#3 ++ off).extractLsb' 61 3 = sc.code := by
      iterate 3 refine (extract_high _ _ _ _ (by decide)).trans ?_
      exact extract_all _
    have h3 : (sc.code ++ bit1 abs ++ 0#3 ++ off).extractLsb' 0 57 = off := by
      exact extract_right _ _
    have h4 : (sc.code ++ bit1 abs ++ 0#3 ++ off).getLsbD 60 = abs := by
      iterate 2 refine (bit_high _ _ _ (by decide)).trans ?_
      exact (bit_low _ _ _ (by decide)).trans (bit1_getLsbD _)
    simp only [MExt.ofBits, MExt.len, MExt.bits, h1, h2, h3, h4, Scope.ofCode_code]
    rfl

@[simp] theorem Frame.ofBits_bits (f : Frame) : Frame.ofBits f.bits = some f := by
  cases f with | mk scope pbv pb tid tileA tileB acc aux =>
  have h1 : (scope.code ++ bit1 pbv ++ pb ++ tid ++ tileA ++ tileB ++ acc ++ aux).extractLsb' 61 3 = scope.code := by
    iterate 7 refine (extract_high _ _ _ _ (by decide)).trans ?_
    exact extract_all _
  have h2 : (scope.code ++ bit1 pbv ++ pb ++ tid ++ tileA ++ tileB ++ acc ++ aux).getLsbD 60 = pbv := by
    iterate 6 refine (bit_high _ _ _ (by decide)).trans ?_
    exact (bit_low _ _ _ (by decide)).trans (bit1_getLsbD _)
  have h3 : (scope.code ++ bit1 pbv ++ pb ++ tid ++ tileA ++ tileB ++ acc ++ aux).extractLsb' 42 18 = pb := by
    iterate 5 refine (extract_high _ _ _ _ (by decide)).trans ?_
    exact extract_right _ _
  have h4 : (scope.code ++ bit1 pbv ++ pb ++ tid ++ tileA ++ tileB ++ acc ++ aux).extractLsb' 34 8 = tid := by
    iterate 4 refine (extract_high _ _ _ _ (by decide)).trans ?_
    exact extract_right _ _
  have h5 : (scope.code ++ bit1 pbv ++ pb ++ tid ++ tileA ++ tileB ++ acc ++ aux).extractLsb' 28 6 = tileA := by
    iterate 3 refine (extract_high _ _ _ _ (by decide)).trans ?_
    exact extract_right _ _
  have h6 : (scope.code ++ bit1 pbv ++ pb ++ tid ++ tileA ++ tileB ++ acc ++ aux).extractLsb' 22 6 = tileB := by
    iterate 2 refine (extract_high _ _ _ _ (by decide)).trans ?_
    exact extract_right _ _
  have h7 : (scope.code ++ bit1 pbv ++ pb ++ tid ++ tileA ++ tileB ++ acc ++ aux).extractLsb' 17 5 = acc := by
    refine (extract_high _ _ _ _ (by decide)).trans ?_
    exact extract_right _ _
  have h8 : (scope.code ++ bit1 pbv ++ pb ++ tid ++ tileA ++ tileB ++ acc ++ aux).extractLsb' 0 17 = aux := by
    exact extract_right _ _
  simp only [Frame.ofBits, Frame.bits, h1, h2, h3, h4, h5, h6, h7, h8, Scope.ofCode_code]
  rfl

/-! ## Operands -/

@[simp] theorem COp.raw_maj (o : COp) (maj : BitVec 8) (ty : BitVec 5) : (o.raw maj ty).maj = maj := rfl
@[simp] theorem MOp.raw_maj (o : MOp) (maj : BitVec 8) : (o.raw maj).maj = maj := rfl
@[simp] theorem EOp.raw_maj (o : EOp) (maj : BitVec 8) : (o.raw maj).maj = maj := rfl
@[simp] theorem EOp.raw_fn (o : EOp) (maj : BitVec 8) : (o.raw maj).fn = o.fn := rfl

@[simp] theorem COp.raw_tyBits (o : COp) (maj : BitVec 8) (ty : BitVec 5) : (o.raw maj ty).tyBits = ty := by
  refine (extract_high _ _ _ _ (by decide)).trans ?_
  exact (extract_high _ _ _ _ (by decide)).trans (extract_all _)

@[simp] theorem COp.raw_ty? (o : COp) (maj : BitVec 8) (t : Ty) : (o.raw maj t.code).ty? = some t := by
  simp [Raw.ty?]

@[simp] theorem COp.ofRaw_raw (o : COp) (maj : BitVec 8) (ty : BitVec 5) : COp.ofRaw (o.raw maj ty) = some o := by
  have h1 : (o.raw maj ty).fn.getLsbD 1 = o.ext.immBit.getLsbD 0 := by
    refine (bit_high _ _ _ (by decide)).trans ?_
    exact bit_low _ _ _ (by decide)
  have h0 : (o.raw maj ty).fn.getLsbD 0 = o.ext.xmBit.getLsbD 0 := bit_low _ _ _ (by decide)
  simp only [COp.ofRaw, h0, h1]
  simp only [COp.raw, Ext.ofBits_bits, Hold.ofCode_code, Src.ofCode_code]
  rfl

@[simp] theorem MOp.ofRaw_raw (o : MOp) (maj : BitVec 8) : MOp.ofRaw (o.raw maj) = some o := by
  have h1 : (o.size.code ++ o.ord.code ++ o.sub).extractLsb' 4 3 = o.size.code := by
    iterate 2 refine (extract_high _ _ _ _ (by decide)).trans ?_
    exact extract_all _
  have h2 : (o.size.code ++ o.ord.code ++ o.sub).extractLsb' 2 2 = o.ord.code := by
    refine (extract_high _ _ _ _ (by decide)).trans ?_
    exact extract_right _ _
  have h3 : (o.size.code ++ o.ord.code ++ o.sub).extractLsb' 0 2 = o.sub := by
    exact extract_right _ _
  simp only [MOp.ofRaw, MOp.raw, h1, h2, h3]
  simp

@[simp] theorem EOp.ofRaw_raw (o : EOp) (maj : BitVec 8) : EOp.ofRaw (o.raw maj) = some o := by
  cases o with | mk fn fe dst a b c frame =>
  cases frame <;> simp [EOp.ofRaw, EOp.raw]

/-! ## The stages of `build` -/

theorem build_scalar (o : COp) (maj : BitVec 8) (ty : BitVec 5) (h : maj.toNat < 0x40) :
    build (o.raw maj ty) = buildScalar (o.raw maj ty) o maj.toNat := by
  unfold build
  simp only [COp.raw_maj, COp.ofRaw_raw, if_pos h, Option.bind_some]

theorem build_vector (o : COp) (maj : BitVec 8) (ty : BitVec 5) (h : ¬ maj.toNat < 0x40) (h' : maj.toNat < 0xA0) :
    build (o.raw maj ty) = buildVector (o.raw maj ty) o maj.toNat := by
  unfold build
  simp only [COp.raw_maj, COp.ofRaw_raw, if_neg h, if_pos h', Option.bind_some]

theorem build_mem (o : MOp) (maj : BitVec 8) (h : ¬ maj.toNat < 0x40) (h' : ¬ maj.toNat < 0xA0)
    (h'' : maj.toNat < 0xC0) : build (o.raw maj) = buildMem o maj.toNat := by
  unfold build
  simp only [MOp.raw_maj, MOp.ofRaw_raw, if_neg h, if_neg h', if_pos h'', Option.bind_some]

theorem build_engine (o : EOp) (maj : BitVec 8) (h : ¬ maj.toNat < 0x40) (h' : ¬ maj.toNat < 0xA0)
    (h'' : ¬ maj.toNat < 0xC0) : build (o.raw maj) = buildEngine o maj.toNat := by
  unfold build
  simp only [EOp.raw_maj, EOp.ofRaw_raw, if_neg h, if_neg h', if_neg h'', Option.bind_some]

/-- A typed row: the type code decodes to the type. -/
theorem typed_row (o : COp) (maj : BitVec 8) (t : Ty) (f : Ty → Instr) :
    ((o.raw maj t.code).ty?.map f) = some (f t) := by rw [COp.raw_ty?]; rfl

end Sys2Proof
end

