-- ==== Sys2Proof/Laws/PerInstr.lean ====
section
/-!
SUPPORT. The family BuildRaw: the decoder's last stage gives an instruction back from the fields that the encoder gives it,
constructor by constructor.
-/
namespace Sys2Proof.Laws.BuildRaw

/-- The fields of an instruction whose selecting fields agree with its constructor build that instruction. -/
def Statement (i : Instr) : Prop := ∀ r, i.raw? = some r → i.selectorOk = true → build r = some i

theorem smov (t : Ty) (o : COp) : Statement (.smov t o) := by
  intro r h _
  cases h
  refine (build_scalar o 0x00 (t.code) (by decide)).trans ?_
  exact typed_row o 0x00 t _

theorem sadd (t : Ty) (o : COp) : Statement (.sadd t o) := by
  intro r h _
  cases h
  refine (build_scalar o 0x01 (t.code) (by decide)).trans ?_
  exact typed_row o 0x01 t _

theorem ssub (t : Ty) (o : COp) : Statement (.ssub t o) := by
  intro r h _
  cases h
  refine (build_scalar o 0x02 (t.code) (by decide)).trans ?_
  exact typed_row o 0x02 t _

theorem smul (t : Ty) (o : COp) : Statement (.smul t o) := by
  intro r h _
  cases h
  refine (build_scalar o 0x03 (t.code) (by decide)).trans ?_
  exact typed_row o 0x03 t _

theorem smulh (t : Ty) (o : COp) : Statement (.smulh t o) := by
  intro r h _
  cases h
  refine (build_scalar o 0x04 (t.code) (by decide)).trans ?_
  exact typed_row o 0x04 t _

theorem smin (t : Ty) (o : COp) : Statement (.smin t o) := by
  intro r h _
  cases h
  refine (build_scalar o 0x05 (t.code) (by decide)).trans ?_
  exact typed_row o 0x05 t _

theorem smax (t : Ty) (o : COp) : Statement (.smax t o) := by
  intro r h _
  cases h
  refine (build_scalar o 0x06 (t.code) (by decide)).trans ?_
  exact typed_row o 0x06 t _

theorem sand (t : Ty) (o : COp) : Statement (.sand t o) := by
  intro r h _
  cases h
  refine (build_scalar o 0x07 (t.code) (by decide)).trans ?_
  exact typed_row o 0x07 t _

theorem sor (t : Ty) (o : COp) : Statement (.sor t o) := by
  intro r h _
  cases h
  refine (build_scalar o 0x08 (t.code) (by decide)).trans ?_
  exact typed_row o 0x08 t _

theorem sxor (t : Ty) (o : COp) : Statement (.sxor t o) := by
  intro r h _
  cases h
  refine (build_scalar o 0x09 (t.code) (by decide)).trans ?_
  exact typed_row o 0x09 t _

theorem snot (t : Ty) (o : COp) : Statement (.snot t o) := by
  intro r h _
  cases h
  refine (build_scalar o 0x0A (t.code) (by decide)).trans ?_
  exact typed_row o 0x0A t _

theorem sshl (t : Ty) (o : COp) : Statement (.sshl t o) := by
  intro r h _
  cases h
  refine (build_scalar o 0x0B (t.code) (by decide)).trans ?_
  exact typed_row o 0x0B t _

theorem sshr (t : Ty) (o : COp) : Statement (.sshr t o) := by
  intro r h _
  cases h
  refine (build_scalar o 0x0C (t.code) (by decide)).trans ?_
  exact typed_row o 0x0C t _

theorem ssra (t : Ty) (o : COp) : Statement (.ssra t o) := by
  intro r h _
  cases h
  refine (build_scalar o 0x0D (t.code) (by decide)).trans ?_
  exact typed_row o 0x0D t _

theorem spopc (t : Ty) (o : COp) : Statement (.spopc t o) := by
  intro r h _
  cases h
  refine (build_scalar o 0x0E (t.code) (by decide)).trans ?_
  exact typed_row o 0x0E t _

theorem sclz (t : Ty) (o : COp) : Statement (.sclz t o) := by
  intro r h _
  cases h
  refine (build_scalar o 0x0F (t.code) (by decide)).trans ?_
  exact typed_row o 0x0F t _

theorem sbfe (t : Ty) (o : COp) : Statement (.sbfe t o) := by
  intro r h _
  cases h
  refine (build_scalar o 0x10 (t.code) (by decide)).trans ?_
  exact typed_row o 0x10 t _

theorem sbfi (t : Ty) (o : COp) : Statement (.sbfi t o) := by
  intro r h _
  cases h
  refine (build_scalar o 0x11 (t.code) (by decide)).trans ?_
  exact typed_row o 0x11 t _

theorem scmpeq (t : Ty) (o : COp) : Statement (.scmpeq t o) := by
  intro r h _
  cases h
  refine (build_scalar o 0x12 (t.code) (by decide)).trans ?_
  exact typed_row o 0x12 t _

theorem scmpne (t : Ty) (o : COp) : Statement (.scmpne t o) := by
  intro r h _
  cases h
  refine (build_scalar o 0x13 (t.code) (by decide)).trans ?_
  exact typed_row o 0x13 t _

theorem scmplt (t : Ty) (o : COp) : Statement (.scmplt t o) := by
  intro r h _
  cases h
  refine (build_scalar o 0x14 (t.code) (by decide)).trans ?_
  exact typed_row o 0x14 t _

theorem scmple (t : Ty) (o : COp) : Statement (.scmple t o) := by
  intro r h _
  cases h
  refine (build_scalar o 0x15 (t.code) (by decide)).trans ?_
  exact typed_row o 0x15 t _

theorem ssel (t : Ty) (o : COp) : Statement (.ssel t o) := by
  intro r h _
  cases h
  refine (build_scalar o 0x16 (t.code) (by decide)).trans ?_
  exact typed_row o 0x16 t _

theorem sgetr (o : COp) : Statement (.sgetr o) := by
  intro r h _
  cases h
  refine (build_scalar o 0x17 0 (by decide)).trans ?_
  rfl

theorem ssetr (o : COp) : Statement (.ssetr o) := by
  intro r h _
  cases h
  refine (build_scalar o 0x18 0 (by decide)).trans ?_
  rfl

theorem setx (o : COp) : Statement (.setx o) := by
  intro r h _
  cases h
  refine (build_scalar o 0x19 0 (by decide)).trans ?_
  rfl

theorem getx (o : COp) : Statement (.getx o) := by
  intro r h _
  cases h
  refine (build_scalar o 0x1A 0 (by decide)).trans ?_
  rfl

theorem xand (o : COp) : Statement (.xand o) := by
  intro r h _
  cases h
  refine (build_scalar o 0x1B 0 (by decide)).trans ?_
  rfl

theorem xandn (o : COp) : Statement (.xandn o) := by
  intro r h _
  cases h
  refine (build_scalar o 0x1C 0 (by decide)).trans ?_
  rfl

theorem xrestore (o : COp) : Statement (.xrestore o) := by
  intro r h hs
  cases h
  refine (build_scalar o 0x1D 0 (by decide)).trans ?_
  have hs : (o.b == Src.v 0) = true := hs
  show some (if o.b = Src.v 0 then Instr.xrestore o else Instr.xrestoreMasked o) = _
  simp_all

theorem xrestoreMasked (o : COp) : Statement (.xrestoreMasked o) := by
  intro r h hs
  cases h
  refine (build_scalar o 0x1D 0 (by decide)).trans ?_
  have hs : (o.b != Src.v 0) = true := hs
  show some (if o.b = Src.v 0 then Instr.xrestore o else Instr.xrestoreMasked o) = _
  simp_all

theorem bra (o : COp) : Statement (.bra o) := by
  intro r h _
  cases h
  refine (build_scalar o 0x1E 0 (by decide)).trans ?_
  rfl

theorem brcT (o : COp) : Statement (.brcT o) := by
  intro r h _
  cases h
  refine (build_scalar o 0x1F 0 (by decide)).trans ?_
  show some (if (o.raw 0x1F 0).tyBits = 0 then Instr.brcT o else Instr.brcF o) = _
  rw [COp.raw_tyBits]
  rfl

theorem brcF (o : COp) : Statement (.brcF o) := by
  intro r h _
  cases h
  refine (build_scalar o 0x1F 1 (by decide)).trans ?_
  show some (if (o.raw 0x1F 1).tyBits = 0 then Instr.brcT o else Instr.brcF o) = _
  rw [COp.raw_tyBits]
  rfl

theorem brxz (o : COp) : Statement (.brxz o) := by
  intro r h _
  cases h
  refine (build_scalar o 0x20 0 (by decide)).trans ?_
  rfl

theorem brxnz (o : COp) : Statement (.brxnz o) := by
  intro r h _
  cases h
  refine (build_scalar o 0x21 0 (by decide)).trans ?_
  rfl

theorem call (o : COp) : Statement (.call o) := by
  intro r h _
  cases h
  refine (build_scalar o 0x22 0 (by decide)).trans ?_
  rfl

theorem ret (o : COp) : Statement (.ret o) := by
  intro r h _
  cases h
  refine (build_scalar o 0x23 0 (by decide)).trans ?_
  rfl

theorem jmpi (o : COp) : Statement (.jmpi o) := by
  intro r h hs
  cases h
  refine (build_scalar o 0x24 0 (by decide)).trans ?_
  have hs : (!o.ext.isImm && o.b == Src.v 0) = true := hs
  show (match o.ext with
    | .imm _ => some (Instr.jmpiImm o)
    | _ => some (if o.b = Src.v 0 then Instr.jmpi o else Instr.jmpiIndex o)) = _
  cases he : o.ext <;> simp_all [Ext.isImm]

theorem jmpiIndex (o : COp) : Statement (.jmpiIndex o) := by
  intro r h hs
  cases h
  refine (build_scalar o 0x24 0 (by decide)).trans ?_
  have hs : (!o.ext.isImm && o.b != Src.v 0) = true := hs
  show (match o.ext with
    | .imm _ => some (Instr.jmpiImm o)
    | _ => some (if o.b = Src.v 0 then Instr.jmpi o else Instr.jmpiIndex o)) = _
  cases he : o.ext <;> simp_all [Ext.isImm]

theorem jmpiImm (o : COp) : Statement (.jmpiImm o) := by
  intro r h hs
  cases h
  refine (build_scalar o 0x24 0 (by decide)).trans ?_
  have hs : (o.ext.isImm) = true := hs
  show (match o.ext with
    | .imm _ => some (Instr.jmpiImm o)
    | _ => some (if o.b = Src.v 0 then Instr.jmpi o else Instr.jmpiIndex o)) = _
  cases he : o.ext <;> simp_all [Ext.isImm]

theorem loop (o : COp) : Statement (.loop o) := by
  intro r h _
  cases h
  refine (build_scalar o 0x25 0 (by decide)).trans ?_
  rfl

theorem icinv (o : COp) : Statement (.icinv o) := by
  intro r h _
  cases h
  refine (build_scalar o 0x26 0 (by decide)).trans ?_
  rfl

theorem icsync (o : COp) : Statement (.icsync o) := by
  intro r h _
  cases h
  refine (build_scalar o 0x27 0 (by decide)).trans ?_
  rfl

theorem sleep (o : COp) : Statement (.sleep o) := by
  intro r h _
  cases h
  refine (build_scalar o 0x28 0 (by decide)).trans ?_
  rfl

theorem nop (o : COp) : Statement (.nop o) := by
  intro r h hs
  cases h
  refine (build_scalar o 0x29 0 (by decide)).trans ?_
  have hs : (!o.ext.isImm && !o.ext.isImm64) = true := hs
  show (match o.ext with
    | .imm _ => some (Instr.nopW96 o)
    | .imm64 _ => some (Instr.nopW128 o)
    | _ => some (Instr.nop o)) = _
  cases he : o.ext <;> simp_all [Ext.isImm, Ext.isImm64]

theorem nopW96 (o : COp) : Statement (.nopW96 o) := by
  intro r h hs
  cases h
  refine (build_scalar o 0x29 0 (by decide)).trans ?_
  have hs : (o.ext.isImm) = true := hs
  show (match o.ext with
    | .imm _ => some (Instr.nopW96 o)
    | .imm64 _ => some (Instr.nopW128 o)
    | _ => some (Instr.nop o)) = _
  cases he : o.ext <;> simp_all [Ext.isImm]

theorem nopW128 (o : COp) : Statement (.nopW128 o) := by
  intro r h hs
  cases h
  refine (build_scalar o 0x29 0 (by decide)).trans ?_
  have hs : (o.ext.isImm64) = true := hs
  show (match o.ext with
    | .imm _ => some (Instr.nopW96 o)
    | .imm64 _ => some (Instr.nopW128 o)
    | _ => some (Instr.nop o)) = _
  cases he : o.ext <;> simp_all [Ext.isImm64]

theorem exit (o : COp) : Statement (.exit o) := by
  intro r h _
  cases h
  refine (build_scalar o 0x2A 0 (by decide)).trans ?_
  rfl

theorem halt (o : COp) : Statement (.halt o) := by
  intro r h _
  cases h
  refine (build_scalar o 0x2B 0 (by decide)).trans ?_
  rfl

theorem trap (o : EOp) : Statement (.trap o) := by
  intro r h hs
  cases h
  refine (build_engine o 0xFA (by decide) (by decide) (by decide)).trans ?_
  have hs : ((o.fn.extractLsb' 0 2).toNat == 0) = true := hs
  show (match (o.fn.extractLsb' 0 2).toNat with
    | 0 => some (Instr.trap o)
    | 1 => some (Instr.trapT o)
    | _ => some (Instr.trapF o)) = _
  simp only [beq_iff_eq] at hs
  rw [hs]
  rfl

theorem trapT (o : EOp) : Statement (.trapT o) := by
  intro r h hs
  cases h
  refine (build_engine o 0xFA (by decide) (by decide) (by decide)).trans ?_
  have hs : ((o.fn.extractLsb' 0 2).toNat == 1) = true := hs
  show (match (o.fn.extractLsb' 0 2).toNat with
    | 0 => some (Instr.trap o)
    | 1 => some (Instr.trapT o)
    | _ => some (Instr.trapF o)) = _
  simp only [beq_iff_eq] at hs
  rw [hs]
  rfl

theorem trapF (o : EOp) : Statement (.trapF o) := by
  intro r h hs
  cases h
  refine (build_engine o 0xFA (by decide) (by decide) (by decide)).trans ?_
  have hs : ((o.fn.extractLsb' 0 2).toNat == 2) = true := hs
  show (match (o.fn.extractLsb' 0 2).toNat with
    | 0 => some (Instr.trap o)
    | 1 => some (Instr.trapT o)
    | _ => some (Instr.trapF o)) = _
  simp only [beq_iff_eq] at hs
  rw [hs]
  rfl

theorem bkpt (o : EOp) : Statement (.bkpt o) := by
  intro r h _
  cases h
  refine (build_engine o 0xFB (by decide) (by decide) (by decide)).trans ?_
  rfl

theorem vmov (t : Ty) (o : COp) : Statement (.vmov t o) := by
  intro r h _
  cases h
  refine (build_vector o 0x40 (t.code) (by decide) (by decide)).trans ?_
  exact typed_row o 0x40 t _

theorem vadd (t : Ty) (o : COp) : Statement (.vadd t o) := by
  intro r h _
  cases h
  refine (build_vector o 0x41 (t.code) (by decide) (by decide)).trans ?_
  exact typed_row o 0x41 t _

theorem vsub (t : Ty) (o : COp) : Statement (.vsub t o) := by
  intro r h _
  cases h
  refine (build_vector o 0x42 (t.code) (by decide) (by decide)).trans ?_
  exact typed_row o 0x42 t _

theorem vmul (t : Ty) (o : COp) : Statement (.vmul t o) := by
  intro r h _
  cases h
  refine (build_vector o 0x43 (t.code) (by decide) (by decide)).trans ?_
  exact typed_row o 0x43 t _

theorem vmulh (t : Ty) (o : COp) : Statement (.vmulh t o) := by
  intro r h _
  cases h
  refine (build_vector o 0x44 (t.code) (by decide) (by decide)).trans ?_
  exact typed_row o 0x44 t _

theorem vmulw (t : Ty) (o : COp) : Statement (.vmulw t o) := by
  intro r h _
  cases h
  refine (build_vector o 0x45 (t.code) (by decide) (by decide)).trans ?_
  exact typed_row o 0x45 t _

theorem vfma (t : Ty) (o : COp) : Statement (.vfma t o) := by
  intro r h _
  cases h
  refine (build_vector o 0x46 (t.code) (by decide) (by decide)).trans ?_
  exact typed_row o 0x46 t _

theorem vmin (t : Ty) (o : COp) : Statement (.vmin t o) := by
  intro r h _
  cases h
  refine (build_vector o 0x47 (t.code) (by decide) (by decide)).trans ?_
  exact typed_row o 0x47 t _

theorem vmax (t : Ty) (o : COp) : Statement (.vmax t o) := by
  intro r h _
  cases h
  refine (build_vector o 0x48 (t.code) (by decide) (by decide)).trans ?_
  exact typed_row o 0x48 t _

theorem vclamp (t : Ty) (o : COp) : Statement (.vclamp t o) := by
  intro r h _
  cases h
  refine (build_vector o 0x49 (t.code) (by decide) (by decide)).trans ?_
  exact typed_row o 0x49 t _

theorem vabs (t : Ty) (o : COp) : Statement (.vabs t o) := by
  intro r h _
  cases h
  refine (build_vector o 0x4A (t.code) (by decide) (by decide)).trans ?_
  exact typed_row o 0x4A t _

theorem vneg (t : Ty) (o : COp) : Statement (.vneg t o) := by
  intro r h _
  cases h
  refine (build_vector o 0x4B (t.code) (by decide) (by decide)).trans ?_
  exact typed_row o 0x4B t _

theorem vcsgn (t : Ty) (o : COp) : Statement (.vcsgn t o) := by
  intro r h _
  cases h
  refine (build_vector o 0x4C (t.code) (by decide) (by decide)).trans ?_
  exact typed_row o 0x4C t _

theorem vaddc (t : Ty) (o : COp) : Statement (.vaddc t o) := by
  intro r h _
  cases h
  refine (build_vector o 0x4D (t.code) (by decide) (by decide)).trans ?_
  exact typed_row o 0x4D t _

theorem vsubb (t : Ty) (o : COp) : Statement (.vsubb t o) := by
  intro r h _
  cases h
  refine (build_vector o 0x4E (t.code) (by decide) (by decide)).trans ?_
  exact typed_row o 0x4E t _

theorem vdot2 (t : Ty) (o : COp) : Statement (.vdot2 t o) := by
  intro r h _
  cases h
  refine (build_vector o 0x4F (t.code) (by decide) (by decide)).trans ?_
  exact typed_row o 0x4F t _

theorem vdot4 (t : Ty) (o : COp) : Statement (.vdot4 t o) := by
  intro r h _
  cases h
  refine (build_vector o 0x50 (t.code) (by decide) (by decide)).trans ?_
  exact typed_row o 0x50 t _

theorem vand (t : Ty) (o : COp) : Statement (.vand t o) := by
  intro r h _
  cases h
  refine (build_vector o 0x51 (t.code) (by decide) (by decide)).trans ?_
  exact typed_row o 0x51 t _

theorem vor (t : Ty) (o : COp) : Statement (.vor t o) := by
  intro r h _
  cases h
  refine (build_vector o 0x52 (t.code) (by decide) (by decide)).trans ?_
  exact typed_row o 0x52 t _

theorem vxor (t : Ty) (o : COp) : Statement (.vxor t o) := by
  intro r h _
  cases h
  refine (build_vector o 0x53 (t.code) (by decide) (by decide)).trans ?_
  exact typed_row o 0x53 t _

theorem vnot (t : Ty) (o : COp) : Statement (.vnot t o) := by
  intro r h _
  cases h
  refine (build_vector o 0x54 (t.code) (by decide) (by decide)).trans ?_
  exact typed_row o 0x54 t _

theorem vshl (t : Ty) (o : COp) : Statement (.vshl t o) := by
  intro r h _
  cases h
  refine (build_vector o 0x55 (t.code) (by decide) (by decide)).trans ?_
  exact typed_row o 0x55 t _

theorem vshr (t : Ty) (o : COp) : Statement (.vshr t o) := by
  intro r h _
  cases h
  refine (build_vector o 0x56 (t.code) (by decide) (by decide)).trans ?_
  exact typed_row o 0x56 t _

theorem vsra (t : Ty) (o : COp) : Statement (.vsra t o) := by
  intro r h _
  cases h
  refine (build_vector o 0x57 (t.code) (by decide) (by decide)).trans ?_
  exact typed_row o 0x57 t _

theorem vpopc (t : Ty) (o : COp) : Statement (.vpopc t o) := by
  intro r h _
  cases h
  refine (build_vector o 0x58 (t.code) (by decide) (by decide)).trans ?_
  exact typed_row o 0x58 t _

theorem vclz (t : Ty) (o : COp) : Statement (.vclz t o) := by
  intro r h _
  cases h
  refine (build_vector o 0x59 (t.code) (by decide) (by decide)).trans ?_
  exact typed_row o 0x59 t _

theorem vbrev (t : Ty) (o : COp) : Statement (.vbrev t o) := by
  intro r h _
  cases h
  refine (build_vector o 0x5A (t.code) (by decide) (by decide)).trans ?_
  exact typed_row o 0x5A t _

theorem vbfe (t : Ty) (o : COp) : Statement (.vbfe t o) := by
  intro r h _
  cases h
  refine (build_vector o 0x5B (t.code) (by decide) (by decide)).trans ?_
  exact typed_row o 0x5B t _

theorem vbfi (t : Ty) (o : COp) : Statement (.vbfi t o) := by
  intro r h _
  cases h
  refine (build_vector o 0x5C (t.code) (by decide) (by decide)).trans ?_
  exact typed_row o 0x5C t _

theorem vpermb (t : Ty) (o : COp) : Statement (.vpermb t o) := by
  intro r h _
  cases h
  refine (build_vector o 0x5D (t.code) (by decide) (by decide)).trans ?_
  exact typed_row o 0x5D t _

theorem vcmpeq (t : Ty) (o : COp) : Statement (.vcmpeq t o) := by
  intro r h _
  cases h
  refine (build_vector o 0x5E (t.code) (by decide) (by decide)).trans ?_
  exact typed_row o 0x5E t _

theorem vcmpne (t : Ty) (o : COp) : Statement (.vcmpne t o) := by
  intro r h _
  cases h
  refine (build_vector o 0x5F (t.code) (by decide) (by decide)).trans ?_
  exact typed_row o 0x5F t _

theorem vcmplt (t : Ty) (o : COp) : Statement (.vcmplt t o) := by
  intro r h _
  cases h
  refine (build_vector o 0x60 (t.code) (by decide) (by decide)).trans ?_
  exact typed_row o 0x60 t _

theorem vcmple (t : Ty) (o : COp) : Statement (.vcmple t o) := by
  intro r h _
  cases h
  refine (build_vector o 0x61 (t.code) (by decide) (by decide)).trans ?_
  exact typed_row o 0x61 t _

theorem vcmpu (t : Ty) (o : COp) : Statement (.vcmpu t o) := by
  intro r h _
  cases h
  refine (build_vector o 0x62 (t.code) (by decide) (by decide)).trans ?_
  exact typed_row o 0x62 t _

theorem vsel (t : Ty) (o : COp) : Statement (.vsel t o) := by
  intro r h _
  cases h
  refine (build_vector o 0x63 (t.code) (by decide) (by decide)).trans ?_
  exact typed_row o 0x63 t _

theorem vcvt (t : Ty) (o : COp) : Statement (.vcvt t o) := by
  intro r h _
  cases h
  refine (build_vector o 0x64 (t.code) (by decide) (by decide)).trans ?_
  exact typed_row o 0x64 t _

theorem vsepack (t : Ty) (o : COp) : Statement (.vsepack t o) := by
  intro r h _
  cases h
  refine (build_vector o 0x65 (t.code) (by decide) (by decide)).trans ?_
  exact typed_row o 0x65 t _

theorem vseunpk (t : Ty) (o : COp) : Statement (.vseunpk t o) := by
  intro r h _
  cases h
  refine (build_vector o 0x66 (t.code) (by decide) (by decide)).trans ?_
  exact typed_row o 0x66 t _

theorem vfract (t : Ty) (o : COp) : Statement (.vfract t o) := by
  intro r h _
  cases h
  refine (build_vector o 0x67 (t.code) (by decide) (by decide)).trans ?_
  exact typed_row o 0x67 t _

theorem vldexp (t : Ty) (o : COp) : Statement (.vldexp t o) := by
  intro r h _
  cases h
  refine (build_vector o 0x68 (t.code) (by decide) (by decide)).trans ?_
  exact typed_row o 0x68 t _

theorem vrint (t : Ty) (o : COp) : Statement (.vrint t o) := by
  intro r h _
  cases h
  refine (build_vector o 0x77 (t.code) (by decide) (by decide)).trans ?_
  exact typed_row o 0x77 t _

theorem vsqrt (t : Ty) (o : COp) : Statement (.vsqrt t o) := by
  intro r h _
  cases h
  refine (build_vector o 0x69 (t.code) (by decide) (by decide)).trans ?_
  exact typed_row o 0x69 t _

theorem vrcp (t : Ty) (o : COp) : Statement (.vrcp t o) := by
  intro r h _
  cases h
  refine (build_vector o 0x6A (t.code) (by decide) (by decide)).trans ?_
  exact typed_row o 0x6A t _

theorem vrsq (t : Ty) (o : COp) : Statement (.vrsq t o) := by
  intro r h _
  cases h
  refine (build_vector o 0x6B (t.code) (by decide) (by decide)).trans ?_
  exact typed_row o 0x6B t _

theorem vexp2 (t : Ty) (o : COp) : Statement (.vexp2 t o) := by
  intro r h _
  cases h
  refine (build_vector o 0x6C (t.code) (by decide) (by decide)).trans ?_
  exact typed_row o 0x6C t _

theorem vlog2 (t : Ty) (o : COp) : Statement (.vlog2 t o) := by
  intro r h _
  cases h
  refine (build_vector o 0x6D (t.code) (by decide) (by decide)).trans ?_
  exact typed_row o 0x6D t _

theorem vsin (t : Ty) (o : COp) : Statement (.vsin t o) := by
  intro r h _
  cases h
  refine (build_vector o 0x6E (t.code) (by decide) (by decide)).trans ?_
  exact typed_row o 0x6E t _

theorem vcos (t : Ty) (o : COp) : Statement (.vcos t o) := by
  intro r h _
  cases h
  refine (build_vector o 0x6F (t.code) (by decide) (by decide)).trans ?_
  exact typed_row o 0x6F t _

theorem vshflIdx (t : Ty) (o : COp) : Statement (.vshflIdx t o) := by
  intro r h hs
  cases h
  refine (build_vector o 0x70 (t.code) (by decide) (by decide)).trans ?_
  have hs : (shflForm o == 0) = true := hs
  refine (typed_row o 0x70 t _).trans ?_
  simp only [beq_iff_eq] at hs
  simp only [hs]

theorem vshflXor (t : Ty) (o : COp) : Statement (.vshflXor t o) := by
  intro r h hs
  cases h
  refine (build_vector o 0x70 (t.code) (by decide) (by decide)).trans ?_
  have hs : (shflForm o == 1) = true := hs
  refine (typed_row o 0x70 t _).trans ?_
  simp only [beq_iff_eq] at hs
  simp only [hs]

theorem vshflUp (t : Ty) (o : COp) : Statement (.vshflUp t o) := by
  intro r h hs
  cases h
  refine (build_vector o 0x70 (t.code) (by decide) (by decide)).trans ?_
  have hs : (shflForm o == 2) = true := hs
  refine (typed_row o 0x70 t _).trans ?_
  simp only [beq_iff_eq] at hs
  simp only [hs]

theorem vshflDn (t : Ty) (o : COp) : Statement (.vshflDn t o) := by
  intro r h hs
  cases h
  refine (build_vector o 0x70 (t.code) (by decide) (by decide)).trans ?_
  have hs : (shflForm o == 3) = true := hs
  refine (typed_row o 0x70 t _).trans ?_
  simp only [beq_iff_eq] at hs
  simp only [hs]

theorem vvoteAny (o : COp) : Statement (.vvoteAny o) := by
  intro r h _
  cases h
  refine (build_vector o 0x71 0 (by decide) (by decide)).trans ?_
  show (match (o.raw 0x71 0).tyBits.toNat with
    | 0 => some (Instr.vvoteAny o)
    | 1 => some (Instr.vvoteAll o)
    | _ => some (Instr.vvoteBallot o)) = _
  rw [COp.raw_tyBits]
  rfl

theorem vvoteAll (o : COp) : Statement (.vvoteAll o) := by
  intro r h _
  cases h
  refine (build_vector o 0x71 1 (by decide) (by decide)).trans ?_
  show (match (o.raw 0x71 1).tyBits.toNat with
    | 0 => some (Instr.vvoteAny o)
    | 1 => some (Instr.vvoteAll o)
    | _ => some (Instr.vvoteBallot o)) = _
  rw [COp.raw_tyBits]
  rfl

theorem vvoteBallot (o : COp) : Statement (.vvoteBallot o) := by
  intro r h _
  cases h
  refine (build_vector o 0x71 2 (by decide) (by decide)).trans ?_
  show (match (o.raw 0x71 2).tyBits.toNat with
    | 0 => some (Instr.vvoteAny o)
    | 1 => some (Instr.vvoteAll o)
    | _ => some (Instr.vvoteBallot o)) = _
  rw [COp.raw_tyBits]
  rfl

theorem vlaneId (o : COp) : Statement (.vlaneId o) := by
  intro r h _
  cases h
  refine (build_vector o 0x72 0 (by decide) (by decide)).trans ?_
  show some (if (o.raw 0x72 0).tyBits = 0 then Instr.vlaneId o else Instr.vlanePfx o) = _
  rw [COp.raw_tyBits]
  rfl

theorem vlanePfx (o : COp) : Statement (.vlanePfx o) := by
  intro r h _
  cases h
  refine (build_vector o 0x72 1 (by decide) (by decide)).trans ?_
  show some (if (o.raw 0x72 1).tyBits = 0 then Instr.vlaneId o else Instr.vlanePfx o) = _
  rw [COp.raw_tyBits]
  rfl

theorem vbcast (t : Ty) (o : COp) : Statement (.vbcast t o) := by
  intro r h _
  cases h
  refine (build_vector o 0x73 (t.code) (by decide) (by decide)).trans ?_
  exact typed_row o 0x73 t _

theorem vxset (o : COp) : Statement (.vxset o) := by
  intro r h _
  cases h
  refine (build_vector o 0x74 0 (by decide) (by decide)).trans ?_
  rfl

theorem vxadd (o : COp) : Statement (.vxadd o) := by
  intro r h _
  cases h
  refine (build_vector o 0x75 0 (by decide) (by decide)).trans ?_
  rfl

theorem vptest (o : COp) : Statement (.vptest o) := by
  intro r h _
  cases h
  refine (build_vector o 0x76 0 (by decide) (by decide)).trans ?_
  rfl

theorem ld (o : MOp) : Statement (.ld o) := by
  intro r h _
  cases h
  refine (build_mem o 0xA0 (by decide) (by decide) (by decide)).trans ?_
  rfl

theorem st (o : MOp) : Statement (.st o) := by
  intro r h _
  cases h
  refine (build_mem o 0xA1 (by decide) (by decide) (by decide)).trans ?_
  rfl

theorem ldg (o : MOp) : Statement (.ldg o) := by
  intro r h _
  cases h
  refine (build_mem o 0xA2 (by decide) (by decide) (by decide)).trans ?_
  rfl

theorem stg (o : MOp) : Statement (.stg o) := by
  intro r h _
  cases h
  refine (build_mem o 0xA3 (by decide) (by decide) (by decide)).trans ?_
  rfl

theorem lds (o : MOp) : Statement (.lds o) := by
  intro r h _
  cases h
  refine (build_mem o 0xA4 (by decide) (by decide) (by decide)).trans ?_
  rfl

theorem sts (o : MOp) : Statement (.sts o) := by
  intro r h _
  cases h
  refine (build_mem o 0xA5 (by decide) (by decide) (by decide)).trans ?_
  rfl

theorem ldl (o : MOp) : Statement (.ldl o) := by
  intro r h _
  cases h
  refine (build_mem o 0xA6 (by decide) (by decide) (by decide)).trans ?_
  rfl

theorem stl (o : MOp) : Statement (.stl o) := by
  intro r h _
  cases h
  refine (build_mem o 0xA7 (by decide) (by decide) (by decide)).trans ?_
  rfl

theorem ldc (o : MOp) : Statement (.ldc o) := by
  intro r h _
  cases h
  refine (build_mem o 0xA8 (by decide) (by decide) (by decide)).trans ?_
  rfl

theorem ldnc (o : MOp) : Statement (.ldnc o) := by
  intro r h _
  cases h
  refine (build_mem o 0xA9 (by decide) (by decide) (by decide)).trans ?_
  rfl

theorem aadd (o : MOp) : Statement (.aadd o) := by
  intro r h _
  cases h
  refine (build_mem o 0xAA (by decide) (by decide) (by decide)).trans ?_
  rfl

theorem amin (o : MOp) : Statement (.amin o) := by
  intro r h _
  cases h
  refine (build_mem o 0xAB (by decide) (by decide) (by decide)).trans ?_
  rfl

theorem amax (o : MOp) : Statement (.amax o) := by
  intro r h _
  cases h
  refine (build_mem o 0xAC (by decide) (by decide) (by decide)).trans ?_
  rfl

theorem aand (o : MOp) : Statement (.aand o) := by
  intro r h _
  cases h
  refine (build_mem o 0xAD (by decide) (by decide) (by decide)).trans ?_
  rfl

theorem aor (o : MOp) : Statement (.aor o) := by
  intro r h _
  cases h
  refine (build_mem o 0xAE (by decide) (by decide) (by decide)).trans ?_
  rfl

theorem axor (o : MOp) : Statement (.axor o) := by
  intro r h _
  cases h
  refine (build_mem o 0xAF (by decide) (by decide) (by decide)).trans ?_
  rfl

theorem axch (o : MOp) : Statement (.axch o) := by
  intro r h _
  cases h
  refine (build_mem o 0xB0 (by decide) (by decide) (by decide)).trans ?_
  rfl

theorem acas (o : MOp) : Statement (.acas o) := by
  intro r h _
  cases h
  refine (build_mem o 0xB1 (by decide) (by decide) (by decide)).trans ?_
  rfl

theorem afadd (o : MOp) : Statement (.afadd o) := by
  intro r h _
  cases h
  refine (build_mem o 0xB2 (by decide) (by decide) (by decide)).trans ?_
  rfl

theorem fenceAcq (o : MOp) : Statement (.fenceAcq o) := by
  intro r h hs
  cases h
  refine (build_mem o 0xB3 (by decide) (by decide) (by decide)).trans ?_
  have hs : (o.ord == Ord.acq) = true := hs
  show (match o.ord with
    | .rlx => none
    | .acq => some (Instr.fenceAcq o)
    | .rel => some (Instr.fenceRel o)
    | .acqrel => some (Instr.fenceAcqrel o)) = _
  simp only [beq_iff_eq] at hs
  rw [hs]

theorem fenceRel (o : MOp) : Statement (.fenceRel o) := by
  intro r h hs
  cases h
  refine (build_mem o 0xB3 (by decide) (by decide) (by decide)).trans ?_
  have hs : (o.ord == Ord.rel) = true := hs
  show (match o.ord with
    | .rlx => none
    | .acq => some (Instr.fenceAcq o)
    | .rel => some (Instr.fenceRel o)
    | .acqrel => some (Instr.fenceAcqrel o)) = _
  simp only [beq_iff_eq] at hs
  rw [hs]

theorem fenceAcqrel (o : MOp) : Statement (.fenceAcqrel o) := by
  intro r h hs
  cases h
  refine (build_mem o 0xB3 (by decide) (by decide) (by decide)).trans ?_
  have hs : (o.ord == Ord.acqrel) = true := hs
  show (match o.ord with
    | .rlx => none
    | .acq => some (Instr.fenceAcq o)
    | .rel => some (Instr.fenceRel o)
    | .acqrel => some (Instr.fenceAcqrel o)) = _
  simp only [beq_iff_eq] at hs
  rw [hs]

theorem prefetch (o : MOp) : Statement (.prefetch o) := by
  intro r h _
  cases h
  refine (build_mem o 0xB4 (by decide) (by decide) (by decide)).trans ?_
  rfl

theorem mmat (o : EOp) : Statement (.mmat o) := by
  intro r h _
  cases h
  refine (build_engine o 0xC0 (by decide) (by decide) (by decide)).trans ?_
  rfl

theorem mmar (o : EOp) : Statement (.mmar o) := by
  intro r h _
  cases h
  refine (build_engine o 0xC1 (by decide) (by decide) (by decide)).trans ?_
  rfl

theorem mvb (o : EOp) : Statement (.mvb o) := by
  intro r h hs
  cases h
  refine (build_engine o 0xC2 (by decide) (by decide) (by decide)).trans ?_
  have hs : (o.fn.getLsbD 6) = true := hs
  show some (if o.fn.getLsbD 6 then Instr.mvb o else Instr.mvbTile o) = _
  simp_all

theorem mvbTile (o : EOp) : Statement (.mvbTile o) := by
  intro r h hs
  cases h
  refine (build_engine o 0xC2 (by decide) (by decide) (by decide)).trans ?_
  have hs : (!o.fn.getLsbD 6) = true := hs
  show some (if o.fn.getLsbD 6 then Instr.mvb o else Instr.mvbTile o) = _
  simp_all

theorem accz (o : EOp) : Statement (.accz o) := by
  intro r h _
  cases h
  refine (build_engine o 0xC3 (by decide) (by decide) (by decide)).trans ?_
  rfl

theorem accld (o : EOp) : Statement (.accld o) := by
  intro r h _
  cases h
  refine (build_engine o 0xC4 (by decide) (by decide) (by decide)).trans ?_
  rfl

theorem accst (o : EOp) : Statement (.accst o) := by
  intro r h _
  cases h
  refine (build_engine o 0xC5 (by decide) (by decide) (by decide)).trans ?_
  rfl

theorem accrd (o : EOp) : Statement (.accrd o) := by
  intro r h _
  cases h
  refine (build_engine o 0xC6 (by decide) (by decide) (by decide)).trans ?_
  rfl

theorem tidset (o : EOp) : Statement (.tidset o) := by
  intro r h _
  cases h
  refine (build_engine o 0xC7 (by decide) (by decide) (by decide)).trans ?_
  rfl

theorem tidget (o : EOp) : Statement (.tidget o) := by
  intro r h _
  cases h
  refine (build_engine o 0xC8 (by decide) (by decide) (by decide)).trans ?_
  rfl

theorem chkcfg (o : EOp) : Statement (.chkcfg o) := by
  intro r h _
  cases h
  refine (build_engine o 0xC9 (by decide) (by decide) (by decide)).trans ?_
  rfl

theorem cpin (o : EOp) : Statement (.cpin o) := by
  intro r h _
  cases h
  refine (build_engine o 0xD0 (by decide) (by decide) (by decide)).trans ?_
  rfl

theorem cpout (o : EOp) : Statement (.cpout o) := by
  intro r h _
  cases h
  refine (build_engine o 0xD1 (by decide) (by decide) (by decide)).trans ?_
  rfl

theorem tldef (o : EOp) : Statement (.tldef o) := by
  intro r h _
  cases h
  refine (build_engine o 0xD2 (by decide) (by decide) (by decide)).trans ?_
  rfl

theorem tlwait (o : EOp) : Statement (.tlwait o) := by
  intro r h _
  cases h
  refine (build_engine o 0xD3 (by decide) (by decide) (by decide)).trans ?_
  rfl

theorem tlfree (o : EOp) : Statement (.tlfree o) := by
  intro r h _
  cases h
  refine (build_engine o 0xD4 (by decide) (by decide) (by decide)).trans ?_
  rfl

theorem tlstate (o : EOp) : Statement (.tlstate o) := by
  intro r h _
  cases h
  refine (build_engine o 0xD5 (by decide) (by decide) (by decide)).trans ?_
  rfl

theorem pbinit (o : EOp) : Statement (.pbinit o) := by
  intro r h hs
  cases h
  refine (build_engine o 0xD6 (by decide) (by decide) (by decide)).trans ?_
  have hs : (!o.fn.getLsbD 0) = true := hs
  show some (if o.fn.getLsbD 0 then Instr.pbarr o else Instr.pbinit o) = _
  simp_all

theorem pbarr (o : EOp) : Statement (.pbarr o) := by
  intro r h hs
  cases h
  refine (build_engine o 0xD6 (by decide) (by decide) (by decide)).trans ?_
  have hs : (o.fn.getLsbD 0) = true := hs
  show some (if o.fn.getLsbD 0 then Instr.pbarr o else Instr.pbinit o) = _
  simp_all

theorem pbexp (o : EOp) : Statement (.pbexp o) := by
  intro r h hs
  cases h
  refine (build_engine o 0xD7 (by decide) (by decide) (by decide)).trans ?_
  have hs : (!o.fn.getLsbD 0) = true := hs
  show some (if o.fn.getLsbD 0 then Instr.pbwait o else Instr.pbexp o) = _
  simp_all

theorem pbwait (o : EOp) : Statement (.pbwait o) := by
  intro r h hs
  cases h
  refine (build_engine o 0xD7 (by decide) (by decide) (by decide)).trans ?_
  have hs : (o.fn.getLsbD 0) = true := hs
  show some (if o.fn.getLsbD 0 then Instr.pbwait o else Instr.pbexp o) = _
  simp_all

theorem bar (o : EOp) : Statement (.bar o) := by
  intro r h _
  cases h
  refine (build_engine o 0xD8 (by decide) (by decide) (by decide)).trans ?_
  rfl

theorem bararr (o : EOp) : Statement (.bararr o) := by
  intro r h _
  cases h
  refine (build_engine o 0xD9 (by decide) (by decide) (by decide)).trans ?_
  rfl

theorem barwait (o : EOp) : Statement (.barwait o) := by
  intro r h _
  cases h
  refine (build_engine o 0xDA (by decide) (by decide) (by decide)).trans ?_
  rfl

theorem watch (o : EOp) : Statement (.watch o) := by
  intro r h _
  cases h
  refine (build_engine o 0xDB (by decide) (by decide) (by decide)).trans ?_
  rfl

theorem unwatch (o : EOp) : Statement (.unwatch o) := by
  intro r h hs
  cases h
  refine (build_engine o 0xDC (by decide) (by decide) (by decide)).trans ?_
  have hs : (!o.fn.getLsbD 2) = true := hs
  show some (if o.fn.getLsbD 2 then Instr.unwatchAll o else Instr.unwatch o) = _
  simp_all

theorem unwatchAll (o : EOp) : Statement (.unwatchAll o) := by
  intro r h hs
  cases h
  refine (build_engine o 0xDC (by decide) (by decide) (by decide)).trans ?_
  have hs : (o.fn.getLsbD 2) = true := hs
  show some (if o.fn.getLsbD 2 then Instr.unwatchAll o else Instr.unwatch o) = _
  simp_all

theorem waitw (o : EOp) : Statement (.waitw o) := by
  intro r h _
  cases h
  refine (build_engine o 0xDD (by decide) (by decide) (by decide)).trans ?_
  rfl

theorem waitc (o : EOp) : Statement (.waitc o) := by
  intro r h _
  cases h
  refine (build_engine o 0xDE (by decide) (by decide) (by decide)).trans ?_
  rfl

theorem yield (o : EOp) : Statement (.yield o) := by
  intro r h _
  cases h
  refine (build_engine o 0xDF (by decide) (by decide) (by decide)).trans ?_
  rfl

theorem tspawn (o : EOp) : Statement (.tspawn o) := by
  intro r h _
  cases h
  refine (build_engine o 0xE0 (by decide) (by decide) (by decide)).trans ?_
  rfl

theorem tspawnr (o : EOp) : Statement (.tspawnr o) := by
  intro r h _
  cases h
  refine (build_engine o 0xE1 (by decide) (by decide) (by decide)).trans ?_
  rfl

theorem trng (o : EOp) : Statement (.trng o) := by
  intro r h _
  cases h
  refine (build_engine o 0xE2 (by decide) (by decide) (by decide)).trans ?_
  rfl

theorem tsplitq (o : EOp) : Statement (.tsplitq o) := by
  intro r h hs
  cases h
  refine (build_engine o 0xE3 (by decide) (by decide) (by decide)).trans ?_
  have hs : ((o.fn.extractLsb' 0 2).toNat == 0) = true := hs
  show (match (o.fn.extractLsb' 0 2).toNat with
    | 0 => some (Instr.tsplitq o)
    | 1 => some (Instr.tsplitqPin o)
    | _ => some (Instr.tsplitqUnpin o)) = _
  simp only [beq_iff_eq] at hs
  rw [hs]
  rfl

theorem tsplitqPin (o : EOp) : Statement (.tsplitqPin o) := by
  intro r h hs
  cases h
  refine (build_engine o 0xE3 (by decide) (by decide) (by decide)).trans ?_
  have hs : ((o.fn.extractLsb' 0 2).toNat == 1) = true := hs
  show (match (o.fn.extractLsb' 0 2).toNat with
    | 0 => some (Instr.tsplitq o)
    | 1 => some (Instr.tsplitqPin o)
    | _ => some (Instr.tsplitqUnpin o)) = _
  simp only [beq_iff_eq] at hs
  rw [hs]
  rfl

theorem tsplitqUnpin (o : EOp) : Statement (.tsplitqUnpin o) := by
  intro r h hs
  cases h
  refine (build_engine o 0xE3 (by decide) (by decide) (by decide)).trans ?_
  have hs : ((o.fn.extractLsb' 0 2).toNat == 2) = true := hs
  show (match (o.fn.extractLsb' 0 2).toNat with
    | 0 => some (Instr.tsplitq o)
    | 1 => some (Instr.tsplitqPin o)
    | _ => some (Instr.tsplitqUnpin o)) = _
  simp only [beq_iff_eq] at hs
  rw [hs]
  rfl

theorem tdone (o : EOp) : Statement (.tdone o) := by
  intro r h _
  cases h
  refine (build_engine o 0xE4 (by decide) (by decide) (by decide)).trans ?_
  rfl

theorem tabort (o : EOp) : Statement (.tabort o) := by
  intro r h _
  cases h
  refine (build_engine o 0xE5 (by decide) (by decide) (by decide)).trans ?_
  rfl

theorem tfrontq (o : EOp) : Statement (.tfrontq o) := by
  intro r h _
  cases h
  refine (build_engine o 0xE6 (by decide) (by decide) (by decide)).trans ?_
  rfl

theorem tsync (o : EOp) : Statement (.tsync o) := by
  intro r h _
  cases h
  refine (build_engine o 0xE7 (by decide) (by decide) (by decide)).trans ?_
  rfl

theorem tisspec (o : EOp) : Statement (.tisspec o) := by
  intro r h _
  cases h
  refine (build_engine o 0xE8 (by decide) (by decide) (by decide)).trans ?_
  rfl

theorem tctx (o : EOp) : Statement (.tctx o) := by
  intro r h _
  cases h
  refine (build_engine o 0xE9 (by decide) (by decide) (by decide)).trans ?_
  rfl

theorem svgrp (o : EOp) : Statement (.svgrp o) := by
  intro r h hs
  cases h
  refine (build_engine o 0xEC (by decide) (by decide) (by decide)).trans ?_
  have hs : (!o.fn.getLsbD 1) = true := hs
  show some (if o.fn.getLsbD 1 then Instr.svgrpClr o else Instr.svgrp o) = _
  simp_all

theorem svgrpClr (o : EOp) : Statement (.svgrpClr o) := by
  intro r h hs
  cases h
  refine (build_engine o 0xEC (by decide) (by decide) (by decide)).trans ?_
  have hs : (o.fn.getLsbD 1) = true := hs
  show some (if o.fn.getLsbD 1 then Instr.svgrpClr o else Instr.svgrp o) = _
  simp_all

theorem svld (o : EOp) : Statement (.svld o) := by
  intro r h _
  cases h
  refine (build_engine o 0xED (by decide) (by decide) (by decide)).trans ?_
  rfl

theorem svinfo (o : EOp) : Statement (.svinfo o) := by
  intro r h _
  cases h
  refine (build_engine o 0xEE (by decide) (by decide) (by decide)).trans ?_
  rfl

theorem collAllreduce (o : EOp) : Statement (.collAllreduce o) := by
  intro r h hs
  cases h
  refine (build_engine o 0xF0 (by decide) (by decide) (by decide)).trans ?_
  have hs : ((o.fn.extractLsb' 4 3).toNat == 0) = true := hs
  show (match (o.fn.extractLsb' 4 3).toNat with
    | 0 => some (Instr.collAllreduce o)
    | 1 => some (Instr.collReducescatter o)
    | 2 => some (Instr.collAllgather o)
    | 3 => some (Instr.collBroadcast o)
    | _ => some (Instr.collA2av o)) = _
  simp only [beq_iff_eq] at hs
  rw [hs]
  rfl

theorem collReducescatter (o : EOp) : Statement (.collReducescatter o) := by
  intro r h hs
  cases h
  refine (build_engine o 0xF0 (by decide) (by decide) (by decide)).trans ?_
  have hs : ((o.fn.extractLsb' 4 3).toNat == 1) = true := hs
  show (match (o.fn.extractLsb' 4 3).toNat with
    | 0 => some (Instr.collAllreduce o)
    | 1 => some (Instr.collReducescatter o)
    | 2 => some (Instr.collAllgather o)
    | 3 => some (Instr.collBroadcast o)
    | _ => some (Instr.collA2av o)) = _
  simp only [beq_iff_eq] at hs
  rw [hs]
  rfl

theorem collAllgather (o : EOp) : Statement (.collAllgather o) := by
  intro r h hs
  cases h
  refine (build_engine o 0xF0 (by decide) (by decide) (by decide)).trans ?_
  have hs : ((o.fn.extractLsb' 4 3).toNat == 2) = true := hs
  show (match (o.fn.extractLsb' 4 3).toNat with
    | 0 => some (Instr.collAllreduce o)
    | 1 => some (Instr.collReducescatter o)
    | 2 => some (Instr.collAllgather o)
    | 3 => some (Instr.collBroadcast o)
    | _ => some (Instr.collA2av o)) = _
  simp only [beq_iff_eq] at hs
  rw [hs]
  rfl

theorem collBroadcast (o : EOp) : Statement (.collBroadcast o) := by
  intro r h hs
  cases h
  refine (build_engine o 0xF0 (by decide) (by decide) (by decide)).trans ?_
  have hs : ((o.fn.extractLsb' 4 3).toNat == 3) = true := hs
  show (match (o.fn.extractLsb' 4 3).toNat with
    | 0 => some (Instr.collAllreduce o)
    | 1 => some (Instr.collReducescatter o)
    | 2 => some (Instr.collAllgather o)
    | 3 => some (Instr.collBroadcast o)
    | _ => some (Instr.collA2av o)) = _
  simp only [beq_iff_eq] at hs
  rw [hs]
  rfl

theorem collA2av (o : EOp) : Statement (.collA2av o) := by
  intro r h hs
  cases h
  refine (build_engine o 0xF0 (by decide) (by decide) (by decide)).trans ?_
  have hs : ((o.fn.extractLsb' 4 3).toNat == 4) = true := hs
  show (match (o.fn.extractLsb' 4 3).toNat with
    | 0 => some (Instr.collAllreduce o)
    | 1 => some (Instr.collReducescatter o)
    | 2 => some (Instr.collAllgather o)
    | 3 => some (Instr.collBroadcast o)
    | _ => some (Instr.collA2av o)) = _
  simp only [beq_iff_eq] at hs
  rw [hs]
  rfl

theorem collq (o : EOp) : Statement (.collq o) := by
  intro r h _
  cases h
  refine (build_engine o 0xF1 (by decide) (by decide) (by decide)).trans ?_
  rfl

theorem stake (o : EOp) : Statement (.stake o) := by
  intro r h _
  cases h
  refine (build_engine o 0xF2 (by decide) (by decide) (by decide)).trans ?_
  rfl

theorem stakeq (o : EOp) : Statement (.stakeq o) := by
  intro r h _
  cases h
  refine (build_engine o 0xF3 (by decide) (by decide) (by decide)).trans ?_
  rfl

theorem cntrd (o : EOp) : Statement (.cntrd o) := by
  intro r h _
  cases h
  refine (build_engine o 0xF6 (by decide) (by decide) (by decide)).trans ?_
  rfl

theorem clkrd (o : EOp) : Statement (.clkrd o) := by
  intro r h hs
  cases h
  refine (build_engine o 0xF7 (by decide) (by decide) (by decide)).trans ?_
  have hs : (!o.fn.getLsbD 0) = true := hs
  show some (if o.fn.getLsbD 0 then Instr.clkrdTag o else Instr.clkrd o) = _
  simp_all

theorem clkrdTag (o : EOp) : Statement (.clkrdTag o) := by
  intro r h hs
  cases h
  refine (build_engine o 0xF7 (by decide) (by decide) (by decide)).trans ?_
  have hs : (o.fn.getLsbD 0) = true := hs
  show some (if o.fn.getLsbD 0 then Instr.clkrdTag o else Instr.clkrd o) = _
  simp_all

theorem hintq (o : EOp) : Statement (.hintq o) := by
  intro r h _
  cases h
  refine (build_engine o 0xF8 (by decide) (by decide) (by decide)).trans ?_
  rfl

theorem dbgmark (o : EOp) : Statement (.dbgmark o) := by
  intro r h _
  cases h
  refine (build_engine o 0xF9 (by decide) (by decide) (by decide)).trans ?_
  rfl

theorem undefinedEncoding (bits : BitVec 128) : Statement (.undefinedEncoding bits) := by
  intro r h
  cases h

theorem icacheFill : Statement .icacheFill := by
  intro r h
  cases h

theorem fairnessCountExpire : Statement .fairnessCountExpire := by
  intro r h
  cases h

theorem longLatencyWriteback : Statement .longLatencyWriteback := by
  intro r h
  cases h

theorem branchPenaltyEnd : Statement .branchPenaltyEnd := by
  intro r h
  cases h

theorem sleepExpire : Statement .sleepExpire := by
  intro r h
  cases h

theorem icinvComplete : Statement .icinvComplete := by
  intro r h
  cases h

theorem trapRecordWrite : Statement .trapRecordWrite := by
  intro r h
  cases h

theorem warpSlotRelease : Statement .warpSlotRelease := by
  intro r h
  cases h

theorem workgroupRetire : Statement .workgroupRetire := by
  intro r h
  cases h

theorem l1Eviction : Statement .l1Eviction := by
  intro r h
  cases h

theorem boundaryWriteDrain : Statement .boundaryWriteDrain := by
  intro r h
  cases h

theorem releaseComplete : Statement .releaseComplete := by
  intro r h
  cases h

theorem pageWalkComplete : Statement .pageWalkComplete := by
  intro r h
  cases h

theorem invalidationComplete : Statement .invalidationComplete := by
  intro r h
  cases h

theorem mmatComplete : Statement .mmatComplete := by
  intro r h
  cases h

theorem accumulatorMoveComplete : Statement .accumulatorMoveComplete := by
  intro r h
  cases h

theorem accstComplete : Statement .accstComplete := by
  intro r h
  cases h

theorem mvbComplete : Statement .mvbComplete := by
  intro r h
  cases h

theorem checkComplete : Statement .checkComplete := by
  intro r h
  cases h

theorem tidsetComplete : Statement .tidsetComplete := by
  intro r h
  cases h

theorem copyComplete : Statement .copyComplete := by
  intro r h
  cases h

theorem copyFault : Statement .copyFault := by
  intro r h
  cases h

theorem workgroupPlace : Statement .workgroupPlace := by
  intro r h
  cases h

theorem parkStart : Statement .parkStart := by
  intro r h
  cases h

theorem saveComplete : Statement .saveComplete := by
  intro r h
  cases h

theorem restoreComplete : Statement .restoreComplete := by
  intro r h
  cases h

theorem quantumExpire : Statement .quantumExpire := by
  intro r h
  cases h

theorem plumbRecognise : Statement .plumbRecognise := by
  intro r h
  cases h

theorem taskDispatch : Statement .taskDispatch := by
  intro r h
  cases h

theorem taskCommit : Statement .taskCommit := by
  intro r h
  cases h

theorem launchComplete : Statement .launchComplete := by
  intro r h
  cases h

theorem collAccept : Statement .collAccept := by
  intro r h
  cases h

theorem chunkCounterRaise : Statement .chunkCounterRaise := by
  intro r h
  cases h

theorem collComplete : Statement .collComplete := by
  intro r h
  cases h

theorem collFault : Statement .collFault := by
  intro r h
  cases h

theorem readRequest : Statement .readRequest := by
  intro r h
  cases h

theorem readResponse : Statement .readResponse := by
  intro r h
  cases h

theorem write : Statement .write := by
  intro r h
  cases h

theorem atomic : Statement .atomic := by
  intro r h
  cases h

theorem collectiveData : Statement .collectiveData := by
  intro r h
  cases h

theorem collectiveControl : Statement .collectiveControl := by
  intro r h
  cases h

theorem acknowledgement : Statement .acknowledgement := by
  intro r h
  cases h

theorem flitResend : Statement .flitResend := by
  intro r h
  cases h

theorem peerTimeout : Statement .peerTimeout := by
  intro r h
  cases h

theorem domainKeyLoad : Statement .domainKeyLoad := by
  intro r h
  cases h

theorem launch : Statement .launch := by
  intro r h
  cases h

theorem launchb : Statement .launchb := by
  intro r h
  cases h

theorem wait : Statement .wait := by
  intro r h
  cases h

theorem waitSatisfied : Statement .waitSatisfied := by
  intro r h
  cases h

theorem signal : Statement .signal := by
  intro r h
  cases h

theorem marker : Statement .marker := by
  intro r h
  cases h

theorem timestamp : Statement .timestamp := by
  intro r h
  cases h

theorem copyh : Statement .copyh := by
  intro r h
  cases h

theorem copyhComplete : Statement .copyhComplete := by
  intro r h
  cases h

theorem nopPacket : Statement .nopPacket := by
  intro r h
  cases h

theorem qwptrWrite : Statement .qwptrWrite := by
  intro r h
  cases h

theorem queueEnable : Statement .queueEnable := by
  intro r h
  cases h

theorem queueDisable : Statement .queueDisable := by
  intro r h
  cases h

theorem queueReset : Statement .queueReset := by
  intro r h
  cases h

theorem coreSetGrant : Statement .coreSetGrant := by
  intro r h
  cases h

theorem queueQuantumExpire : Statement .queueQuantumExpire := by
  intro r h
  cases h

theorem graceExpire : Statement .graceExpire := by
  intro r h
  cases h

theorem rampWindowExpire : Statement .rampWindowExpire := by
  intro r h
  cases h

theorem lockInterfaceRequest : Statement .lockInterfaceRequest := by
  intro r h
  cases h

theorem startInterfaceRequest : Statement .startInterfaceRequest := by
  intro r h
  cases h

theorem stopInterfaceRequest : Statement .stopInterfaceRequest := by
  intro r h
  cases h

theorem getDeviceInterfaceReport : Statement .getDeviceInterfaceReport := by
  intro r h
  cases h

theorem firmwareStage : Statement .firmwareStage := by
  intro r h
  cases h

theorem firmwareActivate : Statement .firmwareActivate := by
  intro r h
  cases h

theorem cancel : Statement .cancel := by
  intro r h
  cases h

theorem firmwareSwitch : Statement .firmwareSwitch := by
  intro r h
  cases h

theorem summary : Statement .summary := by
  intro r h
  cases h

theorem coldStart : Statement .coldStart := by
  intro r h
  cases h

theorem warmStart : Statement .warmStart := by
  intro r h
  cases h

theorem partReady : Statement .partReady := by
  intro r h
  cases h

theorem invalidate : Statement .invalidate := by
  intro r h
  cases h

theorem trbaseWrite : Statement .trbaseWrite := by
  intro r h
  cases h

theorem trtailWrite : Statement .trtailWrite := by
  intro r h
  cases h

theorem trflagClear : Statement .trflagClear := by
  intro r h
  cases h

theorem cntclr : Statement .cntclr := by
  intro r h
  cases h

theorem eccstatClear : Statement .eccstatClear := by
  intro r h
  cases h

theorem domlostClear : Statement .domlostClear := by
  intro r h
  cases h

theorem scrubError : Statement .scrubError := by
  intro r h
  cases h

theorem boostInterval : Statement .boostInterval := by
  intro r h
  cases h

theorem boostRefill : Statement .boostRefill := by
  intro r h
  cases h

theorem boostStepDown : Statement .boostStepDown := by
  intro r h
  cases h

theorem resume : Statement .resume := by
  intro r h
  cases h

theorem kill : Statement .kill := by
  intro r h
  cases h

theorem replay : Statement .replay := by
  intro r h
  cases h

theorem debugWindowWrite : Statement .debugWindowWrite := by
  intro r h
  cases h

theorem registerWrite : Statement .registerWrite := by
  intro r h
  cases h

theorem hostWrite : Statement .hostWrite := by
  intro r h
  cases h

theorem matchTimeout : Statement .matchTimeout := by
  intro r h
  cases h

end Sys2Proof.Laws.BuildRaw
end

