-- ==== Sys2Proof/Laws/Registers.lean ====
section
/-!
SUPPORT. Reads after writes of the scalar and vector registers (spec/04 R93, R100), and the start of an instruction (R70,
R98): what `issueAfter` answers in each case.
-/
namespace Sys2Proof.Machine

/-! ## Scalar registers -/

theorem Warp.sreg_putS (w : Warp) (n : Nat) (x : Word) (p : Bool) (m : Nat) :
    (w.putS n x p).sreg m = if m = n then x else w.sreg m := sget_sset _ _ _ _ _

theorem Warp.sP_putS (w : Warp) (n : Nat) (x : Word) (p : Bool) (m : Nat) (h : n < 128) :
    (w.putS n x p).sP.getLsbD m = if m = n then p else w.sP.getLsbD m := setBit_getLsbD _ _ _ _ h

/-- The parts of a warp that writing a scalar register or pair leaves alone. -/
theorem Warp.putSVal_frame (w : Warp) (n regs : Nat) (x : Val) :
    w.putSVal n regs x = { w with s := (w.putSVal n regs x).s, sP := (w.putSVal n regs x).sP, badRegs := (w.putSVal n regs x).badRegs } := by
  unfold Warp.putSVal
  by_cases h : regs = 2
  · simp only [if_pos h]; rfl
  · simp only [if_neg h]; rfl

theorem pair_lo_hi (d : DWord) : pair (lo32 d) (hi32 d) = d := by
  apply BitVec.eq_of_getLsbD_eq
  intro i hi
  show (hi32 d ++ lo32 d).getLsbD i = _
  rw [BitVec.getLsbD_append, hi32, lo32, BitVec.getLsbD_extractLsb', BitVec.getLsbD_extractLsb']
  by_cases h : i < 32
  · simp [h]
  · simp [h, show 32 + (i - 32) = i by omega, show i - 32 < 32 by omega]

/-- What a register, or a pair, holds after `x` was written. -/
def stored (regs : Nat) (x : Val) : Val := if regs = 2 then x else { x with bits := (lo32 x.bits).setWidth 64 }

theorem Warp.sval_putSVal (w : Warp) (n regs : Nat) (x : Val) (h : n + regs ≤ 128) (hr : regs = 1 ∨ regs = 2) :
    (w.putSVal n regs x).sval n regs = stored regs x := by
  rcases hr with rfl | rfl
  · simp only [Warp.putSVal, Warp.sval, stored, Nat.reduceEqDiff, if_false, Warp.sreg_putS, if_true,
      Warp.sP_putS _ _ _ _ _ (show n < 128 by omega)]
  · simp only [Warp.putSVal, Warp.sval, stored, if_true, Warp.sreg_putS, Nat.left_eq_add, Nat.reduceEqDiff, if_false,
      Warp.sP_putS _ _ _ _ _ (show n < 128 by omega), Warp.sP_putS _ _ _ _ _ (show n + 1 < 128 by omega),
      pair_lo_hi, Bool.or_self, Nat.add_eq_left]

theorem Warp.putSVal_other (w : Warp) (n regs : Nat) (x : Val) {m : Nat} (h : n + regs ≤ 128) (hr : regs = 1 ∨ regs = 2)
    (hm : m ≠ n) (hm2 : regs = 2 → m ≠ n + 1) :
    (w.putSVal n regs x).sreg m = w.sreg m ∧ (w.putSVal n regs x).sP.getLsbD m = w.sP.getLsbD m := by
  rcases hr with rfl | rfl
  · simp only [Warp.putSVal, Nat.reduceEqDiff, if_false, Warp.sreg_putS, hm,
      Warp.sP_putS _ _ _ _ _ (show n < 128 by omega), and_self]
  · simp only [Warp.putSVal, if_true, Warp.sreg_putS, hm, hm2 rfl, if_false,
      Warp.sP_putS _ _ _ _ _ (show n < 128 by omega), Warp.sP_putS _ _ _ _ _ (show n + 1 < 128 by omega), and_self]

/-! ## Vector registers -/

theorem Warp.vreg_putV (w : Warp) (n lane : Nat) (x : Word) (p : Bool) (m l : Nat) (hl : l < 128) (hn : lane < 128) :
    (w.putV n lane x p).vreg m l = if m = n ∧ l = lane then x else w.vreg m l := by
  show sget 0 (sset 0 w.v (128 * n + lane) x) (128 * m + l) = _
  rw [sget_sset]
  have : (128 * m + l = 128 * n + lane) = (m = n ∧ l = lane) := propext (by omega)
  simp only [this]
  rfl

theorem Warp.vPoison_putV (w : Warp) (n lane : Nat) (x : Word) (p : Bool) (m l : Nat) (hn : lane < 128) :
    (w.putV n lane x p).vPoison m l = if m = n ∧ l = lane then p else w.vPoison m l := by
  show (sget 0 (sset 0 w.vP n (setBit (sget 0 w.vP n) lane p)) m).getLsbD l = _
  rw [sget_sset]
  by_cases h : m = n
  · subst h
    simp only [if_true, setBit_getLsbD _ _ _ _ hn, true_and]
    rfl
  · simp [h, Warp.vPoison]

/-- A value of a register or pair of a lane as it is written. -/
theorem Warp.vval_putVVal (w : Warp) (n regs lane : Nat) (x : Val) (hl : lane < 128) (hr : regs = 1 ∨ regs = 2) :
    (w.putVVal n regs lane x).vval n regs lane = stored regs x := by
  rcases hr with rfl | rfl
  · simp [Warp.putVVal, Warp.vval, stored, Warp.vreg_putV _ _ _ _ _ _ _ hl hl, Warp.vPoison_putV _ _ _ _ _ _ _ hl]
  · simp [Warp.putVVal, Warp.vval, stored, Warp.vreg_putV _ _ _ _ _ _ _ hl hl, Warp.vPoison_putV _ _ _ _ _ _ _ hl,
      pair_lo_hi]

theorem Warp.putVVal_other (w : Warp) (n regs lane : Nat) (x : Val) (m l : Nat) (hl : l < 128) (hn : lane < 128)
    (h : l ≠ lane ∨ (m ≠ n ∧ (regs = 2 → m ≠ n + 1))) :
    (w.putVVal n regs lane x).vreg m l = w.vreg m l ∧ (w.putVVal n regs lane x).vPoison m l = w.vPoison m l := by
  unfold Warp.putVVal
  by_cases hr : regs = 2
  · simp only [hr, if_true, Warp.vreg_putV _ _ _ _ _ _ _ hl hn, Warp.vPoison_putV _ _ _ _ _ _ _ hn]
    rcases h with h | h
    · simp [h]
    · simp [h.1, h.2 hr]
  · simp only [hr, if_false, Warp.vreg_putV _ _ _ _ _ _ _ hl hn, Warp.vPoison_putV _ _ _ _ _ _ _ hn]
    rcases h with h | h
    · simp [h]
    · simp [h.1]

theorem Warp.putVVal_frame (w : Warp) (n regs lane : Nat) (x : Val) :
    ∃ v vP b, w.putVVal n regs lane x = { w with v := v, vP := vP, badRegs := b } := by
  unfold Warp.putVVal
  by_cases h : regs = 2
  · simp only [if_pos h]; exact ⟨_, _, _, rfl⟩
  · simp only [if_neg h]; exact ⟨_, _, _, rfl⟩

/-- Writing vector registers leaves the rest of the warp alone. -/
theorem writeLanes_frame (e : Env) (d : Src) (regs : Nat) (f : Nat → Val) (w : Warp) (ls : List Nat) :
    ∃ v vP b, writeLanes e d regs f w ls = { w with v := v, vP := vP, badRegs := b } := by
  induction ls generalizing w with
  | nil => exact ⟨w.v, w.vP, w.badRegs, rfl⟩
  | cons l ls ih =>
    obtain ⟨v, vP, b, h⟩ := Warp.putVVal_frame w (dstReg e.w d l) regs l (f l)
    obtain ⟨v', vP', b', h'⟩ := ih { w with v := v, vP := vP, badRegs := b }
    refine ⟨v', vP', b', ?_⟩
    show writeLanes e d regs f (w.putVVal (dstReg e.w d l) regs l (f l)) ls = _
    rw [h, h']

/-- A lane that is not written keeps its registers; in a written lane only the destination changes. -/
theorem writeLanes_other (e : Env) (d : Src) (regs : Nat) (f : Nat → Val) (w : Warp) (ls : List Nat) (m l : Nat)
    (hl : l < 128) (hls : ∀ k ∈ ls, k < 128)
    (h : l ∉ ls ∨ (m ≠ dstReg e.w d l ∧ (regs = 2 → m ≠ dstReg e.w d l + 1))) :
    (writeLanes e d regs f w ls).vreg m l = w.vreg m l ∧ (writeLanes e d regs f w ls).vPoison m l = w.vPoison m l := by
  induction ls generalizing w with
  | nil => exact ⟨rfl, rfl⟩
  | cons k ls ih =>
    have hk : k < 128 := hls k (List.mem_cons_self ..)
    have hrest : l ∉ ls ∨ (m ≠ dstReg e.w d l ∧ (regs = 2 → m ≠ dstReg e.w d l + 1)) :=
      h.imp (fun h' hm => h' (List.mem_cons_of_mem _ hm)) id
    have := ih (w.putVVal (dstReg e.w d k) regs k (f k)) (fun k hk => hls k (List.mem_cons_of_mem _ hk)) hrest
    have h1 : l ≠ k ∨ (m ≠ dstReg e.w d k ∧ (regs = 2 → m ≠ dstReg e.w d k + 1)) := by
      by_cases hlk : l = k
      · subst hlk
        rcases h with h | h
        · exact absurd (List.mem_cons_self ..) h
        · exact .inr h
      · exact .inl hlk
    have h2 := Warp.putVVal_other w (dstReg e.w d k) regs k (f k) m l hl hk h1
    show (writeLanes e d regs f (w.putVVal (dstReg e.w d k) regs k (f k)) ls).vreg m l = _ ∧
      (writeLanes e d regs f (w.putVVal (dstReg e.w d k) regs k (f k)) ls).vPoison m l = _
    rw [this.1, this.2]
    exact h2

/-- A written lane holds its value. -/
theorem writeLanes_same (e : Env) (d : Src) (regs : Nat) (f : Nat → Val) (w : Warp) (ls : List Nat) (l : Nat)
    (hr : regs = 1 ∨ regs = 2) (hls : ∀ k ∈ ls, k < 128) (h : l ∈ ls) :
    (writeLanes e d regs f w ls).vval (dstReg e.w d l) regs l = stored regs (f l) := by
  induction ls generalizing w with
  | nil => simp at h
  | cons k ls ih =>
    show (writeLanes e d regs f (w.putVVal (dstReg e.w d k) regs k (f k)) ls).vval _ regs l = _
    by_cases hm : l ∈ ls
    · exact ih _ (fun k hk => hls k (List.mem_cons_of_mem _ hk)) hm
    · have hlk : l = k := by simpa [hm] using h
      subst hlk
      have hl : l < 128 := hls l h
      have o (m : Nat) := writeLanes_other e d regs f (w.putVVal (dstReg e.w d l) regs l (f l)) ls m l hl
        (fun k hk => hls k (List.mem_cons_of_mem _ hk)) (.inl hm)
      rw [← Warp.vval_putVVal w (dstReg e.w d l) regs l (f l) hl hr]
      simp only [Warp.vval, (o _).1, (o _).2]

/-! ## The start of an instruction -/

theorem issueAfter_format {pre : Env → Gate} {r : Raw} {body : Env → State → State} {s : State} {c : TrapCode}
    (hw : (tget s.warps s.cur.warp).isSome = true) (h : formatCheck s.env.ctx r = some c) :
    issueAfter pre r body s = formatTrap c r.bits s := by
  unfold issueAfter
  obtain ⟨w, hw⟩ := Option.isSome_iff_exists.mp hw
  simp only [hw, h]

/-- An instruction that nothing keeps back has its effect. -/
theorem issueAfter_go {pre : Env → Gate} {r : Raw} {f : Form} {body : Env → State → State} {s : State}
    (hw : (tget s.warps s.cur.warp).isSome = true) (hc : formatCheck s.env.ctx r = none)
    (hf : formOf s.env.W r = some f) (h : (pre s.env).then (operandGate s.env.ctx f r s.me) = .go) :
    issueAfter pre r body s = body s.env s := by
  unfold issueAfter
  obtain ⟨w, hw⟩ := Option.isSome_iff_exists.mp hw
  have h' : (pre s.env).then (operandGate s.env.ctx f r s.env.w) = .go := h
  simp only [hw, hc, hf, h']

theorem issueAfter_trap {pre : Env → Gate} {r : Raw} {f : Form} {body : Env → State → State} {s : State} {t : TrapInfo}
    (hw : (tget s.warps s.cur.warp).isSome = true) (hc : formatCheck s.env.ctx r = none)
    (hf : formOf s.env.W r = some f) (h : (pre s.env).then (operandGate s.env.ctx f r s.me) = .trap t) :
    issueAfter pre r body s = takeTrap t (sramNote s.env t s) := by
  unfold issueAfter
  obtain ⟨w, hw⟩ := Option.isSome_iff_exists.mp hw
  have h' : (pre s.env).then (operandGate s.env.ctx f r s.env.w) = .trap t := h
  simp only [hw, hc, hf, h']

theorem issueAfter_wait {pre : Env → Gate} {r : Raw} {f : Form} {body : Env → State → State} {s : State}
    (hw : (tget s.warps s.cur.warp).isSome = true) (hc : formatCheck s.env.ctx r = none)
    (hf : formOf s.env.W r = some f) (h : (pre s.env).then (operandGate s.env.ctx f r s.me) = .wait) :
    issueAfter pre r body s = s := by
  unfold issueAfter
  obtain ⟨w, hw⟩ := Option.isSome_iff_exists.mp hw
  have h' : (pre s.env).then (operandGate s.env.ctx f r s.env.w) = .wait := h
  simp only [hw, hc, hf, h']

@[simp] theorem Gate.go_then (g : Gate) : Gate.go.then g = g := rfl

theorem issue_go {r : Raw} {f : Form} {body : Env → State → State} {s : State}
    (hw : (tget s.warps s.cur.warp).isSome = true) (hc : formatCheck s.env.ctx r = none)
    (hf : formOf s.env.W r = some f) (h : operandGate s.env.ctx f r s.me = .go) :
    issue r body s = body s.env s := issueAfter_go hw hc hf h

end Sys2Proof.Machine
end

