-- ==== Sys2Proof/Tests/Slice0.lean ====
section
/-!
SUPPORT. Small named tests. Expected results are taken from the worked examples and tables of spec/ or worked out by
hand from its rules; each comment names the source.
-/
namespace Sys2Proof.Tests
open Sys2Proof.Machine Sys2Proof.Stmt

/-! ## Ill-formed terms, one for each check -/

/-- An event has no word. -/
theorem test_wf_event : Instr.coldStart.malformed = some .noWord := by decide
/-- VADD has no type B16 (R63, R164). -/
theorem test_wf_type : (Instr.vadd .b16 {}).malformed = some (.format .illegalInstruction) := by decide
/-- A branch without an immediate (R126). -/
theorem test_wf_length : (Instr.bra {}).malformed = some (.format .illegalInstruction) := by decide
/-- A latch slot is no scalar source (R115). -/
theorem test_wf_kind :
    (Instr.sadd .i32 { dst := .s 1, a := .latch 0, b := .s 2 }).malformed = some (.format .illegalInstruction) := by decide
/-- A 64-bit operand in an odd register (R60). -/
theorem test_wf_pair :
    (Instr.smov .b64 { dst := .s 1, a := .s 2 }).malformed = some (.format .illegalInstruction) := by decide
/-- A copy descriptor not at a multiple of 16 (R264). -/
theorem test_wf_group : (Instr.cpin { a := .s 8, frame := some {} }).malformed = some (.format .illegalInstruction) := by decide
/-- A phase barrier operation without its barrier (R264). -/
theorem test_wf_absent : (Instr.pbarr { fn := 1 }).malformed = some (.format .illegalInstruction) := by decide
/-- An unused specifier that is not zero (R60). -/
theorem test_wf_unused :
    (Instr.vmov .b32 { dst := .v 1, a := .v 2, b := .v 3 }).malformed = some (.format .reservedField) := by decide
/-- FE set on a constant (R57). -/
theorem test_wf_fe :
    (Instr.vmov .b32 { dst := .v 1, a := .k 2, fe := 1 }).malformed = some (.format .reservedField) := by decide
/-- SCMPEQ.HD0: a result capture without a register through DST (R56). -/
theorem test_wf_hold :
    (Instr.scmpeq .b32 { a := .s 1, b := .s 2, hold := .d 0 }).malformed = some (.format .reservedField) := by decide
/-- SAT on a logic instruction (R62, R161). -/
theorem test_wf_modifier :
    (Instr.vand .b32 { dst := .v 1, a := .v 2, b := .v 3, ext := .mod { sat := true } }).malformed
      = some (.format .reservedField) := by decide
/-- An edge mode without a neighbour source (R161). -/
theorem test_wf_edge :
    (Instr.vadd .i32 { dst := .v 1, a := .v 2, b := .v 3, ext := .mod { edge := .wrap } }).malformed
      = some (.format .reservedField) := by decide
/-- A frame field that the instruction does not use (R66). -/
theorem test_wf_frame : (Instr.yield { frame := some { tid := 1 } }).malformed = some (.format .reservedField) := by decide
/-- A sign-extending load of four bytes (R207). -/
theorem test_wf_sub :
    (Instr.ld { dst := .v 1, a := .v 2, sub := 1 }).malformed = some (.format .illegalInstruction) := by decide
/-- VSHFL whose FORM is another constructor's (R177). -/
theorem test_wf_selector :
    (Instr.vshflUp .b32 { dst := .v 3, a := .v 2, b := .v 1 }).malformed = some .selector := by decide

/-! ## Words of the spec's worked encodings -/

/-- R67: VADD.I32 v4, v1, v2. -/
theorem test_decode_vadd :
    decodeBits 0x2000004008080104 = .instr (.vadd .i32 { dst := .v 4, a := .v 1, b := .v 2 }) := by decide
/-- R67: VADD.I32 v5, v4, 1000. -/
theorem test_decode_vadd_imm :
    decodeBits 0x000003E824000000200A0105 = .instr (.vadd .i32 { dst := .v 5, a := .v 4, ext := .imm 1000 }) := by decide
/-- R67: VFMA.F32.HD1 v6, v4!, v5.left, k4. -/
theorem test_decode_vfma :
    decodeBits 0x61CA20A0200C7518
      = .instr (.vfma .f32 { hold := .d 1, fe := 1, dst := .v 6, a := .v 4, b := .vl 5, c := .k 4 }) := by decide
/-- R125: XAND s6, s4. -/
theorem test_decode_xand : decodeBits 0x00000018260C006C = .instr (.xand { dst := .s 6, a := .s 4 }) := by decide
/-- R128: LOOP s3, top. -/
theorem test_decode_loop :
    decodeBits 0xFFFFFFAC0400000006060095 = .instr (.loop { dst := .s 3, ext := .imm 0xFFFFFFAC }) := by decide
/-- R135: NOP. -/
theorem test_decode_nop : decodeBits 0xA4 = .instr (.nop {}) := by decide
/-- R138: TRAP.T 42. -/
theorem test_decode_trap :
    decodeBits 0x000000000000002A02000000000003EA = .instr (.trapT { fn := 1, frame := some { aux := 42 } }) := by decide
/-- R177: VSHFL.XOR v3, v2, 1. -/
theorem test_decode_vshfl :
    decodeBits 0x000000010000000106000000100601C2
      = .instr (.vshflXor .b32 { dst := .v 3, a := .v 2, ext := .immMod 1 { aux := 1 } }) := by decide
/-- R212: LDS.B32 v3, [v2 + 0x40]. -/
theorem test_decode_lds :
    decodeBits 0x000000404000000010060291
      = .instr (.lds { dst := .v 3, a := .v 2, ext := .short .device 0x40 }) := by decide
/-- R246: MMAT a4, tile2, tile3. -/
theorem test_decode_mmat :
    decodeBits 0x0000000020C800000000000000000302
      = .instr (.mmat { frame := some { tileA := 2, tileB := 3, acc := 4 } }) := by decide
/-- R247: MMAR v16, v0, v4, v16, tid249. -/
theorem test_decode_mmar :
    decodeBits 0x000003E4000000000008008000200306
      = .instr (.mmar { dst := .v 16, a := .v 0, b := .v 4, c := .v 16, frame := some { tid := 249 } }) := by decide
/-- R274: CPIN tile1, tid5, s16, [0x4000]. -/
theorem test_decode_cpin :
    decodeBits 0x10200014100000000000001880000342
      = .instr (.cpin { a := .s 16, frame := some { pbv := true, pb := 0x800, tid := 5, tileA := 1 } }) := by decide
/-- R301: WAITC.N32.acq.device [s4], s6. -/
theorem test_decode_waitc :
    decodeBits 0x020060D820000378 = .instr (.waitc { fn := 1, a := .s 4, b := .s 6 }) := by decide
/-- R333: TSPAWN s4, visit, s8, 2. -/
theorem test_decode_tspawn :
    decodeBits 0x00000000000000604000611820000382
      = .instr (.tspawn { fn := 0x20, a := .s 4, b := .s 8, frame := some { aux := 0x60 } }) := by decide
/-- R337: TSYNC s6. -/
theorem test_decode_tsync : decodeBits 0x000000183000039C = .instr (.tsync { a := .s 6 }) := by decide
/-- R350: SVGRP.F3.DEV group2, s4, s5. -/
theorem test_decode_svgrp :
    decodeBits 0x0000000000000002880060B8200003B2
      = .instr (.svgrp { fn := 0x44, a := .s 4, b := .s 5, frame := some { aux := 2 } }) := by decide
/-- R353: SVLD.F32.ADD v4, [s8]. -/
theorem test_decode_svld : decodeBits 0x00000018400803B4 = .instr (.svld { dst := .v 4, a := .s 8 }) := by decide
/-- R400: STAKE s10, 4. -/
theorem test_decode_stake :
    decodeBits 0x000000000000000400000000061403CA = .instr (.stake { dst := .s 10, frame := some { aux := 4 } }) := by decide
/-- R420: CNTRD s20, 0x01. -/
theorem test_decode_cntrd :
    decodeBits 0x000000000000000100000000062803DA = .instr (.cntrd { dst := .s 20, frame := some { aux := 1 } }) := by decide
/-- R69: an undefined major opcode is rejected. -/
theorem test_decode_undefined : decodeBits 0xB0 = .reject (.trap .illegalInstruction) := by decide
/-- R52: the fill word, and a fill word with another bit set. -/
theorem test_decode_fill : decodeBits 3 = .reject .fill ∧ decodeBits 7 = .reject (.trap .reservedField) := by decide
/-- R67: the bytes of VADD.I32 v4, v1, v2 from the lowest address. -/
theorem test_encode_bytes :
    encodeBytes (.vadd .i32 { dst := .v 4, a := .v 1, b := .v 2 }) = [0x04, 0x01, 0x08, 0x08, 0x40, 0x00, 0x00, 0x20] := by
  decide

/-! ## Small machines, and the hypotheses of the statements as computations -/

/-- A warp with all 32 lanes active, in slot 0 of core 0. -/
def warp0 : Warp := { place := some (0, 0), pc := 0x10000, exec := 0xFFFFFFFF }

/-- Its workgroup. -/
def group0 : Group := { lid := 0, f := [0, 0, 0, 0], warps := [0], first := false }

/-- Its launch, with 16 KiB of scratchpad and 4 accumulator tiles in use. -/
def launch0 : Launch := placedLaunch

/-- The machine after reset with everything ready and instruction `i` of that warp about to take effect. -/
def machine (i : Instr) (w : Warp := warp0) (g : Group := group0) (l : Launch := launch0) : State :=
  { State.reset with
    cur := { warp := 0, len := encodeLen i, bits := encodeBits i, adv := encodeLen i },
    warps := [(0, w)], groups := [(0, g)], launches := [(0, l)], slots := [(0, 0)], ready := BitVec.allOnes 57,
    nextWarp := 1, nextGroup := 1, nextLaunch := 1 }

/-- `Formed` as a computation. -/
def formed (i : Instr) (s : State) : Bool :=
  (tget s.warps s.cur.warp).isSome && decide (s.me.stopping = none) && decide (s.env.W = 32 ∨ s.env.W = 64 ∨ s.env.W = 128) &&
  match i.raw? with
  | some r => decide (formatCheck s.env.ctx r = none) && (formOf s.env.W r).isSome
  | none => false

/-- `Issues` as a computation. -/
def issues (i : Instr) (s : State) : Bool :=
  (tget s.warps s.cur.warp).isSome && decide (s.me.stopping = none) && decide (s.env.W = 32 ∨ s.env.W = 64 ∨ s.env.W = 128) &&
  match i.raw? with
  | some r =>
    decide (formatCheck s.env.ctx r = none) &&
    match formOf s.env.W r with
    | some f => decide (operandGate s.env.ctx f r s.me = .go)
    | none => false
  | none => false

theorem issues_iff (i : Instr) (s : State) : Issues i s ↔ issues i s = true := by
  unfold issues
  constructor
  · rintro ⟨h1, h2, h3, r, f, hr, hc, hf, hg⟩
    simp [h1, h2, h3, hr, hc, hf, hg]
  · intro h
    simp only [Bool.and_eq_true, decide_eq_true_eq] at h
    obtain ⟨⟨⟨h1, h2⟩, h3⟩, h⟩ := h
    cases hr : i.raw? with
    | none => rw [hr] at h; cases h
    | some r =>
      rw [hr] at h
      simp only [Bool.and_eq_true, decide_eq_true_eq] at h
      cases hf : formOf s.env.W r with
      | none => rw [hf] at h; cases h.2
      | some f =>
        rw [hf] at h
        exact ⟨h1, h2, h3, r, f, hr, h.1, hf, by simpa using h.2⟩

theorem formed_iff (i : Instr) (s : State) : Formed i s ↔ formed i s = true := by
  unfold formed
  constructor
  · rintro ⟨h1, h2, h3, r, f, hr, hc, hf⟩
    simp [h1, h2, h3, hr, hc, hf]
  · intro h
    simp only [Bool.and_eq_true, decide_eq_true_eq] at h
    obtain ⟨⟨⟨h1, h2⟩, h3⟩, h⟩ := h
    cases hr : i.raw? with
    | none => rw [hr] at h; cases h
    | some r =>
      rw [hr] at h
      simp only [Bool.and_eq_true, decide_eq_true_eq] at h
      obtain ⟨f, hf⟩ := Option.isSome_iff_exists.mp h.2
      exact ⟨h1, h2, h3, r, f, hr, h.1, hf⟩

/-- The next state has property `p`. -/
def next (o : Host.Outcome State Fault Refusal) (p : State → Bool) : Bool :=
  match o with
  | .next u => p u
  | _ => false

theorem tget_all {α : Type} {p : Nat → α → Bool} {m : Tab α} (h : (m.all fun e => p e.1 e.2) = true) {k : Nat} {x : α}
    (hk : tget m k = some x) : p k x = true := by
  induction m with
  | nil => cases hk
  | cons e m ih =>
    rw [List.all_cons, Bool.and_eq_true] at h
    unfold tget at hk
    split at hk
    · cases hk; simp_all
    · exact ih h.2 hk

/-- `CachesWf` as a computation. -/
def caches (s : State) : Bool :=
  (s.cores.all fun e => risingFrom 0 e.2.l1) && (s.hostq.all fun e => isHost (32 * e.sector)) &&
  s.dies.all fun e => e.2.wbuf.all fun x =>
    x.host == isHost (32 * x.sector) && (isHost (32 * x.sector) || decide (homeDie (32 * x.sector) ≠ e.1))

theorem cachesWf_of (s : State) (h : caches s = true) : CachesWf s := by
  obtain ⟨h1, h2⟩ := Bool.and_eq_true_iff.mp h
  obtain ⟨h1, h3⟩ := Bool.and_eq_true_iff.mp h1
  refine ⟨?_, fun e he => List.all_eq_true.mp h3 e he, ?_⟩
  · intro c
    unfold State.core
    cases hc : tget s.cores c with
    | none => rfl
    | some k => exact tget_all (p := fun _ k => risingFrom 0 k.l1) h1 hc
  · intro d e he
    unfold State.die at he
    cases hd : tget s.dies d with
    | none => rw [hd] at he; exact absurd he (by simp)
    | some k =>
      rw [hd] at he
      have := tget_all (p := fun n (k : Die) => k.wbuf.all fun x => x.host == isHost (32 * x.sector) &&
        (isHost (32 * x.sector) || decide (homeDie (32 * x.sector) ≠ n))) h2 hd
      simpa using List.all_eq_true.mp this e he

/-- `Room` as a computation. -/
def roomFor (s : State) (c : Nat) (locs : List Nat) : Bool :=
  decide (((s.core c).l1.map (fun (e : Nat × Sector) => e.1 / 4) ++ locs.map fun a => a / 128).eraseDups.length ≤ 1024)

/-- `Tries` as a computation. -/
def tries (i : Instr) (f : AddrForm) (acc : Nat) (fl : Bool) (ops : List Src) (o : MOp) (loc : Nat → List Nat) (s : State) : Bool :=
  let rs := requests s f fl o
  (tget s.warps s.cur.warp).isSome && decide (s.me.stopping = none ∧ s.me.cont ≠ .stored) && (decide (s.me.redo ≠ []) || issues i s) &&
  caches s && decide (rs.map LaneReq.lane).Nodup &&
  (decide (s.me.redo ≠ []) || decide (∀ l ∈ s.env.active, poisonedSpec s.env f o fl ops l = none)) &&
  decide (boundsGate s.env.l f acc o.size.bytes rs = .go) &&
  decide (∀ r ∈ rs, isVirt f r = true → (s.core s.me.core).copyClash s.cur.warp (vaOf r.addr) o.size.bytes = false) &&
  decide (∀ r ∈ rs, cells o.size.bytes (goesTo s f acc o r) = some (loc r.lane) ∨
    ((goesTo s f acc o r).isPeer = true ∧ loc r.lane = [])) &&
  decide (s.copyMeets s.env (rs.flatMap fun r =>
    Access.spans o.size.bytes { req := r, route := goesTo s f acc o r, virt := isVirt f r }) = false) &&
  roomFor s s.me.core (reqBytes rs loc) &&
  (decide (acc = 1) || decide ((s.core s.me.core).badTags = [] ∧ (∀ d ∈ s.dies, d.2.badTags = []) ∧ s.myGroup.badWords = [] ∧
    ∀ r ∈ rs, ∀ a ∈ loc r.lane, s.bad.contains (a / 8) = false))

theorem tries_of {i : Instr} {f : AddrForm} {acc : Nat} {fl : Bool} {ops : List Src} {o : MOp} {loc : Nat → List Nat} {s : State}
    (h : tries i f acc fl ops o loc s = true) : Tries i f acc fl ops o loc s := by
  unfold tries at h
  simp only [roomFor, Bool.and_eq_true, decide_eq_true_eq, Bool.or_eq_true] at h
  obtain ⟨⟨⟨⟨⟨⟨⟨⟨⟨⟨⟨h1, h2⟩, h3⟩, h4⟩, h5⟩, h6⟩, h7⟩, h8⟩, h9⟩, h10⟩, h11⟩, h12⟩ := h
  exact ⟨h1, h2.1, fun hr => (issues_iff i s).mpr (h3.resolve_left (not_not_intro hr)), h2.2, cachesWf_of s h4, h5,
    fun hr => h6.resolve_left (not_not_intro hr), h7, h8, h9, h10, h11, fun ha => h12.resolve_left ha⟩

/-- `unread` as a computation. -/
def calm (s : State) (t : Task) (ls : List Nat) : Bool :=
  decide (∀ x ∈ s.tasksOf s.myGroup.lid, t.before x.2 = true → ∀ a ∈ ls, sectorOf a ∉ x.2.rset)

/-- `Reach` as a computation. -/
def reaches (i : Instr) (f : AddrForm) (acc : Nat) (fl : Bool) (ops : List Src) (o : MOp) (loc : Nat → List Nat) (s : State) : Bool :=
  tries i f acc fl ops o loc s &&
  decide (∀ r ∈ requests s f fl o, (goesTo s f acc o r).isPeer = true →
    s.me.cont = .answered ∧ ∃ x ∈ s.me.answers, answerTo s r = some x ∧ x.refused = none) &&
  match s.myTask with
  | none => true
  | some t => decide (t.2.st = .direct ∧ tget s.tasks t.1 = some (s.myGroup.lid, t.2)) &&
      (decide (acc = 0) || calm s t.2 (reqBytes ((requests s f fl o).filter (isVirt f)) loc))

theorem reach_of {i : Instr} {f : AddrForm} {acc : Nat} {fl : Bool} {ops : List Src} {o : MOp} {loc : Nat → List Nat} {s : State}
    (h : reaches i f acc fl ops o loc s = true) : Reach i f acc fl ops o loc s := by
  unfold reaches at h
  simp only [Bool.and_eq_true, decide_eq_true_eq] at h
  obtain ⟨⟨h1, h2⟩, h3⟩ := h
  refine ⟨tries_of h1, h2, fun t ht => ?_⟩
  rw [ht] at h3
  simp only [Bool.and_eq_true, decide_eq_true_eq, Bool.or_eq_true, calm] at h3
  exact ⟨h3.1.1, h3.1.2, fun ha => h3.2.resolve_left ha⟩

/-- `Asking` as a computation. -/
def asks (i : Instr) (f : AddrForm) (acc : Nat) (fl : Bool) (ops : List Src) (o : MOp) (loc : Nat → List Nat) (s : State) : Bool :=
  tries i f acc fl ops o loc s && decide (s.me.cont ≠ .answered) &&
  decide (∀ r ∈ requests s f fl o, answerTo s r = none ∨ ∃ x ∈ s.me.answers, answerTo s r = some x ∧ x.refused = none) &&
  (match s.myTask with
   | none => true
   | some t => decide (t.2.st = .direct)) &&
  (requests s f fl o).any fun r => match goesTo s f acc o r with
    | .peer rank _ => !(s.vi s.env.l.vi).lost.contains rank
    | _ => false

theorem asking_of {i : Instr} {f : AddrForm} {acc : Nat} {fl : Bool} {ops : List Src} {o : MOp} {loc : Nat → List Nat} {s : State}
    (h : asks i f acc fl ops o loc s = true) : Asking i f acc fl ops o loc s := by
  unfold asks at h
  simp only [Bool.and_eq_true, decide_eq_true_eq] at h
  obtain ⟨⟨⟨⟨h1, h2⟩, h3⟩, h4⟩, h5⟩ := h
  refine ⟨tries_of h1, h2, h3, fun t ht => by rw [ht] at h4; simpa using h4, ?_⟩
  obtain ⟨r, hr, hp⟩ := List.any_eq_true.mp h5
  refine ⟨r, hr, ?_⟩
  cases hg : goesTo s f acc o r <;> rw [hg] at hp <;> simp_all

/-- `Buffers` as a computation. -/
def buffers (i : Instr) (f : AddrForm) (acc : Nat) (fl : Bool) (ops : List Src) (o : MOp) (loc : Nat → List Nat) (tid : Nat) (t : Task)
    (s : State) : Bool :=
  let rs := requests s f fl o
  let ls := reqBytes (rs.filter (isVirt f)) loc
  let secs := (ls.map sectorOf).eraseDups
  tries i f acc fl ops o loc s &&
  decide (s.myTask = some (tid, t) ∧ tget s.tasks tid = some (s.myGroup.lid, t) ∧ t.st ≠ .direct) &&
  decide (∀ r ∈ rs, (goesTo s f acc o r).isPeer = false ∧ ∀ a ∈ loc r.lane, a < scratchAt → isHost a = false) &&
  decide (∀ r ∈ rs, ∀ q ∈ rs, isVirt f r = true → isVirt f q = false → ∀ a ∈ loc r.lane, a ∉ loc q.lane) &&
  (decide (acc = 1) || decide (∀ x ∈ s.tasksOf s.myGroup.lid, x.2.before t = true → x.2.st ≠ .finished → ∀ a ∈ ls, sectorOf a ∉ x.2.wset)) &&
  s.taskRoom t (if acc = 1 then [] else secs) (if acc = 0 then [] else secs) && (decide (acc = 0) || calm s t ls)

theorem buffers_of {i : Instr} {f : AddrForm} {acc : Nat} {fl : Bool} {ops : List Src} {o : MOp} {loc : Nat → List Nat} {tid : Nat} {t : Task}
    {s : State} (h : buffers i f acc fl ops o loc tid t s = true) : Buffers i f acc fl ops o loc tid t s := by
  unfold buffers at h
  simp only [Bool.and_eq_true, decide_eq_true_eq, Bool.or_eq_true, calm] at h
  obtain ⟨⟨⟨⟨⟨⟨h1, h2⟩, h3⟩, h4⟩, h5⟩, h6⟩, h7⟩ := h
  exact ⟨tries_of h1, h2, h3, h4, fun ha => h5.resolve_left ha, h6, fun ha => h7.resolve_left ha⟩

/-! ## Witnesses: scalar instructions (O1 to O8) -/

/-- Scalar operands: s2 = 5, s3 = 0xFFFFFFFF, the pair s4 = 2^64 − 1, s8 poisoned, g1 = 7. -/
def warpS : Warp := { warp0 with
  s := [(2, 5), (3, 0xFFFFFFFF), (4, 0xFFFFFFFF), (5, 0xFFFFFFFF), (6, 0x80000000), (8, 1), (12, 0x20000), (14, 0x10002)], sP := 0x100 }
def o32 : COp := { dst := .s 1, a := .s 2, b := .s 3 }
def o64 : COp := { dst := .s 10, a := .s 4, b := .s 6 }
def o1 : COp := { dst := .s 1, a := .s 2 }
def o3 : COp := { dst := .s 1, a := .s 2, b := .s 3, c := .k 2 }

theorem witness_ScalarArithmetic :
    ∀ i ∈ [Instr.smov .b32 o1, .smov .b64 { dst := .s 10, a := .s 4 }, .sadd .i32 o32, .sadd .n64 o64, .sadd .n32 { o32 with dst := .g 15 },
      .sadd .i32 { o32 with ext := .mod { sat := true } }, .ssub .n32 o32, .ssub .i32 { o32 with hold := .d 2 }, .smul .i32 o32,
      .smulh .n64 o64, .smulh .i32 o32, .smin .i32 o32, .smax .n64 o64, .sadd .i32 { dst := .s 1, a := .s 8, ext := .imm 7 }],
      Issues i (machine i warpS) := by
  simp only [issues_iff]; decide

theorem witness_ScalarLogic :
    ∀ i ∈ [Instr.sand .b32 o32, .sor .b64 o64, .sxor .b32 o32, .snot .b32 o1, .sshl .b32 o32, .sshl .b64 { dst := .s 10, a := .s 4, b := .s 2 },
      .sshr .b32 o32, .ssra .b32 o32, .ssra .b64 { dst := .s 10, a := .s 4, b := .s 3 }, .ssel .b32 o32, .spopc .b64 { dst := .s 1, a := .s 4 },
      .sclz .b32 o1, .sclz .b64 { dst := .s 1, a := .s 20 }, .sbfe .i32 o3, .sbfe .n32 { o3 with b := .k 0, c := .k 0 },
      .sbfi .b32 o3, .sbfi .b64 { dst := .s 10, a := .s 4, b := .s 2, c := .s 3 }], Issues i (machine i warpS) := by
  simp only [issues_iff]; decide

theorem witness_ScalarCompares :
    ∀ i ∈ [Instr.scmpeq .b32 { a := .s 2, b := .s 3 }, .scmpne .i64 { a := .s 4, b := .s 6 }, .scmplt .i32 { a := .s 2, b := .s 3 },
      .scmple .n64 { a := .s 4, b := .s 4 }, .scmple .n32 { a := .s 8, b := .s 2 }], Issues i (machine i warpS) := by
  simp only [issues_iff]; decide

/-- A modifier word with special register `n`. -/
def special' (n : Nat) : Ext := .mod { aux := BitVec.ofNat 21 n }

theorem witness_SpecialRead :
    (∀ n ∈ [1, 2, 3, 4, 5, 6], Issues (.sgetr { dst := .v 2, ext := special' n }) (machine (.sgetr { dst := .v 2, ext := special' n }))) ∧
    (∀ o ∈ [({ dst := .v 2 } : COp), { dst := .v 2, ext := special' 0 }], Issues (.sgetr o) (machine (.sgetr o))) ∧
    ∀ n ∈ [8, 9, 10, 11, 12, 13, 0x10, 0x11, 0x12, 0x13, 0x14, 0x15, 0x18, 0x19, 0x1A, 0x1B],
      Issues (.sgetr { dst := .s 4, ext := special' n }) (machine (.sgetr { dst := .s 4, ext := special' n })) := by
  simp only [issues_iff]; decide

theorem witness_SpecialWrite :
    ∀ o ∈ [({ a := .s 8, ext := special' 0x13 } : COp), { ext := .immMod 0xFFFFFFFF { aux := 0x13 } }], Issues (.ssetr o) (machine (.ssetr o) warpS) := by
  simp only [issues_iff]; decide

/-- The clauses of the mask instructions: a clean group, a poisoned one as OPA, a poisoned one as OPB only. -/
theorem witness_MaskInstructions :
    (∀ i ∈ [Instr.setx { a := .s 2 }, .setx { a := .s 8 }, .setx { a := .k 1 }, .setx { ext := .imm 0 }, .getx { dst := .s 2 }, .xand { dst := .s 2, a := .s 3 },
      .xandn { dst := .s 2, a := .s 8 }, .xrestore { a := .s 3 }, .xrestoreMasked { a := .s 2, b := .s 3 }, .xrestoreMasked { a := .s 2, b := .s 8 }],
      Issues i (machine i warpS)) ∧
    (machine (.setx {}) warpS).me.sP.getLsbD 8 = true ∧ (machine (.setx {}) warpS).me.sP.getLsbD 2 = false := by
  simp only [issues_iff]; decide

/-- A branch forward by `d`. -/
def to' (d : Word) : COp := { ext := .imm d }

/-- Taken to an aligned and to a misaligned target, not taken, and with SCC or the counter poisoned. -/
theorem witness_Branches :
    (∀ i ∈ [Instr.bra (to' 0x40), .bra (to' 2), .brcT (to' 0x40), .brcF (to' 0x40), .brxz (to' 0x40), .brxnz (to' 0xFFFFFFFC),
      .loop { to' 0x40 with dst := .s 2 }, .loop { to' 2 with dst := .s 2 }, .loop { to' 0x40 with dst := .s 8 }, .loop { to' 2 with dst := .g 1 }],
      Issues i (machine i warpS)) ∧
    (∀ i ∈ [Instr.brcT (to' 0x40), .brcF (to' 0x40)], Issues i (machine i { warpS with scc := true }) ∧
      Issues i (machine i { warpS with sccP := true })) ∧
    (∀ i ∈ [Instr.brxz (to' 0x40), .brxnz (to' 2)], Issues i (machine i { warpS with exec := 0 })) ∧
    Aligned (machine (.bra {})) 0x10040 ∧ ¬Aligned (machine (.bra {})) 0x10002 ∧
    (machine (.loop {}) warpS { group0 with g := [(1, 1)] }).me.sreg 2 - 1 ≠ 0 := by
  simp only [issues_iff, Aligned]; decide

/-- Clean and aligned, poisoned, and misaligned. -/
theorem witness_CallReturnJump :
    (∀ i ∈ [Instr.call { to' 0x40 with dst := .s 10 }, .call { to' 6 with dst := .s 10 }, .ret { a := .s 12 }, .ret { a := .s 8 }, .ret { a := .s 14 },
      .jmpi { a := .s 12 }, .jmpi { a := .s 8 }, .jmpi { a := .s 14 }, .jmpiIndex { a := .s 12, b := .s 20 }, .jmpiIndex { a := .s 12, b := .s 8 },
      .jmpiIndex { a := .s 12, b := .g 1 }, .jmpiImm { a := .s 12, ext := .imm 0xFFFFFFFC }, .jmpiImm { a := .s 12, ext := .imm 3 }],
      Issues i (machine i warpS)) ∧
    Aligned (machine (.ret {}) warpS) 0x20000 ∧ ¬Aligned (machine (.ret {}) warpS) 0x10002 := by
  simp only [issues_iff, Aligned]; decide

/-! ## Witnesses: vector instructions (O9 to O16) -/

/-- Vector operands: lane l of v2 is l, of v3 is 0xFFFFFFFF in lane 0 and 1 in lane 31; v9 is poisoned in lane 3. -/
def warpV : Warp := { warp0 with
  v := [(256, 7), (257, 1), (258, 2), (259, 3), (384, 0xFFFFFFFF), (415, 1), (512, 0x3F800000), (640, 0x7FC00000), (641, 0x7F800001)],
  vP := [(9, 8)], s := [(2, 5), (3, 0xFFFF0000), (8, 1)], sP := 0x100 }
def v3 : COp := { dst := .v 20, a := .v 2, b := .v 3, c := .v 4 }
def v2 : COp := { dst := .v 20, a := .v 2, b := .v 3 }
def v1 : COp := { dst := .v 20, a := .v 2 }
/-- The same with a destination and sources of two registers. -/
def vv (x : COp) : COp := { x with a := .v 2, b := if x.b = .v 0 then .v 0 else .v 4, c := if x.c = .v 0 then .v 0 else .v 6 }

theorem witness_VectorInteger :
    (∀ i ∈ [Instr.vmov .b32 v1, .vmov .b64 (vv v1), .vadd .i32 v2, .vadd .n64 (vv v2), .vadd .i16 { v2 with ext := .mod { sat := true } }, .vsub .n32 v2,
      .vmul .i16 v2, .vmulh .i32 v2, .vmulw .n32 v2, .vfma .i32 v3, .vfma .n32 v3, .vmin .i32 v2, .vmax .n32 v2, .vclamp .i32 v3,
      .vabs .i32 v1, .vneg .i32 v1, .vaddc .n32 v3, .vsubb .n32 v3, .vdot2 .i16 v3, .vdot4 .n8 v3, .vdot4 .i8 { v3 with ext := .mod { sat := true } },
      .vadd .i32 { v2 with a := .vl 2, b := .vr 3, ext := .mod { edge := .wrap } }, .vadd .i32 { v2 with a := .v 9, b := .k 1 }],
      Issues i (machine i warpV)) ∧ (∀ t ∈ [Ty.b32, .b64, .i32, .n64, .i8, .n16], Ty.fmt? t = none) := by
  simp only [issues_iff]; decide

theorem witness_VectorFloat :
    (∀ i ∈ [Instr.vadd .f32 v2, .vadd .f64 (vv v2), .vsub .f16 v2, .vmul .bf16 v2, .vfma .f32 v3, .vmin .f32 v2, .vmax .f16 v2, .vclamp .f32 v3,
      .vabs .f32 v1, .vneg .f64 (vv v1), .vcsgn .f32 { v2 with b := .v 4 }, .vdot2 .f16 v3, .vdot2 .bf16 v3, .vdot4 .e4m3 v3,
      .vadd .f32 { v2 with ext := .mod { rnd := .rz, ftz := true } }], Issues i (machine i warpV)) ∧
    (∀ t ∈ [Ty.f32, .f64, .f16, .bf16], Ty.fmt? t ≠ none) ∧
    ∀ l ∈ (machine (.vcsgn .f32 {}) warpV).env.active, (fmtF32.unpack ((warpV.vreg 4 l).toNat % 2 ^ fmtF32.bits)).isNan = false := by
  simp only [issues_iff]; decide

theorem witness_VectorBits :
    ∀ i ∈ [Instr.vand .b32 v2, .vor .b64 (vv v2), .vxor .b32 v2, .vnot .b32 v1, .vshl .b32 v2, .vshr .b64 { vv v2 with b := .v 3 }, .vsra .b32 v2,
      .vpopc .b32 v1, .vpopc .b64 (vv v1), .vclz .b32 v1, .vclz .b64 (vv v1), .vbrev .b32 v1, .vbfe .i32 v3, .vbfe .n32 { v3 with c := .k 0 },
      .vbfi .b32 v3, .vpermb .b32 v3], Issues i (machine i warpV) := by
  simp only [issues_iff]; decide

theorem witness_VectorCompares :
    ∀ i ∈ [Instr.vcmpeq .b32 { v2 with dst := .s 4 }, .vcmpne .i64 { vv v2 with dst := .s 4 }, .vcmplt .i32 { v2 with dst := .s 4 },
      .vcmple .n32 { v2 with dst := .s 4, a := .v 9 }, .vcmpeq .f32 { v2 with dst := .s 4, b := .v 5 }, .vcmpne .f64 { vv v2 with dst := .s 4 },
      .vcmplt .f32 { v2 with dst := .s 4, b := .v 5 }, .vcmple .f16 { v2 with dst := .s 4 }, .vcmpu .bf16 { v2 with dst := .s 4, b := .v 5 }],
      Issues i (machine i warpV) := by
  simp only [issues_iff]; decide

/-- A conversion from type `u`. -/
def from' (u : Ty) : COp := { v1 with ext := .mod { ty2 := u } }

theorem witness_SelectAndConvert :
    ∀ i ∈ [Instr.vsel .b32 { v2 with c := .s 3 }, .vsel .b64 { vv v2 with c := .s 8 }, .vcvt .i32 (from' .i8), .vcvt .n8 { v1 with ext := .mod { ty2 := .i32, sat := true } },
      .vcvt .f32 (from' .i32), .vcvt .i32 (from' .f32), .vcvt .f16 (from' .f32), .vcvt .f64 (from' .bf16), .vfract .f32 v1,
      .vldexp .f32 v2, .vrint .f32 v1, .vsqrt .f32 v1, .vrcp .f32 v1, .vrsq .f32 v1, .vexp2 .f32 v1, .vlog2 .f32 v1, .vsin .f32 v1, .vcos .f32 v1],
      Issues i (machine i warpV) := by
  simp only [issues_iff]; decide

/-- All lanes active, no lane active, and a group active in part. -/
theorem witness_BlocksOfLanes :
    (∀ i ∈ [Instr.vsepack .se4 (from' .f32), .vseunpk .f32 (from' .se4), .vseunpk .f16 { from' .se7f with a := .v 9 }], Issues i (machine i warpV)) ∧
    (∀ i ∈ [Instr.vsepack .se4 (from' .f32), .vseunpk .f32 (from' .se4)], Issues i (machine i { warpV with exec := 0x1FFFF })) := by
  simp only [issues_iff]; decide


def sh (x : Nat) : COp := { v2 with ext := .mod { aux := BitVec.ofNat 21 x } }

theorem witness_LaneExchange :
    (∀ i ∈ [Instr.vshflIdx .b32 v2, .vshflXor .b64 { v2 with a := .v 2, b := .v 5 }, .vvoteAny { a := .v 9 }, .vvoteAll { v1 with dst := .s 4 }, .vvoteBallot { v1 with dst := .s 4 },
      .vlaneId { dst := .v 20 }, .vlanePfx { dst := .v 20 }, .vbcast .b32 { v1 with b := .s 2 }, .vbcast .b32 { v1 with b := .s 8 },
      .vbcast .b64 { dst := .s 10, a := .v 2, b := .k 1 }], Issues i (machine i warpV)) := by
  simp only [issues_iff]; decide

theorem witness_IndexRegisters :
    (∀ i ∈ [Instr.vxset { a := .v 2, b := .v 6, c := .v 2 }, .vxset { a := .v 3, b := .v 6, c := .v 2 }, .vxset { a := .v 2, b := .v 9, c := .v 2 },
      .vxadd { a := .v 3 }, .vxadd { a := .v 9 }, .vptest { dst := .s 4, a := .v 9 }], Issues i (machine i warpV)) := by
  simp only [issues_iff]; decide

/-! ## Witnesses: stopping, traps, memory (O17 to O24) -/

/-- A launch of the task kind, a PERSISTENT one. -/
def taskLaunch : Launch := { launch0 with kind := .task }
def persistent : Launch := { launch0 with kind := .persistent, stakes := 10, nextStake := 8 }

/-- A machine whose warp runs a task in direct mode (or as `t` says). -/
def tasked (i : Instr) (t : Task := { st := .direct, seq := 1, warp := 0 }) (w : Warp := warp0) : State :=
  { machine i w group0 taskLaunch with tasks := [(0, (0, t))], nextTask := 1 }

/-- NOP in its forms, SLEEP of nothing and of more than 2^24, ICINV before and after it was released, EXIT of a warp with a task and
without, HALT beside a warp in each state. -/
theorem witness_PausingAndEnding :
    (∀ i ∈ [Instr.nop {}, .nopW96 { ext := .imm 0 }, .nopW128 { ext := .imm64 0 }, .icsync {}, .sleep { a := .k 0 }, .sleep { ext := .imm 0x1000001 },
      .icinv {}, .icinv { ext := .mod { aux := 3 } }, .exit {}, .halt {}], Issues i (machine i warpS)) ∧
    Issues (.icinv {}) (machine (.icinv {}) { warp0 with cont := .released }) ∧ (machine (.icinv {})).myTask = none ∧
    Issues (.exit {}) (tasked (.exit {})) ∧ (tasked (.exit {})).env.l.kind = .task ∧
    ((machine (.halt {})).speculative = false ∧ ((machine (.halt {})).slots.map Prod.snd).Nodup ∧ 0 ∈ (machine (.halt {})).slots.map Prod.snd ∧
      0 ∈ (machine (.halt {})).env.g.warps) ∧
    ∀ st ∈ [Status.exited, .halted 1, .deferred, .replay, .ready, .asleep 9],
      let s : State := { machine (.halt {}) warp0 { group0 with warps := [0, 1] } with
        warps := [(0, warp0), (1, { warp0 with place := some (0, 1), status := st })], slots := [(0, 0), (1, 1)] }
      issues (.halt {}) s = true ∧ s.speculative = false ∧ (s.slots.map Prod.snd).Nodup := by
  simp only [issues_iff]; decide

/-- The task of the warp in `st` with another one before or after it in the order, and `n` finished ones on its core. -/
def inTask (i : Instr) (st : TState) (last : Bool) (n : Nat := 0) : State :=
  { tasked i { st := st, seq := 5, warp := 0 } with
    tasks := [(0, (0, { st := st, seq := 5, warp := 0 })), (1, (0, { st := .queued, seq := if last then 1 else 9 }))] ++
      (List.range n).map fun k => (k + 2, (0, { st := .finished, seq := 4, lo := BitVec.ofNat 32 k, warp := 50 + k })) }

/-- ICINV in a task that buffers and is the frontier, that is not, and in direct mode; EXIT of a task that must wait; HALT of a speculative
task. -/
theorem witness_PausingAndEnding_tasks :
    (∀ st ∈ [TState.running, .direct], ∀ b ∈ [true, false], Issues (.icinv {}) (inTask (.icinv {}) st b)) ∧
    (inTask (.icinv {}) .running false).isFrontier 0 0 = true ∧ (inTask (.icinv {}) .running true).isFrontier 0 0 = false ∧
    (inTask (.icinv {}) .running true).copyingOut 0 = false ∧ (Issues (.halt {}) (inTask (.halt {}) .running true)) ∧
    (inTask (.halt {}) .running true).speculative = true ∧ (let s := inTask (.exit {}) .running true 32; Issues (.exit {}) s ∧ ¬mayFinish s) := by
  have h : ¬mayFinish (inTask (.exit {}) .running true 32) := fun h =>
    absurd (h (0, { st := .running, seq := 5, warp := 0 }) (by decide)) (by decide)
  exact ⟨by simp only [issues_iff]; decide, by decide, by decide, by decide, by simp only [issues_iff]; decide, by decide,
    by simp only [issues_iff]; decide, h⟩

/-- TRAP under its three conditions, with SCC 0, 1 and poisoned, with a register and without. -/
theorem witness_TrapInstructions :
    (∀ i ∈ [Instr.trap {}, .trap { a := .s 8 }, .trap { frame := some { aux := 0xFFFF } }, .trapT { fn := 1 }, .trapF { fn := 2 }, .bkpt {},
      .bkpt { frame := some { aux := 7 } }],
      Issues i (machine i warpS) ∧ Issues i (machine i { warpS with scc := true }) ∧ Issues i (machine i { warpS with sccP := true })) := by
  simp only [issues_iff]; decide

/-- Lanes 0 and 2 active; addresses of lane l: v2 0x40 + 16·l, v4 0x5000 + 16·l, v6 the same bytes of the scratchpad as v2; data in
v10 to v13; v8 a constant address, v20 a private one, v14 poisoned; v16 misaligned; v18 outside every aperture. -/
def warpM : Warp := { warp0 with
  exec := 5, vP := [(14, 5)],
  v := [(256, 0x40), (258, 0x60), (512, 0x5000), (514, 0x5020), (768, 0x40), (770, 0x60), (896, 0x80000000), (898, 0x80000000),
        (1024, 0x40), (1026, 0x60), (1152, 0xB0000000), (1154, 0xB0000000), (1280, 7), (1282, 0xFFFFFFFF), (1408, 1), (1410, 2),
        (2048, 0x5001), (2050, 0x5021), (2432, 0xA0000000), (2434, 0xA0000000), (2560, 0x40), (2562, 0x60), (2688, 0x90000000), (2690, 0x90000000)] }

/-- A launch with a constant segment of 256 bytes and 64 KiB of private memory. -/
def launchM : Launch :=
  { launch0 with constSize := 256, const := [(0x40, 0x11), (0x61, 0x22)], privP := 65536, priv := 0x100000 }

/-- The translation of the first GiB to itself, writable. -/
def page0 : Xlat := { page := 0, lg := 30, level := 2, leaf := 0x13 }

/-- The machine with that translation in its die's cache. -/
def mapped (i : Instr) (w : Warp := warpM) (l : Launch := launchM) : State :=
  { machine i w group0 l with dies := [(0, { tlb := [page0] })], mem := [(0x5000, 0xFF), (0x5001, 0x80)] }

/-- `n` bytes of lane l at a + 16·l. -/
def at16 (a n l : Nat) : List Nat := (List.range n).map (a + 16 * l + ·)
/-- `n` bytes of private memory of lane l (R190). -/
def privAt (a n l : Nat) (s : State) : List Nat :=
  ((privPieces s.env l (a + 16 * l) n).map fun p => (List.range p.2).map (p.1 + ·)).flatten

def mo (a : Src) (d : Src := .v 30) (b : Src := .v 0) : MOp := { dst := d, a := a, b := b }

theorem witness_Loads :
    Reach (.ld (mo (.v 4))) .generic 0 false [] (mo (.v 4)) (at16 0x5000 4) (mapped (.ld (mo (.v 4)))) ∧
    Reach (.ld (mo (.v 6))) .generic 0 false [] (mo (.v 6)) (at16 (scratchAt + 0x40) 4) (mapped (.ld (mo (.v 6)))) ∧
    Reach (.ld (mo (.v 8))) .generic 0 false [] (mo (.v 8)) (at16 (constAt + 0x40) 4) (mapped (.ld (mo (.v 8)))) ∧
    (let o : MOp := { mo (.v 4) with ord := .acq, size := .b2, sub := 1, ext := .short .device 2 }
     Reach (.ldg o) .virtual 0 false [] o (at16 0x5002 2) (mapped (.ldg o))) ∧
    (let o : MOp := { mo (.v 2) (.v 28) with size := .b16 }
     Reach (.lds o) .scratch 0 false [] o (at16 (scratchAt + 0x40) 16) (mapped (.lds o))) ∧
    Reach (.ldl (mo (.v 2))) .priv 0 false [] (mo (.v 2)) (fun l => privAt 0x40 4 l (mapped (.ldl (mo (.v 2))))) (mapped (.ldl (mo (.v 2)))) ∧
    Reach (.ldc (mo (.v 2))) .const 0 false [] (mo (.v 2)) (at16 (constAt + 0x40) 4) (mapped (.ldc (mo (.v 2)))) ∧
    Reach (.ldnc (mo (.v 4))) .virtual 0 false [] (mo (.v 4)) (at16 0x5000 4) (mapped (.ldnc (mo (.v 4)))) ∧
    Reach (.ld (mo (.v 14))) .generic 0 false [] (mo (.v 14)) (fun _ => []) (mapped (.ld (mo (.v 14))) { warpM with exec := 0 }) := by
  refine ⟨?_, ?_, ?_, ?_, ?_, ?_, ?_, ?_, ?_⟩ <;> exact reach_of (by decide)

def st' (a b : Src) : MOp := { a := a, b := b }

theorem witness_Stores :
    Reach (.st (st' (.v 4) (.v 10))) .generic 1 false [.v 10] (st' (.v 4) (.v 10)) (at16 0x5000 4) (mapped (.st (st' (.v 4) (.v 10)))) ∧
    Reach (.st (st' (.v 6) (.k 1))) .generic 1 false [.k 1] (st' (.v 6) (.k 1)) (at16 (scratchAt + 0x40) 4) (mapped (.st (st' (.v 6) (.k 1)))) ∧
    (let o : MOp := { st' (.v 4) (.v 10) with ord := .rel, size := .b1, ext := .short .device 0 }
     Reach (.stg o) .virtual 1 false [.v 10] o (at16 0x5000 1) (mapped (.stg o))) ∧
    (let o : MOp := { st' (.v 2) (.v 28) with size := .b16 }
     Reach (.sts o) .scratch 1 false [.v 28] o (at16 (scratchAt + 0x40) 16) (mapped (.sts o))) ∧
    Reach (.stl (st' (.v 2) (.v 10))) .priv 1 false [.v 10] (st' (.v 2) (.v 10)) (fun l => privAt 0x40 4 l (mapped (.stl (st' (.v 2) (.v 10)))))
      (mapped (.stl (st' (.v 2) (.v 10)))) := by
  refine ⟨?_, ?_, ?_, ?_, ?_⟩ <;> exact reach_of (by decide)

/-- Atomics of lanes at different addresses and at one address, with and without an answer, of 4 and 8 bytes. -/
theorem witness_Atomics :
    (let o : MOp := { mo (.v 4) (.v 30) (.v 10) with sub := 1 }
     Reach (.aadd o) .generic 2 false [.v 10] o (at16 0x5000 4) (mapped (.aadd o))) ∧
    (let o : MOp := { a := .s 4, b := .v 10 }
     Reach (.aadd o) .generic 2 false [.v 10] o (fun _ => at16 0x40 4 0) (mapped (.aadd o) { warpM with s := [(4, 0x40)] })) ∧
    (let o : MOp := { mo (.v 4) (.v 30) (.v 10) with sub := 3 }
     Reach (.amin o) .generic 2 false [.v 10] o (at16 0x5000 4) (mapped (.amin o)) ∧
     Reach (.amax o) .generic 2 false [.v 10] o (at16 0x5000 4) (mapped (.amax o))) ∧
    (let o : MOp := { a := .v 6, b := .v 10 }
     Reach (.aand o) .generic 2 false [.v 10] o (at16 (scratchAt + 0x40) 4) (mapped (.aand o)) ∧
     Reach (.aor o) .generic 2 false [.v 10] o (at16 (scratchAt + 0x40) 4) (mapped (.aor o)) ∧
     Reach (.axor o) .generic 2 false [.v 10] o (at16 (scratchAt + 0x40) 4) (mapped (.axor o))) ∧
    (let o : MOp := { mo (.v 4) (.v 30) (.v 10) with size := .b8, sub := 1, ord := .acqrel, ext := .short .system 0 }
     Reach (.axch o) .generic 2 false [.v 10] o (at16 0x5000 8) (mapped (.axch o))) ∧
    (let o : MOp := { mo (.v 4) (.v 30) (.v 10) with c := .v 2, sub := 1 }
     Reach (.acas o) .generic 2 false [.v 10, .v 2] o (at16 0x5000 4) (mapped (.acas o))) ∧
    (let o : MOp := { mo (.v 4) (.v 30) (.v 10) with sub := 1 }
     Reach (.afadd o) .generic 2 true [.v 10] o (at16 0x5000 4) (mapped (.afadd o))) := by
  refine ⟨?_, ?_, ⟨?_, ?_⟩, ⟨?_, ?_, ?_⟩, ?_, ?_, ?_⟩ <;> exact reach_of (by decide)

/-- Fences outside a task, in one that buffers and in one that does not; PREFETCH of clean and of poisoned addresses. -/
theorem witness_FencesAndPrefetch :
    (∀ i ∈ [Instr.fenceAcq { size := .b1, ord := .acq }, .fenceRel { size := .b1, ord := .rel }, .fenceAcqrel { size := .b1, ord := .acqrel }], Issues i (mapped i) ∧ (mapped i).myTask = none ∧
      Issues i (tasked i) ∧ (tasked i).myTask ≠ none ∧ Issues i (tasked i { st := .running })) ∧
    (∀ i ∈ [Instr.prefetch { size := .b1, a := .v 4 }, .prefetch { size := .b1, a := .v 14 }], Issues i (mapped i)) ∧
    CachesWf (mapped (.prefetch { size := .b1, a := .v 4 })) ∧ (tasked (.nop {})).myTask.map (fun t => t.2.st) = some .direct := by
  refine ⟨?_, ?_, cachesWf_of _ (by decide), by decide⟩ <;> (simp only [issues_iff]; decide)

theorem witness_ReleaseAndAcquire : CachesWf (mapped (.nop {})) := cachesWf_of _ (by decide)

/-- Lane 0's address in v24 is 0x5000, lane 2's is at peer 1, as both are in v26; answers of peer 1. -/
def warpPeer (c : Cont := .none) : Warp :=
  { warpM with v := warpM.v ++ [(3072, 0x5000), (3074, 0x10020), (3328, 0x10000), (3330, 0x10020)], cont := c, answers := match c with
      | .answered => [{ lane := 0, data := [9, 8, 7, 6] }, { lane := 2, data := [1, 2, 3, 4] }]
      | _ => [] }

/-- The first 64 KiB at home, the next at peer 1. -/
def peered (i : Instr) (w : Warp := warpPeer) : State :=
  { mapped i w with vis := [(0, { domSize := 4 })], dies := [(0, { tlb := [{ page0 with lg := 16 }, { page := 1, lg := 16, level := 0, leaf := 0x10000000000113 }] })] }

/-- A task in `st` on core 0 with a finished task before it, which has written a byte at 0x5000, and another task before and after. -/
def buffering (i : Instr) (st : TState := .running) (w : Warp := warpM) : State :=
  { mapped i w { launchM with kind := .task } with
    tasks := [(0, (0, { st := .finished, seq := 1, warp := 9, wbuf := [(0x5000, 0x77)], wset := [0x280] })), (1, (0, { st := st, seq := 2, warp := 0 })),
              (2, (0, { st := .running, seq := 3, warp := 8, core := 1, rset := [0x300] })), (3, (0, { st := .queued, seq := 1, lo := 1, wset := [0x301] }))],
    nextTask := 4 }

/-- The request that a lane has held back after a page fault. -/
def held' (l : Nat) : LaneReq := { lane := l, addr := BitVec.ofNat 64 (0x5000 + 16 * l), b := 0xABCD, c := 0 }

/-- The bytes of lane 0 where lane 2 reaches a peer. -/
def home0 (l : Nat) : List Nat := if l = 0 then at16 0x5000 4 0 else []
def running1 : Task := { st := .running, seq := 2, warp := 0 }
def replaying : Warp := { warpM with redo := [held' 0, held' 1] }
def answeredQ : Warp := warpPeer .answered
def mo2 : MOp := { mo (.v 24) (.v 30) (.v 10) with sub := 1 }
def mo4 : MOp := { mo (.v 4) (.v 30) (.v 10) with sub := 1, c := .v 2 }

/-- Accesses that ask a peer, that ask two before they write, and that a peer has answered. -/
theorem witness_Loads_peers :
    Asking (.ldg (mo (.v 24))) .virtual 0 false [] (mo (.v 24)) home0 (peered (.ldg (mo (.v 24)))) ∧
    Reach (.ldnc (mo (.v 24))) .virtual 0 false [] (mo (.v 24)) home0 (peered (.ldnc (mo (.v 24))) answeredQ) :=
  ⟨asking_of (by decide), reach_of (by decide)⟩

theorem witness_Stores_peers :
    Asking (.stg (st' (.v 24) (.v 10))) .virtual 1 false [.v 10] (st' (.v 24) (.v 10)) home0 (peered (.stg (st' (.v 24) (.v 10)))) ∧
    Asking (.stg (st' (.v 26) (.v 10))) .virtual 1 false [.v 10] (st' (.v 26) (.v 10)) (fun _ => []) (peered (.stg (st' (.v 26) (.v 10)))) ∧
    Asking (.stg (st' (.v 26) (.v 10))) .virtual 1 false [.v 10] (st' (.v 26) (.v 10)) (fun _ => [])
      (peered (.stg (st' (.v 26) (.v 10))) { answeredQ with cont := .probing }) ∧
    Reach (.stg (st' (.v 24) (.v 10))) .virtual 1 false [.v 10] (st' (.v 24) (.v 10)) home0 (peered (.stg (st' (.v 24) (.v 10))) answeredQ) :=
  ⟨asking_of (by decide), asking_of (by decide), asking_of (by decide), reach_of (by decide)⟩

theorem witness_Atomics_peers :
    Asking (.aadd mo2) .generic 2 false [.v 10] mo2 home0 (peered (.aadd mo2)) ∧
    Reach (.aadd mo2) .generic 2 false [.v 10] mo2 home0 (peered (.aadd mo2) answeredQ) :=
  ⟨asking_of (by decide), reach_of (by decide)⟩

/-- Accesses of a task that buffers and of one in direct mode, and accesses performed again after a page fault. -/
theorem witness_Loads_tasks :
    Buffers (.ldg (mo (.v 4))) .virtual 0 false [] (mo (.v 4)) (at16 0x5000 4) 1 running1 (buffering (.ldg (mo (.v 4)))) ∧
    Reach (.ldg (mo (.v 4))) .virtual 0 false [] (mo (.v 4)) (at16 0x5000 4) (buffering (.ldg (mo (.v 4))) .direct) ∧
    Reach (.ldg (mo (.v 4))) .virtual 0 false [] (mo (.v 4)) (at16 0x5000 4) (mapped (.ldg (mo (.v 4))) replaying) :=
  ⟨buffers_of (by decide), reach_of (by decide), reach_of (by decide)⟩

theorem witness_Stores_tasks :
    Buffers (.stg (st' (.v 4) (.v 10))) .virtual 1 false [.v 10] (st' (.v 4) (.v 10)) (at16 0x5000 4) 1 running1
      (buffering (.stg (st' (.v 4) (.v 10)))) ∧
    Reach (.stg (st' (.v 4) (.v 10))) .virtual 1 false [.v 10] (st' (.v 4) (.v 10)) (at16 0x5000 4) (buffering (.stg (st' (.v 4) (.v 10))) .direct) ∧
    Buffers (.stg (st' (.v 4) (.v 10))) .virtual 1 false [.v 10] (st' (.v 4) (.v 10)) (at16 0x5000 4) 1 running1
      (buffering (.stg (st' (.v 4) (.v 10))) .running replaying) :=
  ⟨buffers_of (by decide), reach_of (by decide), buffers_of (by decide)⟩

theorem witness_Atomics_tasks :
    Buffers (.acas mo4) .generic 2 false [.v 10, .v 2] mo4 (at16 0x5000 4) 1 running1 (buffering (.acas mo4)) ∧
    Reach (.acas mo4) .generic 2 false [.v 10, .v 2] mo4 (at16 0x5000 4) (buffering (.acas mo4) .direct) ∧
    Reach (.aadd mo4) .generic 2 false [.v 10] mo4 (at16 0x5000 4) (mapped (.aadd mo4) replaying) :=
  ⟨buffers_of (by decide), reach_of (by decide), reach_of (by decide)⟩

/-- Each of the five failures of each kind of form, at the first address that fails. -/
theorem witness_MemoryTraps :
    (∀ i ∈ [Instr.ld (mo (.v 14)), .ldg (mo (.v 14)), .lds (mo (.v 14)), .ldl (mo (.v 14)), .ldc (mo (.v 14)), .ldnc (mo (.v 14)),
      .st (st' (.v 4) (.v 14)), .stg (st' (.v 14) (.v 10)), .sts (st' (.v 2) (.v 14)), .stl (st' (.v 14) (.v 10)), .aadd { a := .v 4, b := .v 14 },
      .amin { a := .v 4, b := .v 14 }, .amax { a := .v 14, b := .v 10 }, .aand { a := .v 4, b := .v 14 }, .aor { a := .v 4, b := .v 14 },
      .axor { a := .v 4, b := .v 14 }, .axch { a := .v 4, b := .v 14 }, .acas { a := .v 4, b := .v 10, c := .v 14 }, .afadd { a := .v 4, b := .v 14 },
      .ld (mo (.v 16)), .stg (st' (.v 16) (.v 10)), .lds (mo (.v 16)), .aadd { a := .v 16, b := .v 10 },
      .ld (mo (.v 18)), .st (st' (.v 8) (.v 10)), .aadd { a := .v 8, b := .v 10 }, .ldg (mo (.v 6)),
      .ld { mo (.v 6) with ext := .short .device 0x7FFFC0 }, .lds { mo (.v 2) with ext := .short .device 0x3FC0 },
      .ldc { mo (.v 2) with ext := .short .device 0xC0 }, .stl { st' (.v 2) (.v 10) with ext := .short .device 0xFFC0 }], Issues i (mapped i)) ∧
    (mapped (.nop {})).me.redo = [] := by
  simp only [issues_iff]; decide

/-! ## Witnesses: engines (O25 to O33) -/

/-- A tensor descriptor (R234). -/
def descOf (fmt rank e0 e1 : Nat) (base : Nat := 0) (stride : Nat := 0) (home : Nat := 0) : BitVec 1024 :=
  BitVec.ofNat 1024 (base + fmt * 2 ^ 64 + rank * 2 ^ 76 + home * 2 ^ 96 + e0 * 2 ^ 128 + e1 * 2 ^ 160) ||| BitVec.ofNat 1024 stride <<< 512

/-- TIDs: 1 FP32 64 × 32, 2 FP32 64 × 64, 3 BF16 64 × 64, 4 a matrix FP32 of 100 rows of 32 at 1 MiB, 5 FP32 8 × 32 (no dimension of an
MMAT), 6 FP32 1 × 32, 7 an FP16 row, 8 of rank 3; 9 is unset. -/
def launchE : Launch :=
  { launch0 with tids := [(1, descOf 1 2 32 64), (2, descOf 1 2 64 64), (3, descOf 3 2 64 64), (4, descOf 1 2 32 100 0x100000 128),
                          (5, descOf 1 2 32 8), (6, descOf 1 1 32 0), (7, descOf 2 1 64 0), (8, descOf 1 3 32 64)] }

/-- Tiles t = 1 to 7 of TID t, tile 9 of the unset TID, tile 10 FILLING, tile 11 of TID 1; others EMPTY. -/
def groupE : Group :=
  { group0 with tiles := ((List.range 7).map fun i => (i + 1, { off := 1024 * i, tid := i + 1, st := .ready })) ++
    [(9, { off := 0, tid := 9, st := .ready }), (10, { off := 0, tid := 1, st := .filling }), (11, { off := 0, tid := 1, st := .ready })] }

def engine (i : Instr) (w : Warp := warp0) (g : Group := groupE) (l : Launch := launchE) : State := machine i w g l
def eo (a b : BitVec 6) (n : BitVec 5 := 0) (fn : BitVec 7 := 0) : EOp := { fn := fn, frame := some { tileA := a, tileB := b, acc := n } }

/-- A command of some engine of the core that reads tile `t`. -/
def reading (t : Nat) : MatCmd := { id := 0, warp := 0, gid := 0, kind := .mmat, fmt := .f32, acc := 0, tileA := some t }
def copying (t : Nat) : CopyCmd := { id := 0, warp := 0, slot := 0, gid := 0, out := true, keep := false, tile := t, off := 0, tensor := 0, tdesc := 0, regs := [], pb := none, pc := 0, len := 16 }
def busy (s : State) (k : Core) : State := { s with cores := [(0, k)] }

/-- The same check of a statement's readiness clause. -/
def isReady (s : State) (t : Nat) : Bool := decide ((tget s.myGroup.tiles t).map Tile.st = some .ready)
theorem isReady_iff (s : State) (t : Nat) : IsReady s t ↔ isReady s t = true := by
  unfold IsReady isReady
  cases tget s.myGroup.tiles t <;> simp

def engineOps (a b : BitVec 6) : List Instr :=
  [.mmat (eo a b), .mvb { eo a 0 with fn := 0x40, dst := .v 8, a := .s 20, frame := some { tileA := a, tid := 4 } },
   .mvbTile { a := .s 20, frame := some { tileA := a, tileB := b, tid := 4 } }, .accld (eo a 0), .accst (eo a 0),
   .cpin { a := .s 32, frame := some { tileA := a, tid := 1 } }, .cpout { a := .s 32, frame := some { tileA := a, tid := 1 } }, .tlwait (eo a 0)]

/-- A full queue, an undefined first or second tile, a tile that is not READY, a tile that a command reads. -/
theorem witness_EngineWaits :
    (∀ i ∈ engineOps 1 11 ++ engineOps 12 1 ++ engineOps 1 12 ++ engineOps 10 1 ++ engineOps 1 10 ++ [.accz {}, .accrd { dst := .v 8 }], Formed i (engine i)) ∧
    8 ≤ ((busy (engine (.accz {})) { matq := List.replicate 8 (reading 1) }).core 0).matq.length ∧
    16 ≤ ((busy (engine (.accz {})) { copyq := List.replicate 16 (copying 1) }).core 0).copyq.length ∧
    (busy (engine (.accz {})) { matq := [reading 1] }).tileRead 0 1 = true ∧
    tget (engine (.accz {})).myGroup.tiles 12 = none ∧ ¬IsReady (engine (.accz {})) 10 ∧ IsReady (engine (.accz {})) 1 := by
  simp only [formed_iff, isReady_iff]; decide

/-- Accepted fused and counted products, an unset A, an unset B, a shape out of range, an accumulator out of range, no triple, another
K, an untagged tile. -/
theorem witness_MatrixMultiply :
    ∀ i ∈ [Instr.mmat (eo 1 11), .mmat (eo 3 3 0), .mmat (eo 9 1), .mmat (eo 1 9), .mmat (eo 5 1), .mmat (eo 1 1 31), .mmat (eo 1 3), .mmat (eo 2 1), .mmat (eo 1 11 1)],
      Issues i (engine i) ∧ ((engine i).core (engine i).me.core).matq.length < 8 := by
  simp only [issues_iff]; decide

theorem witness_MatrixMultiply_ready :
    (∀ t ∈ [1, 2, 3, 5, 9, 11], IsReady (engine (.mmat {})) t) ∧ tripleK 1 1 0 = some 32 ∧ tripleK 3 3 0 = some 64 ∧ tripleK 1 3 0 = none ∧
    groupE.tagged .f32 0 = true ∧ groupE.tagged .f32 1 = false := by
  simp only [isReady_iff]; decide

def mm (tid : BitVec 8) : EOp := { dst := .v 16, a := .v 0, b := .v 4, c := .v 16, frame := some { tid := tid } }
/-- Accepted with C and without, a lane inactive, an unset TID, a format that MMAR lacks. -/
theorem witness_LaneMatrix :
    (∀ i ∈ [Instr.mmar (mm 1), .mmar { mm 1 with c := .v 0 }, .mmar (mm 9)], Issues i (engine i)) ∧ Issues (.mmar (mm 1)) (engine (.mmar (mm 1)) { warp0 with exec := 0x7FFFFFFF }) ∧
    (let l : Launch := { launchE with tids := [(1, descOf 6 2 64 64)] }
     issues (.mmar (mm 1)) (engine (.mmar (mm 1)) warp0 groupE l) = true) ∧ mmarK 6 = none ∧ mmarK 1 = some 8 := by
  simp only [issues_iff]; decide

def mv (tid : BitVec 8) (x : BitVec 6) : EOp := { fn := 0x40, dst := .v 8, a := .s 20, frame := some { tileA := x, tid := tid } }
def mvt (tid : BitVec 8) (x y : BitVec 6) : EOp := { a := .s 20, frame := some { tileA := x, tileB := y, tid := tid } }
/-- With B's page in the die's cache: accepted in both forms, an unset TID, a vector as B, formats that do not combine, a poisoned row. -/
theorem witness_MatrixVector :
    (∀ i ∈ [Instr.mvb (mv 4 6), .mvbTile (mvt 4 6 11), .mvb (mv 9 6), .mvb (mv 6 6), .mvb (mv 4 7), .mvbTile (mvt 4 6 9), .mvbTile (mvt 4 6 3), .mvb { mv 4 6 with a := .s 8 }],
      issues i { engine i { warp0 with sP := 0x100 } with dies := [(0, { tlb := [page0] })] } = true) ∧
    (∀ t ∈ [3, 6, 7, 9, 11], IsReady (engine (.mvb {})) t) ∧
    (let s : State := { engine (.mvb (mv 4 6)) with dies := [(0, { tlb := [page0] })] }
     ∃ xs, mvbPages s s.env 0 (mfRow 1 32) (mvbRows (s.env.l.tid 4) 0 32) = .ok xs) := by
  refine ⟨by decide, ?_, ⟨[page0], by decide +kernel⟩⟩
  simp only [isReady_iff]; decide

/-- ACCZ, ACCLD, ACCST and ACCRD accepted, and one form for each trap. -/
theorem witness_AccumulatorMoves :
    (∀ i ∈ [Instr.accz (eo 0 0), .accz (eo 0 0 31), .accz (eo 0 0 0 0x60), .accld (eo 2 0), .accld (eo 9 0), .accld (eo 2 0 1), .accld (eo 1 0), .accld (eo 3 0),
      .accst (eo 2 0), .accst (eo 9 0), .accst (eo 2 0 7), .accst (eo 2 0 0 0x10), .accst (eo 1 0), .accst (eo 3 0 0 0x60), .accst (eo 3 0 0 0x20),
      .accrd { dst := .v 8 }, .accrd { dst := .v 8, frame := some { acc := 31 } }, .accrd { dst := .v 8, frame := some { acc := 1 } }],
      Issues i (engine i)) ∧
    Issues (.accrd { dst := .v 8 }) (engine (.accrd { dst := .v 8 }) { warp0 with exec := 0 }) ∧
    (∀ t ∈ [1, 2, 3, 9], IsReady (engine (.accst {})) t) ∧ groupE.tag 0 = .head .f32 ∧ groupE.tag 1 = .tail .f32 ∧
    ({ groupE with tags := [(0, .head .f64)] } : Group).tag 0 = .head .f64 := by
  simp only [issues_iff, isReady_iff]; decide

/-! ## Witnesses: descriptors, copies, tiles, barriers, waits (O30 to O35) -/

def fr (aux : BitVec 17) (tid : BitVec 8 := 0) : Option Frame := some { aux := aux, tid := tid }

/-- Registers: s4 = 0x4000 in the scratchpad aperture, s6 a virtual address, s8 poisoned, s12 misaligned, s14 the end of the allocation in the
scratchpad, s16 an address of no aperture, s18 a ring base, s20 = 1024, s22 a ring base that is no multiple of 64. -/
def warpT : Warp := { warp0 with
  sP := 0x100,
  s := [(4, 0x1000), (5, 0x80000000), (6, 0x5000), (12, 0x5001), (14, 0x3FF0), (15, 0x80000000), (17, 0x70000000), (18, 0x8000), (20, 1024),
        (22, 0x8010)] }

theorem witness_TensorDescriptors :
    (∀ i ∈ [Instr.tidset { a := .s 4, frame := fr 0 5 }, .tidset { a := .s 6, frame := fr 0 5 }, .tidset { a := .s 8, frame := fr 0 5 }, .tidset { a := .s 12, frame := fr 0 5 },
      .tidset { a := .s 14, frame := fr 0 5 }, .tidset { a := .s 16, frame := fr 0 5 }, .tidget { dst := .s 4, frame := fr 0 4 }, .tidget { dst := .s 4, frame := fr 7 4 },
      .chkcfg { a := .s 18, b := .s 20, frame := fr 4 }, .chkcfg { a := .s 18, b := .k 0, frame := fr 0 }, .chkcfg { a := .s 18, b := .s 20, frame := fr 3 }, .chkcfg { a := .s 8, b := .s 20, frame := fr 16 },
      .chkcfg { a := .s 18, b := .k 1, frame := fr 4 }, .chkcfg { a := .s 22, b := .s 20, frame := fr 4 }],
      issues i { engine i warpT with dies := [(0, { tlb := [page0] })] } = true) ∧
    (engine (.tidset {}) warpT).myTask = none ∧
    (let s : State := { engine (.tidset {}) warpT with dies := [(0, { tlb := [page0] })] }
     (descRoutes s s.env 0x5000).all fun r => match r with | .cells _ => true | _ => false) = true ∧
    Issues (.chkcfg { a := .s 18, b := .s 8, frame := fr 4 }) (engine (.chkcfg { a := .s 18, b := .s 8, frame := fr 4 }) { warpT with s := [(8, 16), (18, 0x8000)] }) := by
  simp only [issues_iff]; decide

/-- A copy descriptor in s32 to s47: one level over the 64 rows. -/
def warpC : Warp := { warp0 with s := [(41, 0x0101103F)], sP := 0 }
def cp (tile : BitVec 6) (tid : BitVec 8) : EOp := { a := .s 32, frame := some { tileA := tile, tid := tid } }
def cpb (pb : BitVec 18) : EOp := { a := .s 32, frame := some { tileA := 1, tid := 1, pbv := true, pb := pb } }

theorem witness_Copies :
    (∀ i ∈ [Instr.cpin (cp 1 1), .cpout (cp 1 1), .cpin (cp 1 9), .cpout (cp 9 1), .cpin (cp 1 3), .cpin (cpb 2047), .cpout (cpb 2048), .cpout { cp 1 1 with fn := 0x40 }],
      Issues i (engine i warpC)) ∧
    Issues (.cpin (cp 1 1)) (engine (.cpin (cp 1 1)) { warpC with sP := 0x800000000000 }) ∧
    Issues (.cpin (cp 1 1)) (engine (.cpin (cp 1 1)) { warpC with s := [(46, 1)] }) ∧
    IsReady (engine (.cpin {})) 1 ∧ (engine (.cpin {})).tileRead 0 1 = false ∧
    copyIllegal 32 ((List.range 16).map fun i => warpC.sreg (32 + i)) (launchE.tid 1) (launchE.tid 1) = none ∧
    copyIllegal 32 ((List.range 16).map fun i => ({ warpC with s := [(46, 1)] } : Warp).sreg (32 + i)) (launchE.tid 1) (launchE.tid 1) ≠ none := by
  simp only [issues_iff, isReady_iff]; decide +kernel

theorem witness_Tiles :
    (∀ i ∈ [Instr.tldef { a := .s 18, frame := fr 20 1 }, .tldef { a := .s 18, frame := fr 20 8 }, .tldef { a := .s 18, frame := fr 20 9 }, .tldef { a := .s 8, frame := fr 20 1 },
      .tldef { a := .s 12, frame := fr 20 1 }, .tldef { a := .s 14, frame := fr 20 1 }, .tldef { a := .k 0, frame := fr 10 1 }, .tlwait (eo 1 0), .tlfree { frame := fr 10 },
      .tlfree { frame := fr 1 }, .tlfree { frame := fr 63 }, .tlstate { dst := .s 2, frame := fr 1 }, .tlstate { dst := .s 3, frame := fr 63 }], Issues i (engine i { warpT with s := [(12, 0x5001), (14, 0x3FF0), (18, 0x100)] })) ∧
    IsReady (engine (.tlwait {})) 1 ∧ (busy (engine (.tlfree {})) { matq := [reading 1] }).tileRead 0 1 = true ∧
    (busy (engine (.tlfree {})) { matq := [reading 1] }).tileUsed 0 1 = true ∧ (engine (.tldef {})).tileUsed 0 20 = false := by
  simp only [issues_iff, isReady_iff]; decide

def pbo (sc : Scope) (pb : BitVec 18) (v : BitVec 17) : EOp := { frame := some { scope := sc, pbv := true, pb := pb, aux := v } }

theorem witness_PhaseBarriers :
    (∀ i ∈ [Instr.pbinit (pbo .group 0 1), .pbinit (pbo .system 2047 4095), .pbinit (pbo .group 0 0), .pbinit (pbo .group 0 4096), .pbinit (pbo .warp 0 1), .pbinit (pbo .group 2048 1),
      .pbarr { pbo .device 0 1 with fn := 0 }, .pbarr { pbo .device 2047 0 with a := .s 8 }, .pbarr (pbo .device 2048 0), .pbexp (pbo .device 0 1), .pbexp (pbo .device 2048 1), .pbexp { pbo .device 0 0 with a := .s 8 },
      .pbwait { pbo .device 0 0 with a := .s 20 }, .pbwait { pbo .device 0 0 with a := .s 8 }, .pbwait { pbo .device 2048 0 with a := .s 20 }], Issues i (engine i warpT)) ∧
    (tget (engine (.pbinit {})).groups (engine (.pbinit {})).me.gid).isSome = true := by
  simp only [issues_iff]; decide

def lv (k n : Nat) : EOp := { fn := BitVec.ofNat 7 (16 * k), frame := some { aux := BitVec.ofNat 17 n } }
/-- A launch with levels 1 to 3, and a warp that has arrived already. -/
def launchL : Launch := { launch0 with widths := [5, 1, 1, 0, 0, 0], exts := [32, 2, 2, 1, 1, 1], monuC := [2] }

theorem witness_Barriers :
    (∀ i ∈ [Instr.bar (lv 1 0), .bar (lv 2 15), .bar (lv 3 1), .bar (lv 3 2), .bar (lv 4 0), .bararr { lv 2 0 with dst := .s 2 }, .bararr { lv 1 0 with dst := .s 3 }, .bararr { lv 6 0 with dst := .s 2 },
      .barwait { lv 2 0 with a := .k 0 }, .barwait { lv 2 0 with a := .s 8 }, .barwait { lv 5 0 with a := .k 0 }],
      issues i (machine i { warpT with bars := [(32, { arr := true, p := false })] } group0 launchL) = true ∧ issues i (machine i { warpT with cont := .arrived true } group0 launchL) = true) ∧
    launchL.top = 3 ∧ (machine (.bar {}) warpT group0 launchL).me.status ≠ .exited ∧ 0 ∈ (machine (.bar {})).env.g.warps := by
  decide

/-- WATCH on a global and on a scratchpad word; WAITW with nothing armed, something armed, something fired; WAITC at, above and below
its limit; and the traps of both. -/
theorem witness_WatchesAndWaits :
    (∀ i ∈ [Instr.watch { fn := 3, a := .s 6 }, .watch { a := .s 4 }, .watch { a := .s 8 }, .unwatch { fn := 3 }, .unwatchAll { fn := 4 }, .waitw { dst := .s 2 }, .waitw { fn := 1, dst := .s 2, frame := none },
      .waitc { dst := .s 2, a := .s 6, b := .k 0 }, .waitc { dst := .s 2, a := .s 6, b := .s 20 }, .waitc { fn := 0x41, dst := .s 2, a := .s 4, b := .s 20 }, .waitc { a := .s 8, b := .k 0 }, .waitc { a := .s 6, b := .s 8 },
      .waitc { a := .s 12, b := .k 0 }, .waitc { a := .s 24, b := .k 0 }, .yield {}],
      Issues i { machine i { warpT with s := warpT.s ++ [(24, 0x4000), (25, 0x80000000)], watches := [(0, { sector := 1, armed := true, fired := false })] } with dies := [(0, { tlb := [page0] })] } ∧
      Issues i { machine i { warpT with s := warpT.s ++ [(24, 0x4000), (25, 0x80000000)], watches := [(0, { sector := 1, armed := true, fired := true })] } with dies := [(0, { tlb := [page0] })] }) ∧
    (machine (.watch {})).myTask = none ∧ canonical 0x5000 = true := by
  simp only [issues_iff]; decide

theorem witness_WatchesAndWaits_place :
    (let s : State := { machine (.waitc {}) warpT with dies := [(0, { tlb := [page0] })] }
     Place s 0x5000 4 (.cells [0x5000, 0x5001, 0x5002, 0x5003]) ∧ Place s 0x8000000000001000 8 (.scratch 0x1000)) := by
  refine ⟨Or.inl ⟨by decide, ⟨_, rfl⟩, by decide⟩, Or.inr ⟨by decide, by decide, by decide⟩⟩

/-! ## Witnesses: tasks, surveys, collectives, the system instructions (O36 to O39) -/

/-- A waiting task of launch 0 and the running one of the warp, with a range. -/
def running : Task := { ts := 10, seq := 2, st := .running, warp := 0, range := true, lo := 3, cur := 5, hi := 9, narg := 2, args := [7, 8] }
def earlier : Task := { ts := 4, seq := 1, st := .queued }
/-- s4 = 10, s6 = 9, s10 = the empty range [3, 3), s12 = [3, 7), s16 = 3, s8 poisoned. -/
def warpK : Warp := { warp0 with sP := 0x100, s := [(4, 10), (6, 9), (10, 3), (11, 3), (12, 3), (13, 7), (16, 3)] }
/-- The warp running a task that is the frontier, or with an earlier one waiting. -/
def front (i : Instr) : State := { machine i warpK group0 taskLaunch with tasks := [(0, (0, running))], nextTask := 1 }
def behind (i : Instr) : State := { machine i warpK group0 taskLaunch with tasks := [(0, (0, running)), (1, (0, earlier))], nextTask := 2 }
def ranged : EOp := { fn := 0x20, a := .s 4, b := .s 16, c := .s 12 }

/-- The instructions in a task that is the frontier and in a speculative one: poisoned TS, arguments and range, an earlier TS, an empty
range, V of 0 and 7, an own TS and a passed one for TSYNC, Q for TFRONTQ and TSYNC; and all of them outside a TASK launch. -/
theorem witness_TaskInstructions :
    (∀ i ∈ [Instr.tspawn { a := .s 4 }, .tspawn { a := .s 8 }, .tspawn { a := .s 6 }, .tspawn { fn := 0x1A, a := .s 4, b := .s 8 }, .tspawnr ranged,
      .tspawnr { ranged with c := .s 8 }, .tspawnr { ranged with c := .s 10 }, .trng { dst := .s 20, frame := some { aux := 7 } }, .trng { dst := .s 20 },
      .trng { dst := .s 20, a := .s 8 }, .tsplitq {}, .tsplitqPin { fn := 1 }, .tsplitqUnpin { fn := 2 }, .tdone {}, .tdone { fn := 1 }, .tabort {}, .tfrontq { a := .s 4 },
      .tfrontq { a := .s 8 }, .tfrontq { fn := 1, a := .s 4, frame := some { aux := 3 } }, .tsync { a := .s 4 }, .tsync { a := .s 16 }, .tsync { fn := 1, a := .s 4 }, .tisspec {},
      .tctx { dst := .s 20 }],
      Issues i (front i) ∧ Issues i (behind i) ∧ Issues i (machine i warpK)) ∧
    (front (.tdone {})).myTask = some (0, running) ∧ (behind (.tdone {})).myTask = some (0, running) ∧
    (front (.tdone {})).dieWithRoom 1 = some 1 ∧ (front (.tdone {})).env.l.kind = .task ∧ (machine (.tdone {}) warpK).env.l.kind ≠ .task := by
  simp only [issues_iff]; decide

/-- A task in direct mode ends. -/
theorem witness_TaskInstructions_direct :
    Issues (.tdone {}) (tasked (.tdone {})) ∧ Issues (.tabort {}) (tasked (.tabort {})) ∧
    (tasked (.tabort {})).myTask = some (0, { st := .direct, seq := 1, warp := 0 }) := by
  simp only [issues_iff]; decide

/-- `n` waiting tasks of another launch on each die. -/
def full (n : Nat) : Tab (Nat × Task) := (List.range 4).flatMap fun d => List.replicate n (9, (1, { st := .queued, die := d }))
def crowded (i : Instr) (n : Nat) : State := { behind i with tasks := (behind i).tasks ++ full n }

theorem full_on (n d : Nat) (h : d < 4) : ((full n).filter fun e => e.2.2.st == .queued && e.2.2.die == d).length = n := by
  unfold full
  match d, h with
  | 0, _ | 1, _ | 2, _ | 3, _ => simp [List.range, List.range.loop, List.filter_append]

theorem full_of_launch0 (n : Nat) : ((full n).filterMap fun e => if e.2.1 = 0 then some (e.1, e.2.2) else none) = [] := by
  simp [full, List.range, List.range.loop, List.filterMap_append]

theorem crowded_tasks (i : Instr) (n : Nat) : (crowded i n).tasksOf 0 = [(0, running), (1, earlier)] := by
  have h : (crowded i n).tasks = [(0, (0, running)), (1, (0, earlier))] ++ full n := rfl
  unfold State.tasksOf
  rw [h, List.filterMap_append, full_of_launch0]; rfl

/-- A speculative task finds no room (the clause of R330 that waits). -/
theorem witness_TaskInstructions_full (n : Nat) (hn : taskQueueSize ≤ n) :
    let i := Instr.tspawn { a := .s 4 }
    (crowded i n).dieWithRoom 1 = none ∧ (crowded i n).isFrontier 0 0 = false ∧ (crowded i n).myTask = some (0, running) ∧
    Issues i (crowded i n) := by
  intro i
  refine ⟨?_, ?_, ?_, ?_⟩
  · have h (x : Nat) (hx : x < 4) : taskQueueSize ≤ (crowded i n).queuedOn x := by
      have e : (crowded i n).tasks = [(0, (0, running)), (1, (0, earlier))] ++ full n := rfl
      unfold State.queuedOn
      rw [e, List.filter_append, List.length_append, full_on n x hx]
      omega
    simp [State.dieWithRoom, List.range, List.range.loop, h]
  · unfold State.isFrontier State.frontier
    rw [crowded_tasks]; rfl
  · unfold State.myTask
    have : (crowded i n).myGroup.lid = 0 := rfl
    rw [this]; unfold State.taskOf
    rw [crowded_tasks]; rfl
  · rw [issues_iff, show issues i (crowded i n) = issues i (behind i) from rfl]; decide

/-- The frontier finds no room either, and no other task has spawned one (the clause of R330 that stops the queue). -/
theorem witness_TaskInstructions_stop (n : Nat) (hn : taskQueueSize ≤ n) :
    let i := Instr.tspawn { a := .s 4 }
    let s : State := { front i with tasks := (front i).tasks ++ full n }
    s.dieWithRoom 1 = none ∧ s.isFrontier 0 0 = true ∧ s.myTask = some (0, running) ∧ s.tasksOf 0 = [(0, running)] ∧ Issues i s := by
  intro i s
  have e : s.tasks = [(0, (0, running))] ++ full n := rfl
  have o : s.tasksOf 0 = [(0, running)] := by
    unfold State.tasksOf
    rw [e, List.filterMap_append, full_of_launch0]; rfl
  refine ⟨?_, ?_, ?_, o, ?_⟩
  · have h (x : Nat) (hx : x < 4) : taskQueueSize ≤ s.queuedOn x := by
      unfold State.queuedOn
      rw [e, List.filter_append, List.length_append, full_on n x hx]
      omega
    simp [State.dieWithRoom, List.range, List.range.loop, h]
  · unfold State.isFrontier State.frontier
    rw [o]; rfl
  · unfold State.myTask
    have : s.myGroup.lid = 0 := rfl
    rw [this]; unfold State.taskOf
    rw [o]; rfl
  · rw [issues_iff, show issues i s = issues i (front i) from rfl]; decide

/-- A task with a queued child, which has spawned nothing itself, aborts. -/
def child : Task := { ts := 20, seq := 9, st := .queued, parent := some 0 }
theorem witness_TaskInstructions_children :
    let s : State := { front (.tabort {}) with tasks := [(0, (0, running)), (1, (0, child))], nextTask := 2 }
    Issues (.tabort {}) s ∧ s.myTask = some (0, running) ∧ mayFinish s ∧ (1, child) ∈ s.tasksOf 0 ∧
    (∀ z ∈ s.tasksOf 0, z ≠ (1, child) → z.2.parent ≠ some 0 ∧ z.2.parent ≠ some 1 ∧ z.1 ≠ 1 ∧ 1 ∉ z.2.srcs) := by
  intro s
  exact ⟨by simp only [issues_iff]; decide, by decide, fun k h => Or.inl (by
    have : s.myTask = some (0, running) := by decide
    rw [this] at h; cases h; decide), by decide, by decide⟩

/-! ### Surveys -/

/-- A launch of four workgroups along F2 with groups 0 (members 0 and 1, every die), 1 (members 0 to 2) and 2 (member 3). -/
def launchV : Launch :=
  { launch0 with widths := [5, 0, 2, 0, 0, 0], exts := [32, 1, 4, 1, 1, 1], nextWg := 3, total := 4,
                 survey := [(0, { lo := 0, hi := 2, die := 4, fld := 0 }), (1, { lo := 0, hi := 3, die := 0, fld := 0 }), (2, { lo := 3, hi := 4, die := 4, fld := 0 })] }
/-- Lanes 0 and 2 active; leaves at 0x40 and 0x44 of group 0 (v2), of group 1 (v4), of group 2 (v6), of an undefined group (v8), of
two groups (v10), past the allocation (v12); v14 poisoned, v16 no survey address, v18 misaligned. -/
def warpV2 : Warp := { warp0 with
  exec := 5, vP := [(14, 1)], sP := 0x100, s := [(2, 1), (3, 4), (4, 5)],
  v := [(256, 0x40), (258, 0x44), (384, 0xA0000000), (386, 0xA0000000), (512, 0x40), (514, 0x44), (640, 0xA0000001), (642, 0xA0000001),
        (768, 0x40), (770, 0x44), (896, 0xA0000002), (898, 0xA0000002), (1024, 0x40), (1026, 0x44), (1152, 0xA000000F), (1154, 0xA000000F),
        (1280, 0x40), (1282, 0x44), (1408, 0xA0000000), (1410, 0xA0000001), (1536, 0x40), (1538, 0x10000), (1664, 0xA0000000), (1666, 0xA0000000),
        (2304, 0x42), (2306, 0x44), (2432, 0xA0000000), (2434, 0xA0000000)] }
/-- Member 1 of the launch, in its scratchpad or parked; member 2 has retired, member 3 has not started. -/
def member1 (st : GState) : Group := { lid := 0, linear := 1, f := [1, 0, 0, 0], core := 64, state := st, scratch := [(0x40, 5), (0x44, 6)], first := false }
def surveyed (i : Instr) (st : GState := .resident) (w : Warp := warpV2) : State :=
  { machine i w { group0 with scratch := [(0x40, 1), (0x45, 2)] } launchV with groups := [(0, { group0 with scratch := [(0x40, 1), (0x45, 2)] }), (1, member1 st)] }
def sv (a : Src) (fn : BitVec 7 := 0x18) : EOp := { fn := fn, dst := .v 30, a := a }

theorem witness_SurveyInstructions :
    (∀ i ∈ [Instr.svgrp { fn := 0x40, a := .k 0, b := .s 2, frame := fr 3 }, .svgrp { fn := 0x40, a := .s 2, b := .s 3, frame := fr 0 }, .svgrp { fn := 0x40, a := .s 8, b := .s 2 },
      .svgrp { fn := 0x40, a := .k 0, b := .s 8 }, .svgrp { fn := 0x40, a := .s 2, b := .s 4 }, .svgrp { fn := 0x10, a := .k 0, b := .s 3 }, .svgrp { fn := 0x10, a := .k 1, b := .k 1 },
      .svgrpClr { fn := 2, frame := fr 1 }, .svgrpClr { fn := 2, frame := fr 15 }, .svinfo { dst := .s 12, frame := fr 0 }, .svinfo { dst := .s 12, frame := fr 2 },
      .svinfo { dst := .s 12, frame := fr 9 }, .svld (sv (.v 2)), .svld (sv (.v 2) 0x08), .svld (sv (.v 4)), .svld (sv (.v 6)), .svld (sv (.v 8)), .svld (sv (.v 10)),
      .svld (sv (.v 12)), .svld (sv (.v 14)), .svld (sv (.v 16)), .svld (sv (.v 18))],
      Issues i (surveyed i) ∧ Issues i (surveyed i .parked) ∧ Issues i (surveyed i .saving) ∧ Issues i (machine i warpV2 group0 taskLaunch)) ∧
    Issues (.svld (sv (.v 2))) (surveyed (.svld (sv (.v 2))) .resident { warpV2 with exec := 0 }) ∧
    Issues (.svld (sv (.v 2))) (surveyed (.svld (sv (.v 2))) .resident
      { warpV2 with flight := [{ id := 5, vec := true, base := 9, count := 1, vals := [], survey := true }] }) := by
  simp only [issues_iff]; decide

theorem witness_SurveyInstructions_members :
    let s := surveyed (.svld (sv (.v 2)))
    surveyMembers s.env.l s.env.g { lo := 0, hi := 2, die := 4, fld := 0 } = [0, 1] ∧
    s.member 0 0 = .here 0 s.myGroup ∧ s.member 0 1 = .here 1 (member1 .resident) ∧ s.member 0 2 = .retired ∧ s.member 0 3 = .unstarted ∧
    svBad s 0 3 [.here 0 s.myGroup, .here 1 (member1 .resident)] [(0, 0x40), (2, 0x44)] = none ∧
    (svBad s 0 3 [.here 0 { s.myGroup with badWords := [(16, 3)] }, .here 1 (member1 .resident)] [(0, 0x40), (2, 0x44)]).isSome = true := by decide

/-! ### Collectives -/

/-- TIDs: 1 FP32 4 × 32, 2 BF16, 3 rank 3, 4 FP32 row of 16, 5 INT32 counts, 9 unset. -/
def launchC : Launch :=
  { launch0 with coll := true, tids := [(1, descOf 1 2 32 4), (2, descOf 3 2 32 4), (3, descOf 1 3 32 4), (4, descOf 1 1 16 0), (6, descOf 1 2 32 3)] }
/-- A descriptor in s32 to s39: two peers from rank 0 on, its counter at 0x2000; s40 to s47 one that breaks FIRST's bits; s48 to s55 one
whose counter is no multiple of 4. -/
def warpQ : Warp := { warp0 with s := [(33, 1), (34, 2), (36, 0x2000), (40, 0x10000), (41, 1), (42, 2), (49, 1), (50, 2), (52, 0x2001)] }
def groupQ (sc : Nat) : Group :=
  { group0 with tiles := [(1, { off := 0, tid := 1, st := .ready })], scratch := (((List.range 8).zip (leBytes ({ epoch := 0, sc := sc, expw := 1, pendw := 1, res := 0, tok := 0 : PBar }.toNat) 8)).filter fun x => x.2 != 0) }
def calling (i : Instr) (w : Warp := warpQ) (g : Group := groupQ 6) (l : Launch := launchC) : State :=
  { machine i w g l with vis := [(0, { domSize := 4 })] }
def co (tid : BitVec 8) (a : Src := .s 32) (pb : BitVec 18 := 0) : EOp := { a := a, frame := some { tid := tid, pbv := true, pb := pb } }

theorem witness_CollectiveInstructions :
    (∀ i ∈ [Instr.collAllreduce (co 1), .collReducescatter (co 1), .collAllgather (co 1), .collBroadcast (co 1), .collAllreduce (co 9), .collAllreduce (co 1 (.s 40)),
      .collReducescatter (co 6), .collAllreduce (co 2), .collAllreduce (co 1 (.s 32) 2048), .collAllreduce (co 1 (.s 48)), .collAllreduce (co 3)],
      Issues i (calling i) ∧ Issues i (calling i { warpQ with cont := .met }) ∧ Issues i (calling i warpQ (groupQ 2)) ∧
      Issues i (calling i warpQ (groupQ 7) launch0) ∧ Issues i (calling i warpQ (groupQ 7) { launchC with kind := .task }) ∧
      Issues i (calling i { warpQ with sP := 0x8000000000 })) := by
  simp only [issues_iff]; decide

/-- A2AV; a tile as operand that is READY; a meeting open at another PC, and at this one. -/
theorem witness_CollectiveInstructions_more :
    let l : Launch := { launchC with tids := [(1, descOf 1 2 32 4), (2, descOf 1 2 32 8), (5, descOf 1 1 7 0)] }
    let a : Instr := .collA2av { fn := 0x40, a := .s 32, frame := some { tid := 1, pbv := true, aux := 0x502 } }
    let t : Instr := .collAllreduce { a := .s 32, frame := some { pbv := true, tileA := 1, aux := 0x10000 } }
    let m (pc : DWord) : Group := { groupQ 6 with meet := some { pc := pc, desc := (List.range 8).map fun j => warpQ.sreg (32 + j), slot := 3, issued := [7], op := {}, kind := 0 } }
    let w : Warp := { warpQ with s := [(33, 1), (34, 2)] }
    Issues a (calling a w (groupQ 6) l) ∧ a2avFormatBad 2 l 1 2 5 = none ∧ collDescBad { domSize := 4 } 4 false ((List.range 8).map fun j => w.sreg (32 + j)) = none ∧
    Issues t (calling t w) ∧ IsReady (calling t w) 1 ∧
    Issues (.collAllreduce (co 1)) (calling (.collAllreduce (co 1)) warpQ (m 0x10000)) ∧
    Issues (.collAllreduce (co 1)) (calling (.collAllreduce (co 1)) warpQ (m 0x10010)) := by
  simp only [issues_iff, isReady_iff]; decide +kernel

/-! ### System instructions -/

/-- The table that `page0` stands for: three levels from 0x1000, whose last maps the first GiB to itself, writable. -/
def tables : Memory := [(0x1000, 0x01), (0x1001, 0x20), (0x2000, 0x01), (0x2001, 0x30), (0x3000, 0x13)]
/-- One hint record at 0x6000: 0x5000 to 0x15000. -/
def hinted : Memory := tables ++ [(0x6001, 0x50), (0x6008, 0x05), (0x600C, 1)]
def system' (i : Instr) (v : Vi) (w : Warp := warpT) (l : Launch := launch0) : State := { machine i w group0 l with vis := [(0, v)], mem := hinted, clock := 0x123456789A }
def vi0 : Vi := { troot := [(0, 0x1000)], cores := 1, counters := [(0x10, 77)], hintBase := 0x6000, hintCnt := 1, mkBase := 0x7000, mkSize := 16, mkHead := 17, domSize := 9, domRank := 4, domCtl := 3 }
def cn (n die : Nat) : EOp := { dst := .s 4, frame := some { aux := BitVec.ofNat 17 (n + 256 * die) } }

/-- A table whose second record covers the address, its first word uncorrectable or its stack not ready. -/
def hinted2 : State :=
  { system' (.hintq { dst := .s 24, a := .s 6 }) { vi0 with hintCnt := 2 } with mem := tables ++ [(0x6018, 0x11), (0x601C, 4)] }
theorem witness_SystemInstructions_hints :
    (∀ s ∈ [hinted2, { hinted2 with bad := [0xC00] }, { hinted2 with ready := 0 }], Issues (.hintq { dst := .s 24, a := .s 6 }) s) ∧
    (∃ ls, hinted2.routeRange 0 0 0 0x6000 16 = .cells ls ∧ hinted2.readBad 0 ls = none ∧ ls = (List.range 16).map (0x6000 + ·)) ∧
    (({ hinted2 with bad := [0xC00] } : State).readBad 0 ((List.range 16).map (0x6000 + ·))).isSome = true ∧
    (match ({ hinted2 with ready := 0 } : State).routeRange 0 0 0 0x6000 16 with | .walk _ => true | _ => false) = true := by
  simp only [issues_iff]
  exact ⟨by decide, ⟨_, by decide +kernel, by decide, rfl⟩, by decide, by decide +kernel⟩

theorem witness_SystemInstructions :
    (∀ i ∈ [Instr.collq { dst := .s 4 }, .stake { dst := .s 4, frame := some { aux := 3 } }, .stake { dst := .s 4, a := .s 20 }, .stake { dst := .s 4, a := .s 8 }, .stakeq { dst := .s 4 },
      .cntrd (cn 0 0), .cntrd (cn 0x10 1), .cntrd (cn 0x42 4), .cntrd (cn 6 0), .cntrd (cn 0 5), .clkrd { dst := .s 4 }, .clkrdTag { fn := 1, dst := .s 4 },
      .hintq { dst := .s 24, a := .s 6 }, .hintq { dst := .s 24, a := .s 16 }, .hintq { dst := .s 24, a := .s 4 }, .hintq { dst := .s 24, a := .s 8 }, .dbgmark { frame := some { aux := 0xFFFF } },
      .dbgmark { a := .s 8 }],
      Issues i (system' i vi0) ∧ Issues i (system' i {}) ∧ Issues i (system' i { vi0 with troot := [] }) ∧ Issues i (system' i vi0 warpT persistent)) := by
  simp only [issues_iff]; decide

/-! ## Witnesses: events of a core, of memory and of the engines (O40 to O43) -/

/-- The machine with warp 0 as `w` in slot 0 of core 0, interface 0 as `v` and the first GiB in the die's cache, executable. -/
def slot0 (w : Warp) (v : Vi := vi0) (l : Launch := launch0) : State :=
  { machine .sleepExpire w group0 l with vis := [(0, v)], dies := [(0, { tlb := [{ page0 with leaf := 0x33 }] })], mem := tables, clock := 100 }
/-- A record and a ring of 16 whose head has wrapped. -/
def record0 : TrapRec := { code := 9, len := 8, slot := 3, core := 1, pc := 0x10008, lanes := 5, info0 := 7, info1 := 8, clock := 99 }
def ringVi : Vi := { vi0 with trHeld := [record0], trBase := 0x7000, trSize := 16, trHead := 0xFFFFFFFF, trTail := 0xFFFFFFF0 }
/-- A vector and a scalar producer. -/
def vecProd : Producer := { id := 5, vec := true, base := 9, count := 2, vals := [{ key := 128 * 9 + 3, val := 7, poison := false }, { key := 128 * 10, val := 8, poison := true }] }
def sclProd : Producer := { id := 6, vec := false, base := 4, count := 1, vals := [{ key := 4, val := 9, poison := true }] }
def flying : Warp := { warp0 with vE := 0x600, sE := 0x10, flight := [vecProd, sclProd] }

def coreStates : List State :=
  [slot0 warp0, slot0 { warp0 with elig := 32 }, { slot0 flying with ev := { id := 5 } }, { slot0 flying with ev := { id := 6 } }, slot0 { warp0 with status := .penalty 100 },
   slot0 { warp0 with status := .penalty 101 }, slot0 { warp0 with status := .asleep 100 }, slot0 { warp0 with status := .asleep 101 },
   { slot0 { warp0 with status := .held (.icinv .core []), loopBuf := [1] } with cores := [(0, { icache := [(0x800, 1)] }), (1, { icache := [(0x800, 1)] })] },
   slot0 { warp0 with status := .exited }, slot0 warp0 ringVi, { slot0 warp0 with bad := [0x2001] }, { slot0 warp0 ringVi with clock := 99 }]

theorem witness_CoreEvents :
    let s (n : Nat) : State := coreStates.getD n {}
    (∀ x ∈ coreStates, tget x.slots 0 = some 0 ∧ (tget x.warps 0).isSome = true) ∧
    ((s 0).issuable warp0 = true ∧ (s 0).fetchFor 0 = .miss warp0 ∧ (s 0).fetchRoute 0 0 warp0.pc ≠ .walk 0 ∧
      (match (s 0).fetchRoute 0 0 warp0.pc with | .cells _ => true | _ => false) = true) ∧
    (32 ≤ ((s 1).warp 0).elig ∧ ((s 2).warp 0).flight = [vecProd, sclProd] ∧ ([vecProd, sclProd].map Producer.id).Nodup) ∧
    ((s 4).clock = 100 ∧ ((s 8).warp 0).status = .held (.icinv .core []) ∧ ((s 9).warp 0).status = .exited ∧ ((s 9).warp 0).flight = []) ∧
    ((ringVi.trHead - ringVi.trTail).toNat < ringVi.trSize.toNat ∧
      (match (s 10).routeRange 0 0 1 (ringVi.trBase + BitVec.ofNat 64 (64 * (ringVi.trHead.toNat % ringVi.trSize.toNat))) 64 with | .cells _ => true | _ => false) = true ∧
      record0.clock < (s 10).clock ∧ (s 12).clock ≤ record0.clock) ∧
    (((s 11).readBad 0 ((List.range 32).map (0x10000 + ·))).isSome = true ∧ (s 0).fetchRoute 0 0 warp0.pc = .cells ((List.range 32).map (0x10000 + ·)) ∧
      (s 11).taskOf 0 0 = none) := by
  decide

/-- An entry for sector 3 of a stack of another die, and a later one; a walk of the tables at 0x1000; an invalidation. -/
def entry0 : WEntry := { id := 4, sector := 3, mask := 0x80000001, data := 0xFF000000000000000000000000000000000000000000000000000000000000AA, mark := none, host := false, vi := 0 }
/-- A copy that has asked peers for its row. -/
def asked0 : CopyCmd :=
  { id := 3, warp := 0, slot := 0, gid := 0, out := false, keep := false, tile := 2, off := 128, tensor := 0, tdesc := 0, regs := [], pb := none, pc := 0x10000,
    len := 16, asked := true }
def memoryStates : List State :=
  [{ slot0 warp0 with cores := [(0, { l1 := [(3, { valid := 0xFF, dirty := 0x81, data := 0x1100000000000022 })] })], ev := { addr := 3 } },
   { slot0 warp0 with dies := [(1, { wbuf := [entry0, { entry0 with id := 5, mask := 2 }] })], ev := { die := 1, id := 4 } },
   slot0 { warp0 with status := .held (.release [7]) },
   { slot0 { warp0 with status := .held (.walks [2, 3]) } with dies := [(0, { walks := [{ id := 2, warp := 0, vi := 0, va := 0x5000, acc := 0 }] })], ev := { id := 2 } },
   { slot0 { warp0 with status := .held (.walks [2]) } { vi0 with troot := [(0, 0x10000000000)] } with dies := [(0, { walks := [{ id := 2, warp := 0, vi := 0, va := 0x5000, acc := 0 }] })], ev := { id := 2 } },
   { slot0 { warp0 with status := .held (.walks [2]) } with dies := [(0, { walks := [{ id := 2, warp := 0, vi := 0, va := 0x5000, acc := 0 }] })], ev := { id := 2 }, ready := 0 },
   slot0 { warp0 with lastPage := [(3, page0)] } { vi0 with invGo := true, invStart := 0x10000, invCount := 1 },
   slot0 warp0,
   { slot0 warp0 with hostq := [{ entry0 with sector := hostBase / 32 + 3, host := true }, { entry0 with id := 5, sector := hostBase / 32 + 3, mask := 2, host := true }], ev := { id := 4 } },
   { slot0 warp0 { vi0 with invGo := true, invCount := 16 } with cores := [(0, { copyq := [{ asked0 with pages := [page0] }] })] },
   { slot0 warp0 { vi0 with invGo := true, invCount := 16, flits := [{ rank := 1, ctr := 0, kind := .readRequest, copy := some (0, 3) }] } with
     cores := [(0, { copyq := [{ asked0 with pages := [page0] }] })] }]

theorem witness_MemoryEvents :
    let s (n : Nat) : State := memoryStates.getD n {}
    caches (s 0) = true ∧ entry0 ∈ ((s 1).die 1).wbuf ∧ (((s 1).die 1).wbuf.map WEntry.id).Nodup ∧
    ((∀ e ∈ ((s 2).die 0).wbuf, e.id ∉ [7]) ∧ (s 2).copyingOut 0 = false) ∧
    ((s 3).walk 0 0 0x5000 ≠ .hole ∧ (s 3).walk 0 0 0x5000 ≠ .pending ∧ (s 4).walk 0 0 0x5000 = .hole ∧ (s 5).walk 0 0 0x5000 = .pending) ∧
    (((s 6).vi 0).invGo = true ∧ (∀ k ∈ (s 6).cores, ∀ m ∈ k.2.mvbs, ∀ x ∈ m.pages, ((s 6).vi 0).sweeps 0 x = false) ∧ ((s 7).vi 0).invGo = false) ∧
    (((s 8).hostq.map WEntry.id).Nodup ∧ caches (s 8) = true ∧ (∀ k ∈ (s 9).warps, k.2.staleAccess ((s 9).vi 0) 0 = false) ∧
      (∃ k ∈ (s 9).cores, ∃ m ∈ k.2.copyq, ∃ x ∈ m.pages, ((s 9).vi 0).sweeps 0 x = true) ∧ ((s 9).vi 0).flits = [] ∧
      ∃ f ∈ ((s 10).vi 0).flits, f.copy = some (0, 3)) := by
  decide

/-- `NextMat` as a computation. -/
def nextMat (s : State) (c : MatCmd) (g : Group) : Bool :=
  decide (c ∈ (s.core s.ev.core).matq) && decide (c.id = s.ev.id) && decide ((s.core s.ev.core).matq.map MatCmd.id).Nodup &&
  ((s.core s.ev.core).matq.all fun d => !c.follows d) && decide (tget s.groups c.gid = some g) && !c.suspended &&
  decide (g.badWords = [])

theorem nextMat_of {s : State} {c : MatCmd} {g : Group} (h : nextMat s c g = true) : NextMat s c g := by
  simp only [nextMat, Bool.and_eq_true, decide_eq_true_eq, List.all_eq_true, Bool.not_eq_true'] at h
  obtain ⟨⟨⟨⟨⟨⟨h1, h2⟩, h3⟩, h4⟩, h5⟩, h6⟩, h7⟩ := h
  exact ⟨h1, h2, h3, h4, h5, h6, h7⟩

/-- Commands of each kind in group `groupE`: descriptors 16 × 32 in F32. -/
def cmd0 (k : MatKind) : MatCmd := { id := 3, warp := 0, gid := 0, kind := k, fmt := .f32, acc := 2, tileA := some 1, tileB := some 1, descA := descOf 1 2 32 16, descB := descOf 1 2 32 16 }
def square : MatCmd := { cmd0 .accld with descA := descOf 1 2 64 64 }
def matState (c : MatCmd) (w : Warp := warp0) : State :=
  { machine .mmatComplete w { groupE with scratch := [(3, 0x3F), (66, 0x80), (67, 0x40)], acc := [(16384, 1)] } launchE with cores := [(0, { matq := [c, { cmd0 .mmat with id := 9 }] })], ev := { id := 3 } }
/-- ACCRD and its producer. -/
def reader : MatCmd := { cmd0 .accrd with prod := 7, exec := 0xFFFFFFFF }
def blockProd : Producer := { id := 7, vec := true, base := 16, count := 8, vals := [], engine := true }
def readState : State := { matState reader { warp0 with vE := 0xFF0000, flight := [blockProd] } with ev := { id := 7 } }
/-- A check that has finished. -/
def check0 : Check := { id := 2, core := 0, vi := 0, cfg := { l := 4, base := 0x7000, size := 16 }, acc := 2, seq := 16, wid := 0x1234, abs := 5, rel := 6 }
def checkState : State := { slot0 warp0 with checks := [check0], ev := { id := 2 }, mem := tables ++ [(0x7000, 17)] }

theorem witness_MatrixEvents :
    (∀ c ∈ [cmd0 .mmat, cmd0 .accz, square, { cmd0 .accst with descA := descOf 1 2 64 64 }, { cmd0 .accst with tileA := some 12 }], nextMat (matState c) c (matState c).myGroup = true) ∧
    16 * (cmd0 .mmat).co + tileRows (cmd0 .mmat).descB ≤ 64 ∧ tileRows square.descA = 64 ∧ tileCols square.descA = 64 ∧
    (tget (matState square).myGroup.tiles 1).isSome = true ∧ tget (matState square).myGroup.tiles 12 = none ∧
    (reader ∈ (readState.core 0).matq ∧ tget readState.slots 0 = some 0 ∧ (∀ d ∈ (readState.core 0).matq, reader.follows d = false) ∧ blockProd ∈ (readState.warp 0).flight) ∧
    (match checkState.routeRange 0 0 1 0x7000 8, checkState.routeRange 0 0 1 (0x7000 + BitVec.ofNat 64 (64 + 32 * (17 % 16))) 32 with | .cells _, .cells _ => true | _, _ => false) = true ∧
    (match ({ checkState with ready := 0 } : State).routeRange 0 0 1 0x7000 8 with | .walk _ => true | _ => false) = true := by
  decide +kernel

/-- An MVB of a row of 32 F32 into registers and into tile 11; TIDSET of a descriptor in the scratchpad and in memory, a valid one and one
of rank 0; copies that complete, that arrive at a phase barrier and that meet a hole in the tables. -/
def mvb0 : MvbCmd :=
  { id := 3, warp := 0, gid := 0, home := 0, desc := descOf 1 2 32 100 0x100000 128, row0 := 2, rd := true, prod := 7, yTile := 11, yOff := 0x800, yRows := 4,
    xTile := 6, xOff := 0, xDesc := descOf 1 1 32 0, exec := 0x80000001, pages := [page0] }
def mvbState (c : MvbCmd) : State :=
  { slot0 { warp0 with flight := [{ blockProd with count := 1 }], vE := 0x10000 } vi0 launchE with
    groups := [(0, { groupE with scratch := [(3, 0x3F), (66, 0x80), (67, 0x40)] })], cores := [(0, { mvbs := [c] })], ev := { id := 3 } }
def tidWord : Cur := { warp := 0, len := 16, bits := encodeBits (.tidset { a := .s 4, frame := fr 0 5 }), adv := 16 }
def heldWarp (a : Nat) (scratch : Bool) : Warp := { warp0 with status := .held (.tidset a scratch), word := some tidWord }
def desc8 (rank : Nat) : List Byte := leBytes (descOf 1 rank 32 64).toNat 128
def bytesAt (a : Nat) (bs : List Byte) : Memory := (((List.range bs.length).map (a + ·)).zip bs).filter fun x => x.2 != 0
def tidState (rank : Nat) (scratch : Bool) : State :=
  if scratch then { slot0 (heldWarp 64 true) with groups := [(0, { group0 with scratch := bytesAt 64 (desc8 rank) })] }
  else { slot0 (heldWarp 0x6000 false) with mem := tables ++ bytesAt 0x6000 (desc8 rank) }
/-- 2 rows of 16 F32 from 0x6000 to tile 2 at 128. -/
def copy0 (out : Bool) (pb : Option Nat) (base : Nat := 0x6000) : CopyCmd :=
  { id := 3, warp := 0, slot := 0, gid := 0, out := out, keep := false, tile := 2, off := 128, tensor := descOf 1 2 16 2 base 64, tdesc := descOf 1 2 16 2,
    regs := [0, 0, 0, 0, 0, 0, 0, 0, 0, 0x01011001, 0, 0, 0, 0, 0, 0], pb := pb, pc := 0x10000, len := 16 }
def copyState (c : CopyCmd) : State :=
  { slot0 warp0 vi0 launchE with
    groups := [(0, { groupE with scratch := bytesAt 0 (leBytes ({ epoch := 1, sc := 6, expw := 1, pendw := 0, res := 0, tok := 1 : PBar }.toNat) 8) ++ [(130, 9), (200, 0x11)] })],
    mem := tables ++ [(0x6001, 0x12), (0x6041, 0x34)], cores := [(0, { copyq := [c] })], ev := { id := 3 } }

/-- Tables of five levels: the first 64 KiB at home, the next at peer 1. -/
def peerTables : Memory :=
  [(0x1000, 0x01), (0x1001, 0x20), (0x2000, 0x01), (0x2001, 0x30), (0x3000, 0x01), (0x3001, 0x40), (0x4000, 0x01), (0x4001, 0x50), (0x5000, 0x13),
   (0x5008, 0x13), (0x5009, 0x01), (0x500E, 0x10)]
def peerCopy (c : CopyCmd) : State :=
  { copyState c with vis := [(0, { vi0 with domSize := 4 })], dies := [(0, { tlb := [] })], mem := peerTables }

theorem witness_CopyEvents :
    (mvbState mvb0).partReady 0 = true ∧ tget (mvbState mvb0).groups 0 ≠ none ∧ ((mvbState mvb0).warp 0).flight ≠ [] ∧
    (tget (mvbState { mvb0 with rd := false }).myGroup.tiles 11).isSome = true ∧
    ((tidState 2 true).group 0).scratch.bytes 64 128 = desc8 2 ∧ descFault (BitVec.ofNat 1024 (bitsOfBytes (desc8 2))) = none ∧
    descFault (BitVec.ofNat 1024 (bitsOfBytes (desc8 0))) ≠ none ∧ (tidState 0 true).taskOf 0 0 = none ∧
    ((copyState (copy0 false none)).copyReady = some (copy0 false none) ∧ (copyState (copy0 true (some 0))).copyReady = some (copy0 true (some 0))) ∧
    (((copyState (copy0 false none)).runCopy (copy0 false none)).2.2 = none ∧ ((copyState (copy0 true (some 0))).runCopy (copy0 true (some 0))).2.2 = none ∧
      ((copyState (copy0 false none 0x80000000)).runCopy (copy0 false none 0x80000000)).2.2 ≠ none) ∧
    ((copyState (copy0 false none)).runCopy (copy0 false none)).2.1 = iterations (copy0 false none).regs ∧ (copyState (copy0 false none)).bufferOf 0 0 = none ∧
    ((copyState (copy0 true (some 0))).core 0).issueClock ≠ (copyState (copy0 true (some 0))).clock ∧
    (peerCopy (copy0 false none 0x10000)).copyReady = some (copy0 false none 0x10000) ∧
    ((peerCopy (copy0 false none 0x10000)).runCopy (copy0 false none 0x10000)).2.2 = some .ask ∧
    (let s : State := { mvbState mvb0 with bad := [0x20020] }
     s.mvbBad s.myGroup mvb0 (s.launchOf 0).w).isSome = true := by
  decide +kernel

theorem witness_CopyEvents_memory :
    (let s := tidState 2 false
     descRoutes s { w := s.warp 0, g := s.group 0, l := s.launchOf 0 } (BitVec.ofNat 64 0x6000)).all (fun r => match r with | .cells _ => true | _ => false) = true := by
  decide +kernel

/-! ## Witnesses: events of the rotation, task, collective engines and of the fabric (O44 to O47) -/

/-- A launch with one barrier of level 3, two workgroups, save areas at 0x200000 and core 0. -/
def launchR : Launch :=
  { launch0 with widths := [5, 1, 1, 0, 0, 0], exts := [32, 2, 2, 1, 1, 1], monuC := [1], mon := [(0, { arrived := 1, expect := 2 })],
                 save := 0x200000, savePer := 54, pslots := 2, total := 2, quantum := 50 }
/-- The same without barriers of level 3. -/
def launchSv : Launch := { launchR with monuC := [], mon := [] }
/-- Workgroup 0 with warps 0 and 1 in state `st`; warp 0 as given. -/
def rotating (g : Group) (w : Warp := warp0) (w' : Warp := { warp0 with f1 := 1, place := some (0, 1) }) (l : Launch := launchR) (v : Vi := vi0) : State :=
  { machine .workgroupRetire w g l with
    groups := [(0, { g with warps := [0, 1] })], warps := [(0, w), (1, w')], slots := [(0, 0), (1, 1)], nextWarp := 2,
    vis := [(0, { v with queues := [(0, { packet := some (.launch false), lid := some 0 })] })], mem := tables ++ bytesAt 0x200000 (leBytes 1 4), clock := 100 }
def ended : Warp := { warp0 with status := .exited, place := none }
def waiting0 (woken : Bool) : Warp := { warp0 with status := .waiting (.barrier 2 0 false), woken := woken }
def restoring0 (first : Bool) : Group := { group0 with state := .restoring, first := first, tiles := [(1, { off := 0, tid := 1, st := .ready })] }
/-- The machine with no page for the save areas. -/
def noTables (s : State) : State := { s with vis := [(0, { s.vi 0 with troot := [(0, 0x4000)] })] }
def parked0 : Group := { group0 with state := .parked, parkClock := 0 }
def outside0 : Warp := { warp0 with place := none }

def saving0 (g : Group) : State := rotating g warp0 { warp0 with f1 := 1, place := some (0, 1) } launchSv

/-- A launch whose workgroups fit on a core one at a time, and one that waits there. -/
def wideLaunch : Launch := { launchR with partw := BitVec.ofNat 32 (60 + 4 * 2 ^ 7 + 4 * 2 ^ 14) }
def waitingWide : State := rotating { group0 with resSince := 50 } (waiting0 false) { waiting0 false with f1 := 1, place := some (0, 1) } wideLaunch
def onBarrier : Warp := { warp0 with status := .waiting (.barrier 3 0 false) }
def launchP : Launch := { launchR with nextWg := 2 }
def outside1 : State := { rotating parked0 outside0 { outside0 with f1 := 1, status := .exited } launchP with slots := [] }

/-- The waiting workgroup is to park for workgroup 1, which claims its core. -/
def claim0 : Claim := { victim := 0, core := 0, parked := false, n := 1 }
def parking0 (woken : Bool) (l : Launch) (c : Option Claim := some claim0) : State :=
  rotating { group0 with parking := true, wasWaiting := true } (waiting0 woken) { waiting0 false with f1 := 1, place := some (0, 1) }
    { l with claim := c }

def rotationStates : List State :=
  [rotating { group0 with arrived := [48] } ended ended, rotating { group0 with parking := true, wasWaiting := true } (waiting0 true),
   rotating { group0 with parking := true } (waiting0 false), saving0 { group0 with state := .saving },
   noTables (saving0 { group0 with state := .saving }), rotating (restoring0 true), saving0 (restoring0 false),
   { saving0 (restoring0 false) with bad := [0x201000 / 8] }, rotating { group0 with resSince := 50 }, rotating { group0 with resSince := 51 },
   rotating group0, outside1, rotating group0 { warp0 with plumb := { recognised := true, sectors := [9] } }, waitingWide,
   { outside1 with ctl := { outside1.ctl with running := { saves := [2] } } },
   { rotating group0 with launches := [(0, { launchR with claim := some { victim := 7, core := 0, parked := false, n := 1 } })] },
   rotating { group0 with state := .saving } onBarrier, parking0 false wideLaunch, parking0 true wideLaunch,
   parking0 false wideLaunch none, parking0 false launchR,
   rotating group0 { warp0 with status := .halted 5, plumb := { recognised := true, sectors := [9] } },
   rotating group0 { warp0 with status := .penalty 500, plumb := { recognised := true, sectors := [9], hit := true } }]

theorem witness_RotationEvents :
    let s (n : Nat) : State := rotationStates.getD n {}
    let g (n : Nat) : Group := (s n).group 0
    let l (n : Nat) : Launch := (s n).launchOf 0
    (∀ n < 23, (tget (s n).groups 0).isSome = true ∧ (s n).rampOk 0 0 launchR.granules = true) ∧
    ((s 0).engineIdle 0 = true ∧ (s 0).surveyed (g 0) = false ∧ (l 0).killed = false ∧ (l 0).barriers.filter (fun b => decide (3 ≤ b.1)) = [(3, 0)] ∧
      ∀ id ∈ (g 0).warps, ((s 0).warp id).status = .exited ∧ ((s 0).warp id).place = none) ∧
    ((s 1).wakes (g 1) = true ∧ ((g 17).wasWaiting && (s 17).wakes (g 17)) = false ∧ (s 17).liveWarps (g 17) ≠ [] ∧ (s 17).atPoint 0 (g 17) = true ∧
      caches (s 17) = true ∧ (l 17).claim = some claim0 ∧ (∃ k ∈ [1, 2, 3], (k, claim0.absent) ∈ (s 17).runnable 0) ∧
      (s 17).chooseCore (l 17) claim0.absent = none ∧ (s 18).wakes (g 18) = true ∧ (l 18).claim = some claim0 ∧ (l 19).claim = none ∧
      (s 20).chooseCore (l 20) claim0.absent ≠ none) ∧
    ((s 21).warp 0).status = .halted 5 ∧ ((s 22).warp 0).plumb.hit = true ∧
    ((l 8).kind = .full ∧ (g 8).resSince + (l 8).quantum ≤ (s 8).clock ∧ (s 9).clock < (g 9).resSince + (l 9).quantum) := by
  decide +kernel

theorem witness_RotationEvents_places :
    let s (n : Nat) : State := rotationStates.getD n {}
    let g (n : Nat) : Group := (s n).group 0
    let l (n : Nat) : Launch := (s n).launchOf 0
    ((s 10).claimDue 0 (l 10) = none ∧ (s 10).runnable 0 = [(2, .unstarted 1)] ∧ (s 10).chooseCore (l 10) (.unstarted 1) ≠ none ∧
      (s 11).claimDue 0 (l 11) = none ∧ (s 11).runnable 0 = [(2, .parked 0)] ∧ (s 11).chooseCore (l 11) (.parked 0) ≠ none ∧
      (s 11).neverRestorable (l 11) 0 = 0) ∧
    ((s 13).claimDue 0 (l 13) = none ∧ (s 13).runnable 0 = [(2, .unstarted 1)] ∧ (s 13).chooseCore (l 13) (.unstarted 1) = none ∧
      (s 13).victim 0 (l 13) (.unstarted 1) = some 0 ∧ (s 14).neverRestorable (l 14) 0 ≠ 0 ∧ ((s 15).claimDue 0 (l 15)).isSome = true) ∧
    ((s 16).parkedOn (g 16) = [(3, 0)] ∧ (s 3).parkedOn (g 3) = [] ∧ ((s 12).warp 0).plumb.recognised = true) := by
  decide +kernel

theorem ready_gated (s : State) (h : s.ready = BitVec.allOnes 57) (r : Route) (va : Nat) : s.gated r va = r := by
  have part (a : Nat) : s.partReady a = true := by
    have : a / 2 ^ 36 % 16 < 16 := Nat.mod_lt _ (by decide)
    unfold State.partReady
    rw [h, BitVec.getLsbD_allOnes, decide_eq_true_eq]
    split <;> omega
  unfold State.gated
  split
  · rw [if_pos (by simp [part])]
  · rfl

/-- Every unit of a save area is reached where its page is translated by a writable leaf of this die's memory. -/
theorem units_reached (s : State) (l : Launch) (g : Group) (acc : Nat) (x : Xlat) (h : s.ready = BitVec.allOnes 57)
    (hx : x.leaf.getLsbD 6 = false ∧ x.leaf.getLsbD 4 = true ∧ (x.leaf.extractLsb' 7 2).toNat = 0)
    (hu : ∀ u < l.savePerRule, let a := l.saveAddr g.pool + BitVec.ofNat 64 (4096 * u)
      canonical a = true ∧ s.walk l.vi 0 (vaOf a) = .ok x ∧ a.toNat % 65536 ≤ 61440) :
    ∀ u < l.savePerRule, ∃ ls, s.saveRoute l g 0 acc (4096 * u) 4096 = .cells ls := by
  intro u hlt
  obtain ⟨hc, hw, ha⟩ := hu u hlt
  have e : min 4096 (65536 - (l.saveAddr g.pool + BitVec.ofNat 64 (4096 * u)).toNat % 65536) = 4096 := by omega
  have r : ∃ ls, s.routeEngine l.vi 0 acc 4096 (l.saveAddr g.pool + BitVec.ofNat 64 (4096 * u)) = .cells ls := by
    unfold State.routeEngine
    rw [if_pos hc, ready_gated s h, hw]
    simp only [Vi.resultRoute, Vi.leafRoute, hx.1, hx.2.1, hx.2.2, Bool.not_true, Bool.false_eq_true, or_self, and_false, if_false]
    exact ⟨_, rfl⟩
  obtain ⟨ls, r⟩ := r
  refine ⟨ls, ?_⟩
  have p : rangePieces (l.saveAddr g.pool + BitVec.ofNat 64 (4096 * u)) 4096 = [(0, 4096)] := by
    unfold rangePieces
    rw [e]
    rfl
  have z : l.saveAddr g.pool + BitVec.ofNat 64 (4096 * u) + BitVec.ofNat 64 0 = l.saveAddr g.pool + BitVec.ofNat 64 (4096 * u) := by simp
  unfold State.saveRoute State.routeRange
  rw [p, List.map_cons, List.map_nil, z, r]
  simp [joinRoutes, Route.missing, Route.broken, Route.refusal, Route.fault, Route.isPeer, Route.locs]

theorem saveStop_none {s : State} {l : Launch} {g : Group} {d acc : Nat}
    (h : ∀ u < l.savePerRule, ∃ ls, s.saveRoute l g d acc (4096 * u) 4096 = .cells ls) : s.saveStop l g d acc = none := by
  unfold State.saveStop
  rw [List.findSome?_eq_none_iff]
  intro u hu
  obtain ⟨ls, e⟩ := h u (List.mem_range.mp hu)
  rw [e]

def saveOk (s : State) : Bool :=
  decide (s.ready = BitVec.allOnes 57) && (List.range launchSv.savePerRule).all fun u =>
    let a := launchSv.saveAddr 0 + BitVec.ofNat 64 (4096 * u)
    canonical a && decide (s.walk 0 0 (vaOf a) = .ok page0) && decide (a.toNat % 65536 ≤ 61440)

theorem saveStop_of (s : State) (g : Group) (acc : Nat) (hg : g.pool = 0) (h : saveOk s = true) : s.saveStop launchSv g 0 acc = none := by
  simp only [saveOk, Bool.and_eq_true, decide_eq_true_eq, List.all_eq_true, List.mem_range] at h
  refine saveStop_none (units_reached s launchSv g acc page0 h.1 (by decide) fun u hu => ?_)
  obtain ⟨⟨h1, h2⟩, h3⟩ := h.2 u hu
  rw [hg]
  exact ⟨h1, h2, h3⟩

theorem witness_RotationEvents_saves :
    let s (n : Nat) : State := rotationStates.getD n {}
    (s 3).contextStop launchSv ((s 3).group 0) 1 = none ∧ (s 6).contextStop launchSv ((s 6).group 0) 0 = none ∧
    (s 6).saveBad launchSv ((s 6).group 0) 0 = none ∧ (s 7).bad.contains (launchSv.saveAddr 0 / 8).toNat = true ∧
    (match (s 4).saveRoute launchSv ((s 4).group 0) 0 1 0 4096 with | .faulted _ _ => true | _ => false) = true ∧
    (match (s 3).saveRoute launchSv ((s 3).group 0) 0 1 64 32 with | .cells _ => true | _ => false) = true := by
  have c (s : State) (g : Group) (acc : Nat) (h : s.saveStop launchSv g 0 acc = none) (hc : g.core = 0) (hm : s.monStop launchSv g 1 = none)
      (hp : s.poolStop launchSv g 0 = none) : s.contextStop launchSv g acc = none := by
    unfold State.contextStop
    rw [hc, h, hm]
    exact hp
  exact ⟨c _ _ _ (saveStop_of _ _ _ rfl (by decide +kernel)) rfl (by decide +kernel) (by decide +kernel),
    c _ _ _ (saveStop_of _ _ _ rfl (by decide +kernel)) rfl (by decide +kernel) (by decide +kernel), by decide +kernel, by decide +kernel,
    by decide +kernel, by decide +kernel⟩

/-- A TASK launch of core 0 that runs as launch 0. -/
def launchT : Launch := { taskLaunch with cores := [0], pslots := 16, start := 0 }
def tasking (ts : Tab (Nat × Task)) (l : Launch := launchT) (v : Vi := vi0) : State :=
  { machine .taskDispatch warp0 group0 l with
    vis := [(0, { v with queues := [(0, { packet := some (.launch false), lid := some 0 })] })], mem := tables, tasks := ts, nextTask := 9 }
def finished0 : Task := { ts := 1, seq := 1, st := .finished, warp := 0, wbuf := [(0x6000, 7)] }
def stalled1 : Task := { ts := 2, seq := 2, st := .stalled, warp := 0, wbuf := [(0x6001, 8)] }
def whole : Task := { ts := 3, seq := 1, st := .running, warp := 0, range := true, lo := 0, cur := 2, hi := 7 }
def quiet : State := { tasking [] with groups := [], warps := [], slots := [] }

theorem witness_TaskEvents :
    (let s := tasking [(4, (0, { ts := 5, entry := 3 }))]
     s.workFor 0 0 = some (.queued 4) ∧ s.fit launchT 0 1 none ≠ none ∧ s.roomForTask 0 launchT 0 = true ∧ s.rampOk 0 0 launchT.granules = true) ∧
    (let s := tasking [(4, (0, whole))]
     s.workFor 0 0 = some (.split 4) ∧ s.roomForTask 0 launchT 0 = true ∧ (4 : Nat) ≠ s.nextTask) ∧
    ((tasking [(4, (0, finished0)), (5, (0, stalled1))]).frontier 0 = some (4, finished0) ∧ (tasking [(4, (0, finished0)), (5, (0, stalled1))]).copying 0 = false) ∧
    (tasking [(4, (0, whole))]).frontier 0 = some (4, whole) ∧
    (quiet.launchDone 0 launchT = true ∧ (tasking [(4, (0, whole))]).launchDone 0 launchT = false ∧
      (match { quiet with launches := [(0, { launchT with sig := true, csig := 0x6000, cval := 3 })] }.frontAcc 0 2 0x6000 8 with | .cells _ => true | _ => false) = true) := by
  decide +kernel

/-- The least of several candidates: of the die's own queue, in the order of SEQ with its wrap; of a range and a queued task; beside 12
finished tasks; none where 12 run. A task that enters direct mode with a buffer. -/
theorem witness_TaskEvents_least :
    (tasking [(4, (0, { ts := 5, entry := 3 })), (5, (0, { ts := 5, seq := 0xFFFFFFF0 })), (6, (0, { ts := 4, die := 1 }))]).workFor 0 0 = some (.queued 5) ∧
    (tasking [(4, (0, { ts := 5, die := 2 })), (5, (0, { ts := 5, seq := 7, die := 3 }))]).workFor 0 0 = some (.queued 4) ∧
    (tasking [(4, (0, whole)), (6, (0, { ts := 3, seq := 2 }))]).workFor 0 0 = some (.split 4) ∧
    (let ts : Tab (Nat × Task) := (List.range 12).map fun k => (k, (0, { ts := BitVec.ofNat 64 k, st := .finished, warp := 40 + k }))
     let s := tasking (ts ++ [(30, (0, { ts := 50, entry := 2 }))])
     s.workFor 0 0 = some (.queued 30) ∧ (s.fit launchT 0 1 none).isSome = true ∧ ((s.tasksOf 0).countP fun e => e.2.core == 0 && e.2.st.hasWarp) = 0) ∧
    (let s := tasking [(4, (0, { whole with wbuf := [(0x6000, 7)] }))]
     CachesWf s ∧ Room s 0 [0x6000]) := by
  refine ⟨by decide +kernel, by decide +kernel, by decide +kernel, by decide +kernel, ⟨cachesWf_of _ (by decide), by unfold Room; decide⟩⟩

/-- A row of 16 F32 at 0x6000. -/
def row16 : BitVec 1024 := descOf 1 1 16 0 0x6000
/-- A call of rank 0 with rank 1 on that row, its values exchanged and its operand staged. -/
def call0 : Call :=
  { lid := 0, gid := 0, warp := 0, slot := 3, vi := 0, core := 0, tag := 7, nth := 2, kind := 0, op := 0, first := 0, stride := 1, count := 2, root := 0,
    sw := 0, cntb := 0, tile := none, off := 0, desc := row16, rdesc := row16, cdesc := row16, pb := 0, pc := 0x10020, len := 16, me := 0, start := 10,
    staged := List.replicate 64 1, stage := 3 }
def peer1 (vals : Option (List Nat)) : PeerCall := { src := 1, tag := 7, nth := 2, vals := vals, counted := true, data := (List.range 64).map fun k => (k, 2) }
def callVi (vals : Option (List Nat)) : Vi := { vi0 with domSize := 4, domRank := 0, domCtl := 0, peerCalls := [peer1 vals] }
def callState (c : Call) (v : Vi) (g : Group := { groupQ 6 with tiles := [] }) : State :=
  { machine .collComplete warp0 g { launchC with tids := [(1, row16)] } with calls := [(5, c)], nextCall := 6, vis := [(0, v)], mem := tables, clock := 10 + 24000000, ev := { call := 5 } }
/-- A2AV: this member sends 1 row and gets 1 from rank 1; Q is a row of 7 words at 0x7000, V has `n` rows. -/
def a2av (n : Nat) (counts : List Nat) : Call :=
  { call0 with kind := 4, desc := descOf 1 2 16 2 0x6000 64, rdesc := descOf 1 2 16 n 0x6800 64, cdesc := descOf 1 1 7 0 0x7000, counts := counts }
def agreed (c : Call) (more : List Nat := []) : Option (List Nat) := some (c.values ++ more)
def meeting0 : Meeting := { pc := 0x10020, desc := [0, 1, 2, 0, 0, 0, 0, 0], slot := 3, issued := [0], op := co 1, kind := 0 }
def meetState (v : Vi) : State := { callState call0 v { groupQ 6 with meet := some meeting0 } with warps := [(0, { warp0 with status := .held .coll })], calls := [] }

/-- A call whose counter lies at peer 1; `raised` as the engine has raised it. -/
def peerCounter (raised : List Nat) (flits : List Flit) : State :=
  let c : Call := { call0 with cntb := 0x10000, raised := raised }
  { callState c { callVi (agreed c) with flits := flits } with dies := [(0, { tlb := [] })], mem := peerTables }

def collStates : List State :=
  [meetState (callVi none), meetState { callVi none with lost := [1] }, callState call0 { callVi none with lost := [1] }, callState call0 (callVi none),
   { callState call0 (callVi none) with clock := 11 + 24000000 }, callState { call0 with sw := 1 } { callVi (agreed { call0 with sw := 1 }) with domCtl := 1 },
   callState call0 (callVi (some [1, 2])), callState call0 (callVi (agreed call0)), callState (a2av 4 [2, 1]) (callVi (agreed (a2av 4 [2, 1]) [0, 1])),
   callState (a2av 4 [1, 1]) (callVi (agreed (a2av 4 [1, 1]) [0, 1])), callState (a2av 1 [1, 1]) (callVi (agreed (a2av 1 [1, 1]) [0, 1])),
   callState { call0 with cntb := 0x7000 } (callVi (agreed { call0 with cntb := 0x7000 })),
   callState { call0 with desc := descOf 1 1 16 0 0x80000000, stage := 0 } (callVi (agreed call0)), peerCounter [] [],
   peerCounter [0] [{ rank := 1, ctr := 0, kind := .atomic, len := 4, data := [1, 0, 0, 0], call := some (5, 0) }]]

theorem witness_CollectiveEvents :
    let s (n : Nat) : State := collStates.getD n {}
    let c (n : Nat) : Call := ((s n).callOf 5).getD call0
    let v (n : Nat) : Vi := (s n).vi 0
    ((s 0).meetClosed ((s 0).group 0) meeting0 = true ∧ (s 0).callsOf 0 < 16 ∧ ((s 0).vi 0).lostMember ((s 0).meetCall 0 ((s 0).group 0) meeting0) = none ∧
      ((s 1).vi 0).lostMember ((s 1).meetCall 0 ((s 1).group 0) meeting0) = some 1) ∧
    ((v 2).lostMember (c 2) = some 1 ∧ (v 3).unmatched (c 3) = some 1 ∧ (v 3).matched (c 3) = false ∧ (c 3).start + 2400 * (v 3).domTmo.toNat = (s 3).clock) ∧
    ((v 5).matched (c 5) = true ∧ (v 5).cryptConflict (c 5) = true ∧ (v 6).cryptConflict (c 6) = false ∧ (v 6).differs (c 6) = some 1) ∧
    ((v 7).matched (c 7) = true ∧ (v 7).differs (c 7) = none ∧ ∀ k ∈ (c 7).left, (s 7).chunkReady (c 7) k = true) ∧
    ((v 8).matched (c 8) = true ∧ (v 8).exceeded (c 8) = true ∧ (v 9).exceeded (c 9) = false ∧ (s 9).landingReady (c 9) = true ∧
      (v 9).receivedAll (c 9) ≤ Desc.ext (c 9).rdesc 1 ∧ (s 10).landingReady (c 10) = true ∧ Desc.ext (c 10).rdesc 1 < (v 10).receivedAll (c 10)) ∧
    (0 ∈ (c 11).left ∧ (s 11).chunkReady (c 11) 0 = true ∧ ((v 11).chunkBytes (c 11) 0).isSome = true ∧
      (((s 12).nextAccs (c 12)).findSome? fun x => ((s 12).collFaultOf (c 12) [x.2]).map fun f => (x.1, f)).isSome = true) ∧
    (0 ∈ (c 13).left ∧ (s 13).chunkReady (c 13) 0 = true ∧ ((s 13).landChunk (c 13) 0).collRoute (c 13) ((c 13).counterAcc 0) = .peer 1 0 ∧
      (∃ f ∈ (v 14).flits, f.call = some (5, 0)) ∧ (∀ f ∈ (v 13).flits, f.call = none) ∧ (v 14).lostMember (c 14) = none) := by
  decide +kernel

/-- Rank 1 has sent counters up to 9, 8 not yet; a read request and a write to it are not answered, and a warp waits for both. -/
def fabVi : Vi :=
  { vi0 with domSize := 4, domCtl := 0, domTmo := 100, rxHigh := [(1, 10)], rxSeen := [(1, [9, 7, 6])], txCtr := [(1, 3)], fwinBase := 0x10000, fwinSize := 0x10000,
             flits := [{ rank := 1, ctr := 1, kind := .readRequest, tag := 6, nth := 4, warp := some 0 },
                       { rank := 1, ctr := 2, kind := .write, tag := 7, nth := 5, data := [1], warp := some 0 }] }
def fabState (ev : EvArgs) (v : Vi := fabVi) : State :=
  { callState call0 { v with peerCalls := [peer1 none] } with
    ev := { ev with src := 1 }, warps := [(0, { warp0 with status := .held .peer })], mem := tables ++ [(0x10000, 5), (0x1FFF8, 6)] }

/-- Peer 1's answer to what a copy or a call has sent. -/
def engineFlit (f : Flit) (ev : EvArgs) : State :=
  { fabState ev { fabVi with flits := [f] } with
    cores := [(0, { copyq := [asked0] })], calls := [(5, { call0 with cntb := 0x7000, raised := [0] })] }

/-- A new counter, one within the window, one accepted, one below the window; a failed check and a missing key; accesses at both ends of the
window and outside it; the answers that are waited for; the payload and control of a call. -/
def fabStates : List State :=
  [fabState { ctr := 10, ok := true, addr := 0x10000, len := 8, tag := 3, nth := 2, maj := 0xB8, val := 3 }, fabState { ctr := 8, ok := true, addr := 0x1FFF8, len := 8, data := [1, 2, 3, 4, 5, 6, 7, 8] },
   fabState { ctr := 9, ok := true, addr := 0x10000, len := 8 }, fabState { ctr := 10, ok := false, addr := 0x10000, len := 8 },
   fabState { ctr := 10, ok := true } { fabVi with domCtl := 1 }, fabState { ctr := 10, ok := true, addr := 0x1FFF9, len := 8, data := [1, 2, 3, 4, 5, 6, 7, 8] },
   fabState { ctr := 10, ok := true, tag := 6, nth := 4, data := [1, 2] }, fabState { ctr := 10, ok := true, tag := 6, nth := 4, flag := true }, fabState { ctr := 10, ok := true, val := 2, flag := true },
   fabState { ctr := 10, ok := true, tag := 7, nth := 2, addr := 1, data := [7, 8], nums := [1], flag := true }, fabState { ctr := 10, ok := true, tag := 9, nth := 2, nums := [1, 2] },
   fabState { ctr := 2, ok := true }, fabState { ctr := 4087, ok := true } { fabVi with rxHigh := [(1, 8183)], rxSeen := [] }, fabState { ctr := 4086, ok := true } { fabVi with rxHigh := [(1, 8183)], rxSeen := [] },
   { fabState {} with clock := 240000 }, fabState {} { fabVi with tdisp := .run, lost := [2] },
   engineFlit { rank := 1, ctr := 1, kind := .readRequest, tag := 6, nth := 4, copy := some (0, 3) } { ctr := 10, ok := true, tag := 6, nth := 4, data := [1, 2] },
   engineFlit { rank := 1, ctr := 1, kind := .atomic, tag := 6, nth := 0, len := 4, data := [1, 0, 0, 0], call := some (5, 0) } { ctr := 10, ok := true, tag := 6, flag := true },
   { fabState { ctr := 10, ok := true, addr := 0x10000, len := 8, tag := 3, nth := 2, maj := 0xB8, val := 3 } with bad := [0x2000] }]

theorem witness_FabricEvents :
    let s (n : Nat) : State := fabStates.getD n {}
    let v (n : Nat) : Vi := (s n).vi 0
    let got (n : Nat) : Bool := (s n).fabricReady && ((v n).accept 1 (s n).ev.ctr (s n).ev.ok).isSome
    ([0, 1, 5, 6, 7, 8, 9, 10, 12].all got = true ∧ [2, 3, 4, 13].any got = false) ∧ (s 0).peerWaits 8 = false ∧ (s 1).peerWaits 8 = false ∧
    ((v 0).inWindow 0x10000 8 = true ∧ (v 1).inWindow 0x1FFF8 8 = true ∧ (v 5).inWindow 0x1FFF9 8 = false) ∧
    (((v 6).asked 1 6 4 fun k => k == .readRequest || k == .atomic).isSome = true ∧ (∀ g ∈ (v 6).flits, g.kind ≠ .ack) ∧
      ((v 8).flits.find? fun g => g.rank == 1 && g.ctr == 2 && g.kind != .readRequest && g.kind != .atomic).isSome = true) ∧
    ((v 11).flits.find? fun g => g.rank == 1 && g.ctr == 2).isSome = true ∧ sget 0 (v 11).txCtr 1 < 2 ^ 63 ∧ (1 : Nat) ∉ (v 0).lost ∧
    (∀ f ∈ (v 14).flits, f.rank = 1 → (s 14).clock ≤ f.sent + 2400 * (v 14).domTmo.toNat) ∧
    (∃ f ∈ (v 0).flits, f.rank = 1 ∧ f.sent + 2400 * (v 0).domTmo.toNat < (s 0).clock) ∧ (v 15).tdisp = .run ∧
    ((∀ n ∈ [16, 17], got n = true ∧ ((v n).asked 1 6 (s n).ev.nth fun k => k == .readRequest || k == .atomic).isSome = true ∧ ∀ g ∈ (v n).flits, g.warp = none) ∧
      (tget (s 17).calls 5).isSome = true) ∧
    (got 18 = true ∧ (s 18).bad.contains (0x10000 / 8) = true) := by
  decide +kernel

/-- A store of zeros over half of the operand of a call that has read it (R377): the other half is sent as it was read, and each byte that
differs takes a free choice. -/
theorem test_coll_operand_mix :
    (let s := (callState { call0 with staged := List.replicate 32 1 ++ List.replicate 32 0, stage := 2 } (callVi none)).callStep 5
     s.free = 64 ∧ ((s.callOf 5).map fun c => (c.stage, c.staged.drop 32)) = some (3, List.replicate 32 0)) := by
  decide +kernel

/-! ## Witnesses: packets, launches, queues, the control processor, registers (O48 to O53) -/

/-- 128 bytes of a packet from (offset, value) pairs, the type first. -/
def packet (ty : Nat) (fs : List (Nat × Nat)) : List Byte := leBytes (fs.foldl (fun a x => a + x.2 * 256 ^ x.1) ty) 128
/-- Queue 0 with one packet at 0x8000, 0x6000 = 9 and the words that `more` lists. -/
def queue0 : Queue := { qbase := 0x8000, qsize := 4, qwptr := 1, en := true, keep := 1 }
def frontState (bs : List Byte) (x : Queue := queue0) (more : Memory := []) : State :=
  { machine .nopPacket with
    vis := [(0, { vi0 with queues := [(0, x)], csets := [(0, 1)] })], mem := tables ++ [(0x6000, 9)] ++ bytesAt 0x8000 bs ++ more, clock := 0x1234,
    warps := [], groups := [], launches := [], slots := [] }

/-- One packet of each small type, an add, a set bit that is reserved, a type that is none, a bad address; the two packets in progress. -/
def packets : List (List Byte) :=
  [packet 8 [], packet 5 [(16, 77)], packet 6 [(8, 0x6000)], packet 4 [(8, 0x6000), (16, 5)], packet 4 [(2, 1), (8, 0x6000), (16, 5)], packet 3 [(8, 0x6000), (16, 9)],
   packet 7 [(8, 0x6000), (16, 0x7000), (24, 8)], packet 8 [(4, 1)], packet 0 [], packet 9 [], packet 3 [(8, 0x6004)], packet 6 [(8, 0x40000000)], packet 3 [(8, 0x40000000)],
   packet 4 [(8, 0x40000000)], packet 4 [(2, 1), (8, 0x40000000)]]
def packetStates : List State :=
  (packets.map fun bs => frontState bs) ++
  [frontState [] { queue0 with packet := some (.wait 0x6000 9) }, frontState [] { queue0 with packet := some (.wait 0x6000 10) },
   frontState [] { queue0 with packet := some (.copyh 0x6000 0x7000 8) }, frontState [] { queue0 with packet := some (.copyh 0x6000 0x7000 0) },
   frontState [] { queue0 with qwptr := 17 }, frontState [] { queue0 with qbase := 0x40000000 }, frontState [] { queue0 with en := false },
   frontState (packet 1 []) { queue0 with keep := 0 }]

/-- `AtPacket` as a computation. -/
def atPacket (ty : Nat) (bs : List Byte) (s : State) : Bool :=
  s.startable s.ev.vi s.ev.q && decide ((s.queue s.ev.vi s.ev.q).pending ≤ (s.queue s.ev.vi s.ev.q).slots) && decide (leAt bs 0 1 = ty) &&
  match s.frontAcc s.ev.vi 0 (s.queue s.ev.vi s.ev.q).slotAddr 128 with
  | .cells ls => decide (bs = s.homeBytes ls)
  | _ => false

theorem atPacket_of {ty : Nat} {bs : List Byte} {s : State} (h : atPacket ty bs s = true) : AtPacket ty bs s := by
  simp only [atPacket, Bool.and_eq_true, decide_eq_true_eq] at h
  obtain ⟨⟨⟨h1, h2⟩, h3⟩, h4⟩ := h
  split at h4
  · exact ⟨h1, h2, ⟨_, by assumption, by simpa using h4⟩, h3⟩
  · cases h4

theorem witness_PacketEvents :
    (∀ x ∈ [(0, 8), (1, 5), (2, 6), (3, 4), (4, 4), (5, 3), (6, 7), (7, 8), (8, 0), (9, 9), (10, 3), (11, 6), (12, 3), (13, 4), (14, 4)],
      atPacket x.2 (packets.getD x.1 []) (packetStates.getD x.1 {}) = true) ∧
    (∀ n ∈ [15, 16, 17, 18], ((packetStates.getD n {}).queue 0 0).packet.isSome = true) ∧
    ((packetStates.getD 19 {}).startable 0 0 = true ∧ ((packetStates.getD 19 {}).queue 0 0).slots < ((packetStates.getD 19 {}).queue 0 0).pending ∧
      (packetStates.getD 20 {}).frontAcc 0 0 ((packetStates.getD 20 {}).queue 0 0).slotAddr 128 = .fault ∧ (packetStates.getD 21 {}).startable 0 0 = false ∧
      (packetStates.getD 22 {}).holdsCores 0 0 = false ∧ (packetStates.getD 0 {}).holdsCores 0 0 = true) := by
  decide +kernel

theorem witness_PacketEvents_good :
    (∀ x ∈ [(0, 8), (1, 5), (2, 6), (4, 4), (5, 3), (6, 7)], badPacket x.2 (packets.getD x.1 []) = none) ∧
    badPacket 8 (packet 8 [(4, 1)]) = some 4 ∧ badPacket 3 (packet 3 [(8, 0x6004)]) = some 8 := by
  decide +kernel

/-- A header image at 0xA000: FULL, W = 32, the partition word of `placedLaunch`, code at 0x200, a constant segment of 8 bytes at 0x6000,
`n` tensor records. -/
def image (n : Nat) (fs : List (Nat × Nat)) : List Byte :=
  leBytes (fs.foldl (fun a x => a + x.2 * 256 ^ x.1)
    (4 + (2 + 4 * 2 ^ 7 + 4 * 2 ^ 14) * 256 ^ 0x0C + 65536 * 256 ^ 0x24 + 0x200 * 256 ^ 0x38 + 32 * 256 ^ 0x3C + 0x6000 * 256 ^ 0x40 + 8 * 256 ^ 0x48 + n * 256 ^ 0x4D)) 0x180
/-- The image of a TASK launch of one core. -/
def taskImage : List Byte :=
  leBytes (0x24 + 2 * 256 ^ 0x0C + 256 ^ 0x28 + 0x200 * 256 ^ 0x38 + 32 * 256 ^ 0x3C + 0x6000 * 256 ^ 0x40 + 8 * 256 ^ 0x48) 0x180
def record (tid flag : Nat) (d : BitVec 1024) : List Byte := leBytes (tid + 256 * flag) 8 ++ leBytes d.toNat 128
/-- A LAUNCH packet of that image with one pool slot; a LAUNCHB packet with two buckets at 0xC000, whose second holds its shape. -/
def launchPacket (fs : List (Nat × Nat) := []) : List Byte := packet 1 ([(4, 1), (8, 0xA000), (0x10, 0x6100), (0x18, 0x200000), (0x20, 0x100000)] ++ fs)
def buckets (lo : Nat) (res : Nat := 0) : List Byte :=
  leBytes (1 + 2 * 256 ^ 0x10) 64 ++ leBytes (lo + 9 * 256 ^ 0x10 + 0xA000 * 256 ^ 0x20 + res * 256 ^ 0x3C) 64
def launchbPacket (nsh : Nat := 1) : List Byte :=
  packet 2 [(4, 1), (8, 0xC000), (0x10, 0x6100), (0x18, 0x200000), (0x20, 0x100000), (0x30, 0x6000), (0x38, nsh + 2 * 256)]
def launching (pk hs ts : List Byte) (more : Memory := []) : State :=
  frontState pk queue0 (bytesAt 0xA000 (hs ++ ts) ++ more)

def launchStates : List (State × List Byte × List Byte × List Byte × List Byte × Bool) :=
  let im := image 1 []
  let ts := record 3 1 (descOf 1 2 32 64)
  let us := leBytes 0 8
  let ks := leBytes 9 8
  [(launching (launchPacket) im ts, im, ts, us, ks, false), (launching (launchPacket) (image 1 [(0, 0x1000)]) ts, image 1 [(0, 0x1000)], ts, us, ks, false),
   (launching (launchPacket) im (record 3 3 (descOf 1 2 32 64)), im, record 3 3 (descOf 1 2 32 64), us, ks, false),
   (launching (launchPacket) im (record 3 1 (descOf 1 0 32 64)), im, record 3 1 (descOf 1 0 32 64), us, ks, false),
   (launching (launchPacket [(0x18, 1)]) im ts, im, ts, us, ks, false),
   (launching (launchPacket [(4, 15), (0x48, 6)]) taskImage [], taskImage, [], [], ks, false),
   (frontState (packet 1 [(4, 1), (8, 0x40000000)]), [], [], [], [], false),
   (launching launchbPacket im ts (bytesAt 0xC000 (buckets 3)), im, ts, us, ks, true), (launching launchbPacket im ts (bytesAt 0xC000 (buckets 10)), im, ts, us, ks, true),
   (launching launchbPacket im ts (bytesAt 0xC000 (buckets 3 1)), im, ts, us, ks, true), (launching (launchbPacket 5) im ts, im, ts, us, ks, true)]

/-- The parts of a launch that the hypotheses of the statement name. -/
theorem witness_LaunchEvents :
    (let s := launching launchPacket (image 1 []) (record 3 1 (descOf 1 2 32 64))
     atPacket 1 launchPacket s = true ∧ s.holdsCores 0 0 = true) ∧
    (let s := launching launchbPacket (image 1 []) (record 3 1 (descOf 1 2 32 64)) (bytesAt 0xC000 (buckets 3))
     atPacket 2 launchbPacket s = true ∧ s.holdsCores 0 0 = true) ∧
    badPacket 1 launchPacket = none ∧ badPacket 2 launchbPacket = none ∧ badPacket 2 (launchbPacket 5) = none ∧ leAt launchbPacket 0x38 4 % 8 = 1 := by
  decide +kernel

theorem witness_LaunchEvents_parts :
    headerBad (LaunchPkt.of launchPacket) (Hdr.of (image 1 [])) = false ∧ headerBad (LaunchPkt.of launchPacket) (Hdr.of (image 1 [(0, 0x1000)])) = true ∧
    headerBad (LaunchPkt.of (launchPacket [(0x18, 1)])) (Hdr.of (image 1 [])) = true ∧ headerBad (LaunchPkt.of (launchPacket [(4, 15), (0x48, 6)])) (Hdr.of taskImage) = false ∧
    (TensorRec.of (record 3 1 (descOf 1 2 32 64))).reserved = false ∧ (TensorRec.of (record 3 3 (descOf 1 2 32 64))).reserved = true := by
  decide +kernel

/-- The image is read from where it lies. -/
theorem witness_LaunchEvents_reads :
    (match (launching launchPacket (image 1 []) (record 3 1 (descOf 1 2 32 64))).frontAcc 0 0 0xA000 0x180 with
     | .cells ls => decide (ls.headD 0 = 0xA000) && decide (ls.length = 0x180)
     | _ => false) = true := by
  decide +kernel

theorem witness_LaunchEvents_refusal :
    let p := LaunchPkt.of launchPacket
    let h := Hdr.of (image 1 [])
    let rs (d : BitVec 1024) : List TensorRec := withBases [TensorRec.of (record 3 1 d)] [0]
    let r (d : BitVec 1024) : Option Nat := refusal [0] p h (rs d) [0] (launchOfPacket 0 0 0x1234 [0] p h (rs d) [])
    r (descOf 1 2 32 64) = none ∧ r (descOf 1 0 32 64) = some 10 := by
  decide +kernel

/-- Several queues of interface 0. -/
def queuesOf (qs : Tab Queue) (mem : List Byte := packet 1 []) : State :=
  let s := frontState mem
  { s with vis := [(0, { s.vi 0 with queues := qs, grace := 1 })] }
def readyQ : Queue := { queue0 with keep := 0, qprio := 3 }
def launchQ : Queue := { queue0 with packet := some (.launch false), lid := some 0, keep := 1 }

/-- IDLE; ERROR; HELD; ACTIVE; a launch that may take free cores; one that takes them from a queue whose quantum is over; a quantum that is
over, or not; a request whose grace is over, or not, with a notice word and without; a ramp window under way. -/
def queueStates : List State :=
  [queuesOf [(0, { queue0 with qwptr := 0 })], queuesOf [(0, { queue0 with error := some (5, 8) })], queuesOf [(0, { queue0 with en := false })],
   queuesOf [(0, queue0)], queuesOf [(0, readyQ)], queuesOf [(0, readyQ), (1, { queue0 with quantExp := true })],
   queuesOf [(0, { queue0 with grantQuant := 1 })], queuesOf [(0, { queue0 with grantQuant := 2 })],
   { queuesOf [(0, { launchQ with preempt := some 10 }), (1, { readyQ with qprio := 7 })] with launches := [(0, launch0)] },
   { queuesOf [(0, { launchQ with preempt := some 4000 })] with launches := [(0, launch0)] },
   queuesOf [(0, { launchQ with qnote := 0x6000 })], queuesOf [(0, { launchQ with qnote := 0 })],
   { queuesOf [(0, launchQ), (1, { readyQ with qprio := 7 })] with dies := [(0, { rampStart := 4000 })], launches := [(0, launch0)] },
   { queuesOf [(0, { launchQ with qnote := 0x6000 })] with ready := 2 }]

theorem witness_QueueEvents :
    let s (n : Nat) : State := queueStates.getD n {}
    let x (n : Nat) : Queue := (s n).queue 0 0
    ((s 0).queueState 0 0 = 0 ∧ (s 1).queueState 0 0 = 3 ∧ (s 2).queueState 0 0 = 2 ∧ (s 3).queueState 0 0 = 1) ∧
    ((s 3).nextHolder 0 = none ∧ (s 4).nextHolder 0 = some 0 ∧ (s 5).nextHolder 0 = some 0 ∧ (s 5).queue 0 1 ≠ {}) ∧
    ((x 6).keep ≠ 0 ∧ (x 6).grantClock + 2400 * (x 6).grantQuant ≤ (s 6).clock ∧ (s 7).clock < (x 7).grantClock + 2400 * (x 7).grantQuant) ∧
    ((x 8).preempt = some 10 ∧ (x 8).launching = true ∧ 10 + 2400 * ((s 8).vi 0).grace.toNat ≤ (s 8).clock ∧ (s 8).groups = [] ∧
      (x 9).preempt = some 4000 ∧ (s 9).clock < 4000 + 2400 * ((s 9).vi 0).grace.toNat) ∧
    (((s 0).die 0).rampStart + 2400 ≤ (s 0).clock ∧ (s 12).clock < ((s 12).die 0).rampStart + 2400) ∧
    ((x 11).qnote = 0 ∧ (x 10).qnote ≠ 0 ∧ (match (s 10).frontAcc 0 1 (x 10).qnote 8 with | .cells _ => true | _ => false) = true) ∧
    ((x 13).qnote ≠ 0 ∧ (s 13).frontAcc 0 1 (x 13).qnote 8 = .wait) ∧
    (∀ r < 16, ((s 4).queue 0 r).launching = true → ((s 4).queue 0 r).notice = false ∧ (((s 4).queue 0 r).preempt = none → (s 4).wanted 0 r = false)) := by
  decide +kernel

/-- Interface 0 in a state, with a queue. -/
def control (t : Tdisp) (x : Queue := {}) (c : Control := {}) (ev : EvArgs := {}) : State :=
  let s := frontState []
  { s with vis := [(0, { s.vi 0 with tdisp := t, keys := true, queues := [(0, x)] })], ctl := c, ev := ev, ready := 0x1FFFF }
/-- An image that the running firmware accepts, and that is staged and activated. -/
def good : Firmware := { version := 7, secVer := 3, meas := 9, qlvs := [0] }
def staging (f : Firmware) (act : Bool := true) : Control := { running := { secVer := 2, meas := 5 }, staged := some f, activating := act }
def aLaunch : Queue := { queue0 with packet := some (.launch false), lid := some 0 }

/-- Each state of the interface, idle and not; a halted warp; images with each of the four reasons, a good one, one not activated, one
away from a packet boundary. -/
def controlStates : List State :=
  [control .unlocked, control .unlocked queue0, control .locked, { control .run aLaunch with launches := [(0, launch0)] }, control .error { queue0 with error := some (7, 0) },
   { control .run with slots := [(5, 0)], warps := [(0, { warp0 with status := .halted 0x12 })], launches := [(0, launch0)], groups := [(0, group0)] },
   control .unlocked {} (staging { good with qlvs := [1] }),
   { control .unlocked {} (staging { good with saves := [2] }) with groups := [(0, { group0 with state := .parked })], launches := [(0, launch0)] },
   control .unlocked {} (staging { good with sigOk := false }), control .unlocked {} (staging { good with secVer := 1 }), control .unlocked {} (staging good),
   control .unlocked {} (staging good false), control .unlocked aLaunch (staging good),
   control .run {} {} { ver := 4, secVer := 2, meas := 8, ok := true, nums := [3], saves := [1], flag := true, len := 77 }, control .run {} {} { id := 56 }, control .run {} {} { id := 57 }]

theorem witness_ControlEvents :
    let s (n : Nat) : State := controlStates.getD n {}
    ((∀ q < 16, (s 0).queueState 0 q = 0) ∧ (s 1).queueState 0 0 ≠ 0 ∧ ((s 2).vi 0).tdisp = .locked ∧ ((s 3).vi 0).tdisp = .run ∧
      ((s 3).queue 0 0).lid = some 0 ∧ (s 3).groups = [] ∧ ((s 4).vi 0).tdisp = .error) ∧
    ((5, 0) ∈ (s 5).slots ∧ ((s 5).warp 0).status = .halted 0x12) ∧
    ((∀ n ∈ [6, 7, 8, 9, 10], (s n).ctl.staged.isSome = true ∧ (s n).ctl.activating = true ∧ (s n).atBoundary = true) ∧
      (s 7).parkedVi = some 0 ∧ (s 11).ctl.activating = false ∧ (s 12).atBoundary = false ∧ (s 6).recordLayout 0 ∉ [1] ∧
      (∀ n < 1024, (s 10).recordLayout n ∈ good.qlvs)) ∧
    ((s 13).ev.ok = true ∧ (s 14).ev.ok = false ∧ (s 13).ev.flag = true ∧ (s 14).ev.flag = false ∧ (s 14).ev.id < 57) := by
  decide +kernel

/-- A write of `x` into register `off` of interface 0 in state `t`. -/
def regWrite (off len x : Nat) (t : Tdisp := .unlocked) (q : Queue := {}) : State :=
  { control t q {} { addr := off, len := len, val := BitVec.ofNat 64 x } with groups := [] }
/-- Each register with a value at the end of its range and one beyond, a frozen register in each state, the registers with rows of their
own, words found bad, writes of the host. -/
def registerStates : List State :=
  ([(0x00, 8, 4096, 4095), (0x08, 4, 16, 17), (0x08, 4, 4, 3), (0x14, 4, 7, 8), (0x18, 4, 1000000, 1000001), (0x18, 4, 1, 0), (0x1C, 4, 15, 16), (0x20, 8, 1, 2 ^ 63),
    (0x420, 8, 65536, 65535), (0x428, 4, 5, 6), (0x440, 8, 16, 15), (0x448, 4, 2 ^ 20, 2 ^ 20 + 1), (0x80C, 4, 100, 99), (0x80C, 4, 1000000, 1000001), (0x840, 4, 100000, 100001),
    (0x844, 4, 4096, 4097), (0x850, 4, 0, 5000), (0x868, 4, 16, 8), (0x868, 4, 2 ^ 20, 2 ^ 21), (0x868, 4, 0, 24), (0x880, 8, 64, 63), (0x888, 4, 32, 33), (0x944, 4, 1, 2),
    (0x400, 8, 4096, 1), (0x418, 8, 8192, 4095), (0x800, 4, 4096, 4097), (0x804, 4, 0, 1), (0x808, 4, 3, 4), (0x810, 8, 65536, 2 ^ 40), (0x818, 8, 65536, 1), (0x600, 8, 1, 2),
    (0x7F8, 8, 0, 1)].flatMap
      fun x => [regWrite x.1 x.2.1 x.2.2.1, regWrite x.1 x.2.1 x.2.2.2]) ++
  [regWrite 0x800 4 5 .locked, regWrite 0x800 4 5 .run, regWrite 0x800 4 5 .error, regWrite 0x00 8 4096 .unlocked aLaunch, regWrite 0x00 8 4096 .unlocked { queue0 with en := false },
   regWrite 0x40 8 64, regWrite 0 8 65, regWrite 0 8 7, regWrite 0 8 8, regWrite 0 8 1,
   { regWrite 0 8 0 with ev := { addr := 2 ^ 36 + 9 } }, { regWrite 0 8 0 with ev := { addr := 2 ^ 40 - 1 } }, { regWrite 0 8 0 with ev := { addr := 9, core := 255, flag := true } },
   { regWrite 0 8 0 with ev := { addr := hostBase, data := [1, 2, 3] } }, { regWrite 0 8 0 with ev := { addr := 2 ^ 40 - 1, data := [1] } }, { regWrite 0 8 0 with ev := { addr := 2 ^ 40 - 1, data := [1, 2] } },
   { regWrite 0 8 0 with ev := { addr := 0x6000, data := [] } }, { regWrite 0 8 0 with ev := { maj := 5, core := 2, flag := true } }, { regWrite 0 8 0 .run with ev := { maj := 2 } },
   { regWrite 0 8 0 with ev := { maj := 4, nth := 6, flag := true } }, { regWrite 0 8 0 with ev := { maj := 3, nth := 6, wg := 7, flag := true } },
   { regWrite 0 8 0 with ev := { maj := 6, nth := 6, core := 70, flag := true } }, { regWrite 0 8 0 with ev := { addr := 0x6000, data := [1, 2] }, ready := 0x1FFDF }] ++
  [true, false].map fun b => { regWrite 0 8 0 with ev := { maj := 1, addr := 9, core := 2, flag := b } }

theorem witness_RegisterEvents :
    (∀ s ∈ registerStates.take 83, s.ev.maj ≠ 1) ∧ 83 < registerStates.length ∧
    (regWrite 0 8 0).partReady 0x6000 = true ∧ (({ regWrite 0 8 0 with ready := 0x1FFDF } : State).partReady 0x6000 = false) ∧
    ((regWrite 0x800 4 5 .locked).vi 0).tdisp = .locked ∧ ((regWrite 0x800 4 5 .error).vi 0).tdisp = .error ∧
    (regWrite 0x00 8 4096 .unlocked aLaunch).queueState 0 0 = 1 ∧ (regWrite 0x00 8 4096).queueState 0 0 = 0 ∧
    (regWrite 0x00 8 4096 .unlocked { queue0 with en := false }).queueState 0 0 = 2 ∧ ((regWrite 0x420 8 65536).vi 0).invGo = false := by
  decide +kernel

/-- Die 0 with these clocks of its clusters and `p` permits; core 0 has a warp that may issue where `w`. -/
def boost (cl : Sparse Boost) (p : Nat) (f : Die → Die := id) (w : Bool := true) : State :=
  { slot0 { warp0 with eligSince := if w then some 7 else none } { vi0 with boostCtl := 1 } with
    dies := [(0, f { clusters := cl, permits := p })], clock := 1030000 }
/-- An interval that is not over; a step-down under way; permits that run out; a grant; no request; a refill, at the top too, and none yet;
each step down. -/
def boostStates : List State :=
  [boost [] 64 fun d => { d with boostAt := 1006001, calm := 790001 }, boost [(0, .high)] 0 fun d => { d with stepDown := 2, stepAt := 1025201 },
   boost [(0, .high), (2, .high)] 2, boost [] 1, boost [(1, .high)] 5 id false, boost [] 63 fun d => { d with calm := 790000 },
   boost [] 64 fun d => { d with calm := 700000 }, boost [(0, .high)] 0 fun d => { d with stepDown := 2, stepAt := 1025200 },
   boost [(0, .mid), (3, .mid)] 0 fun d => { d with stepDown := 1 }, boost [] 64 fun d => { d with boostAt := 1006000 }]

theorem witness_BoostEvents :
    let d (n : Nat) : Die := (boostStates.getD n {}).die 0
    let t : Nat := 1030000
    (t < (d 0).boostAt + 24000 ∧ (d 1).stepDown ≠ 0 ∧ t < (d 1).stepAt + 4800 ∧ (d 9).boostAt + 24000 ≤ t) ∧
    ((d 2).permits - ((List.range 4).filter fun k => sget .nominal (d 2).clusters k != .nominal).length = 0 ∧ (d 2).stepDown = 0) ∧
    ((boostStates.getD 3 {}).boostAsked 0 0 = true ∧ (boostStates.getD 4 {}).boostAsked 0 0 = false) ∧
    ((d 5).calm + 240000 ≤ t ∧ t < (d 0).calm + 240000 ∧ (d 7).stepDown = 2 ∧ (d 7).stepAt + 4800 ≤ t ∧ (d 8).stepDown = 1) := by
  decide

/-- The warp of slot 0 stands in `w`; a window write of `data` at `addr`. -/
def window (w : Warp) (addr : Nat := 0) (data : List Byte := []) (core : Nat := 0) : State := { slot0 w with ev := { core := core, addr := addr, data := data } }
def halted0 : Warp := { warp0 with status := .halted 0x12, s := [(127, 5)], v := [(31, 6)], word := some {} }
/-- The warp runs a task; its record waits for the ring; its workgroup is in transit, suspended, and slot 0 is empty. -/
def ofTask (st : TState) : State :=
  { window halted0 with launches := [(0, taskLaunch)], tasks := [(0, (0, { st := st, seq := 1, warp := 0 }))], nextTask := 9 }
def unwritten (w : Warp) : State := { window w with vis := [(0, { vi0 with trHeld := [{ code := 0x12, core := 0, slot := 0, clock := 3 }] })] }
def emptySlot (st : GState) : State :=
  { window halted0 with slots := [], groups := [(0, { group0 with state := st, suspended := true })], warps := [(0, { halted0 with place := none })] }
/-- A window of no core; halted after a wait; parked for replay; neither; a suspended copy; a write at each region's ends; a task; a record
that waits; an empty slot. -/
def debugStates : List State :=
  [window halted0 0 [] 1, window halted0, window { halted0 with before := .waiting .watch }, window { halted0 with status := .replay }, window warp0,
   { window warp0 with cores := [(0, { copyq := [{ copying 1 with suspended := true }] })] }] ++
  ([(0x20000, 4), (0x201FC, 4), (0, 4), (0x7C, 4), (0x80, 4), (0x1FFFC, 4), (0x1FE00, 4), (0x23090, 8), (0x230B0, 4), (0x20200, 4), (0x2023C, 4)].flatMap fun x =>
    let bs := leBytes 0x89ABCDEF x.2
    [window halted0 x.1 bs, window { halted0 with win := (List.range x.2).map fun i => (0, x.1 + i, bs.getD i 0) }]) ++
  [window halted0 0x25000 (leBytes 31 4), window halted0 0x24FFC [1, 2, 3, 4], ofTask .running, ofTask .direct, unwritten halted0,
   unwritten { halted0 with status := .replay }, emptySlot .resident, emptySlot .saving, window { halted0 with win := (List.range 4).map fun i => (0, 0x230B4 + i, 0xFF) }]

theorem witness_DebugEvents :
    let s (n : Nat) : State := debugStates.getD n {}
    ((s 0).vi 0).cores.getLsbD 1 = false ∧ ((s 1).vi 0).cores.getLsbD 0 = true ∧ (∀ x ∈ (debugStates.drop 1).take 31, InSlot x 0 (x.warp 0)) ∧
    ((s 30).myTask.isSome = true ∧ (s 32).recordWaits ((s 32).warp 0) = true ∧ tget (s 34).slots 0 = none ∧ tget (s 35).slots 0 = none) ∧
    ((s 1).launchOfWarp halted0).kind ≠ .task ∧ caches (s 1) = true ∧ (s 5).suspendedCommand 0 = true ∧ (s 4).suspendedCommand 0 = false ∧ (s 3).calls = [] ∧
    ((s 3).warp 0).flight = [] ∧ (s 6).ev.data = leBytes 0x89ABCDEF 4 ∧ (s 7).recordWaits ((s 7).warp 0) = false ∧
    ((s 7).warp 0).win.length = 4 := by
  unfold InSlot
  decide

/-! ## Witnesses: traps, encodings, steps -/

def add12 : Instr := .vadd .i32 { dst := .v 4, a := .v 1, b := .v 2 }
def addFe : Instr := .vadd .i32 { dst := .v 4, a := .v 1, b := .v 2, fe := 1 }
def addLatch : Instr := .vadd .i32 { dst := .v 4, a := .latch 0, b := .v 2 }
def addIdx : Instr := .vadd .i32 { dst := .v 4, a := .idx 1, b := .v 2 }
/-- A barrier of level 7, and a matrix instruction of a COPY warp. -/
def barSeven : Instr := .bar { fn := 0x70 }
def productOf : Instr := .mmat { frame := some { tileA := 2, tileB := 3, acc := 4 } }
def copyWarp : Warp := { warp0 with role := .copy }
/-- A word that is none, of a major opcode that has none. -/
def noWord : BitVec 128 := BitVec.ofNat 128 (0xFE * 4)
/-- The warp runs task 4, which is not the frontier. -/
def speculating : State := tasking [(3, (0, { ts := 1, st := .running, warp := 9 })), (4, (0, whole))]

def clearTo (i : Instr) (s : State) (p : Ctx → Form → Raw → Bool) : Bool :=
  match i.raw? with
  | some r =>
    match formOf s.env.W r with
    | some f => decide (r.maj.toNat < 0xC0) && decide (formatCheck s.env.ctx r = none) && p s.env.ctx f r
    | none => false
  | none => false

theorem witness_TakingTraps :
    let w2 : Warp := { warp0 with vE := 2 }
    let wx : Warp := { warp0 with x := [(128, { index := 500 })] }
    let wb : Warp := { warp0 with badRegs := [(128, 5)] }
    ((machine add12).speculative = false ∧ speculating.speculative = true ∧ speculating.myTask = some (4, whole)) ∧
    barSeven.raw?.bind (fun r => formatCheck (machine barSeven).env.ctx r) = some .illegalInstruction ∧
    barSeven.raw?.map (fun r => badLevel (Raw.ofBits r.bits)) = some true ∧
    productOf.raw?.bind (fun r => formatCheck (machine productOf copyWarp).env.ctx r) = some .roleViolation ∧
    formatCheck (machine (.undefinedEncoding noWord)).env.ctx (Raw.ofBits noWord) ≠ none ∧
    clearTo add12 (machine add12 w2) (fun c f r => emptySource c w2 (f.a, r.a, false, false)) = true ∧
    clearTo addFe (machine addFe w2) (fun c f r => emptySource c w2 (f.a, r.a, true, false)) = true ∧
    clearTo addLatch (machine addLatch) (fun _ f r => f.a.holds false r.a && decide (r.a = Src.code (.latch 0)) && (warp0.latchAge == [])) = true ∧
    clearTo addIdx (machine addIdx wx) (fun c f r => indexGate c f r wx != .go) = true ∧
    clearTo add12 (machine add12 wb) (fun c f r => indexGate c f r wb == .go && (sramGate c f r wb != .go)) = true := by
  decide +kernel

theorem witness_DecodeEncode : add12.WF ∧ productOf.WF ∧ add12 ≠ productOf := by
  decide

/-- The machine after reset with VADD at the place of its next fetch. -/
def placed : State := State.reset.placeWord 64 0x2000004008080104

theorem witness_StepRunsDecoded :
    let s' : State := { placed with tape := [], clock := 1 }
    let w := placed.warp 0
    placed.tape = [{ dt := 1, act := .issue 0 0 }] ∧ placed.subCore 0 0 = [(0, 0)] ∧ (tget placed.warps 0).isSome = true ∧
    s'.issuable w = true ∧ (placed.core 0).passedSlot 1 0 = false ∧ (placed.group w.gid).parking = false ∧ w.word = none ∧
    (placed.launchOfWarp w).gen = 4 ∧ fetchBlock (placed.core w.core) w = some 0x2000004008080104 ∧
    decode (bytesFrom 0x2000004008080104 (w.pc.toNat % 32)) = .instr add12 ∧
    next (step placed) (fun u => decide ((u.warp 0).pc = 0x10008)) = true := by
  decide +kernel

theorem witness_MemoryStaysCanonical : State.reset.mem.wf = true ∧ placed.mem.wf = true ∧ next (step placed) (fun _ => true) = true := by
  decide +kernel

end Sys2Proof.Tests
end

section
/-!
SUPPORT. What reaches the point of coherence (R195, R223): the bytes of a sector, a write with its mark and watches, and the bytes
that an engine or a party outside writes.
-/
namespace Sys2Proof.Machine
open Sys2Proof.Stmt

/-! ## The bytes of a sector -/

/-- A byte of a sector after one byte was put. -/
theorem secByte_secPut (d : BitVec 256) (i j : Nat) (b : Byte) (hi : i < 32) (hj : j < 32) :
    secByte (secPut d i b) j = if j = i then b else secByte d j := by
  apply BitVec.eq_of_getLsbD_eq
  intro k hk
  simp only [secByte, secPut, BitVec.getLsbD_extractLsb', BitVec.getLsbD_or, BitVec.getLsbD_and, BitVec.getLsbD_not,
    BitVec.getLsbD_shiftLeft, BitVec.getLsbD_setWidth, hk, decide_true, Bool.true_and,
    show 8 * j + k < 256 by omega]
  have h255 : ∀ n, (255#256).getLsbD n = decide (n < 8) := fun n => by
    rw [BitVec.getLsbD_ofNat, show 255 = 2 ^ 8 - 1 from rfl, Nat.testBit_two_pow_sub_one]
    by_cases h : n < 8
    · rw [decide_eq_true h, decide_eq_true (show n < 256 by omega), Bool.and_self]
    · rw [decide_eq_false h, Bool.and_false]
  rw [h255]
  by_cases h : j = i
  · subst h
    have inside : ¬8 * j + k < 8 * j := by omega
    have wide : k < 256 := by omega
    simp only [if_true, Nat.add_sub_cancel_left, hk, inside, wide, decide_true, decide_false, Bool.not_true, Bool.not_false,
      Bool.and_false, Bool.false_or, Bool.true_and]
  · rw [if_neg h]
    have apart : 8 * j + k < 8 * i ∨ 8 ≤ 8 * j + k - 8 * i := by omega
    rcases apart with low | high
    · simp only [low, decide_true, Bool.not_true, Bool.false_and, Bool.not_false, Bool.and_true, Bool.or_false,
        BitVec.getLsbD_extractLsb', hk, Bool.true_and]
    · have past : ¬8 * j + k - 8 * i < 8 := by omega
      simp only [past, BitVec.getLsbD_of_ge b _ high, decide_false, Bool.and_false, Bool.not_false, Bool.and_true, Bool.or_false,
        BitVec.getLsbD_extractLsb', hk, decide_true, Bool.true_and]

theorem Memory.byte_write_if (m : Memory) (k a : Nat) (b : Byte) (c : Bool) :
    Memory.byte (if c = true then m.write k b else m) a = if a = k ∧ c = true then b else m.byte a := by
  cases c
  · simp
  · by_cases h : a = k
    · simp [h]
    · simp [h, Memory.byte_write_other _ _ h]

/-- Memory after some bytes of a sector were written. -/
theorem putSector_byte (m : Memory) (sec : Nat) (mask : BitVec 32) (data : BitVec 256) (a : Nat) :
    (putSector m sec mask data).byte a =
      if sectorOf a = sec ∧ mask.getLsbD (a % 32) = true then secByte data (a % 32) else m.byte a := by
  have upTo : ∀ n ≤ 32, ((List.range n).foldl (fun m i =>
      if mask.getLsbD i then m.write (32 * sec + i) (secByte data i) else m) m).byte a =
      if a / 32 = sec ∧ a % 32 < n ∧ mask.getLsbD (a % 32) = true then secByte data (a % 32) else m.byte a := by
    intro n hn
    induction n with
    | zero => simp
    | succ n ih =>
      rw [List.range_succ, List.foldl_append, List.foldl_cons, List.foldl_nil, Memory.byte_write_if, ih (by omega)]
      by_cases ha : a = 32 * sec + n
      · have hd : a / 32 = sec := by omega
        have hr : a % 32 = n := by omega
        simp only [eq_true ha, hd, hr, true_and, Nat.lt_irrefl, Nat.lt_succ_self, false_and, and_false, if_false]
      · have hlt : (a / 32 = sec ∧ a % 32 < n + 1) ↔ (a / 32 = sec ∧ a % 32 < n) := by omega
        simp only [ha, false_and, if_false, ← and_assoc, hlt]
  rw [putSector, upTo 32 (Nat.le_refl _)]
  by_cases h : sectorOf a = sec ∧ mask.getLsbD (a % 32) = true
  · rw [if_pos h, if_pos ⟨h.1, Nat.mod_lt a (by omega), h.2⟩]
  · rw [if_neg h, if_neg fun hc => h ⟨hc.1, hc.2.2⟩]

/-- The mask and data of a sector give a byte what the last of the bytes packed into them gives it. -/
theorem packBytes_byte (locs : List Nat) (bytes : List Byte) (old : Byte) (a : Nat)
    (h : ∀ e ∈ locs.zip bytes, sectorOf e.1 = sectorOf a) :
    (if (packBytes locs bytes).1.getLsbD (a % 32) = true then secByte (packBytes locs bytes).2 (a % 32) else old) =
      written (locs.zip bytes) old a := by
  unfold packBytes written
  have run : ∀ (es : List (Nat × Byte)) (r : BitVec 32 × BitVec 256) (x : Byte), (∀ e ∈ es, sectorOf e.1 = sectorOf a) →
      (if r.1.getLsbD (a % 32) = true then secByte r.2 (a % 32) else old) = x →
      (let u := es.foldl (fun r e => (setBit r.1 (e.1 % 32) true, secPut r.2 (e.1 % 32) e.2)) r
       if u.1.getLsbD (a % 32) = true then secByte u.2 (a % 32) else old) =
      es.foldl (fun b e => if e.1 = a then e.2 else b) x := by
    intro es
    induction es with
    | nil => intro r x _ hx; exact hx
    | cons e es ih =>
      intro r x hs hx
      refine ih _ _ (fun e he => hs e (List.mem_cons_of_mem _ he)) ?_
      have hsec : e.1 / 32 = a / 32 := hs e (List.mem_cons_self ..)
      have hiff : (a % 32 = e.1 % 32) = (e.1 = a) := propext (by omega)
      simp only [setBit_getLsbD _ _ _ _ (Nat.mod_lt e.1 (show 32 > 0 by omega)),
        secByte_secPut _ _ _ _ (Nat.mod_lt e.1 (show 32 > 0 by omega)) (Nat.mod_lt a (show 32 > 0 by omega)), hiff]
      by_cases he : e.1 = a
      · simp [he]
      · simpa [he] using hx
  exact run _ _ _ h (by simp)

/-! ## What bytes written leave -/

theorem written_filter (p : Nat × Byte → Bool) (es : List (Nat × Byte)) (old : Byte) (a : Nat)
    (h : ∀ e ∈ es, e.1 = a → p e = true) : written (es.filter p) old a = written es old a := by
  unfold written
  induction es generalizing old with
  | nil => rfl
  | cons e es ih =>
    have ih := fun old => ih old fun e he => h e (List.mem_cons_of_mem _ he)
    by_cases hp : p e = true
    · rw [List.filter_cons_of_pos hp, List.foldl_cons, List.foldl_cons, ih]
    · have he : e.1 ≠ a := fun he => hp (h e (List.mem_cons_self ..) he)
      rw [List.filter_cons_of_neg hp, List.foldl_cons, if_neg he, ih]

/-- A byte that is not among those written stays. -/
theorem written_outside (es : List (Nat × Byte)) (old : Byte) (a : Nat) (h : ∀ e ∈ es, e.1 ≠ a) : written es old a = old := by
  rw [← written_filter (fun e => e.1 == a) es old a (by simp), List.filter_eq_nil_iff.mpr (by simpa using h)]
  rfl

/-! ## Writes that wait -/

theorem pendingIn_cons (e : WEntry) (es : List WEntry) (a : Nat) :
    pendingIn (e :: es) a = (pendingIn es a).or (if sectorOf a = e.sector ∧ e.mask.getLsbD (a % 32) = true then some e else none) := by
  unfold pendingIn
  rw [List.reverse_cons, List.find?_append, List.find?_cons, List.find?_nil]
  by_cases h : sectorOf a = e.sector ∧ e.mask.getLsbD (a % 32) = true
  · simp [h]
  · have hf : (e.sector == sectorOf a && e.mask.getLsbD (a % 32)) = false := by
      rw [BEq.comm]
      simpa using h
    simp only [if_neg h, hf]

/-- Entries of other sectors play no part. -/
theorem pendingIn_filter (p : WEntry → Bool) (es : List WEntry) (a : Nat) (h : ∀ e ∈ es, sectorOf a = e.sector → p e = true) :
    pendingIn (es.filter p) a = pendingIn es a := by
  induction es with
  | nil => rfl
  | cons e es ih =>
    have ih := ih fun e he => h e (List.mem_cons_of_mem _ he)
    by_cases hp : p e = true
    · rw [List.filter_cons_of_pos hp, pendingIn_cons, pendingIn_cons, ih]
    · have he : sectorOf a ≠ e.sector := fun he => hp (h e (List.mem_cons_self ..) he)
      rw [List.filter_cons_of_neg hp, pendingIn_cons, ih, if_neg fun h => he h.1, Option.or_none]

theorem pendingIn_none (es : List WEntry) (a : Nat) (h : ∀ e ∈ es, sectorOf a ≠ e.sector) : pendingIn es a = none := by
  rw [← pendingIn_filter (fun e => sectorOf a == e.sector) es a (fun _ _ he => beq_iff_eq.mpr he),
    List.filter_eq_nil_iff.mpr fun e he hs => h e he (beq_iff_eq.mp hs)]
  rfl

/-- A byte under the writes of a buffer. -/
def under (es : List WEntry) (a : Nat) (old : Byte) : Byte := ((pendingIn es a).map fun e => secByte e.data (a % 32)).getD old

theorem shared_eq_under (s : State) (a : Nat) : shared s a = under s.hostq a (s.mem.byte a) := by
  unfold shared under
  cases pendingIn s.hostq a <;> rfl

theorem under_none {es : List WEntry} {a : Nat} (h : pendingIn es a = none) (old : Byte) : under es a old = old := by
  rw [under, h]; rfl

theorem under_cons (e : WEntry) (es : List WEntry) (a : Nat) (old : Byte) : under (e :: es) a old =
    under es a (if sectorOf a = e.sector ∧ e.mask.getLsbD (a % 32) = true then secByte e.data (a % 32) else old) := by
  unfold under
  rw [pendingIn_cons]
  cases pendingIn es a with
  | some x => rfl
  | none =>
    by_cases h : sectorOf a = e.sector ∧ e.mask.getLsbD (a % 32) = true
    · simp [h]
    · simp only [if_neg h]; rfl

/-! ## Counting -/

/-- `u` is `s` with nothing else than counters of interfaces moved (R415). -/
def Counted (s u : State) : Prop := (∃ x, u = { s with vis := x }) ∧ ∀ k, SameVi (s.vi k) (u.vi k)

theorem Counted.refl (s : State) : Counted s s := ⟨⟨s.vis, rfl⟩, fun _ => rfl⟩

theorem Counted.trans {s t u : State} (h : Counted s t) (h' : Counted t u) : Counted s u := by
  obtain ⟨⟨x, rfl⟩, hv⟩ := h
  obtain ⟨⟨y, rfl⟩, hv'⟩ := h'
  exact ⟨⟨y, rfl⟩, fun k => (hv k).trans (hv' k)⟩

theorem State.vi_setVi (s : State) (v k : Nat) (x : Vi) : (s.setVi v x).vi k = if k = v then x else s.vi k := by
  unfold State.vi
  rw [State.setVi_vis, tget_tput]
  by_cases h : k = v <;> simp [h]

@[simp] theorem State.vi_setVi_same (s : State) (v : Nat) (x : Vi) : (s.setVi v x).vi v = x := by
  rw [State.vi_setVi, if_pos rfl]

theorem counted_count (s : State) (vi d n k : Nat) : Counted s (s.count vi d n k) := by
  refine ⟨⟨_, rfl⟩, fun j => ?_⟩
  rw [State.count, State.vi_setVi]
  split
  · next h => subst h; rfl
  · rfl

theorem counted_crossing (s : State) (vi a b n : Nat) : Counted s (s.crossing vi a b n) :=
  (counted_count ..).trans (counted_count ..)

theorem counted_travel (s : State) (vi a b n : Nat) : Counted s (s.travel vi a b n) := by
  unfold State.travel
  split
  · exact .refl s
  · split
    · exact (counted_crossing ..).trans (counted_crossing ..)
    · exact counted_crossing ..

theorem counted_traffic (s : State) (vi d a n : Nat) : Counted s (s.traffic vi d a n) := by
  unfold State.traffic
  split
  · exact counted_count ..
  · exact (counted_travel ..).trans (counted_count ..)

/-! ## Writes that reach the point of coherence -/

theorem State.pocWrite_mem (s : State) (d : Option Nat) (sec : Nat) (mask : BitVec 32) (data : BitVec 256) (mark : Option Mark) :
    (s.pocWrite d sec mask data mark).mem = putSector s.mem sec mask data := rfl

theorem State.arrive_mem (s : State) (d : Nat) (e : WEntry) : (s.arrive d e).mem = putSector s.mem e.sector e.mask e.data := by
  obtain ⟨⟨x, h⟩, -⟩ := counted_traffic (s.pocWrite (some d) e.sector e.mask e.data e.mark) e.vi d (32 * e.sector) (bytesIn e.mask)
  rw [State.arrive, h]
  rfl

theorem State.arrive_hostq (s : State) (d : Nat) (e : WEntry) : (s.arrive d e).hostq = s.hostq := by
  obtain ⟨⟨x, h⟩, -⟩ := counted_traffic (s.pocWrite (some d) e.sector e.mask e.data e.mark) e.vi d (32 * e.sector) (bytesIn e.mask)
  rw [State.arrive, h]
  rfl

/-- Entries that reach their homes one after the other: memory is what lay under them. -/
theorem arrivals_byte (f : WEntry → Nat) (es : List WEntry) (s : State) (a : Nat) :
    (es.foldl (fun s e => s.arrive (f e) e) s).mem.byte a = under es a (s.mem.byte a) := by
  induction es generalizing s with
  | nil => rfl
  | cons e es ih => rw [List.foldl_cons, ih, State.arrive_mem, putSector_byte, under_cons]

theorem arrivals_hostq (f : WEntry → Nat) (es : List WEntry) (s : State) :
    (es.foldl (fun s e => s.arrive (f e) e) s).hostq = s.hostq := by
  induction es generalizing s with
  | nil => rfl
  | cons e es ih => rw [List.foldl_cons, ih, State.arrive_hostq]

theorem State.hostDrain_hostq (s : State) (sec : Nat) : (s.hostDrain sec).hostq = s.hostq.filter fun e => e.sector != sec :=
  arrivals_hostq _ _ _

/-- When the host writes of a sector have reached the host, memory holds of it what every die saw. -/
theorem State.hostDrain_byte (s : State) (sec a : Nat) :
    (s.hostDrain sec).mem.byte a = if sectorOf a = sec then shared s a else s.mem.byte a := by
  rw [State.hostDrain, arrivals_byte]
  split
  · next h =>
    rw [shared_eq_under, under, under, pendingIn_filter _ _ _ fun e _ he => by simp [← he, h]]
  · next h =>
    refine under_none (pendingIn_none _ _ fun e he => ?_) _
    have : e.sector = sec := by simpa using (List.mem_filter.mp he).2
    rwa [this]

/-! ## What such writes leave unchanged -/

/-- Cores and workgroups are as before, and every warp but for what a write at the point of coherence wakes (R298). -/
def OnlyWakes (s u : State) : Prop :=
  u.cores = s.cores ∧ u.groups = s.groups ∧ ∀ id, (tget u.warps id).map still = (tget s.warps id).map still

theorem OnlyWakes.refl (s : State) : OnlyWakes s s := ⟨rfl, rfl, fun _ => rfl⟩

theorem OnlyWakes.trans {s t u : State} (h : OnlyWakes s t) (h' : OnlyWakes t u) : OnlyWakes s u :=
  ⟨h'.1.trans h.1, h'.2.1.trans h.2.1, fun id => (h'.2.2 id).trans (h.2.2 id)⟩

theorem OnlyWakes.foldl {α : Type} {f : State → α → State} (h : ∀ s x, OnlyWakes s (f s x)) (l : List α) (s : State) :
    OnlyWakes s (l.foldl f s) := by
  induction l generalizing s with
  | nil => exact .refl s
  | cons x l ih => exact (h s x).trans (ih _)

theorem Counted.onlyWakes {s u : State} (h : Counted s u) : OnlyWakes s u := by
  obtain ⟨⟨x, rfl⟩, -⟩ := h
  exact .refl s

theorem tget_tmap {α : Type} (f : Nat → α → α) (m : Tab α) (i : Nat) : tget (tmap f m) i = (tget m i).map (f i) := by
  unfold tmap
  induction m with
  | nil => rfl
  | cons e m ih =>
    simp only [List.map_cons, tget]
    split
    · next h => subst h; rfl
    · exact ih

theorem onlyWakes_pocWrite (s : State) (d : Option Nat) (sec : Nat) (mask : BitVec 32) (data : BitVec 256) (mark : Option Mark) :
    OnlyWakes s (s.pocWrite d sec mask data mark) := by
  refine ⟨rfl, rfl, fun id => ?_⟩
  show (tget (tmap (fun _ w => w.wrote sec) s.warps) id).map still = _
  rw [tget_tmap, Option.map_map]
  rfl

theorem onlyWakes_arrive (s : State) (d : Nat) (e : WEntry) : OnlyWakes s (s.arrive d e) :=
  (onlyWakes_pocWrite ..).trans (counted_traffic ..).onlyWakes

theorem onlyWakes_hostDrain (s : State) (sec : Nat) : OnlyWakes s (s.hostDrain sec) := by
  have start : OnlyWakes s { s with hostq := s.hostq.filter fun e => e.sector != sec } := ⟨rfl, rfl, fun _ => rfl⟩
  have h := OnlyWakes.foldl (f := fun s e => s.arrive (e.id % 4) e) (fun s e => onlyWakes_arrive s (e.id % 4) e)
  exact start.trans (h _ _)

theorem onlyWakes_engineWrite (s : State) (locs : List Nat) (bytes : List Byte) : OnlyWakes s (s.engineWrite locs bytes) :=
  OnlyWakes.foldl (fun s _ => (onlyWakes_hostDrain s _).trans (onlyWakes_pocWrite ..)) _ s

/-! ## Bytes written by an engine, a packet or a party outside (R228, R298) -/

theorem nodup_eraseDups {α : Type} [DecidableEq α] : ∀ l : List α, l.eraseDups.Nodup
  | [] => List.nodup_nil
  | a :: l => by
    rw [List.eraseDups_cons]
    exact List.nodup_cons.mpr ⟨by simp [List.mem_eraseDups], nodup_eraseDups _⟩
termination_by l => l.length
decreasing_by exact Nat.lt_succ_of_le (List.length_filter_le ..)

/-- The bytes of one sector among `es` written at the point of coherence, after the host writes of the sector. -/
def State.sectorWrite (es : List (Nat × Byte)) (s : State) (sec : Nat) : State :=
  let es := es.filter fun e => sectorOf e.1 == sec
  let p := packBytes (es.map Prod.fst) (es.map Prod.snd)
  (s.hostDrain sec).pocWrite none sec p.1 p.2 none

theorem State.engineWrite_eq (s : State) (locs : List Nat) (bytes : List Byte) :
    s.engineWrite locs bytes = (locs.map sectorOf).eraseDups.foldl (State.sectorWrite (locs.zip bytes)) s := rfl

theorem State.sectorWrite_hostq (es : List (Nat × Byte)) (s : State) (sec : Nat) :
    (s.sectorWrite es sec).hostq = s.hostq.filter fun e => e.sector != sec := s.hostDrain_hostq sec

theorem State.sectorWrite_byte (es : List (Nat × Byte)) (s : State) (sec a : Nat) :
    (s.sectorWrite es sec).mem.byte a = if sectorOf a = sec then written es (shared s a) a else s.mem.byte a := by
  rw [State.sectorWrite, State.pocWrite_mem, putSector_byte, State.hostDrain_byte]
  by_cases h : sectorOf a = sec
  · have hz : ∀ l : List (Nat × Byte), (l.map Prod.fst).zip (l.map Prod.snd) = l := fun l => by
      rw [← List.unzip_fst, ← List.unzip_snd, List.zip_unzip]
    simp only [h, true_and, if_true]
    rw [packBytes_byte _ _ _ _ (by simp [hz, h]), hz, written_filter _ _ _ _ fun e _ he => by simp [he, h]]
  · simp only [h, false_and, if_false]

/-- Sectors written one after the other, each once: memory, and the host writes that are left. -/
theorem sectorWrites (es : List (Nat × Byte)) (secs : List Nat) (hn : secs.Nodup) (s : State) :
    let u := secs.foldl (State.sectorWrite es) s
    (∀ a, u.mem.byte a = if sectorOf a ∈ secs then written es (shared s a) a else s.mem.byte a) ∧
    u.hostq = s.hostq.filter fun e => decide (e.sector ∉ secs) := by
  induction secs generalizing s with
  | nil => exact ⟨fun _ => (if_neg List.not_mem_nil).symm, (List.filter_eq_self.mpr fun _ _ => decide_eq_true List.not_mem_nil).symm⟩
  | cons sec secs ih =>
    obtain ⟨hsec, hn⟩ := List.nodup_cons.mp hn
    obtain ⟨hmem, hq⟩ := ih hn (s.sectorWrite es sec)
    refine ⟨fun a => ?_, ?_⟩
    · rw [List.foldl_cons, hmem, State.sectorWrite_byte]
      by_cases ha : sectorOf a = sec
      · simp [ha, hsec]
      · have hs : shared (s.sectorWrite es sec) a = shared s a := by
          rw [shared_eq_under, shared_eq_under, State.sectorWrite_hostq, State.sectorWrite_byte, if_neg ha, under, under,
            pendingIn_filter _ _ _ fun e _ he => by simpa [← he] using ha]
        simp [ha, hs]
    · rw [List.foldl_cons, hq, State.sectorWrite_hostq, List.filter_filter]
      congr 1
      funext e
      by_cases he : e.sector = sec <;> simp [he]

/-- Every die sees the bytes that were written, and they stand in memory. -/
theorem put_engineWrite (s : State) (locs : List Nat) (bytes : List Byte) : Put locs bytes s (s.engineWrite locs bytes) := by
  obtain ⟨hmem, hq⟩ := sectorWrites (locs.zip bytes) _ (nodup_eraseDups (locs.map sectorOf)) s
  rw [← State.engineWrite_eq] at hmem hq
  simp only [List.mem_eraseDups] at hmem hq
  have hin : ∀ a, sectorOf a ∈ locs.map sectorOf → shared (s.engineWrite locs bytes) a = (s.engineWrite locs bytes).mem.byte a := by
    intro a ha
    rw [shared_eq_under, hq, under_none (pendingIn_none _ _ fun e he hs => ?_)]
    exact (by simpa using (List.mem_filter.mp he).2 : e.sector ∉ locs.map sectorOf) (hs ▸ ha)
  refine ⟨fun a => ?_, fun a ha => (hin a (List.mem_map_of_mem ha)).symm, fun a ha => ?_⟩
  · by_cases h : sectorOf a ∈ locs.map sectorOf
    · rw [hin a h, hmem, if_pos h]
    · have hout : ∀ e ∈ locs.zip bytes, e.1 ≠ a := fun e he hea =>
        h (hea ▸ List.mem_map_of_mem (List.of_mem_zip (show (e.1, e.2) ∈ locs.zip bytes from he)).1)
      rw [written_outside _ _ _ hout, shared_eq_under, shared_eq_under, hq, hmem, if_neg h, under, under,
        pendingIn_filter _ _ _ fun e _ he => by simpa [← he] using h]
  · rw [hmem, if_neg]
    rintro h
    obtain ⟨b, hb, hs⟩ := List.mem_map.mp h
    exact ha b hb hs

end Sys2Proof.Machine
end

section
/-!
SUPPORT. What the caches and a kill do to the interfaces: they count, and nothing else of an interface changes. From it, what an
error of a queue or of an interface leaves (R391, R403, R406).
-/
namespace Sys2Proof.Machine
open Sys2Proof.Stmt

/-! ## Interfaces agree in all but their counters -/

/-- Whatever else differs, every interface is as before in all but its counters. -/
structure SameVis (s u : State) : Prop where
  vi : ∀ k, SameVi (s.vi k) (u.vi k)

theorem SameVis.of_eq {s u : State} (h : u.vis = s.vis) : SameVis s u where
  vi k := by
    rw [State.vi, State.vi, h]
    rfl

theorem SameVis.trans {s t u : State} (h : SameVis s t) (h' : SameVis t u) : SameVis s u := ⟨fun k => (h.vi k).trans (h'.vi k)⟩

theorem SameVis.ite {s t u : State} (p : Prop) [Decidable p] (h : SameVis s t) (h' : SameVis s u) : SameVis s (if p then t else u) := by
  split
  · exact h
  · exact h'

/-- What came before `t` left the interfaces alone. -/
theorem SameVis.since {s t u : State} (h : SameVis t u) (ht : t.vis = s.vis) : SameVis s u := (SameVis.of_eq ht).trans h

theorem Counted.sameVis {s u : State} (h : Counted s u) : SameVis s u := ⟨h.2⟩

theorem SameVis.foldl {α : Type} {f : State → α → State} (h : ∀ s x, SameVis s (f s x)) (l : List α) (s : State) :
    SameVis s (l.foldl f s) := by
  induction l generalizing s with
  | nil => exact .of_eq rfl
  | cons x l ih => exact (h s x).trans (ih _)

theorem SameVis.tdisp {s u : State} (h : SameVis s u) (k : Nat) : (u.vi k).tdisp = (s.vi k).tdisp := (congrArg Vi.tdisp (h.vi k)).symm

theorem SameVis.queue {s u : State} (h : SameVis s u) (k q : Nat) : u.queue k q = s.queue k q :=
  (congrArg (fun v : Vi => v.queue q) (h.vi k)).symm

/-! ## The caches -/

theorem sameVis_arrive (s : State) (d : Nat) (e : WEntry) : SameVis s (s.arrive d e) :=
  (counted_traffic (s.pocWrite (some d) e.sector e.mask e.data e.mark) ..).sameVis.since rfl

theorem sameVis_hostDrain (s : State) (sec : Nat) : SameVis s (s.hostDrain sec) := by
  have h := SameVis.foldl (f := fun s e => s.arrive (e.id % 4) e) fun s e => sameVis_arrive s (e.id % 4) e
  exact (h _ _).since rfl

theorem sameVis_dieWrite (s : State) (d vi sec : Nat) (mask : BitVec 32) (data : BitVec 256) (mark : Option Mark) :
    SameVis s (s.dieWrite d vi sec mask data mark) :=
  .ite _ (.of_eq rfl) (.ite _ (.of_eq rfl)
    ((counted_traffic ((s.l2Put d sec mask).pocWrite (some d) sec mask data mark) ..).sameVis.since rfl))

theorem sameVis_writeBack (s : State) (c sec : Nat) : SameVis s (s.writeBack c sec) :=
  .ite _ (.of_eq rfl) ((sameVis_dieWrite (s.putL1 c sec _) ..).since rfl)

theorem sameVis_writeBackAll (s : State) (c : Nat) : SameVis s (s.writeBackAll c) := .foldl (fun s sec => sameVis_writeBack s c sec) _ s

theorem sameVis_shareHost (s : State) (d : Nat) : SameVis s (s.shareHost d) := by
  have drop := SameVis.foldl (f := fun s e => s.l2Drop e.sector (some d)) fun s (e : WEntry) => .of_eq rfl
  exact .ite _ (.of_eq rfl) ((drop _ _).since rfl)

theorem sameVis_drain (s : State) (d : Nat) (e : WEntry) : SameVis s (s.drain d e) :=
  ((sameVis_hostDrain (s.setDie d _) e.sector).trans (sameVis_arrive _ d e)).since rfl

theorem sameVis_drainAll (s : State) (d : Nat) (p : WEntry → Bool) : SameVis s (s.drainAll d p) :=
  .foldl (fun s e => sameVis_drain s d e) _ s

theorem sameVis_releaseAt (s : State) (id c : Nat) (sc : Scope) : SameVis s (s.releaseAt id c sc) := by
  have writes (t : State) : SameVis t (if Scope.atLeastDie sc then t.writeBackAll c else t) := .ite _ (sameVis_writeBackAll t c) (.of_eq rfl)
  have shares (t : State) : SameVis t (if Scope.atLeastDevice sc then t.shareHost (c / 64) else t) := .ite _ (sameVis_shareHost t _) (.of_eq rfl)
  exact .ite _ (.of_eq rfl) (((writes (s.publish id)).trans (shares _)).since rfl)

theorem sameVis_releaseDevice (s : State) (id c : Nat) : SameVis s (s.releaseDevice id c) :=
  (sameVis_releaseAt s id c .device).trans (sameVis_drainAll ..)

/-! ## A kill (R403) -/

/-- What a kill does with a warp: its release, and its end. -/
def State.endWarp (s : State) (id : Nat) : State :=
  let w := s.warp id
  let s := if w.place.isSome && w.status != .exited then s.releaseDevice id w.core else s
  s.setWarp id { s.warp id with status := .exited, woken := false, word := none, cont := .none, elig := 0, overdue := false }

theorem State.endGroup_eq (s : State) (gid : Nat) : s.endGroup gid = (s.group gid).warps.foldl State.endWarp
    (s.setGroup gid { s.group gid with state := .resident, parking := false, meet := none, suspended := false }) := rfl

theorem sameVis_endWarp (s : State) (id : Nat) : SameVis s (s.endWarp id) :=
  (SameVis.ite _ (sameVis_releaseDevice s id (s.warp id).core) (.of_eq rfl)).trans (.of_eq rfl)

theorem sameVis_endGroup (s : State) (gid : Nat) : SameVis s (s.endGroup gid) := by
  rw [State.endGroup_eq]
  exact (SameVis.foldl sameVis_endWarp _ _).since rfl

theorem sameVis_killLaunch (s : State) (lid : Nat) : SameVis s (s.killLaunch lid) := by
  have ends := SameVis.foldl (f := fun s gid => if (s.group gid).state = .parked then s.discardGroup gid else s.endGroup gid)
    fun s gid => .ite _ (.of_eq rfl) (sameVis_endGroup s gid)
  exact (ends _ s).trans (.ite _ (.of_eq rfl) (.of_eq rfl))

/-! ## Errors of a queue and of an interface (R391, R406) -/

theorem State.queue_setQueue (s : State) (v q k r : Nat) (x : Queue) :
    (s.setQueue v q x).queue k r = if k = v ∧ r = q then x else s.queue k r := by
  unfold State.queue State.setQueue
  rw [State.vi_setVi]
  by_cases hk : k = v
  · subst hk
    simp only [if_true, Vi.queue, tget_tput, true_and]
    split <;> rfl
  · simp only [hk, if_false, false_and]

theorem State.queue_killedRecord (s : State) (vi q k r : Nat) (asked : Option Nat) :
    (s.killedRecord vi q asked).queue k r = s.queue k r := by
  unfold State.killedRecord State.trapDue State.queue
  rw [State.vi_setVi]
  split
  · next h => subst h; rfl
  · rfl

theorem State.tdisp_killedRecord (s : State) (vi q k : Nat) (asked : Option Nat) :
    ((s.killedRecord vi q asked).vi k).tdisp = (s.vi k).tdisp := by
  unfold State.killedRecord State.trapDue
  rw [State.vi_setVi]
  split
  · next h => subst h; rfl
  · rfl

/-- Whatever the error does to the launch of the queue, queues and states of interfaces are those after the queue's own change. -/
theorem State.queueError_spec (s : State) (vi q code detail : Nat) (own : Bool) :
    let x := s.queue vi q
    let y := { x with error := some (code, detail), packet := none, lid := if own then x.lid else none, preempt := none, notice := false }
    (∀ k r, (s.queueError vi q code detail own).queue k r = if k = vi ∧ r = q then y else s.queue k r) ∧
    ∀ k, ((s.queueError vi q code detail own).vi k).tdisp = (s.vi k).tdisp := by
  intro x y
  have ht : ∀ k, ((s.setQueue vi q y).vi k).tdisp = (s.vi k).tdisp := fun k => by
    rw [State.setQueue, State.vi_setVi]
    split
    · next h => subst h; rfl
    · rfl
  have hq := fun k r => State.queue_setQueue s vi q k r y
  unfold State.queueError
  dsimp only
  split
  · cases own
    · have kill := fun lid => sameVis_killLaunch ((s.setQueue vi q y).killedRecord vi q x.preempt) lid
      exact ⟨fun k r => ((kill _).queue k r).trans ((State.queue_killedRecord ..).trans (hq k r)),
        fun k => ((kill _).tdisp k).trans ((State.tdisp_killedRecord ..).trans (ht k))⟩
    · exact ⟨hq, ht⟩
  · exact ⟨hq, ht⟩

/-- An interface in ERROR: so is every queue of it, with INTERFACE_ERROR and no packet. -/
theorem State.interfaceError_spec (s : State) (vi : Nat) :
    ((s.interfaceError vi).vi vi).tdisp = .error ∧
    ∀ q < 16, ((s.interfaceError vi).queue vi q).error = some (7, 0) ∧ ((s.interfaceError vi).queue vi q).packet = none := by
  have upTo : ∀ n, let u := (List.range n).foldl (fun s q => s.queueError vi q 0x07 0 false) (s.setVi vi { s.vi vi with tdisp := .error })
      (u.vi vi).tdisp = .error ∧ ∀ q < n, (u.queue vi q).error = some (7, 0) ∧ (u.queue vi q).packet = none := by
    intro n
    induction n with
    | zero => simp
    | succ n ih =>
      rw [List.range_succ, List.foldl_append]
      obtain ⟨ht, hq⟩ := ih
      have last (t : State) := t.queueError_spec vi n 0x07 0 false
      refine ⟨((last _).2 vi).trans ht, fun q h => ?_⟩
      rw [List.foldl_cons, List.foldl_nil, (last _).1]
      by_cases hn : q = n
      · rw [if_pos ⟨rfl, hn⟩]; exact ⟨rfl, rfl⟩
      · rw [if_neg fun hc => hn hc.2]; exact hq q (by omega)
  exact upTo 16

/-! ## Requests that are due (R403) -/

/-- Where no request is due and no notice word waits, settling the queues changes nothing. -/
theorem State.settleQueues_eq (s : State) (vi : Nat)
    (h : ∀ r < 16, (s.queue vi r).launching = true → (s.queue vi r).notice = false ∧ ((s.queue vi r).preempt = none → s.wanted vi r = false)) :
    s.settleQueues vi = s := by
  unfold State.settleQueues
  have hl : ∀ r ∈ List.range 16, r < 16 := fun r hr => List.mem_range.mp hr
  revert hl
  generalize List.range 16 = l
  intro hl
  induction l with
  | nil => rfl
  | cons r l ih =>
    have hr := h r (hl r (List.mem_cons_self ..))
    rw [List.foldl_cons]
    dsimp only
    rw [if_neg, if_neg]
    · exact ih fun r hr => hl r (List.mem_cons_of_mem _ hr)
    · intro hc
      simp only [Bool.and_eq_true] at hc
      simp [hr hc.1] at hc
    · intro hc
      simp only [Bool.and_eq_true, Option.isNone_iff_eq_none] at hc
      obtain ⟨⟨⟨hlaunch, hp⟩, -⟩, hw⟩ := hc
      simp [(hr hlaunch).2 hp] at hw

/-- No request is due on an interface in ERROR. -/
theorem State.settleQueues_interfaceError (s : State) (vi : Nat) : (s.interfaceError vi).settleQueues vi = s.interfaceError vi := by
  refine State.settleQueues_eq _ _ fun r hr hl => ?_
  simp [Queue.launching, (s.interfaceError_spec vi).2 r hr] at hl

end Sys2Proof.Machine
end

section
/-!
SUPPORT. A write of a register (R11, R413): the value that it brings, and what it does to a queue's register, to a plain one and to a
frozen one.
-/
namespace Sys2Proof.Machine
open Sys2Proof.Stmt

/-! ## The value written -/

/-- The value that a write of the event's length brings. -/
def State.regValue (s : State) : DWord := if s.ev.len = 4 then (lo32 s.ev.val).setWidth 64 else s.ev.val

theorem lo32_setWidth (w : Word) : lo32 (w.setWidth 64) = w := by
  apply BitVec.eq_of_toNat_eq
  simpa [lo32] using w.isLt

theorem State.lo32_regValue (s : State) : lo32 s.regValue = lo32 s.ev.val := by
  unfold State.regValue
  split
  · exact lo32_setWidth _
  · rfl

/-- The same as a number. -/
def State.regNumber (s : State) : Nat := if s.ev.len = 4 then (lo32 s.ev.val).toNat else s.ev.val.toNat

theorem State.toNat_regValue (s : State) : s.regValue.toNat = s.regNumber := by
  unfold State.regValue State.regNumber
  split
  · exact BitVec.toNat_setWidth_of_le (by omega)
  · rfl

theorem regValue_of_writes {s : State} {off : Nat} (h : Writes off 8 s) : s.regValue = s.ev.val :=
  if_neg (by rw [h.2.2]; decide)

/-! ## A register takes a legal value and refuses any other -/

/-- The write `r` is performed with the outcome `u` if the value is legal, else not at all. -/
def Takes {α : Type} (legal : Prop) (u : α) (r : Option α) : Prop := (legal → r = some u) ∧ (¬legal → r = none)

theorem takes_ite {α : Type} {legal p : Prop} [Decidable p] {u : α} (h : legal ↔ p) : Takes legal u (if p then some u else none) :=
  ⟨fun hl => if_pos (h.mp hl), fun hl => if_neg fun hp => hl (h.mpr hp)⟩

/-- The row of a register in R413: a write of it takes the legal values, and the requests that are due follow. -/
def Row (s : State) (off len : Nat) (legal : Prop) (u : Vi) : Prop := Writes off len s →
  (legal → exec .registerWrite s = .next ((s.setVi s.ev.vi u).settleQueues s.ev.vi)) ∧
  (¬legal → exec .registerWrite s = .next (s.settleQueues s.ev.vi))

/-! ## What a register write does -/

theorem registerWrite_queue {s : State} {q off len : Nat} (hq : q < 16) (ho : off < 64) (hw : Writes (64 * q + off) len s) :
    exec .registerWrite s = .next ((((s.queue s.ev.vi q).written (s.queueState s.ev.vi q) off len s.regValue).elim s
      fun y => s.setQueue s.ev.vi q y).settleQueues s.ev.vi) := by
  obtain ⟨hm, ha, rfl⟩ := hw
  show execRegisterWrite s = _
  have hd : (64 * q + off) / 64 = q := by omega
  have hr : (64 * q + off) % 64 = off := by omega
  have hlt : 64 * q + off < 0x400 := by omega
  simp only [execRegisterWrite, if_neg hm, ha, if_pos hlt, hd, hr, State.regValue]
  cases (s.queue s.ev.vi q).written (s.queueState s.ev.vi q) off s.ev.len
    (if s.ev.len = 4 then (lo32 s.ev.val).setWidth 64 else s.ev.val) <;> rfl

theorem registerWrite_frozen {s : State} {off len : Nat} {r : Option Vi} (ho : 0x400 ≤ off) (hw : Writes off len s)
    (hf : (s.vi s.ev.vi).frozenWrite off len s.regValue = some r) :
    exec .registerWrite s = .next ((s.writeFrozen s.ev.vi r).settleQueues s.ev.vi) := by
  obtain ⟨hm, ha, rfl⟩ := hw
  show execRegisterWrite s = _
  rw [State.regValue] at hf
  simp only [execRegisterWrite, if_neg hm, ha, if_neg (Nat.not_lt.mpr ho), hf]

theorem registerWrite_plain {s : State} {off len : Nat} (ho : 0x400 ≤ off) (hw : Writes off len s)
    (hf : (s.vi s.ev.vi).frozenWrite off len s.regValue = none) :
    exec .registerWrite s = .next ((((s.vi s.ev.vi).plainWrite off len s.regValue).elim s
      fun v => s.setVi s.ev.vi v).settleQueues s.ev.vi) := by
  obtain ⟨hm, ha, rfl⟩ := hw
  show execRegisterWrite s = _
  rw [State.regValue] at hf ⊢
  simp only [execRegisterWrite, if_neg hm, ha, if_neg (Nat.not_lt.mpr ho), hf]
  cases (s.vi s.ev.vi).plainWrite off s.ev.len (if s.ev.len = 4 then (lo32 s.ev.val).setWidth 64 else s.ev.val) <;> rfl

theorem queueRow {s : State} {q off len : Nat} {legal : Prop} {u : Queue} (hq : q < 16) (ho : off < 64)
    (h : Writes (64 * q + off) len s → Takes legal u ((s.queue s.ev.vi q).written (s.queueState s.ev.vi q) off len s.regValue)) :
    Row s (64 * q + off) len legal { s.vi s.ev.vi with queues := tput (s.vi s.ev.vi).queues q u } := by
  intro hw
  rw [registerWrite_queue hq ho hw]
  exact ⟨fun hl => by rw [(h hw).1 hl]; rfl, fun hl => by rw [(h hw).2 hl]; rfl⟩

theorem plainRow {s : State} {off len : Nat} {legal : Prop} {u : Vi} (ho : 0x400 ≤ off)
    (hf : ∀ x, (s.vi s.ev.vi).frozenWrite off len x = none)
    (h : Writes off len s → Takes legal u ((s.vi s.ev.vi).plainWrite off len s.regValue)) : Row s off len legal u := by
  intro hw
  rw [registerWrite_plain ho hw (hf _)]
  exact ⟨fun hl => by rw [(h hw).1 hl]; rfl, fun hl => by rw [(h hw).2 hl]; rfl⟩

/-! ### Frozen registers (R406) -/

theorem State.writeFrozen_unlocked {s : State} {vi : Nat} {u : Vi} (h : (s.vi vi).tdisp = .unlocked) (hc : u.cores = (s.vi vi).cores) :
    s.writeFrozen vi (some u) = s.setVi vi u := by
  have hgone : (s.vi vi).cores &&& ~~~u.cores = 0 := by rw [hc]; exact BitVec.and_not_self _
  unfold State.writeFrozen
  rw [h]
  exact congrArg (fun t : State => t.setVi vi u) (if_pos hgone)

theorem State.writeFrozen_error {s : State} {vi : Nat} (u : Vi) (h : (s.vi vi).tdisp = .error) : s.writeFrozen vi (some u) = s := by
  unfold State.writeFrozen
  rw [h]

theorem State.writeFrozen_locked {s : State} {vi : Nat} (u : Vi) (h : (s.vi vi).tdisp = .locked ∨ (s.vi vi).tdisp = .run) :
    s.writeFrozen vi (some u) = s.interfaceError vi := by
  unfold State.writeFrozen
  rcases h with h | h <;> rw [h]

/-! ## The registers of a queue (R389, R390) -/

/-- The queue is not ACTIVE, and where it is HELD it is disabled: its place and size may be written. -/
def Queue.movable (x : Queue) (st : Nat) : Prop := st ≠ 1 ∧ (st = 2 → x.en = false)

theorem Queue.movable_iff (x : Queue) (st : Nat) : (st != 1 && (st != 2 || !x.en)) = true ↔ x.movable st := by
  unfold Queue.movable
  by_cases h : st = 2 <;> simp [h]

theorem Queue.written_qbase (x : Queue) (st : Nat) (v : DWord) :
    Takes (x.movable st ∧ v.toNat % 4096 = 0) { x with qbase := v } (x.written st 0x00 8 v) :=
  takes_ite (by rw [Bool.and_eq_true, x.movable_iff, beq_iff_eq])

theorem Queue.written_qsize (x : Queue) (st : Nat) (v : DWord) :
    Takes (x.movable st ∧ 4 ≤ v.toNat ∧ v.toNat ≤ 16) { x with qsize := lo32 v } (x.written st 0x08 4 v) :=
  takes_ite (by rw [Bool.and_eq_true, x.movable_iff, decide_eq_true_iff])

theorem Queue.written_qprio (x : Queue) (st : Nat) (v : DWord) :
    Takes (v.toNat < 8) { x with qprio := lo32 v } (x.written st 0x14 4 v) := takes_ite Iff.rfl

theorem Queue.written_qquant (x : Queue) (st : Nat) (v : DWord) :
    Takes (1 ≤ v.toNat ∧ v.toNat ≤ 1000000) { x with qquant := lo32 v } (x.written st 0x18 4 v) := takes_ite Iff.rfl

theorem Queue.written_qset (x : Queue) (st : Nat) (v : DWord) :
    Takes (x.movable st ∧ v.toNat < 16) { x with qset := lo32 v } (x.written st 0x1C 4 v) :=
  takes_ite (by rw [Bool.and_eq_true, x.movable_iff, decide_eq_true_iff])

theorem Queue.written_qnote (x : Queue) (st : Nat) (v : DWord) :
    Takes True { x with qnote := v } (x.written st 0x20 8 v) := ⟨fun _ => rfl, fun h => absurd trivial h⟩

/-! ## Plain registers -/

theorem Vi.plainWrite_invStart (v : Vi) (x : DWord) :
    Takes (x.toNat % 65536 = 0 ∧ v.invGo = false) { v with invStart := x } (v.plainWrite 0x420 8 x) := takes_ite (by simp)

theorem Vi.plainWrite_invCount (v : Vi) (x : DWord) :
    Takes (v.invGo = false) { v with invCount := lo32 x } (v.plainWrite 0x428 4 x) := by
  show Takes _ _ (if v.invGo = true then none else some { v with invCount := lo32 x })
  rw [← ite_not]
  exact takes_ite (by simp)

theorem Vi.plainWrite_hintBase (v : Vi) (x : DWord) :
    Takes (x.toNat % 16 = 0) { v with hintBase := x } (v.plainWrite 0x440 8 x) := takes_ite Iff.rfl

theorem Vi.plainWrite_hintCnt (v : Vi) (x : DWord) :
    Takes (x.toNat ≤ 2 ^ 20) { v with hintCnt := lo32 x } (v.plainWrite 0x448 4 x) := takes_ite Iff.rfl

theorem Vi.plainWrite_domTmo (v : Vi) (x : DWord) :
    Takes (100 ≤ x.toNat ∧ x.toNat ≤ 1000000) { v with domTmo := lo32 x } (v.plainWrite 0x80C 4 x) := takes_ite Iff.rfl

theorem Vi.plainWrite_grace (v : Vi) (x : DWord) :
    Takes (100 ≤ x.toNat ∧ x.toNat ≤ 100000) { v with grace := lo32 x } (v.plainWrite 0x840 4 x) := takes_ite Iff.rfl

theorem Vi.plainWrite_ramp (v : Vi) (x : DWord) {d : Nat} (hd : d < 4) :
    Takes (x.toNat ≤ 4096) { v with ramp := sset 64 v.ramp d (lo32 x) } (v.plainWrite (0x844 + 4 * d) 4 x) := by
  have here : 4 = 4 ∧ 0x844 ≤ 0x844 + 4 * d ∧ 0x844 + 4 * d < 0x854 ∧ (0x844 + 4 * d) % 4 = 0 := by omega
  have hdiv : (0x844 + 4 * d - 0x844) / 4 = d := by omega
  unfold Vi.plainWrite
  rw [if_pos here, hdiv]
  exact takes_ite Iff.rfl

/-- A size that a ring may have (R114, R414): none, or a power of two from 16 to 2^20. -/
theorem ringSizeOk_iff (n : Nat) : ringSizeOk n = true ↔ n = 0 ∨ ∃ k, 4 ≤ k ∧ k ≤ 20 ∧ n = 2 ^ k := by
  simp only [ringSizeOk, ringSize, Bool.or_eq_true, beq_iff_eq, Bool.and_eq_true, decide_eq_true_eq]
  refine or_congr_right ⟨fun ⟨⟨hlo, hhi⟩, h⟩ => ⟨Nat.log2 n, ?_, ?_, h⟩, ?_⟩
  · exact (Nat.le_log2 (by omega)).mpr hlo
  · exact (Nat.pow_le_pow_iff_right (by omega : 1 < 2)).mp (h ▸ hhi)
  · rintro ⟨k, hlo, hhi, rfl⟩
    exact ⟨⟨Nat.pow_le_pow_right (n := 2) (by omega) hlo, Nat.pow_le_pow_right (by omega) hhi⟩, by rw [Nat.log2_two_pow]⟩

theorem Vi.plainWrite_trSize (v : Vi) (x : DWord) : Takes (x.toNat = 0 ∨ ∃ k, 4 ≤ k ∧ k ≤ 20 ∧ x.toNat = 2 ^ k)
    { v with trSize := lo32 x } (v.plainWrite 0x868 4 x) := takes_ite (ringSizeOk_iff _).symm

theorem Vi.plainWrite_mkBase (v : Vi) (x : DWord) :
    Takes (x.toNat % 64 = 0) { v with mkBase := x } (v.plainWrite 0x880 8 x) := takes_ite Iff.rfl

theorem Vi.plainWrite_mkSize (v : Vi) (x : DWord) : Takes (x.toNat = 0 ∨ ∃ k, 4 ≤ k ∧ k ≤ 20 ∧ x.toNat = 2 ^ k)
    { v with mkSize := lo32 x } (v.plainWrite 0x888 4 x) := takes_ite (ringSizeOk_iff _).symm

theorem Vi.plainWrite_boostCtl (v : Vi) (x : DWord) :
    Takes (x.toNat < 2) { v with boostCtl := lo32 x } (v.plainWrite 0x944 4 x) := takes_ite Iff.rfl

/-! ## Frozen registers (R406, R413) -/

/-- The register is frozen; unlocked it takes the legal values. -/
def TakesFrozen (legal : Prop) (u : Vi) (r : Option (Option Vi)) : Prop := ∃ y, r = some y ∧ Takes legal u y

theorem takesFrozen_ite {legal p : Prop} [Decidable p] {u : Vi} (h : legal ↔ p) :
    TakesFrozen legal u (some (if p then some u else none)) := ⟨_, rfl, takes_ite h⟩

theorem Vi.frozenWrite_domSize (v : Vi) (x : DWord) :
    TakesFrozen (1 ≤ x.toNat ∧ x.toNat ≤ 4096) { v with domSize := lo32 x } (v.frozenWrite 0x800 4 x) := takesFrozen_ite Iff.rfl

theorem Vi.frozenWrite_domRank (v : Vi) (x : DWord) :
    TakesFrozen (x.toNat < v.domSize.toNat) { v with domRank := lo32 x } (v.frozenWrite 0x804 4 x) := takesFrozen_ite Iff.rfl

theorem Vi.frozenWrite_domCtl (v : Vi) (x : DWord) :
    TakesFrozen (x.toNat < 4) { v with domCtl := lo32 x } (v.frozenWrite 0x808 4 x) := takesFrozen_ite Iff.rfl

theorem Vi.frozenWrite_fwinBase (v : Vi) (x : DWord) :
    TakesFrozen (x.toNat % 65536 = 0 ∧ x.toNat < 2 ^ 40) { v with fwinBase := x } (v.frozenWrite 0x810 8 x) := takesFrozen_ite Iff.rfl

theorem Vi.frozenWrite_fwinSize (v : Vi) (x : DWord) :
    TakesFrozen (x.toNat % 65536 = 0) { v with fwinSize := x } (v.frozenWrite 0x818 8 x) := takesFrozen_ite Iff.rfl

theorem Vi.frozenWrite_troot (v : Vi) (x : DWord) {d : Nat} (hd : d < 4) :
    TakesFrozen (x.toNat % 4096 = 0) { v with troot := sset 0 v.troot d x } (v.frozenWrite (0x400 + 8 * d) 8 x) := by
  have here : 8 = 8 ∧ 0x400 ≤ 0x400 + 8 * d ∧ 0x400 + 8 * d < 0x420 ∧ (0x400 + 8 * d) % 8 = 0 := by omega
  have hdiv : (0x400 + 8 * d - 0x400) / 8 = d := by omega
  unfold Vi.frozenWrite
  rw [if_pos here, hdiv]
  exact takesFrozen_ite Iff.rfl

/-- A 64-bit word in its place in a mask of cores. -/
theorem ofNat_mul_pow_eq_shift (x : DWord) (j : Nat) : BitVec.ofNat 256 (x.toNat * 2 ^ (64 * j)) = x.setWidth 256 <<< (64 * j) := by
  apply BitVec.eq_of_toNat_eq
  rw [BitVec.toNat_ofNat, BitVec.toNat_shiftLeft, BitVec.toNat_setWidth_of_le (by omega), Nat.shiftLeft_eq]

/-- A word of a core set is legal where it names cores of the interface only. -/
theorem word_within_iff (x : DWord) (cores : BitVec 256) {j : Nat} (hj : j < 4) :
    (x.setWidth 256 <<< (64 * j)) &&& ~~~cores = 0 ↔ ∀ b < 64, x.getLsbD b = true → cores.getLsbD (64 * j + b) = true := by
  constructor
  · intro h b hb hx
    have := congrArg (fun m : BitVec 256 => m.getLsbD (64 * j + b)) h
    simpa [hb, hx, show 64 * j + b < 256 by omega, show 64 * j + b - 64 * j = b by omega] using this
  · intro h
    apply BitVec.eq_of_getLsbD_eq
    intro i hi
    by_cases hin : 64 * j ≤ i ∧ x.getLsbD (i - 64 * j) = true
    · obtain ⟨hij, hx⟩ := hin
      have hb : i - 64 * j < 64 := BitVec.lt_of_getLsbD hx
      have := h _ hb hx
      rw [Nat.add_sub_cancel' hij] at this
      simp [this]
    · have hz : (x.setWidth 256 <<< (64 * j)).getLsbD i = false := by
        simp only [BitVec.getLsbD_shiftLeft, BitVec.getLsbD_setWidth, hi]
        by_cases hij : i < 64 * j
        · simp [hij]
        · have : x.getLsbD (i - 64 * j) = false := by simpa using fun hx => hin ⟨by omega, hx⟩
          simp [this]
      simp [hz]

theorem Vi.frozenWrite_csets (v : Vi) (x : DWord) {k j : Nat} (hk : k < 16) (hj : j < 4) :
    let here : BitVec 256 := (BitVec.allOnes 64).setWidth 256 <<< (64 * j)
    TakesFrozen (∀ b < 64, x.getLsbD b = true → v.cores.getLsbD (64 * j + b) = true)
      { v with csets := sset 0 v.csets k ((sget 0 v.csets k &&& ~~~here) ||| (x.setWidth 256 <<< (64 * j))) }
      (v.frozenWrite (0x600 + 32 * k + 8 * j) 8 x) := by
  have notRoot : ¬(8 = 8 ∧ 0x400 ≤ 0x600 + 32 * k + 8 * j ∧ 0x600 + 32 * k + 8 * j < 0x420 ∧ (0x600 + 32 * k + 8 * j) % 8 = 0) := by omega
  have isSet : 8 = 8 ∧ 0x600 ≤ 0x600 + 32 * k + 8 * j ∧ 0x600 + 32 * k + 8 * j < 0x800 ∧ (0x600 + 32 * k + 8 * j) % 8 = 0 := by omega
  have hset : (0x600 + 32 * k + 8 * j - 0x600) / 32 = k := by omega
  have hword : (0x600 + 32 * k + 8 * j) % 32 / 8 = j := by omega
  have hones : BitVec.ofNat 256 ((2 ^ 64 - 1) * 2 ^ (64 * j)) = (BitVec.allOnes 64).setWidth 256 <<< (64 * j) :=
    ofNat_mul_pow_eq_shift (BitVec.allOnes 64) j
  unfold Vi.frozenWrite
  dsimp only
  rw [if_neg notRoot, if_pos isSet, hset, hword, ofNat_mul_pow_eq_shift, hones]
  exact takesFrozen_ite (word_within_iff x v.cores hj).symm

/-- No register beyond the fabric window is frozen. -/
theorem Vi.frozenWrite_beyond (v : Vi) {off : Nat} (len : Nat) (x : DWord) (h : 0x820 ≤ off) : v.frozenWrite off len x = none := by
  have notRoot : ¬(len = 8 ∧ 0x400 ≤ off ∧ off < 0x420 ∧ off % 8 = 0) := by omega
  have notSet : ¬(len = 8 ∧ 0x600 ≤ off ∧ off < 0x800 ∧ off % 8 = 0) := by omega
  unfold Vi.frozenWrite
  dsimp only
  rw [if_neg notRoot, if_neg notSet]
  split
  case h_6 => rfl
  all_goals omega

/-- What a write of a frozen register does in each state of its interface: unlocked it is a row like any other, in ERROR it is not
performed, locked or in RUN a legal one puts the interface and its queues in ERROR. -/
def FrozenRow (s : State) (off len : Nat) (legal : Prop) (u : Vi) : Prop :=
  ((s.vi s.ev.vi).tdisp = .unlocked → Row s off len legal u) ∧
  ((s.vi s.ev.vi).tdisp = .error → Row s off len False u) ∧
  ((s.vi s.ev.vi).tdisp = .locked ∨ (s.vi s.ev.vi).tdisp = .run → Writes off len s →
    (legal → ∃ t, exec .registerWrite s = .next t ∧ (t.vi s.ev.vi).tdisp = .error ∧ ∀ q < 16, (t.queue s.ev.vi q).error = some (7, 0)) ∧
    (¬legal → exec .registerWrite s = .next (s.settleQueues s.ev.vi)))

theorem frozenRow_of_takes {s : State} {off len : Nat} {legal : Prop} {u : Vi} (ho : 0x400 ≤ off) (hc : u.cores = (s.vi s.ev.vi).cores)
    (h : Writes off len s → TakesFrozen legal u ((s.vi s.ev.vi).frozenWrite off len s.regValue)) : FrozenRow s off len legal u := by
  have refused (hw : Writes off len s) (hl : ¬legal) : exec .registerWrite s = .next (s.settleQueues s.ev.vi) := by
    obtain ⟨y, hy, ht⟩ := h hw
    rw [registerWrite_frozen ho hw hy, ht.2 hl]
    rfl
  have legalWrite (hw : Writes off len s) (hl : legal) :
      exec .registerWrite s = .next ((s.writeFrozen s.ev.vi (some u)).settleQueues s.ev.vi) := by
    obtain ⟨y, hy, ht⟩ := h hw
    rw [registerWrite_frozen ho hw hy, ht.1 hl]
  refine ⟨fun hv hw => ⟨fun hl => ?_, refused hw⟩, fun hv hw => ⟨False.elim, fun _ => ?_⟩, fun hv hw => ⟨fun hl => ?_, refused hw⟩⟩
  · rw [legalWrite hw hl, State.writeFrozen_unlocked hv hc]
  · by_cases hl : legal
    · rw [legalWrite hw hl, State.writeFrozen_error u hv]
    · exact refused hw hl
  · rw [legalWrite hw hl, State.writeFrozen_locked u hv, State.settleQueues_interfaceError]
    obtain ⟨ht, hq⟩ := s.interfaceError_spec s.ev.vi
    exact ⟨_, rfl, ht, fun q h => (hq q h).1⟩

/-! ## The register tables -/

section
variable (s : State) {n : Nat} (hn : s.regValue.toNat = n)
include hn

/-- The queue registers (R389, R390). -/
theorem queueRows :
    let v := s.vi s.ev.vi
    let x := s.ev.val
    let w := lo32 x
    let row (off len : Nat) (legal : Queue → Nat → Prop) (f : Queue → Queue) : Prop := ∀ q < 16, Row s (64 * q + off) len
      (legal (s.queue s.ev.vi q) (s.queueState s.ev.vi q)) { v with queues := tput v.queues q (f (s.queue s.ev.vi q)) }
    row 0x00 8 (fun y st => y.movable st ∧ n % 4096 = 0) (fun y => { y with qbase := x }) ∧
    row 0x08 4 (fun y st => y.movable st ∧ 4 ≤ n ∧ n ≤ 16) (fun y => { y with qsize := w }) ∧
    row 0x14 4 (fun _ _ => n < 8) (fun y => { y with qprio := w }) ∧
    row 0x18 4 (fun _ _ => 1 ≤ n ∧ n ≤ 1000000) (fun y => { y with qquant := w }) ∧
    row 0x1C 4 (fun y st => y.movable st ∧ n < 16) (fun y => { y with qset := w }) ∧
    row 0x20 8 (fun _ _ => True) (fun y => { y with qnote := x }) := by
  subst hn
  have word := s.lo32_regValue
  exact ⟨fun q hq => queueRow hq (by decide) fun hw => regValue_of_writes hw ▸ Queue.written_qbase _ _ s.regValue,
    fun q hq => queueRow hq (by decide) fun _ => word ▸ Queue.written_qsize _ _ s.regValue,
    fun q hq => queueRow hq (by decide) fun _ => word ▸ Queue.written_qprio _ _ s.regValue,
    fun q hq => queueRow hq (by decide) fun _ => word ▸ Queue.written_qquant _ _ s.regValue,
    fun q hq => queueRow hq (by decide) fun _ => word ▸ Queue.written_qset _ _ s.regValue,
    fun q hq => queueRow hq (by decide) fun hw => regValue_of_writes hw ▸ Queue.written_qnote _ _ s.regValue⟩

/-- The plain registers of an interface. -/
theorem plainRows :
    let v := s.vi s.ev.vi
    let x := s.ev.val
    let w := lo32 x
    let ring : Prop := n = 0 ∨ ∃ k, 4 ≤ k ∧ k ≤ 20 ∧ n = 2 ^ k
    Row s 0x420 8 (n % 65536 = 0 ∧ v.invGo = false) { v with invStart := x } ∧
    Row s 0x428 4 (v.invGo = false) { v with invCount := w } ∧
    Row s 0x440 8 (n % 16 = 0) { v with hintBase := x } ∧
    Row s 0x448 4 (n ≤ 2 ^ 20) { v with hintCnt := w } ∧
    Row s 0x80C 4 (100 ≤ n ∧ n ≤ 1000000) { v with domTmo := w } ∧
    Row s 0x840 4 (100 ≤ n ∧ n ≤ 100000) { v with grace := w } ∧
    (∀ d < 4, Row s (0x844 + 4 * d) 4 (n ≤ 4096) { v with ramp := sset 64 v.ramp d w }) ∧
    Row s 0x868 4 ring { v with trSize := w } ∧
    Row s 0x880 8 (n % 64 = 0) { v with mkBase := x } ∧
    Row s 0x888 4 ring { v with mkSize := w } ∧
    Row s 0x944 4 (n < 2) { v with boostCtl := w } := by
  intro v
  subst hn
  have word := s.lo32_regValue
  have beyond {off len : Nat} (h : 0x820 ≤ off) (x : DWord) : v.frozenWrite off len x = none := v.frozenWrite_beyond len x h
  exact ⟨plainRow (by decide) (fun _ => rfl) fun hw => regValue_of_writes hw ▸ v.plainWrite_invStart s.regValue,
    plainRow (by decide) (fun _ => rfl) fun _ => word ▸ v.plainWrite_invCount s.regValue,
    plainRow (by decide) (fun _ => rfl) fun hw => regValue_of_writes hw ▸ v.plainWrite_hintBase s.regValue,
    plainRow (by decide) (fun _ => rfl) fun _ => word ▸ v.plainWrite_hintCnt s.regValue,
    plainRow (by decide) (fun _ => rfl) fun _ => word ▸ v.plainWrite_domTmo s.regValue,
    plainRow (by decide) (beyond (by decide)) fun _ => word ▸ v.plainWrite_grace s.regValue,
    fun d hd => plainRow (by omega) (beyond (by omega)) fun _ => word ▸ v.plainWrite_ramp s.regValue hd,
    plainRow (by decide) (beyond (by decide)) fun _ => word ▸ v.plainWrite_trSize s.regValue,
    plainRow (by decide) (beyond (by decide)) fun hw => regValue_of_writes hw ▸ v.plainWrite_mkBase s.regValue,
    plainRow (by decide) (beyond (by decide)) fun _ => word ▸ v.plainWrite_mkSize s.regValue,
    plainRow (by decide) (beyond (by decide)) fun _ => word ▸ v.plainWrite_boostCtl s.regValue⟩

/-- The frozen registers and the core sets. -/
theorem frozenRows :
    let v := s.vi s.ev.vi
    let x := s.ev.val
    let w := lo32 x
    (∀ d < 4, FrozenRow s (0x400 + 8 * d) 8 (n % 4096 = 0) { v with troot := sset 0 v.troot d x }) ∧
    FrozenRow s 0x800 4 (1 ≤ n ∧ n ≤ 4096) { v with domSize := w } ∧
    FrozenRow s 0x804 4 (n < v.domSize.toNat) { v with domRank := w } ∧
    FrozenRow s 0x808 4 (n < 4) { v with domCtl := w } ∧
    FrozenRow s 0x810 8 (n % 65536 = 0 ∧ n < 2 ^ 40) { v with fwinBase := x } ∧
    FrozenRow s 0x818 8 (n % 65536 = 0) { v with fwinSize := x } ∧
    ∀ k < 16, ∀ j < 4, FrozenRow s (0x600 + 32 * k + 8 * j) 8
      (∀ b < 64, x.getLsbD b = true → v.cores.getLsbD (64 * j + b) = true)
      (let here : BitVec 256 := (BitVec.allOnes 64).setWidth 256 <<< (64 * j)
       { v with csets := sset 0 v.csets k ((sget 0 v.csets k &&& ~~~here) ||| (x.setWidth 256 <<< (64 * j))) }) := by
  intro v
  subst hn
  have word := s.lo32_regValue
  exact ⟨fun d hd => frozenRow_of_takes (by omega) rfl fun hw => regValue_of_writes hw ▸ v.frozenWrite_troot s.regValue hd,
    frozenRow_of_takes (by decide) rfl fun _ => word ▸ v.frozenWrite_domSize s.regValue,
    frozenRow_of_takes (by decide) rfl fun _ => word ▸ v.frozenWrite_domRank s.regValue,
    frozenRow_of_takes (by decide) rfl fun _ => word ▸ v.frozenWrite_domCtl s.regValue,
    frozenRow_of_takes (by decide) rfl fun hw => regValue_of_writes hw ▸ v.frozenWrite_fwinBase s.regValue,
    frozenRow_of_takes (by decide) rfl fun hw => regValue_of_writes hw ▸ v.frozenWrite_fwinSize s.regValue,
    fun k hk j hj => frozenRow_of_takes (by omega) rfl fun hw => regValue_of_writes hw ▸ v.frozenWrite_csets s.regValue hk hj⟩

end

end Sys2Proof.Machine
end

section
/-!
PROOF. The events of the registers (spec/22 R413 to R416): registers with rows of their own, words and tags that fail, writes of the
host.
-/
namespace Sys2Proof.Machine
open Sys2Proof.Stmt

/-! ## Registers with rows of their own -/

/-- A legal write leaves the event's interface as `u`, another changes nothing. -/
def Sets (i : Instr) (legal : Prop) (u : Vi) (s : State) : Prop :=
  (legal → exec i s = .next (s.setVi s.ev.vi u)) ∧ (¬legal → exec i s = .next s)

theorem sets_of_ite {i : Instr} {legal p : Prop} [Decidable p] {u : Vi} {s : State} (h : legal ↔ p)
    (hx : exec i s = .next (if p then s.setVi s.ev.vi u else s)) : Sets i legal u s :=
  ⟨fun hl => by rw [hx, if_pos (h.mp hl)], fun hl => by rw [hx, if_neg fun hp => hl (h.mpr hp)]⟩

theorem sets_of_eq {i : Instr} {u : Vi} {s : State} (hx : exec i s = .next (s.setVi s.ev.vi u)) : Sets i True u s :=
  ⟨fun _ => hx, fun h => absurd trivial h⟩

theorem ownRows (s : State) :
    let v := s.vi s.ev.vi
    let x := s.ev.val
    let w := lo32 x
    Sets .invalidate True { v with invGo := true } s ∧
    Sets .trbaseWrite (x.toNat % 64 = 0) { v with trBase := x, trBlocked := false } s ∧
    Sets .trtailWrite True { v with trTail := w } s ∧
    Sets .trflagClear (x.toNat < 8) { v with trFlag := v.trFlag &&& ~~~w } s ∧
    Sets .cntclr (x = 1) { v with counters := [] } s ∧
    Sets .eccstatClear (x.toNat < 8) { v with eccStat := v.eccStat &&& ~~~w } s ∧
    Sets .domlostClear (x = 1 ∧ v.domCtl.getLsbD 0 = false) v.freshPeers s :=
  ⟨sets_of_eq rfl, sets_of_ite Iff.rfl rfl, sets_of_eq rfl, sets_of_ite Iff.rfl rfl, sets_of_ite Iff.rfl rfl,
    sets_of_ite Iff.rfl rfl, sets_of_ite (by simp) rfl⟩

/-! ## Words and tags that fail (R416) -/

theorem setBit_true_getLsbD {n : Nat} (b : BitVec n) {i : Nat} (h : i < n) : (setBit b i true).getLsbD i = true := by
  rw [setBit_getLsbD b i i true h, if_pos rfl]

/-- An uncorrectable word of HBM is known from now on, and noted at the interface that holds its stack. -/
theorem State.hbmWord_spec (s : State) (a : Nat) :
    let m := s.viOfStack (a / 2 ^ 36)
    let u := s.hbmWord a
    a / 8 ∈ u.bad ∧ (∀ b, b ∈ s.bad → b ∈ u.bad) ∧ u.mem = s.mem ∧ (u.vi m).eccStat.getLsbD 1 = true ∧
      (u.vi m).eccAddr = if (s.vi m).eccStat = 0 then BitVec.ofNat 64 (8 * (a / 8)) else (s.vi m).eccAddr := by
  intro m u
  have note (t : State) (ht : t.vis = s.vis) : t.viOfStack (a / 2 ^ 36) = m ∧ t.vi m = s.vi m := by
    unfold State.viOfStack State.vi
    rw [ht]
    exact ⟨rfl, rfl⟩
  have seen (t : State) (ht : t.vis = s.vis) (hu : u = t.eccSeen (t.viOfStack (a / 2 ^ 36)) (8 * (a / 8))) :
      u.bad = t.bad ∧ u.mem = t.mem ∧ (u.vi m).eccStat.getLsbD 1 = true ∧
        (u.vi m).eccAddr = if (s.vi m).eccStat = 0 then BitVec.ofNat 64 (8 * (a / 8)) else (s.vi m).eccAddr := by
    obtain ⟨hm, hv⟩ := note t ht
    rw [hu, hm, State.eccSeen, State.vi_setVi_same, hv]
    exact ⟨rfl, rfl, setBit_true_getLsbD _ (by omega), rfl⟩
  by_cases hb : s.bad.contains (a / 8) = true
  · obtain ⟨hbad, hmem, hecc⟩ := seen s rfl (by simp only [u, State.hbmWord, if_pos hb])
    exact ⟨hbad ▸ List.contains_iff_mem.mp hb, fun b h => hbad ▸ h, hmem, hecc⟩
  · obtain ⟨hbad, hmem, hecc⟩ := seen { s with bad := s.bad ++ [a / 8] } rfl (by simp only [u, State.hbmWord, if_neg hb])
    exact ⟨by rw [hbad]; simp, fun b h => by rw [hbad]; exact List.mem_append_left _ h, hmem, hecc⟩

/-- What is done with the warp in the event's slot; nothing where there is none. -/
theorem State.atSlot_cases (s : State) (f : Nat → Warp → State) :
    s.atSlot f = s ∨ ∃ id w, InSlot s id w ∧ s.atSlot f = f id w := by
  unfold State.atSlot InSlot
  cases tget s.slots (32 * s.ev.core + s.ev.slot) with
  | none => exact .inl rfl
  | some id =>
    cases h : tget s.warps id with
    | none => exact .inl (by simp only [h])
    | some w => exact .inr ⟨id, w, ⟨rfl, h⟩, by simp only [h]⟩

/-- An uncorrectable word of a core's SRAM is noted at the interface of the core; no memory changes. -/
theorem State.sramWord_spec (s : State) : s.sramWord.mem = s.mem ∧ s.sramWord.bad = s.bad ∧
    (s.sramWord.vi (s.viOfCore s.ev.core)).eccStat.getLsbD 0 = true := by
  have seen (u : State) (hv : u.vis = (s.sramSeen (s.viOfCore s.ev.core) (sramPlace s.ev.core s.ev.addr)).vis)
      (hm : u.mem = s.mem) (hb : u.bad = s.bad) :
      u.mem = s.mem ∧ u.bad = s.bad ∧ (u.vi (s.viOfCore s.ev.core)).eccStat.getLsbD 0 = true := by
    refine ⟨hm, hb, ?_⟩
    rw [State.vi, hv]
    show (State.vi (s.setVi _ _) _).eccStat.getLsbD 0 = true
    rw [State.vi_setVi_same]
    exact setBit_true_getLsbD _ (by omega)
  unfold State.sramWord
  dsimp only
  split
  · obtain h | ⟨id, w, -, h⟩ := State.atSlot_cases _ _ <;> rw [h] <;> exact seen _ rfl rfl rfl
  · split
    · split <;> exact seen _ rfl rfl rfl
    · exact seen _ rfl rfl rfl
  · exact seen _ rfl rfl rfl

/-- One more in a counter of R415. -/
theorem State.counter_count (s : State) (vi d n k : Nat) : sget 0 ((s.count vi d n k).vi vi).counters (0x80 * d + n) =
    sget 0 (s.vi vi).counters (0x80 * d + n) + BitVec.ofNat 64 k := by
  rw [State.count, State.vi_setVi_same]
  exact sget_sset_same _ _ _ _

theorem State.die_setDie (s : State) (d e : Nat) (x : Die) : (s.setDie d x).die e = if e = d then x else s.die e := by
  unfold State.die
  rw [State.setDie_dies, tget_tput]
  by_cases h : e = d <;> simp [h]

theorem State.core_setCore_same (s : State) (c : Nat) (x : Core) : (s.setCore c x).core c = x := by
  simp [State.core]

/-! ### What SCRUB_ERROR does for each kind -/

theorem scrubError_hbm {s : State} (hf : s.ev.flag = false) (h1 : s.ev.maj ≠ 1) (h2 : s.ev.maj ≠ 2) (ha : s.ev.addr < 2 ^ 40) :
    exec .scrubError s = .next (s.hbmWord s.ev.addr) := by
  show execScrubError s = _
  unfold execScrubError
  rw [if_neg (by simp [hf])]
  split
  · contradiction
  · rw [if_pos ha, if_neg h1]

theorem scrubError_corrected {s : State} (hf : s.ev.flag = false) (h1 : s.ev.maj = 1) (ha : s.ev.addr < 2 ^ 40) :
    exec .scrubError s = .next (s.count (s.viOfStack (s.ev.addr / 2 ^ 36)) (homeDie s.ev.addr) 0x41 1) := by
  show execScrubError s = _
  unfold execScrubError
  rw [if_neg (by simp [hf]), h1]
  exact congrArg _ (if_pos ha)

theorem scrubError_record {s : State} (hf : s.ev.flag = false) (h2 : s.ev.maj = 2)
    (hv : (s.vi s.ev.vi).tdisp = .locked ∨ (s.vi s.ev.vi).tdisp = .run) : exec .scrubError s = .next (s.interfaceError s.ev.vi) := by
  show execScrubError s = _
  unfold execScrubError
  rw [if_neg (by simp [hf]), h2]
  exact congrArg _ (if_pos hv)

theorem scrubError_sram {s : State} (hf : s.ev.flag = true) (h : s.ev.maj ∉ [1, 4, 5, 6]) : exec .scrubError s = .next s.sramWord := by
  simp only [List.mem_cons, List.not_mem_nil, or_false, not_or] at h
  obtain ⟨h1, h4, h5, h6⟩ := h
  show execScrubError s = _
  unfold execScrubError
  rw [if_pos hf]
  dsimp only
  split
  · contradiction
  · contradiction
  · contradiction
  · contradiction
  · rfl

/-- An error in a core: a word corrected, a tag mended, a tag of the L1 or of the die's L2 that fails. -/
theorem scrubError_core {s : State} (hf : s.ev.flag = true) :
    (s.ev.maj = 1 → exec .scrubError s = .next (s.count (s.viOfCore s.ev.core) (s.ev.core / 64) 0x40 1)) ∧
    (s.ev.maj = 5 → exec .scrubError s = .next (s.count (s.viOfCore s.ev.core) (s.ev.core / 64) 0x42 1)) ∧
    (s.ev.maj = 4 → exec .scrubError s = .next (s.setCore s.ev.core { s.core s.ev.core with
      badTags := ((s.core s.ev.core).badTags.filter (· != s.ev.nth)) ++ [s.ev.nth] })) ∧
    (s.ev.maj = 6 → exec .scrubError s = .next (s.setDie (s.ev.core / 64) { s.die (s.ev.core / 64) with
      badTags := ((s.die (s.ev.core / 64)).badTags.filter (· != s.ev.nth)) ++ [s.ev.nth] })) := by
  have flagged : execScrubError s = .next _ := congrArg Host.Outcome.next (if_pos hf)
  exact ⟨fun h => flagged.trans (by rw [h]; rfl), fun h => flagged.trans (by rw [h]; rfl), fun h => flagged.trans (by rw [h]; rfl),
    fun h => flagged.trans (by rw [h]; rfl)⟩

/-- Words and tags found bad, one kind after the other. -/
theorem scrubRows (s : State) :
    let m := s.viOfStack (s.ev.addr / 2 ^ 36)
    let word := s.ev.addr / 8
    let raises (n d y : Nat) : Prop := ∃ u, exec .scrubError s = .next u ∧ u = { s with vis := u.vis } ∧
      sget 0 (u.vi y).counters (0x80 * d + n) = sget 0 (s.vi y).counters (0x80 * d + n) + 1
    (s.ev.flag = false → s.ev.maj ≠ 1 → s.ev.maj ≠ 2 → s.ev.addr < 2 ^ 40 → ∃ u, exec .scrubError s = .next u ∧ word ∈ u.bad ∧
      (∀ b, b ∈ s.bad → b ∈ u.bad) ∧ u.mem = s.mem ∧ (u.vi m).eccStat.getLsbD 1 = true ∧
      (u.vi m).eccAddr = if (s.vi m).eccStat = 0 then BitVec.ofNat 64 (8 * word) else (s.vi m).eccAddr) ∧
    (s.ev.flag = true → s.ev.maj ∉ [1, 4, 5, 6] → ∃ u, exec .scrubError s = .next u ∧ u.mem = s.mem ∧ u.bad = s.bad ∧
      (u.vi (s.viOfCore s.ev.core)).eccStat.getLsbD 0 = true) ∧
    (s.ev.flag = true → s.ev.maj = 1 → raises 0x40 (s.ev.core / 64) (s.viOfCore s.ev.core)) ∧
    (s.ev.flag = false → s.ev.maj = 1 → s.ev.addr < 2 ^ 40 → raises 0x41 (homeDie s.ev.addr) m) ∧
    (s.ev.flag = true → s.ev.maj = 5 → raises 0x42 (s.ev.core / 64) (s.viOfCore s.ev.core)) ∧
    (s.ev.flag = true → s.ev.maj = 4 → ∃ u, exec .scrubError s = .next u ∧ u = { s with cores := u.cores } ∧
      s.ev.nth ∈ (u.core s.ev.core).badTags) ∧
    (s.ev.flag = true → s.ev.maj = 6 → ∃ u, exec .scrubError s = .next u ∧ u = { s with dies := u.dies } ∧
      s.ev.nth ∈ (u.die (s.ev.core / 64)).badTags ∧
      SameDies s { u with dies := tput u.dies (s.ev.core / 64) (s.die (s.ev.core / 64)) }) ∧
    (s.ev.flag = false → s.ev.maj = 2 → (s.vi s.ev.vi).tdisp = .locked ∨ (s.vi s.ev.vi).tdisp = .run →
      ∃ u, exec .scrubError s = .next u ∧ (u.vi s.ev.vi).tdisp = .error ∧ ∀ q < 16, (u.queue s.ev.vi q).error = some (7, 0)) := by
  intro m word raises
  have counted {n d y : Nat} (h : exec .scrubError s = .next (s.count y d n 1)) : raises n d y :=
    ⟨_, h, rfl, s.counter_count y d n 1⟩
  refine ⟨fun hf h1 h2 ha => ⟨_, scrubError_hbm hf h1 h2 ha, s.hbmWord_spec s.ev.addr⟩,
    fun hf h => ⟨_, scrubError_sram hf h, s.sramWord_spec⟩, fun hf h => ?_, fun hf h ha => counted (scrubError_corrected hf h ha),
    fun hf h => ?_, fun hf h => ?_, fun hf h => ?_, fun hf h hv => ⟨_, scrubError_record hf h hv, ?_⟩⟩
  · obtain ⟨corrected, -⟩ := scrubError_core hf
    exact counted (corrected h)
  · obtain ⟨-, mended, -⟩ := scrubError_core hf
    exact counted (mended h)
  · obtain ⟨-, -, l1Tag, -⟩ := scrubError_core hf
    refine ⟨_, l1Tag h, rfl, ?_⟩
    rw [State.core_setCore_same]
    exact List.mem_append_right _ (List.mem_singleton_self _)
  · obtain ⟨-, -, -, l2Tag⟩ := scrubError_core hf
    refine ⟨_, l2Tag h, rfl, ?_, fun e => ?_⟩
    · rw [State.die_setDie, if_pos rfl]
      exact List.mem_append_right _ (List.mem_singleton_self _)
    · show { (State.setDie (s.setDie (s.ev.core / 64) _) _ _).die e with l2 := [] } = _
      rw [State.die_setDie, State.die_setDie]
      by_cases he : e = s.ev.core / 64
      · rw [if_pos he, he]
      · rw [if_neg he, if_neg he]
  · obtain ⟨ht, hq⟩ := s.interfaceError_spec s.ev.vi
    exact ⟨ht, fun q h => (hq q h).1⟩

/-! ## Writes of the host (R298, R411) -/

theorem hostWriteRows (s : State) :
    let locs := (List.range s.ev.data.length).map (s.ev.addr + ·)
    let reachable : Prop := ∀ a ∈ locs, a < 2 ^ 40 ∨ (hostBase ≤ a ∧ a < hostBase + 2 ^ 52)
    let ready : Prop := ∀ a ∈ locs, s.partReady a = true
    (reachable → ready → ∃ u, exec .hostWrite s = .next u ∧ Put locs s.ev.data s u ∧
      u.cores = s.cores ∧ u.groups = s.groups ∧ ∀ id, (tget u.warps id).map still = (tget s.warps id).map still) ∧
    (¬reachable ∨ ¬ready → exec .hostWrite s = .next s) := by
  intro locs reachable ready
  have hall : (locs.all fun a => decide (a < 2 ^ 40 ∨ (hostBase ≤ a ∧ a < hostBase + 2 ^ 52)) && s.partReady a) = true ↔
      reachable ∧ ready := by
    simp only [List.all_eq_true, Bool.and_eq_true, decide_eq_true_iff, reachable, ready]
    exact ⟨fun h => ⟨fun a ha => (h a ha).1, fun a ha => (h a ha).2⟩, fun h a ha => ⟨h.1 a ha, h.2 a ha⟩⟩
  refine ⟨fun hr hy => ⟨s.engineWrite locs s.ev.data, congrArg _ (if_pos (hall.mpr ⟨hr, hy⟩)), put_engineWrite s locs s.ev.data,
    onlyWakes_engineWrite s locs s.ev.data⟩, fun h => congrArg _ (if_neg fun hc => ?_)⟩
  obtain ⟨hr, hy⟩ := hall.mp hc
  exact h.elim (· hr) (· hy)

end Sys2Proof.Machine
end

section
open Sys2Proof.Machine

/-- Settles O52: a register write is a row of its table (what the register takes, and for a frozen register what the state of the
interface makes of it); an interface in ERROR keeps its queues in ERROR through the kills of their launches, which only count; a
write of the host goes sector by sector to the point of coherence. -/
theorem registerEvents : Obligations.RegisterEvents := by
  intro s
  obtain ⟨invalidate, trbase, trtail, trflag, cntclr, eccstat, domlost⟩ := ownRows s
  obtain ⟨hbmWord, sramWord, sramCorrected, hbmCorrected, tagMended, l1Tag, l2Tag, record⟩ := scrubRows s
  exact ⟨queueRows s s.toNat_regValue, plainRows s s.toNat_regValue, frozenRows s s.toNat_regValue,
    invalidate, trbase, trtail, trflag, cntclr, eccstat, domlost,
    hbmWord, sramWord, sramCorrected, hbmCorrected, tagMended, l1Tag, l2Tag, record, hostWriteRows s⟩

end

section
/-!
PROOF. A launch whose image the front end's own walks bring into reach (spec/21 R393, R398, spec/22 R416): a read that meets a failing
tag in the state in which the packet is taken up need not meet it when its turn comes.
-/
namespace Sys2Proof.Machine
open Sys2Proof.Stmt

/-! ## A packet is taken up, an image is refused -/

/-- A good packet of its type whose slot can be read goes on with the bytes of the slot, after the walk and the fetch for it. -/
theorem startPacket_of_atPacket {ty : Nat} {bs : List Byte} {s : State} {ls : List Nat} (k : List Byte → State → State)
    (h : AtPacket ty bs s) (hty : 0 < ty ∧ ty ≤ 8) (hcores : ty ≤ 2 → s.holdsCores s.ev.vi s.ev.q = true) (hgood : badPacket ty bs = none)
    (hls : s.frontAcc s.ev.vi 0 (s.queue s.ev.vi s.ev.q).slotAddr 128 = .cells ls) :
    startPacket ty k s = k bs ((s.frontWalk s.ev.vi (s.queue s.ev.vi s.ev.q).slotAddr 128).frontFetch s.ev.vi ls) := by
  obtain ⟨ready, room, ⟨ls', slot, rfl⟩, type⟩ := h
  obtain rfl : ls' = ls := FrontAcc.cells.inj (slot.symm.trans hls)
  have known : ¬(ty = 0 ∨ 8 < ty) := by omega
  have mine : ¬(ty ≠ ty ∨ (ty ≤ 2 ∧ (!s.holdsCores s.ev.vi s.ev.q) = true)) := by simpa using hcores
  simp only [startPacket, ready, Nat.not_lt.mpr room, slot, type, if_neg known, if_neg mine, hgood, Bool.not_true,
    Bool.false_eq_true, if_false]

/-- A launch whose image can be read and breaks R394 puts its queue in ERROR with reason 1. -/
theorem startLaunch_of_headerBad {b : Bool} {p : LaunchPkt} {s : State} {ls : List Nat}
    (hls : s.frontAcc s.ev.vi 0 p.hdr 0x180 = .cells ls)
    (hbad : headerBad p (Hdr.of ((s.frontWalk s.ev.vi p.hdr 0x180).homeBytes ls)) = true) :
    ∃ u : State, startLaunch b p s = u.queueError s.ev.vi s.ev.q 1 1 false := by
  refine ⟨(s.frontWalk s.ev.vi p.hdr 0x180).frontFetch (s.frontWalk s.ev.vi p.hdr 0x180).ev.vi ls, ?_⟩
  have nonzero : ¬(0x180 = 0) := by decide
  simp only [startLaunch, readAll, if_neg nonzero, packetAccess, hls, List.headD_cons, hbad, if_true]

/-! ## A table and an image in one line -/

/-- A page table on the first stack of die 1. It serves as the table of each level: its entries 0, 4 and 8 point to the table itself,
entry 12 maps the 2 MiB from the table on, so that one walk reads all four sectors of the table's first line. -/
def loopTable : Nat := 2 ^ 38

/-- The virtual address whose walk uses entries 0, 4, 8 and 12: that of the table. -/
def loopVa : Nat := 4 * 2 ^ 39 + 8 * 2 ^ 30 + 12 * 2 ^ 21

/-- A LAUNCH packet that names the table as its image. -/
def loopPacket : List Byte := leBytes (1 + loopVa * 256 ^ 8) 128

/-- The table and, a page beyond it, the packet's slot. -/
def loopMemory : Memory :=
  (((((Memory.writeBytes [] loopTable (leBytes (loopTable + 1) 8)).writeBytes (loopTable + 32) (leBytes (loopTable + 1) 8)).writeBytes
    (loopTable + 64) (leBytes (loopTable + 1) 8)).writeBytes (loopTable + 96) (leBytes (loopTable + 3) 8))).writeBytes (loopTable + 4096)
    loopPacket

/-- Interface 0, with core 0 and one packet, on a machine whose parts are ready. The L2 of die 1, the home of the table, holds the
table's first line under a tag that fails (R416); the front end's die holds nothing yet. -/
def loopState : State :=
  { mem := loopMemory, ready := BitVec.allOnes 57,
    vis := [(0, { cores := 1, csets := [(0, 1)], troot := [(0, BitVec.ofNat 64 loopTable)],
                  queues := [(0, { qbase := BitVec.ofNat 64 (loopVa + 4096), qwptr := 1, en := true, keep := 1 })] })],
    dies := [(1, { l2 := [{ line := loopTable / 128, held := BitVec.allOnes 128 }], badTags := [loopTable / 128] })] }

/-- The queue may start its packet, whose slot can be read. -/
theorem loopState_slot : loopState.startable 0 0 = true ∧ (loopState.queue 0 0).pending ≤ (loopState.queue 0 0).slots ∧
    loopState.frontAcc 0 0 (loopState.queue 0 0).slotAddr 128 = .cells ((List.range 128).map (loopTable + 4096 + ·)) ∧
    loopPacket = loopState.homeBytes ((List.range 128).map (loopTable + 4096 + ·)) := by
  decide +kernel

theorem loopState_atPacket : AtPacket 1 loopPacket loopState := by
  obtain ⟨ready, room, cells, bytes⟩ := loopState_slot
  exact ⟨ready, room, ⟨_, cells, bytes⟩, by decide +kernel⟩

theorem loopState_started : loopState.holdsCores 0 0 = true ∧ badPacket 1 loopPacket = none := by decide +kernel

/-- As the packet is taken up, the front end's die lacks the image, and its home's tag fails. -/
theorem loopState_image_fault : loopState.frontAcc 0 0 (LaunchPkt.of loopPacket).hdr 0x180 = .fault := by decide +kernel

/-- The state in which the image is read: after the walk and the fetch for the slot. -/
def loopTaken : State :=
  (loopState.frontWalk 0 (loopState.queue 0 0).slotAddr 128).frontFetch 0 ((List.range 128).map (loopTable + 4096 + ·))

/-- The walk for the slot has read every sector of the line, which the front end's die now holds: the image is read, and its
generation is none (R394). -/
theorem loopTaken_image : loopTaken.ev = {} ∧
    loopTaken.frontAcc 0 0 (LaunchPkt.of loopPacket).hdr 0x180 = .cells ((List.range 0x180).map (loopTable + ·)) ∧
    headerBad (LaunchPkt.of loopPacket) (Hdr.of ((loopTaken.frontWalk 0 (LaunchPkt.of loopPacket).hdr 0x180).homeBytes
      ((List.range 0x180).map (loopTable + ·)))) = true := by
  decide +kernel

/-- The launch is refused for its image. -/
theorem loopState_refused : ∃ u : State, exec .launch loopState = .next u ∧ (u.queue 0 0).error = some (1, 1) := by
  obtain ⟨-, -, slot, -⟩ := loopState_slot
  obtain ⟨cores, good⟩ := loopState_started
  obtain ⟨ev, image, bad⟩ := loopTaken_image
  have here : loopTaken.ev.vi = 0 ∧ loopTaken.ev.q = 0 := by rw [ev]; exact ⟨rfl, rfl⟩
  have taken : startPacket 1 (fun bs s => startLaunch false (LaunchPkt.of bs) s) loopState =
      startLaunch false (LaunchPkt.of loopPacket) loopTaken :=
    startPacket_of_atPacket _ loopState_atPacket (by decide) (fun _ => cores) good slot
  obtain ⟨u, refused⟩ := startLaunch_of_headerBad (b := false) (s := loopTaken) (by rw [here.1]; exact image) (by rw [here.1]; exact bad)
  rw [here.1, here.2] at refused
  refine ⟨u.queueError 0 0 1 1 false, congrArg Host.Outcome.next (taken.trans refused), ?_⟩
  rw [(u.queueError_spec 0 0 1 1 false).1 0 0, if_pos ⟨rfl, rfl⟩]

end Sys2Proof.Machine
end

section
open Sys2Proof.Machine

/-- Refutes O49: PACKET_FAULT is said of an image that cannot be read in the state before the packet. Where the image's line fails its tag
in its home's L2 only, and the walk for the packet's slot has already brought that line into the L2 of the front end's die, the image
is read: `loopState` ends with reason 1 and not with PACKET_FAULT. -/
theorem not_launchEvents : ¬ Obligations.LaunchEvents := by
  intro h
  obtain ⟨-, -, -, -, fault, -⟩ := h loopState loopPacket [] [] [] [] false (LaunchPkt.of loopPacket)
  obtain ⟨u, hu, herr, -⟩ := fault ⟨loopState_atPacket, loopState_started⟩ rfl loopState_image_fault
  obtain ⟨u', hu', herr'⟩ := loopState_refused
  obtain rfl : u = u' := Host.Outcome.next.inj (hu.symm.trans hu')
  exact absurd (herr'.symm.trans herr) (by decide)

end

section
/-!
PROOF. A kill that leaves the rest of its workgroup arrived at a barrier (spec/04 R114, spec/05 R136, spec/13 R290 to R292): the warp
ends as by EXIT, the workgroup's arrival is thereby complete, and the count of the barrier's entry changes in memory.
-/
namespace Sys2Proof.Machine
open Sys2Proof.Stmt

/-! ## KILL -/

/-- What KILL leaves of a warp before it is released and ends: no suspended command and no instruction under way. -/
def State.undone (s : State) (id : Nat) (w : Warp) : State :=
  let u := s.dropSuspended id w.gid w.core
  u.setWarp id { u.warp id with word := none, cont := .none, redo := [], walkRes := [], answers := [], stopping := none,
                                before := .ready, plumb := {}, win := [] }

/-- KILL of a stopped warp that runs no task is a release at .device and the end of the warp, as at EXIT. -/
theorem exec_kill_of_stopped {s : State} {id : Nat} {w : Warp} (hopen : s.windowOpen = true) (hslot : InSlot s id w)
    (hstop : w.status.stopped = true) (hkind : (s.launchOfWarp w).kind ≠ .task) :
    exec .kill s = .next (((s.undone id w).releaseDevice id w.core).exitWarp id) := by
  obtain ⟨hid, hw⟩ := hslot
  have live : (w.status != .exited) = true := bne_iff_ne.mpr fun h => by rw [h] at hstop; cases hstop
  have kept : ((s.undone id w).launchOfWarp w).kind ≠ .task := hkind
  have ends : ((w.status != .exited) && (w.status.stopped || s.suspendedCommand w.gid) &&
      ((s.launchOfWarp w).kind != .task || s.mayEnd id)) = true := by
    rw [live, hstop, bne_iff_ne.mpr hkind]
    rfl
  change Host.Outcome.next (s.atWindow _) = _
  rw [State.atWindow, if_pos hopen, State.atSlot, hid]
  simp only [hw]
  rw [if_pos ends]
  exact congrArg Host.Outcome.next (if_neg kept)

/-! ## The last warp before a barrier is killed -/

/-- A launch of two workgroups of two warps with one barrier of level 3, its save areas at 0x20000. -/
def pairLaunch : Launch :=
  { w := 32, widths := [5, 1, 1, 0, 0, 0], exts := [32, 2, 2, 1, 1, 1], monuC := [1, 0, 0, 0], save := 0x20000, cores := [0],
    nextWg := 1, total := 2 }

/-- Warp 1 of its first workgroup has arrived at the barrier and waits; warp 0 has taken a trap. Each page of the first GiB lies at its
own address, and the debug window of warp 0 is named. -/
def lastBeforeBarrier : State :=
  { vis := [(0, { cores := 1, troot := [(0, 0x1000)] })], ready := BitVec.allOnes 57,
    mem := ((Memory.writeBytes [] 0x1000 (leBytes 0x2001 8)).writeBytes 0x2000 (leBytes 0x3001 8)).writeBytes 0x3000 (leBytes 0x13 8),
    launches := [(0, pairLaunch)], groups := [(0, { f := [0, 0, 0, 0], warps := [0, 1], first := false })], slots := [(0, 0), (1, 1)],
    warps := [(0, { place := some (0, 0), pc := 0x10000, exec := 0xFFFFFFFF, status := .halted 0x12 }),
              (1, { f1 := 1, place := some (0, 1), pc := 0x10008, exec := 0xFFFFFFFF, status := .waiting (.barrier 3 0 false),
                    word := some {}, bars := [(48, { arr := true })] })] }

/-- The first byte of ARRIVED of the barrier's entry (R290). -/
def arrivedByte : Nat := 0x21010

/-- KILL is open to warp 0. -/
theorem lastBeforeBarrier_stopped : lastBeforeBarrier.windowOpen = true ∧
    InSlot lastBeforeBarrier 0 (lastBeforeBarrier.warp 0) ∧ (lastBeforeBarrier.warp 0).status = .halted 0x12 ∧
    (lastBeforeBarrier.launchOfWarp (lastBeforeBarrier.warp 0)).kind ≠ .task := by
  unfold InSlot
  decide

/-- Its caches are empty. -/
theorem lastBeforeBarrier_cachesWf : CachesWf lastBeforeBarrier :=
  ⟨fun _ => rfl, fun _ h => (List.not_mem_nil h).elim, fun _ _ h => (List.not_mem_nil h).elim⟩

theorem lastBeforeBarrier_latest : latest lastBeforeBarrier 0 arrivedByte = 0 := by decide +kernel

/-- Without warp 0 every warp of the workgroup has arrived: the workgroup arrives. -/
theorem lastBeforeBarrier_killed : latest (((lastBeforeBarrier.undone 0 (lastBeforeBarrier.warp 0)).releaseDevice 0 0).exitWarp 0) 0
    arrivedByte = 1 := by decide +kernel

end Sys2Proof.Machine
end

section
open Sys2Proof.Machine

/-- Refutes O54: KILL is said to leave every byte of memory at its latest value. It ends the warp as EXIT does, and where every other warp
of the workgroup has arrived at a barrier of level 3 or more the workgroup then arrives (R291), which its entry in memory counts
(R290): in `lastBeforeBarrier` ARRIVED goes from 0 to 1. -/
theorem not_debugEvents : ¬ Obligations.DebugEvents := by
  intro h
  obtain ⟨isOpen, inSlot, halted, kind⟩ := lastBeforeBarrier_stopped
  obtain ⟨-, -, windowed⟩ := h lastBeforeBarrier
  obtain ⟨-, -, -, kill, -⟩ := windowed (by decide) 0 _ inSlot
  obtain ⟨u, hu, -, -, -, same, -⟩ := kill (.inr ⟨_, halted⟩) kind
  obtain rfl := Host.Outcome.next.inj ((exec_kill_of_stopped isOpen inSlot (by decide) kind).symm.trans hu)
  have stays := same lastBeforeBarrier_cachesWf arrivedByte
  exact absurd (lastBeforeBarrier_killed.symm.trans (stays.trans lastBeforeBarrier_latest)) (by decide)

end
